-- ==== Sys2Proof/Word.lean ====
section
/-! DEFINITION. The two word types of the hardware (00_scope.md R6): a byte is 8 bits, a register value 32. -/

namespace Sys2Proof

/-- A byte (R6): a register address, a parameter byte, a payload byte. -/
abbrev Byte := BitVec 8

/-- A register value or mask, "an unsigned 32-bit quantity" (R6). -/
abbrev Word := BitVec 32

end Sys2Proof
end

