-- ==== Sys2Proof/Config.lean ====
section
/-! DEFINITION. The implementation parameters of 00_scope.md R5, and the free values: constants without a body, for what
the spec leaves to the peer. A free value is always applied to a counter of State, so that no two uses need agree. -/

namespace Sys2Proof.Config

/-- `BUSY_POLL_LIMIT`: samples of the busy line per wait (R5, R132). -/
def busyPollLimit : Nat := 2000

/-- Default of the OPEN parameter `IRQ_POLL_LIMIT` (R5, D17); the machine's own value stands in State. Log 15. -/
def irqPollLimitDefault : Nat := 2000

/-- Default of the OPEN parameter `RESET_POLL_LIMIT` (R5, D17); the machine's own value stands in State. Log 15. -/
def resetPollLimitDefault : Nat := 2000

/-- `MAX_FRAME`: bytes of a send frame (R5, R91). -/
def maxFrame : Nat := 262

/-- `MAX_SEND_PAYLOAD`: payload bytes of Send-Data (R5). -/
def maxSendPayload : Nat := 260

/-- `RX_BUFFER_SIZE`: bytes of the receive buffer and of the scratch buffer (R5, R25). -/
def rxBufferSize : Nat := 508

/-- `EEPROM_LIMIT` (R5, R165). -/
def eepromLimit : Nat := 254

/-- `CMD_CLEAR_MASK`: AND mask on System-Config (R5, R45). The spec's own value, D12; log 17. -/
def cmdClearMask : Word := 0xFFFFFFF8

/-- `CMD_TRANSCEIVE`: OR mask on System-Config (R5, R45). The spec's own value, D12; log 17. -/
def cmdTransceive : Word := 0x00000003

/-- `RF_PROFILE_TX` (R5). The spec's own value, D29; log 17. -/
def rfProfileTx : Byte := 0x0D

/-- `RF_PROFILE_RX` (R5). The spec's own value, D29; log 17. -/
def rfProfileRx : Byte := 0x8D

/-- `FLAGS_INVENTORY` (R5, R110). The spec's own value, D22; log 17. -/
def flagsInventory : Byte := 0x26

/-- `FLAGS_ADDRESSED` (R5, R110). The spec's own value, D22; log 17. -/
def flagsAddressed : Byte := 0x22

/-- `RX_FILLER`: the byte sent while receiving (R5, R134). The spec's own value, D6; log 17. -/
def rxFiller : Byte := 0xFF

/-- FREE VALUE: a BUSY sample the host's script does not give (R12, R24). Log 4. -/
opaque freeBusy : Nat → Bool

/-- FREE VALUE: a reply byte neither the script nor the peer contract gives, in either transaction (R12, I10). Logs 5, 6. -/
opaque freeByte : Nat → Byte

/-- FREE VALUE: whether the peer executed a command whose exchange timed out (R287, I11). Log 14. -/
opaque freeExecuted : Nat → Bool

/-- FREE VALUE: the content of a peer register the contract does not determine (R51, I7). Log 13. -/
opaque freeRegister : Byte → Nat → Word

end Sys2Proof.Config
end

