-- ==== Sys2Proof/Syntax.lean ====
section
/-! DEFINITION. The syntax: the 44 rows of spec/opcode_table.json as one inductive, and the three forms in which a
request reaches the controller (a command frame, a tag request frame, an abstract host term; 30_encoding.md). -/

namespace Sys2Proof

/-- A tag UID: "exactly 8 bytes" (R6), in wire order (R66). -/
structure Uid where
  u0 : Byte
  u1 : Byte
  u2 : Byte
  u3 : Byte
  u4 : Byte
  u5 : Byte
  u6 : Byte
  u7 : Byte
deriving DecidableEq, Repr

/-- The instructions: 10 direct commands (R102), 15 tag requests (R114), 19 host operations (R118). -/
inductive Instr where
  -- direct commands
  | cmdWriteRegister (a : Byte) (v : Word)
  | cmdWriteRegisterOrMask (a : Byte) (m : Word)
  | cmdWriteRegisterAndMask (a : Byte) (m : Word)
  | cmdReadRegister (a : Byte)
  | cmdReadEeprom (e l : Byte)
  | cmdSendData (b : Byte) (payload : List Byte)
  | cmdReadData (n : Nat)
  | cmdLoadRfConfig (t r : Byte)
  | cmdRfOn
  | cmdRfOff
  -- tag requests
  | tagInventory
  | tagStayQuiet (flags : Byte) (params : List Byte)
  | tagReadSingleBlock (uid : Uid) (blockNo : Byte)
  | tagWriteSingleBlock (uid : Uid) (blockNo : Byte) (data : List Byte)
  | tagLockBlock (flags : Byte) (params : List Byte)
  | tagReadMultipleBlocks (flags : Byte) (params : List Byte)
  | tagWriteMultipleBlock (flags : Byte) (params : List Byte)
  | tagSelect (flags : Byte) (params : List Byte)
  | tagResetToReady (flags : Byte) (params : List Byte)
  | tagWriteAfi (flags : Byte) (params : List Byte)
  | tagLockAfi (flags : Byte) (params : List Byte)
  | tagWriteDsfid (flags : Byte) (params : List Byte)
  | tagLockDsfid (flags : Byte) (params : List Byte)
  | tagGetSystemInfo (uid : Uid)
  | tagGetMultipleBlockSecurityStatus (flags : Byte) (params : List Byte)
  -- host operations
  | writeReg (a : Byte) (v : Word)
  | writeRegOr (a : Byte) (m : Word)
  | writeRegAnd (a : Byte) (m : Word)
  | readReg (a : Byte)
  | readEeprom (addr len : Byte)
  | sendData (payload : List Byte) (b : Byte)
  | readData (n : Nat)
  | loadRfConfig (t r : Byte)
  | rfOn
  | rfOff
  | getIrq
  | clearIrq (m : Word)
  | getTs
  | reset
  | inventory
  | readBlock (uid : Uid) (blockNo : Byte) (blockSize : Nat)
  | writeBlock (uid : Uid) (blockNo : Byte) (data : List Byte)
  | getSysinfo (uid : Uid)
  | setupRf
deriving DecidableEq, Repr

/-- The operation names of R118, one per host operation. -/
inductive OpName where
  | writeReg | writeRegOr | writeRegAnd | readReg | readEeprom | sendData | readData | loadRfConfig | rfOn | rfOff
  | getIrq | clearIrq | getTs | reset | inventory | readBlock | writeBlock | getSysinfo | setupRf
deriving DecidableEq, Repr

/-- An operand of a host term as written (R119): a number, or bytes in brackets. -/
inductive Operand where
  | num (n : Nat)
  | bytes (bs : List Byte)
deriving DecidableEq, Repr

/-- A host operation as the host issues it: "an operation name and its typed operands" (R118). -/
structure Term where
  name : OpName
  operands : List Operand
deriving DecidableEq, Repr

/-- What stands in the controller's request queue. Only `term` comes from a host (R118); a frame (with the receive
length that R130 takes beside it) and a tag request are the inputs of the internal procedures. Log 1. -/
inductive Request where
  | frame (bytes : List Byte) (receiveLength : Nat)
  | tagRequest (bytes : List Byte)
  | term (t : Term)
deriving DecidableEq, Repr

end Sys2Proof
end

