-- ==== Sys2Proof/WellFormed.lean ====
section
/-! DEFINITION. Which instructions are terms of the spec: the operand bounds the encodings give (30_encoding.md R97, R98). The
bounds of a host operation and of a tag request are no matter of form: the operation tests them itself and answers with an
outcome or a fault. -/

namespace Sys2Proof

/-- The operand bounds of the encoded layers. -/
def Instr.wellFormed : Instr → Bool
  | .cmdSendData b payload => decide (b.toNat ≤ 7) && decide (payload.length ≤ Config.maxSendPayload)
  | .cmdReadData n => decide (n ≤ Config.rxBufferSize)
  | .cmdWriteRegister _ _ => true
  | .cmdWriteRegisterOrMask _ _ => true
  | .cmdWriteRegisterAndMask _ _ => true
  | .cmdReadRegister _ => true
  | .cmdReadEeprom _ _ => true
  | .cmdLoadRfConfig _ _ => true
  | .cmdRfOn => true
  | .cmdRfOff => true
  | .tagInventory => true
  | .tagStayQuiet _ _ => true
  | .tagReadSingleBlock _ _ => true
  | .tagWriteSingleBlock _ _ _ => true
  | .tagLockBlock _ _ => true
  | .tagReadMultipleBlocks _ _ => true
  | .tagWriteMultipleBlock _ _ => true
  | .tagSelect _ _ => true
  | .tagResetToReady _ _ => true
  | .tagWriteAfi _ _ => true
  | .tagLockAfi _ _ => true
  | .tagWriteDsfid _ _ => true
  | .tagLockDsfid _ _ => true
  | .tagGetSystemInfo _ => true
  | .tagGetMultipleBlockSecurityStatus _ _ => true
  | .writeReg _ _ => true
  | .writeRegOr _ _ => true
  | .writeRegAnd _ _ => true
  | .readReg _ => true
  | .readEeprom _ _ => true
  | .sendData _ _ => true
  | .readData _ => true
  | .loadRfConfig _ _ => true
  | .rfOn => true
  | .rfOff => true
  | .getIrq => true
  | .clearIrq _ => true
  | .getTs => true
  | .reset => true
  | .inventory => true
  | .readBlock _ _ _ => true
  | .writeBlock _ _ _ => true
  | .getSysinfo _ => true
  | .setupRf => true

/-- The instructions that a host can issue: the host operations, and nothing else (R118). -/
def Instr.isHostOp : Instr → Bool
  | .cmdWriteRegister _ _ | .cmdWriteRegisterOrMask _ _ | .cmdWriteRegisterAndMask _ _ | .cmdReadRegister _
  | .cmdReadEeprom _ _ | .cmdSendData _ _ | .cmdReadData _ | .cmdLoadRfConfig _ _ | .cmdRfOn | .cmdRfOff => false
  | .tagInventory | .tagStayQuiet _ _ | .tagReadSingleBlock _ _ | .tagWriteSingleBlock _ _ _ | .tagLockBlock _ _
  | .tagReadMultipleBlocks _ _ | .tagWriteMultipleBlock _ _ | .tagSelect _ _ | .tagResetToReady _ _
  | .tagWriteAfi _ _ | .tagLockAfi _ _ | .tagWriteDsfid _ _ | .tagLockDsfid _ _ | .tagGetSystemInfo _
  | .tagGetMultipleBlockSecurityStatus _ _ => false
  | .writeReg _ _ | .writeRegOr _ _ | .writeRegAnd _ _ | .readReg _ | .readEeprom _ _ | .sendData _ _ | .readData _
  | .loadRfConfig _ _ | .rfOn | .rfOff | .getIrq | .clearIrq _ | .getTs | .reset | .inventory | .readBlock _ _ _
  | .writeBlock _ _ _ | .getSysinfo _ | .setupRf => true

/-- The instructions that the controller never builds (R241 to R251): eleven tag codes. -/
def Instr.neverBuilt : Instr → Bool
  | .tagStayQuiet _ _ | .tagLockBlock _ _ | .tagReadMultipleBlocks _ _ | .tagWriteMultipleBlock _ _ | .tagSelect _ _
  | .tagResetToReady _ _ | .tagWriteAfi _ _ | .tagLockAfi _ _ | .tagWriteDsfid _ _ | .tagLockDsfid _ _
  | .tagGetMultipleBlockSecurityStatus _ _ => true
  | .cmdWriteRegister _ _ | .cmdWriteRegisterOrMask _ _ | .cmdWriteRegisterAndMask _ _ | .cmdReadRegister _
  | .cmdReadEeprom _ _ | .cmdSendData _ _ | .cmdReadData _ | .cmdLoadRfConfig _ _ | .cmdRfOn | .cmdRfOff
  | .tagInventory | .tagReadSingleBlock _ _ | .tagWriteSingleBlock _ _ _ | .tagGetSystemInfo _
  | .writeReg _ _ | .writeRegOr _ _ | .writeRegAnd _ _ | .readReg _ | .readEeprom _ _ | .sendData _ _ | .readData _
  | .loadRfConfig _ _ | .rfOn | .rfOff | .getIrq | .clearIrq _ | .getTs | .reset | .inventory | .readBlock _ _ _
  | .writeBlock _ _ _ | .getSysinfo _ | .setupRf => false

/-- The instructions that R289 admits only while the field is confirmed on: the four tag commands, in both layers. -/
def Instr.needsRf : Instr → Bool
  | .inventory | .readBlock _ _ _ | .writeBlock _ _ _ | .getSysinfo _
  | .tagInventory | .tagReadSingleBlock _ _ | .tagWriteSingleBlock _ _ _ | .tagGetSystemInfo _ => true
  | .cmdWriteRegister _ _ | .cmdWriteRegisterOrMask _ _ | .cmdWriteRegisterAndMask _ _ | .cmdReadRegister _
  | .cmdReadEeprom _ _ | .cmdSendData _ _ | .cmdReadData _ | .cmdLoadRfConfig _ _ | .cmdRfOn | .cmdRfOff
  | .tagStayQuiet _ _ | .tagLockBlock _ _ | .tagReadMultipleBlocks _ _ | .tagWriteMultipleBlock _ _ | .tagSelect _ _
  | .tagResetToReady _ _ | .tagWriteAfi _ _ | .tagLockAfi _ _ | .tagWriteDsfid _ _ | .tagLockDsfid _ _
  | .tagGetMultipleBlockSecurityStatus _ _
  | .writeReg _ _ | .writeRegOr _ _ | .writeRegAnd _ _ | .readReg _ | .readEeprom _ _ | .sendData _ _ | .readData _
  | .loadRfConfig _ _ | .rfOn | .rfOff | .getIrq | .clearIrq _ | .getTs | .reset | .setupRf => false

end Sys2Proof
end

