-- ==== Sys2Proof/Decode.lean ====
section
/-! DEFINITION. The decoder and the encoder of the three encoded layers (30_encoding.md): command frames (R90 to R105),
tag request frames (R110 to R115) and host terms (R118). The decoder is total and rejects by name. -/

namespace Sys2Proof

/-! ## Byte order and bit fields (R7, R8, R64, R65) -/

/-- `le32(b0, b1, b2, b3)` of R8: the value of four bytes, least significant first. -/
def le32 (b0 b1 b2 b3 : Byte) : Word :=
  b0.setWidth 32 ||| b1.setWidth 32 <<< 8 ||| b2.setWidth 32 <<< 16 ||| b3.setWidth 32 <<< 24

/-- `bytes_le32(v)` of R8: `[v[7:0], v[15:8], v[23:16], v[31:24]]`. -/
def bytesLe32 (v : Word) : List Byte :=
  [v.extractLsb' 0 8, v.extractLsb' 8 8, v.extractLsb' 16 8, v.extractLsb' 24 8]

/-! ## Opcodes (R102) and tag command codes (R114) -/

/-- The ten direct commands of R102. -/
inductive Opcode where
  | writeRegister | writeRegisterOrMask | writeRegisterAndMask | readRegister | readEeprom
  | sendData | readData | loadRfConfig | rfOn | rfOff
deriving DecidableEq, Repr

/-- The opcode map of R102. -/
def Opcode.code : Opcode → Byte
  | .writeRegister => 0x00
  | .writeRegisterOrMask => 0x01
  | .writeRegisterAndMask => 0x02
  | .readRegister => 0x04
  | .readEeprom => 0x07
  | .sendData => 0x09
  | .readData => 0x0A
  | .loadRfConfig => 0x11
  | .rfOn => 0x16
  | .rfOff => 0x17

/-- Every opcode of R102. -/
def Opcode.all : List Opcode :=
  [.writeRegister, .writeRegisterOrMask, .writeRegisterAndMask, .readRegister, .readEeprom,
   .sendData, .readData, .loadRfConfig, .rfOn, .rfOff]

/-- The command of an opcode byte; a reserved opcode (R103) has none. -/
def Opcode.ofByte (b : Byte) : Option Opcode := Opcode.all.find? fun o => o.code == b

/-- The frame length that the opcode alone gives (R105); Send-Data's ends with the transaction. -/
def Opcode.frameLength : Opcode → Option Nat
  | .writeRegister => some 6
  | .writeRegisterOrMask => some 6
  | .writeRegisterAndMask => some 6
  | .readRegister => some 2
  | .readEeprom => some 3
  | .sendData => none
  | .readData => some 2
  | .loadRfConfig => some 3
  | .rfOn => some 2
  | .rfOff => some 2

/-- The fifteen tag command codes of R114. -/
inductive TagCode where
  | inventory | stayQuiet | readSingleBlock | writeSingleBlock | lockBlock | readMultipleBlocks | writeMultipleBlock
  | select | resetToReady | writeAfi | lockAfi | writeDsfid | lockDsfid | getSystemInfo | getMultipleBlockSecurityStatus
deriving DecidableEq, Repr

/-- The code map of R114. -/
def TagCode.code : TagCode → Byte
  | .inventory => 0x01
  | .stayQuiet => 0x02
  | .readSingleBlock => 0x20
  | .writeSingleBlock => 0x21
  | .lockBlock => 0x22
  | .readMultipleBlocks => 0x23
  | .writeMultipleBlock => 0x24
  | .select => 0x25
  | .resetToReady => 0x26
  | .writeAfi => 0x27
  | .lockAfi => 0x28
  | .writeDsfid => 0x29
  | .lockDsfid => 0x2A
  | .getSystemInfo => 0x2B
  | .getMultipleBlockSecurityStatus => 0x2C

/-- Every code of R114. -/
def TagCode.all : List TagCode :=
  [.inventory, .stayQuiet, .readSingleBlock, .writeSingleBlock, .lockBlock, .readMultipleBlocks, .writeMultipleBlock,
   .select, .resetToReady, .writeAfi, .lockAfi, .writeDsfid, .lockDsfid, .getSystemInfo, .getMultipleBlockSecurityStatus]

/-- The command of a tag code byte; a reserved code (R115) has none. -/
def TagCode.ofByte (b : Byte) : Option TagCode := TagCode.all.find? fun c => c.code == b

/-! ## Frames (R92 to R101) -/

/-- R92: `[0x00, a, v0, v1, v2, v3]`. -/
def frameWriteRegister (a : Byte) (v : Word) : List Byte := Opcode.writeRegister.code :: a :: bytesLe32 v

/-- R93: `[0x01, a, m0, m1, m2, m3]`. -/
def frameWriteRegisterOrMask (a : Byte) (m : Word) : List Byte := Opcode.writeRegisterOrMask.code :: a :: bytesLe32 m

/-- R94: `[0x02, a, m0, m1, m2, m3]`. -/
def frameWriteRegisterAndMask (a : Byte) (m : Word) : List Byte := Opcode.writeRegisterAndMask.code :: a :: bytesLe32 m

/-- R95: `[0x04, a]`. -/
def frameReadRegister (a : Byte) : List Byte := [Opcode.readRegister.code, a]

/-- R96: `[0x07, e, l]`. -/
def frameReadEeprom (e l : Byte) : List Byte := [Opcode.readEeprom.code, e, l]

/-- R97: `[0x09, b] ++ payload`. -/
def frameSendData (b : Byte) (payload : List Byte) : List Byte := Opcode.sendData.code :: b :: payload

/-- R98: `[0x0A, 0x00]`. -/
def frameReadData : List Byte := [Opcode.readData.code, 0x00]

/-- R99: `[0x11, t, r]`. -/
def frameLoadRfConfig (t r : Byte) : List Byte := [Opcode.loadRfConfig.code, t, r]

/-- R100: `[0x16, 0x00]`. -/
def frameRfOn : List Byte := [Opcode.rfOn.code, 0x00]

/-- R101: `[0x17, 0x00]`. -/
def frameRfOff : List Byte := [Opcode.rfOff.code, 0x00]

/-! ## Tag request frames (R110) -/

/-- The UID bytes in the order given (R66). -/
def Uid.bytes (u : Uid) : List Byte := [u.u0, u.u1, u.u2, u.u3, u.u4, u.u5, u.u6, u.u7]

/-- The UID of exactly eight bytes, in the order given (R66). -/
def Uid.ofBytes : List Byte → Option Uid
  | [u0, u1, u2, u3, u4, u5, u6, u7] => some ⟨u0, u1, u2, u3, u4, u5, u6, u7⟩
  | _ => none

/-- R110, Inventory: `[0x26, 0x01, 0x00]`. -/
def requestInventory : List Byte := [Config.flagsInventory, TagCode.inventory.code, 0x00]

/-- R110, Read-Single-Block: `[0x22, 0x20] ++ uid ++ [blockNo]`. -/
def requestReadSingleBlock (uid : Uid) (blockNo : Byte) : List Byte :=
  Config.flagsAddressed :: TagCode.readSingleBlock.code :: (uid.bytes ++ [blockNo])

/-- R110, Write-Single-Block: `[0x22, 0x21] ++ uid ++ [blockNo] ++ data`. -/
def requestWriteSingleBlock (uid : Uid) (blockNo : Byte) (data : List Byte) : List Byte :=
  Config.flagsAddressed :: TagCode.writeSingleBlock.code :: (uid.bytes ++ blockNo :: data)

/-- R110, Get-System-Info: `[0x22, 0x2B] ++ uid`. -/
def requestGetSystemInfo (uid : Uid) : List Byte :=
  Config.flagsAddressed :: TagCode.getSystemInfo.code :: uid.bytes

/-! ## The decoder -/

/-- Why a request is rejected. -/
inductive DecodeError where
  /-- A frame without an opcode byte (R91: "non-empty"). -/
  | emptyFrame
  /-- An opcode outside R102 (R103). -/
  | reservedOpcode (b : Byte)
  /-- A frame of another length than R105 gives. -/
  | frameLength
  /-- A receive length other than the command's (R105, R98). -/
  | receiveLength
  /-- A second byte other than 0x00 in Read-Data, RF-On, RF-Off (R98, R100, R101). -/
  | reservedParameter
  /-- A valid-bits byte over 7 (R97). -/
  | validBits
  /-- A Send-Data payload over its bound (R97). -/
  | payloadLength
  /-- A tag request without flags and command code (R110). -/
  | tagFrameShort
  /-- A tag code outside R114 (R115). -/
  | reservedTagCode (b : Byte)
  /-- A flags byte other than the command's (R110). -/
  | tagFlags
  /-- Parameters of another length than the command's (R110). -/
  | tagParameters
  /-- Operands of another number than the operation's (R118). -/
  | operandCount (name : OpName)
  /-- An operand of another type or range than the operation's (R118). -/
  | operandType (name : OpName)
deriving DecidableEq, Repr

/-- A frame that carries an address and a 32-bit value (R92 to R94). -/
def decodeAddressValue (mk : Byte → Word → Instr) (params : List Byte) (rl : Nat) : Except DecodeError Instr :=
  match params with
  | [a, v0, v1, v2, v3] => if rl = 0 then .ok (mk a (le32 v0 v1 v2 v3)) else .error .receiveLength
  | _ => .error .frameLength

/-- A frame whose one parameter byte is 0x00 (R100, R101). -/
def decodeReserved (i : Instr) (params : List Byte) (rl : Nat) : Except DecodeError Instr :=
  match params with
  | [z] => if z ≠ 0x00 then .error .reservedParameter else if rl = 0 then .ok i else .error .receiveLength
  | _ => .error .frameLength

/-- The parameters of a command frame by its opcode (R92 to R101), with the receive length of R105. -/
def decodeParams (o : Opcode) (params : List Byte) (rl : Nat) : Except DecodeError Instr :=
  match o with
  | .writeRegister => decodeAddressValue .cmdWriteRegister params rl
  | .writeRegisterOrMask => decodeAddressValue .cmdWriteRegisterOrMask params rl
  | .writeRegisterAndMask => decodeAddressValue .cmdWriteRegisterAndMask params rl
  | .readRegister =>
    match params with
    | [a] => if rl = 4 then .ok (.cmdReadRegister a) else .error .receiveLength
    | _ => .error .frameLength
  | .readEeprom =>
    match params with
    | [e, l] => if rl = l.toNat then .ok (.cmdReadEeprom e l) else .error .receiveLength
    | _ => .error .frameLength
  | .sendData =>
    match params with
    | b :: payload =>
      if 7 < b.toNat then .error .validBits
      else if Config.maxSendPayload < payload.length then .error .payloadLength
      else if rl = 0 then .ok (.cmdSendData b payload) else .error .receiveLength
    | [] => .error .frameLength
  | .readData =>
    match params with
    | [z] =>
      if z ≠ 0x00 then .error .reservedParameter
      else if rl ≤ Config.rxBufferSize then .ok (.cmdReadData rl) else .error .receiveLength
    | _ => .error .frameLength
  | .loadRfConfig =>
    match params with
    | [t, r] => if rl = 0 then .ok (.cmdLoadRfConfig t r) else .error .receiveLength
    | _ => .error .frameLength
  | .rfOn => decodeReserved .cmdRfOn params rl
  | .rfOff => decodeReserved .cmdRfOff params rl

/-- A command frame and the receive length beside it (R90, R105, R130). -/
def decodeFrame (bs : List Byte) (rl : Nat) : Except DecodeError Instr :=
  match bs with
  | [] => .error .emptyFrame
  | op :: params =>
    match Opcode.ofByte op with
    | none => .error (.reservedOpcode op)
    | some o => decodeParams o params rl

/-- The parameters of a tag request by its code (R110, R114). The data of Write-Single-Block have no bound here: `SendData` checks
the length, and over 249 bytes the instruction ends with `OutOfRange` (R220, R232; log 36). -/
def decodeTagParams (c : TagCode) (flags : Byte) (params : List Byte) : Except DecodeError Instr :=
  match c with
  | .inventory =>
    if flags ≠ Config.flagsInventory then .error .tagFlags
    else if params = [0x00] then .ok .tagInventory else .error .tagParameters
  | .readSingleBlock =>
    if flags ≠ Config.flagsAddressed then .error .tagFlags
    else match params with
      | [u0, u1, u2, u3, u4, u5, u6, u7, b] => .ok (.tagReadSingleBlock ⟨u0, u1, u2, u3, u4, u5, u6, u7⟩ b)
      | _ => .error .tagParameters
  | .writeSingleBlock =>
    if flags ≠ Config.flagsAddressed then .error .tagFlags
    else match params with
      | u0 :: u1 :: u2 :: u3 :: u4 :: u5 :: u6 :: u7 :: b :: data =>
        .ok (.tagWriteSingleBlock ⟨u0, u1, u2, u3, u4, u5, u6, u7⟩ b data)
      | _ => .error .tagParameters
  | .getSystemInfo =>
    if flags ≠ Config.flagsAddressed then .error .tagFlags
    else match params with
      | [u0, u1, u2, u3, u4, u5, u6, u7] => .ok (.tagGetSystemInfo ⟨u0, u1, u2, u3, u4, u5, u6, u7⟩)
      | _ => .error .tagParameters
  | .stayQuiet => .ok (.tagStayQuiet flags params)
  | .lockBlock => .ok (.tagLockBlock flags params)
  | .readMultipleBlocks => .ok (.tagReadMultipleBlocks flags params)
  | .writeMultipleBlock => .ok (.tagWriteMultipleBlock flags params)
  | .select => .ok (.tagSelect flags params)
  | .resetToReady => .ok (.tagResetToReady flags params)
  | .writeAfi => .ok (.tagWriteAfi flags params)
  | .lockAfi => .ok (.tagLockAfi flags params)
  | .writeDsfid => .ok (.tagWriteDsfid flags params)
  | .lockDsfid => .ok (.tagLockDsfid flags params)
  | .getMultipleBlockSecurityStatus => .ok (.tagGetMultipleBlockSecurityStatus flags params)

/-- A tag request frame: `[flags, cmd] ++ params` (R110). -/
def decodeTagRequest (bs : List Byte) : Except DecodeError Instr :=
  match bs with
  | flags :: code :: params =>
    match TagCode.ofByte code with
    | none => .error (.reservedTagCode code)
    | some c => decodeTagParams c flags params
  | _ => .error .tagFrameShort

/-- An operand of type u8 (R118). -/
def Operand.u8 : Operand → Option Byte
  | .num n => if n < 256 then some (BitVec.ofNat 8 n) else none
  | .bytes _ => none

/-- An operand of type u32 (R118). -/
def Operand.u32 : Operand → Option Word
  | .num n => if n < 4294967296 then some (BitVec.ofNat 32 n) else none
  | .bytes _ => none

/-- An operand of type Nat (R118). -/
def Operand.nat : Operand → Option Nat
  | .num n => some n
  | .bytes _ => none

/-- An operand of type bytes (R118). -/
def Operand.byteList : Operand → Option (List Byte)
  | .num _ => none
  | .bytes bs => some bs

/-- An operand of type "8 bytes" (R118). -/
def Operand.uid : Operand → Option Uid
  | .num _ => none
  | .bytes bs => Uid.ofBytes bs

/-- A term without operands. -/
def decodeNullary (t : Term) (i : Instr) : Except DecodeError Instr :=
  match t.operands with
  | [] => .ok i
  | _ => .error (.operandCount t.name)

/-- A term with one operand. -/
def decodeUnary {α : Type} (t : Term) (f : Operand → Option α) (mk : α → Instr) : Except DecodeError Instr :=
  match t.operands with
  | [x] =>
    match f x with
    | some a => .ok (mk a)
    | none => .error (.operandType t.name)
  | _ => .error (.operandCount t.name)

/-- A term with two operands. -/
def decodeBinary {α β : Type} (t : Term) (f : Operand → Option α) (g : Operand → Option β) (mk : α → β → Instr) :
    Except DecodeError Instr :=
  match t.operands with
  | [x, y] =>
    match f x, g y with
    | some a, some b => .ok (mk a b)
    | _, _ => .error (.operandType t.name)
  | _ => .error (.operandCount t.name)

/-- A term with three operands. -/
def decodeTernary {α β γ : Type} (t : Term) (f : Operand → Option α) (g : Operand → Option β) (h : Operand → Option γ)
    (mk : α → β → γ → Instr) : Except DecodeError Instr :=
  match t.operands with
  | [x, y, z] =>
    match f x, g y, h z with
    | some a, some b, some c => .ok (mk a b c)
    | _, _, _ => .error (.operandType t.name)
  | _ => .error (.operandCount t.name)

/-- A host term: the operation of R118 with its typed operands. -/
def decodeTerm (t : Term) : Except DecodeError Instr :=
  match t.name with
  | .writeReg => decodeBinary t Operand.u8 Operand.u32 .writeReg
  | .writeRegOr => decodeBinary t Operand.u8 Operand.u32 .writeRegOr
  | .writeRegAnd => decodeBinary t Operand.u8 Operand.u32 .writeRegAnd
  | .readReg => decodeUnary t Operand.u8 .readReg
  | .readEeprom => decodeBinary t Operand.u8 Operand.u8 .readEeprom
  | .sendData => decodeBinary t Operand.byteList Operand.u8 .sendData
  | .readData => decodeUnary t Operand.nat .readData
  | .loadRfConfig => decodeBinary t Operand.u8 Operand.u8 .loadRfConfig
  | .rfOn => decodeNullary t .rfOn
  | .rfOff => decodeNullary t .rfOff
  | .getIrq => decodeNullary t .getIrq
  | .clearIrq => decodeUnary t Operand.u32 .clearIrq
  | .getTs => decodeNullary t .getTs
  | .reset => decodeNullary t .reset
  | .inventory => decodeNullary t .inventory
  | .readBlock => decodeTernary t Operand.uid Operand.u8 Operand.nat .readBlock
  | .writeBlock => decodeTernary t Operand.uid Operand.u8 Operand.byteList .writeBlock
  | .getSysinfo => decodeUnary t Operand.uid .getSysinfo
  | .setupRf => decodeNullary t .setupRf

/-- The decoder: the instruction of a request, or the reason it is none. -/
def decode : Request → Except DecodeError Instr
  | .frame bs rl => decodeFrame bs rl
  | .tagRequest bs => decodeTagRequest bs
  | .term t => decodeTerm t

/-! ## The encoder -/

/-- A number operand of any width. -/
def Operand.ofBits {w : Nat} (v : BitVec w) : Operand := .num v.toNat

/-- The request of an instruction: its command frame and receive length, its tag request frame, or its host term. -/
def encode : Instr → Request
  | .cmdWriteRegister a v => .frame (frameWriteRegister a v) 0
  | .cmdWriteRegisterOrMask a m => .frame (frameWriteRegisterOrMask a m) 0
  | .cmdWriteRegisterAndMask a m => .frame (frameWriteRegisterAndMask a m) 0
  | .cmdReadRegister a => .frame (frameReadRegister a) 4
  | .cmdReadEeprom e l => .frame (frameReadEeprom e l) l.toNat
  | .cmdSendData b payload => .frame (frameSendData b payload) 0
  | .cmdReadData n => .frame frameReadData n
  | .cmdLoadRfConfig t r => .frame (frameLoadRfConfig t r) 0
  | .cmdRfOn => .frame frameRfOn 0
  | .cmdRfOff => .frame frameRfOff 0
  | .tagInventory => .tagRequest requestInventory
  | .tagReadSingleBlock uid b => .tagRequest (requestReadSingleBlock uid b)
  | .tagWriteSingleBlock uid b data => .tagRequest (requestWriteSingleBlock uid b data)
  | .tagGetSystemInfo uid => .tagRequest (requestGetSystemInfo uid)
  | .tagStayQuiet flags params => .tagRequest (flags :: TagCode.stayQuiet.code :: params)
  | .tagLockBlock flags params => .tagRequest (flags :: TagCode.lockBlock.code :: params)
  | .tagReadMultipleBlocks flags params => .tagRequest (flags :: TagCode.readMultipleBlocks.code :: params)
  | .tagWriteMultipleBlock flags params => .tagRequest (flags :: TagCode.writeMultipleBlock.code :: params)
  | .tagSelect flags params => .tagRequest (flags :: TagCode.select.code :: params)
  | .tagResetToReady flags params => .tagRequest (flags :: TagCode.resetToReady.code :: params)
  | .tagWriteAfi flags params => .tagRequest (flags :: TagCode.writeAfi.code :: params)
  | .tagLockAfi flags params => .tagRequest (flags :: TagCode.lockAfi.code :: params)
  | .tagWriteDsfid flags params => .tagRequest (flags :: TagCode.writeDsfid.code :: params)
  | .tagLockDsfid flags params => .tagRequest (flags :: TagCode.lockDsfid.code :: params)
  | .tagGetMultipleBlockSecurityStatus flags params =>
    .tagRequest (flags :: TagCode.getMultipleBlockSecurityStatus.code :: params)
  | .writeReg a v => .term ⟨.writeReg, [.ofBits a, .ofBits v]⟩
  | .writeRegOr a m => .term ⟨.writeRegOr, [.ofBits a, .ofBits m]⟩
  | .writeRegAnd a m => .term ⟨.writeRegAnd, [.ofBits a, .ofBits m]⟩
  | .readReg a => .term ⟨.readReg, [.ofBits a]⟩
  | .readEeprom addr len => .term ⟨.readEeprom, [.ofBits addr, .ofBits len]⟩
  | .sendData payload b => .term ⟨.sendData, [.bytes payload, .ofBits b]⟩
  | .readData n => .term ⟨.readData, [.num n]⟩
  | .loadRfConfig t r => .term ⟨.loadRfConfig, [.ofBits t, .ofBits r]⟩
  | .rfOn => .term ⟨.rfOn, []⟩
  | .rfOff => .term ⟨.rfOff, []⟩
  | .getIrq => .term ⟨.getIrq, []⟩
  | .clearIrq m => .term ⟨.clearIrq, [.ofBits m]⟩
  | .getTs => .term ⟨.getTs, []⟩
  | .reset => .term ⟨.reset, []⟩
  | .inventory => .term ⟨.inventory, []⟩
  | .readBlock uid b n => .term ⟨.readBlock, [.bytes uid.bytes, .ofBits b, .num n]⟩
  | .writeBlock uid b data => .term ⟨.writeBlock, [.bytes uid.bytes, .ofBits b, .bytes data]⟩
  | .getSysinfo uid => .term ⟨.getSysinfo, [.bytes uid.bytes]⟩
  | .setupRf => .term ⟨.setupRf, []⟩

/-! ## The words of the opcode table -/

/-- The bytes of a table word, the first byte first (bit 0 of the word is the first byte's bit 0). -/
def bytesOfWord (nbits w : Nat) : List Byte :=
  (List.range (nbits / 8)).map fun i => BitVec.ofNat 8 (w / 256 ^ i)

/-- The receive length that goes with a frame (R105). Read-Data's `n` stands in no byte and is 0 here. -/
def receiveLengthOf (o : Opcode) (frame : List Byte) : Nat :=
  match o, frame with
  | .readRegister, _ => 4
  | .readEeprom, [_, _, l] => l.toNat
  | _, _ => 0

/-- The bytes after a tag request's code as the layouts of R110 want them, filled up with zeros. -/
def padTagParams (c : TagCode) (params : List Byte) : List Byte :=
  match c with
  | .inventory => (params ++ List.replicate 1 0).take 1
  | .readSingleBlock => (params ++ List.replicate 9 0).take 9
  | .writeSingleBlock => params ++ List.replicate (9 - params.length) 0
  | .getSystemInfo => (params ++ List.replicate 8 0).take 8
  | _ => params

/-- The flags byte that goes with a table row's tag code (R110); 0 for a code that R110 gives none. -/
def tagFlagsOf : TagCode → Byte
  | .inventory => Config.flagsInventory
  | .readSingleBlock => Config.flagsAddressed
  | .writeSingleBlock => Config.flagsAddressed
  | .getSystemInfo => Config.flagsAddressed
  | _ => 0

/-- The request a table word stands for: the first byte is an opcode (R102) if it is one, else a tag code (R114), and the
bytes the word leaves out are 0. The codes 0x01 and 0x02 are both, and are read as opcodes. Log 19. -/
def requestOfWord (nbits w : Nat) : Request :=
  match bytesOfWord nbits w with
  | [] => .frame [] 0
  | b :: rest =>
    match Opcode.ofByte b with
    | some o =>
      let n := match o.frameLength with
        | some n => n
        | none => max 2 (rest.length + 1)
      let f := (b :: (rest ++ List.replicate 5 0)).take n
      .frame f (receiveLengthOf o f)
    | none =>
      match TagCode.ofByte b with
      | some c => .tagRequest (tagFlagsOf c :: b :: padTagParams c rest)
      | none => .frame (b :: rest) 0

/-- The instruction the decoder reads from a word of spec/opcode_table.json. -/
def decodeTableWord (nbits w : Nat) : Option Instr :=
  match decode (requestOfWord nbits w) with
  | .ok i => some i
  | .error _ => none

end Sys2Proof
end

