-- ==== Sys2Proof/Machine/State.lean ====
section
/-! DEFINITION. The state of the machine as plain data: the controller's record (10_state.md R20), the peer as far as the
peer contract gives it (R40 to R51), and the model's own fields (the queue, the outcomes, the wire trace, the draws). -/

namespace Sys2Proof.Machine

/-- The sequencer phases of R21. -/
inductive Phase where
  | idle | op | tWaitReady | tSelect | tSend | tWaitBusy | tRelease | tWaitDone
  | rSelect | rRecv | rRelease | rWaitDone | halted
deriving DecidableEq, Repr

/-- The level of the hardware reset output (R20). -/
inductive Level where
  | low | high
deriving DecidableEq, Repr

/-- The kinds of controller fault (R290). -/
inductive FaultKind where
  | oversizedRead | bootOrder | rfNotOn | transportPrecondition
deriving DecidableEq, Repr

/-- `S.faults`: a set over the kinds of R290, one sticky bit each. -/
structure FaultSet where
  oversizedRead : Bool
  bootOrder : Bool
  rfNotOn : Bool
  transportPrecondition : Bool
deriving DecidableEq, Repr

/-- The transceive state of R43. -/
inductive TransceiveState where
  | idle | waitTransmit | transmitting | waitReceive | waitForData | receiving | loopBack | reserved
deriving DecidableEq, Repr

/-- The tag error codes of R112 and R281. -/
inductive TagErrorCode where
  | notSupported | notRecognized | optionNotSupported | unknown | blockNotAvailable | blockAlreadyLocked
  | blockIsLocked | blockNotProgrammed | blockNotLocked
  | custom (raw : Byte)
  | undefined
deriving DecidableEq, Repr

/-- The error variants of R281. `busyTimeout` records the phase it was raised in (R132). -/
inductive OpError where
  | busyTimeout (phase : Phase)
  | irqWaitTimeout (bit : Nat)
  | outOfRange
  | notReady
  | noCardDetected
  | tagError (code : TagErrorCode)
  | malformedResponse
deriving DecidableEq, Repr

/-- The record `GetSystemInfo` returns (R233). -/
structure SystemInfo where
  dsfid : Option Byte
  afi : Option Byte
  numBlocks : Option Nat
  blockSize : Option Nat
  icRef : Option Byte
  memSize : Option Nat
deriving DecidableEq, Repr

/-- The success values of R118. -/
inductive Value where
  | unit
  | word (v : Word)
  | bytes (bs : List Byte)
  | transceiveState (t : TransceiveState)
  | systemInfo (info : SystemInfo)
deriving DecidableEq, Repr

/-- The outcome of a host operation, as the controller records it (R280). -/
inductive OpOutcome where
  | ok (v : Value)
  | err (e : OpError)
deriving DecidableEq, Repr

/-- An error as the host sees it: of a `BusyTimeout` "the host sees only the variant", not the phase (R132). -/
inductive HostError where
  | busyTimeout
  | irqWaitTimeout (bit : Nat)
  | outOfRange
  | notReady
  | noCardDetected
  | tagError (code : TagErrorCode)
  | malformedResponse
deriving DecidableEq, Repr

/-- The outcome of a host operation, as the host sees it (R132, R280). -/
inductive HostOutcome where
  | ok (v : Value)
  | err (e : HostError)
deriving DecidableEq, Repr

/-- The delay parameters of R5 that `Settle` takes (R12). Their lengths are not modelled (R15). -/
inductive Delay where
  | csSettle | csReleaseSettle | sofSettle | resetHold
deriving DecidableEq, Repr

/-- The primitives of R12, each with the value it drove or sampled. `xfer` records both bytes of the exchange: the one the
controller sent and the one the peer shifted out at the same time. -/
inductive Action where
  | readBusy (sample : Bool)
  | setCs (asserted : Bool)
  | setRst (level : Level)
  | xfer (sent received : Byte)
  | sleep
  | settle (d : Delay)
deriving DecidableEq, Repr

/-- One event of the wire trace (R12, R17), stamped with the phase, the chip-select output and the byte counter as they
stand when the primitive has acted and no later line has run. -/
structure Event where
  phase : Phase
  cs : Bool
  xi : Nat
  action : Action
deriving DecidableEq, Repr

/-- One coming reply byte of the peer: a byte it answers whatever it held, or what the contract says it holds. Log 5. -/
inductive Reply where
  | byte (b : Byte)
  | held
deriving DecidableEq, Repr

/-- One change the peer makes by itself (R14, R41, R48, R49; D34). Log 28. -/
inductive PeerEvent where
  /-- Interrupt flags are set (R41). -/
  | raise (flags : Word)
  /-- Register `a` takes the value `v` (R48). -/
  | register (a : Byte) (v : Word)
  /-- The receive buffer begins with these bytes (R49). -/
  | receive (bs : List Byte)
  /-- Anything may have changed (D34): nothing is known of the peer afterwards. -/
  | anything
deriving DecidableEq, Repr

/-- What the peer contract says the peer holds (R40 to R49). -/
structure Chip where
  /-- The registers the contract determines, by address, rising (R40, R46). -/
  regs : List (Nat × Word)
  /-- The EEPROM bytes known, by address (R47). -/
  eeprom : List Host.Cell
  /-- The transmit buffer with its valid-bits byte, as the last Send-Data filled it (R49). -/
  tx : Option (Byte × List Byte)
  /-- The leading bytes of the receive buffer that are known (R49). -/
  rx : List Byte
  /-- The RF profile pair last loaded (R170). -/
  rfConfig : Option (Byte × Byte)
  /-- The field as last commanded (R168, R169). -/
  rfField : Option Bool
  /-- The bytes ready to be shifted out after a reading command (R138). -/
  response : List (Option Byte)
  /-- How often everything has become unknown: an unlisted register holds a free value applied to it. Log 13. -/
  epoch : Nat
deriving DecidableEq, Repr

/-- The peer (R14, R24, R40 to R49): its coming answers (draws), its coming changes of its own, and what it holds. -/
structure Peer where
  /-- The coming BUSY samples (R24); after the last one every sample is free. Log 4. -/
  busy : List Bool
  /-- The coming reply bytes of receive transactions (R12, I10); after the last one every byte is free. Log 5. -/
  replies : List Reply
  /-- The coming reply bytes of command transactions (R12, I10); after the last one every byte is free. Log 6. -/
  discards : List Byte
  /-- The coming answers to "was the command executed" (R287). Log 14. -/
  executed : List Bool
  /-- What the peer changes by itself before each of the coming primitives (R14). Log 28. -/
  events : List (List PeerEvent)
  /-- Whether, after the last of them, anything may change before every primitive, or nothing does. Log 28. -/
  restless : Bool
  /-- The counter every free answer is applied to. -/
  draws : Nat
  /-- What the peer contract says the peer holds. -/
  chip : Chip
deriving DecidableEq, Repr

/-- The parameters the spec leaves OPEN (R5, D17), arguments of the model. No step changes them. Log 15. -/
structure Params where
  irqPollLimit : Nat
  resetPollLimit : Nat
deriving DecidableEq, Repr

/-- The scratch buffer as a memory: address and byte, strictly rising, an unlisted address holding no value (R26, R50). -/
abbrev Memory := List Host.Cell

/-- The machine. The first eleven fields are the controller's record of R20, in its order. -/
structure State where
  phase : Phase
  cs : Bool
  rst : Level
  scratch : Memory
  scratchValid : Nat
  initialized : Bool
  rfOn : Bool
  faults : FaultSet
  polls : Nat
  irqPolls : Nat
  xi : Nat
  /-- OPEN parameters (R5). -/
  params : Params
  /-- The peer contract and the peer's draws. -/
  peer : Peer
  /-- Requests the host has issued and the controller has not begun. Log 2. -/
  queue : List Request
  /-- The outcomes, oldest first, as the controller records them (R132, R280); `State.hostSees` is what the host sees of
  them. Log 21. -/
  delivered : List OpOutcome
  /-- The wire trace, oldest first (R17). Log 21. -/
  wire : List Event
deriving DecidableEq, Repr

/-- Why a step stops the machine. -/
inductive Fault where
  /-- Any host operation in HALTED: "no step" (R289, R291, I21). Raised by every meaning and by `step`. Safe. -/
  | halted
  /-- A host operation while one is in progress: not admitted (R316, I22). Raised by every meaning and `step`. Safe. -/
  | operationInProgress
  /-- A scratch access past offset 507 (R10). Raised by `memRead` and `memWrite`; no operation reaches it. Safe. -/
  | scratchBounds
  /-- A read of a scratch byte that has no value (R26, I9). Raised by `memRead`; no operation reaches it. Safe. -/
  | scratchNoValue
deriving DecidableEq, Repr

/-- Why a step refuses. -/
inductive Refusal where
  /-- An instruction without a meaning; `exec`'s arm only. Safe. -/
  | notModelled (mnemonic : String)
  /-- A request that is no instruction (R103, R115, R118). Raised by `step`. Safe. -/
  | undecodable (e : DecodeError)
  /-- A tag code the spec refuses by name: "Any term naming it is refused" (R241 to R251, I16). Raised by the eleven
  meanings of those codes. Safe. -/
  | tagCodeNeverBuilt (code : Byte)
deriving DecidableEq, Repr

/-- No fault recorded (R50). -/
def FaultSet.empty : FaultSet := ⟨false, false, false, false⟩

/-- A peer of which nothing is known (R51). -/
def Chip.unknown : Chip where
  regs := []
  eeprom := []
  tx := none
  rx := []
  rfConfig := none
  rfField := none
  response := []
  epoch := 0

/-- The peer at power-up: every value is any value (R51), so nothing is known, no answer is scripted, and anything may
change at any time (R14, D34). -/
def Peer.unknown : Peer where
  busy := []
  replies := []
  discards := []
  executed := []
  events := []
  restless := true
  draws := 0
  chip := .unknown

/-- Power-up (R50, R310). `rst` has no value there; Low is the model's choice (log 7). -/
def State.reset : State where
  phase := .idle
  cs := false
  rst := .low
  scratch := []
  scratchValid := 0
  initialized := false
  rfOn := false
  faults := .empty
  polls := 0
  irqPolls := 0
  xi := 0
  params := ⟨Config.irqPollLimitDefault, Config.resetPollLimitDefault⟩
  peer := .unknown
  queue := []
  delivered := []
  wire := []

end Sys2Proof.Machine
end

