-- ==== Sys2Proof/Machine/Ops.lean ====
section
/-! DEFINITION. The named operations over memory, the peer and the controller's record: the scratch buffer (R10), the peer
contract (R42, R46 to R49), the primitives of R12, and how an operation ends: the abort of R286, the fault of R290 and the
normal return of R289, as one shared operation each. -/

namespace Sys2Proof.Machine

/-! ## Sparse storage in one canonical form -/

/-- The entry at address `a`. -/
def cellsRead {α : Type} : List (Nat × α) → Nat → Option α
  | [], _ => none
  | (k, v) :: rest, a => if k = a then some v else cellsRead rest a

/-- Set the entry at address `a`, keeping the addresses strictly rising. -/
def cellsWrite {α : Type} : List (Nat × α) → Nat → α → List (Nat × α)
  | [], a, v => [(a, v)]
  | (k, w) :: rest, a, v =>
    if a < k then (a, v) :: (k, w) :: rest
    else if a = k then (a, v) :: rest
    else (k, w) :: cellsWrite rest a v

/-- The canonical form: addresses strictly rising. -/
def cellsRising {α : Type} : List (Nat × α) → Bool
  | [] => true
  | (a, _) :: rest => rest.all (fun c => decide (a < c.1)) && cellsRising rest

/-- The canonical form of the scratch buffer: strictly rising addresses below 508 (R25). An unlisted address reads as no
value, which no entry is. -/
def Memory.wf (m : Memory) : Bool := cellsRising m && m.all fun c => decide (c.1 < Config.rxBufferSize)

/-- Store bytes at rising addresses from `a`. -/
def Memory.write (m : Memory) (a : Nat) : List Byte → Memory
  | [] => m
  | b :: bs => Memory.write (cellsWrite m a b) (a + 1) bs

/-! ## The peer's draws (R12, R24, R48) -/

/-- One BUSY sample (R24): the next of the script, else a free value. -/
def Peer.drawBusy (p : Peer) : Bool × Peer :=
  match p.busy with
  | b :: rest => (b, { p with busy := rest })
  | [] => (Config.freeBusy p.draws, { p with draws := p.draws + 1 })

/-- A free reply byte. -/
def Peer.freeReply (p : Peer) : Byte × Peer := (Config.freeByte p.draws, { p with draws := p.draws + 1 })

/-- The reply byte of position `i` in a receive transaction (R12, I10): the next of the script. `held` answers the byte
the peer has ready, where the contract determines one. -/
def Peer.drawReply (p : Peer) (i : Nat) : Byte × Peer :=
  match p.replies with
  | .byte b :: rest => (b, { p with replies := rest })
  | .held :: rest =>
    match p.chip.response[i]? with
    | some (some b) => (b, { p with replies := rest })
    | some none => Peer.freeReply { p with replies := rest }
    | none => Peer.freeReply { p with replies := rest }
  | [] => p.freeReply

/-- The reply byte of an exchange in a command transaction (R12, I10): the next of the script, else a free value. -/
def Peer.drawDiscard (p : Peer) : Byte × Peer :=
  match p.discards with
  | b :: rest => (b, { p with discards := rest })
  | [] => p.freeReply

/-- Whether the peer executed a command whose exchange timed out (R287): the next of the script, else a free value. -/
def Peer.drawExecuted (p : Peer) : Bool × Peer :=
  match p.executed with
  | x :: rest => (x, { p with executed := rest })
  | [] => (Config.freeExecuted p.draws, { p with draws := p.draws + 1 })

/-! ## The peer contract (R40 to R49, R51, R62, R72) -/

/-- The thirteen named registers of R40. -/
inductive PeerRegister where
  | systemConfig | irqEnable | irqStatus | irqClear | transceiveControl | timer1Reload | timer1Config | rxWaitConfig
  | crcRxConfig | rxStatus | rfStatus | systemStatus | tempControl
deriving DecidableEq, Repr

/-- Address of IRQ-Status (R40, R41). -/
def addrIrqStatus : Byte := 0x02

/-- Address of IRQ-Clear (R40, R42). -/
def addrIrqClear : Byte := 0x03

/-- The address table of R40. -/
def PeerRegister.addr : PeerRegister → Byte
  | .systemConfig => 0x00
  | .irqEnable => 0x01
  | .irqStatus => addrIrqStatus
  | .irqClear => addrIrqClear
  | .transceiveControl => 0x04
  | .timer1Reload => 0x0C
  | .timer1Config => 0x0F
  | .rxWaitConfig => 0x11
  | .crcRxConfig => 0x12
  | .rxStatus => 0x13
  | .rfStatus => 0x1D
  | .systemStatus => 0x24
  | .tempControl => 0x25

/-- All of them. -/
def PeerRegister.all : List PeerRegister :=
  [.systemConfig, .irqEnable, .irqStatus, .irqClear, .transceiveControl, .timer1Reload, .timer1Config, .rxWaitConfig,
    .crcRxConfig, .rxStatus, .rfStatus, .systemStatus, .tempControl]

/-- Whether a register address is one of the thirteen (R40); R62 says what an access to any other is. -/
def namedAddress (a : Byte) : Bool := PeerRegister.all.any fun r => r.addr == a

/-- Nothing is known afterwards: every register, EEPROM byte and buffer may hold any value. -/
def Chip.forget (c : Chip) : Chip := { Chip.unknown with epoch := c.epoch + 1 }

/-- The content of register `a`; free where the contract does not determine it (R51). -/
def Chip.reg (c : Chip) (a : Byte) : Word :=
  match cellsRead c.regs a.toNat with
  | some v => v
  | none => Config.freeRegister a c.epoch

/-- Set register `a`. -/
def Chip.setReg (c : Chip) (a : Byte) (v : Word) : Chip := { c with regs := cellsWrite c.regs a.toNat v }

/-- Set register `a` to a value computed from its content. -/
def Chip.updateReg (c : Chip) (a : Byte) (f : Word → Word) : Chip := c.setReg a (f (c.reg a))

/-- Write-Register (R46): `R[a] <- v`. A write to IRQ-Clear clears the set bits of the mask in IRQ-Status (R42); that IRQ-Clear's
own cell stays as it was is the model's choice (log 33). A write to IRQ-Enable leaves IRQ-Status alone: whether IRQ-Enable masks
what IRQ-Status shows is left open (R294), and a peer that masks does so by a change of its own (log 32). -/
def Chip.writeRegister (c : Chip) (a : Byte) (v : Word) : Chip :=
  if a = addrIrqClear then c.updateReg addrIrqStatus fun irq => irq &&& ~~~v
  else c.setReg a v

/-- Write-Register-OR-Mask (R46): `R[a] <- R[a] | m`. At IRQ-Clear it leaves the flags alone (log 33). -/
def Chip.orRegister (c : Chip) (a : Byte) (m : Word) : Chip := c.updateReg a fun r => r ||| m

/-- Write-Register-AND-Mask (R46): `R[a] <- R[a] & m`. At IRQ-Clear it leaves the flags alone (log 33). -/
def Chip.andRegister (c : Chip) (a : Byte) (m : Word) : Chip := c.updateReg a fun r => r &&& m

/-- What the peer does by itself once register `a` has been written: if that was IRQ-Status it sets again the flags that were set
`before` (R48). So R46 holds of the write, whose read-back law leaves such a change out ("assuming no intervening mutation"), and no
operation but the clears of R295 clears a flag (R295, N7). Log 27. -/
def Chip.flagsSetAgain (c : Chip) (a : Byte) (before : Chip) : Chip :=
  if a = addrIrqStatus then c.updateReg addrIrqStatus fun irq => irq ||| before.reg addrIrqStatus else c

/-- A write of any kind to address `a`: at an unnamed address it "may have any effect on peer state" (R62, I4). -/
def Chip.accessed (c : Chip) (a : Byte) (f : Chip → Chip) : Chip := if namedAddress a = true then f c else c.forget

/-- What the peer shifts out for Read-Register (R46): the register's bytes, least significant first (R65), where the
contract determines them. What IRQ-Clear (R42, I5) and an unnamed address (R62, I4) read as is any value. -/
def Chip.registerResponse (c : Chip) (a : Byte) : List (Option Byte) :=
  if a = addrIrqClear ∨ namedAddress a = false then []
  else match cellsRead c.regs a.toNat with
    | some v => (bytesLe32 v).map some
    | none => []

/-- What the peer shifts out for Read-EEPROM (R63): the bytes of `e .. e+l-1`. -/
def Chip.eepromResponse (c : Chip) (e l : Byte) : List (Option Byte) :=
  (List.range l.toNat).map fun i => cellsRead c.eeprom (e.toNat + i)

/-- What the peer does when it executes a command frame (R46, R49, R62, R72, R138). Read-Data and Read-EEPROM may consume
the receive buffer (R72), so nothing is known of it afterwards. What else is settled here is the model's choice: that these two
have no other side effect on the peer (log 30); that a Read-Register changes nothing of the peer and a register write nothing but
what R46, R42 and `Chip.flagsSetAgain` say, where R72 rules out a read's effect on IRQ-Status only (N5, I1; log 37); that
Load-RF-Config changes no named register (R170; log 34); and that Send-Data, RF-On and RF-Off change no register by themselves:
what the transmission or the field brings about, a flag or a transceive state, is a change of the peer's own at a time of its own
(R48, R72; log 35). -/
def Chip.executeParams (c : Chip) (o : Opcode) (params : List Byte) : Chip :=
  match o, params with
  | .writeRegister, [a, v0, v1, v2, v3] => c.accessed a fun c => (c.writeRegister a (le32 v0 v1 v2 v3)).flagsSetAgain a c
  | .writeRegisterOrMask, [a, m0, m1, m2, m3] => c.accessed a fun c => c.orRegister a (le32 m0 m1 m2 m3)
  | .writeRegisterAndMask, [a, m0, m1, m2, m3] => c.accessed a fun c => (c.andRegister a (le32 m0 m1 m2 m3)).flagsSetAgain a c
  | .readRegister, [a] => { c with response := c.registerResponse a }
  | .readEeprom, [e, l] => { c with response := c.eepromResponse e l, rx := [] }
  | .sendData, b :: payload => { c with tx := some (b, payload) }
  | .readData, _ => { c with response := c.rx.map some, rx := [] }
  | .loadRfConfig, [t, r] => { c with rfConfig := some (t, r) }
  | .rfOn, _ => { c with rfField := some true }
  | .rfOff, _ => { c with rfField := some false }
  | _, _ => c

/-- The peer executes the command frame it has been sent. What it would do with a frame whose opcode is reserved the spec leaves
open (R103); that it changes nothing is the model's choice, and no frame the controller sends is one (log 31). -/
def Chip.execute (c : Chip) (frame : List Byte) : Chip :=
  match frame with
  | [] => c
  | op :: params =>
    match Opcode.ofByte op with
    | none => c
    | some o => c.executeParams o params

/-- When a Read-Register was executed the peer's register held the value it answers, its own changes before then included
(R48, R76); not so IRQ-Clear (R42) and the unnamed addresses (R62). Log 12. -/
def Chip.observe (c : Chip) (frame reply : List Byte) : Chip :=
  match frame, reply with
  | [op, a], [r0, r1, r2, r3] =>
    if op = Opcode.readRegister.code ∧ a ≠ addrIrqClear ∧ namedAddress a = true then c.setReg a (le32 r0 r1 r2 r3) else c
  | _, _ => c

/-- A pulse of the reset line (R206): nothing is known of the peer's registers, buffers and field afterwards (R51, R314,
I7). The EEPROM is not among what a reset changes (log 13). -/
def Chip.hardwareReset (c : Chip) : Chip := { c.forget with eeprom := c.eeprom }

/-! ## What the peer does by itself (R14, R48, D34) -/

/-- One change of the peer's own. -/
def Chip.undergo (c : Chip) : PeerEvent → Chip
  | .raise flags => c.updateReg addrIrqStatus fun irq => irq ||| flags
  | .register a v => c.setReg a v
  | .receive bs => { c with rx := bs.take Config.rxBufferSize }
  | .anything => c.forget

/-- What the peer has done by itself since the preceding primitive (R14): the next of the script; after its end anything may
have changed, or nothing has. Log 28. -/
def Peer.elapse (p : Peer) : Peer :=
  match p.events with
  | es :: rest => { p with events := rest, chip := es.foldl Chip.undergo p.chip }
  | [] => if p.restless = true then { p with chip := p.chip.forget } else p

/-- What the peer has become `k` primitives later (R14). -/
def Peer.elapseTimes (p : Peer) : Nat → Peer
  | 0 => p
  | k + 1 => p.elapse.elapseTimes k

/-- The response is complete, `k` primitives after the peer began to answer as `began`. What it answered is what it held then
(`Chip.observe`); what it has changed by itself since, a flag raised or a register changed, comes on top (R14, R41, R48), so a
read undoes none of it (R72, R164). -/
def Peer.answered (p began : Peer) (frame reply : List Byte) (k : Nat) : Peer :=
  { p with chip := (Peer.elapseTimes { began with chip := began.chip.observe frame reply } k).chip }

/-- A command changes what the peer holds. -/
def Peer.act (p : Peer) (f : Chip → Chip) : Peer := { p with chip := f p.chip }

/-! ## Updates of the controller's record and the primitives of R12 -/

/-- `phase <- P` (R9). -/
def State.goto (s : State) (p : Phase) : State := { s with phase := p }

/-- A primitive acts: what the peer has done by itself since the preceding one has happened (R14), and there is one event more
on the wire trace, stamped with the phase, chip-select and byte counter. -/
def State.emit (s : State) (a : Action) : State :=
  { s with wire := s.wire ++ [⟨s.phase, s.cs, s.xi, a⟩], peer := s.peer.elapse }

/-- Give the peer a new state. -/
def State.setPeer (s : State) (p : Peer) : State := { s with peer := p }

/-- A primitive in which the peer answers, in the state it has come to: `a` is the event, `p` the peer after its answer. -/
def State.emitWith (s : State) (a : Action) (p : Peer) : State := (s.emit a).setPeer p

/-- Set the busy-sample counter (R29). -/
def State.setPolls (s : State) (n : Nat) : State := { s with polls := n }

/-- Set the IRQ-read counter (R29). -/
def State.setIrqPolls (s : State) (n : Nat) : State := { s with irqPolls := n }

/-- Set the byte counter (R29). -/
def State.setXi (s : State) (n : Nat) : State := { s with xi := n }

/-- Set `S.scratch_valid` (R26). -/
def State.setValid (s : State) (n : Nat) : State := { s with scratchValid := n }

/-- Store to the scratch buffer. -/
def State.setScratch (s : State) (m : Memory) : State := { s with scratch := m }

/-- Set `S.rf_on` (R28). -/
def State.setRfOn (s : State) (b : Bool) : State := { s with rfOn := b }

/-- Set `S.initialized` (R27). -/
def State.setInitialized (s : State) (b : Bool) : State := { s with initialized := b }

/-- `SetCS(a)` (R12). -/
def State.setCs (s : State) (a : Bool) : State := State.emit { s with cs := a } (.setCs a)

/-- `SetRST(l)` (R12, R205): Low holds the peer in reset. -/
def State.setRst (s : State) (l : Level) : State :=
  State.emitWith { s with rst := l } (.setRst l)
    (if l = .low then s.peer.elapse.act Chip.hardwareReset else s.peer.elapse)

/-- `Settle(d)` (R12, R15). -/
def State.settle (s : State) (d : Delay) : State := s.emit (.settle d)

/-- `Sleep()` (R12, R15). -/
def State.sleep (s : State) : State := s.emit .sleep

/-- The counters set to 0 (R286). -/
def State.clearCounters (s : State) : State := { s with polls := 0, irqPolls := 0, xi := 0 }

/-- The outcome goes to the host (R280, R286). -/
def State.deliver (s : State) (o : OpOutcome) : State := { s with delivered := s.delivered ++ [o] }

/-- What the host sees of an error: the phase that a `BusyTimeout` records stays with the controller (R132). -/
def OpError.seen : OpError → HostError
  | .busyTimeout _ => .busyTimeout
  | .irqWaitTimeout bit => .irqWaitTimeout bit
  | .outOfRange => .outOfRange
  | .notReady => .notReady
  | .noCardDetected => .noCardDetected
  | .tagError code => .tagError code
  | .malformedResponse => .malformedResponse

/-- What the host sees of an outcome (R132, R280). -/
def OpOutcome.seen : OpOutcome → HostOutcome
  | .ok v => .ok v
  | .err e => .err e.seen

/-- The outcomes that the host has seen, oldest first (R132, R280). -/
def State.hostSees (s : State) : List HostOutcome := s.delivered.map OpOutcome.seen

/-- The first request leaves the queue. -/
def State.popRequest (s : State) : State := { s with queue := s.queue.tail }

/-! ## Procedures: a run that returns a value, or ends early -/

/-- How a procedure ends early: with an error outcome (R281), with a controller fault (R290), or stuck. -/
inductive Stop where
  | err (e : OpError)
  | halt (f : FaultKind)
  | stuck (r : Fault)
deriving DecidableEq, Repr

/-- A procedure of the pseudocode: a state-passing run that may end early. The bind is the `?` of R11. -/
abbrev Proc (α : Type) := EStateM Stop State α

/-- A line of pseudocode that only changes the state. -/
def update (f : State → State) : Proc Unit := fun s => .ok () (f s)

/-- The state as it is. -/
def current : Proc State := fun s => .ok s s

/-- `raise E` (R11). -/
def raise {α : Type} (e : OpError) : Proc α := fun s => .error (.err e) s

/-- `fault F` (R11). -/
def halt {α : Type} (f : FaultKind) : Proc α := fun s => .error (.halt f) s

/-- `raise E` unless the condition holds. -/
def require (c : Bool) (e : OpError) : Proc Unit := if c then pure () else raise e

/-- The result of a pure parser. -/
def fromParser {α : Type} : Except OpError α → Proc α
  | .ok a => pure a
  | .error e => raise e

/-- `ReadBUSY()` (R12): a fresh sample. -/
def readBusy : Proc Bool := fun s =>
  .ok s.peer.elapse.drawBusy.1 (s.emitWith (.readBusy s.peer.elapse.drawBusy.1) s.peer.elapse.drawBusy.2)

/-- `MemWrite(addr, n, v)` (R10). -/
def memWrite (a : Nat) (bs : List Byte) : Proc Unit := fun s =>
  if a + bs.length ≤ Config.rxBufferSize then .ok () (s.setScratch (s.scratch.write a bs))
  else .error (.stuck .scratchBounds) s

/-- The byte at scratch offset `a`: a byte at or past `scratch_valid` has no value (R26). -/
def State.scratchByte (s : State) (a : Nat) : Option Byte :=
  if a < s.scratchValid then cellsRead s.scratch a else none

/-- The `n` bytes from scratch offset `a`, if each has a value. -/
def State.scratchBytes (s : State) (a : Nat) : Nat → Option (List Byte)
  | 0 => some []
  | n + 1 =>
    match s.scratchByte a, State.scratchBytes s (a + 1) n with
    | some b, some bs => some (b :: bs)
    | some _, none => none
    | none, _ => none

/-- `MemRead(addr, n)` (R10, R26). -/
def memRead (a n : Nat) : Proc (List Byte) := fun s =>
  if a + n ≤ Config.rxBufferSize then
    match s.scratchBytes a n with
    | some bs => .ok bs s
    | none => .error (.stuck .scratchNoValue) s
  else .error (.stuck .scratchBounds) s

/-! ## How an operation ends (R280, R286, R289, R290) -/

/-- Chip-select released if it is asserted (R286 step 1, R290). -/
def State.releaseCs (s : State) : State := if s.cs = true then s.setCs false else s

/-- The lines and counters after an abort (R286 steps 1 and 2), the phase set to `p`: `IDLE`, or `OP` where
`GetTransceiveState` swallows the error. -/
def State.abortTo (s : State) (p : Phase) : State := (s.releaseCs.goto p).clearCounters

/-- The abort effects of R286, the analog of trap entry: the operation ends with `Err(e)`. -/
def State.abort (s : State) (e : OpError) : State := (s.abortTo .idle).deliver (.err e)

/-- Set a fault bit; it is never cleared (R290). -/
def FaultSet.insert (fs : FaultSet) : FaultKind → FaultSet
  | .oversizedRead => { fs with oversizedRead := true }
  | .bootOrder => { fs with bootOrder := true }
  | .rfNotOn => { fs with rfNotOn := true }
  | .transportPrecondition => { fs with transportPrecondition := true }

/-- `fault F` (R290): the bit is set, chip-select released if asserted, the phase HALTED. No outcome. -/
def State.takeFault (s : State) (f : FaultKind) : State :=
  (State.releaseCs { s with faults := s.faults.insert f }).goto .halted

/-- The normal return of R289: the phase is IDLE again and `Ok(value)` is delivered. The counters are 0 as R312 and
vector T1 show (log 9). -/
def State.finish (s : State) (v : Value) : State := ((s.goto .idle).clearCounters).deliver (.ok v)

/-- What an operation asks for on entry (R289): `Reset` nothing, the tag commands the field on, all others a completed
`Reset`. -/
inductive Gate where
  | cold
  | booted
  | rfConfirmed
deriving DecidableEq, Repr

/-- The entry check of R289 after the phase test: the fault it records, if any. -/
def State.entryFault (s : State) (g : Gate) : Option FaultKind :=
  if g ≠ .cold ∧ s.initialized = false then some .bootOrder
  else if g = .rfConfirmed ∧ s.rfOn = false then some .rfNotOn
  else none

/-- A procedure's end as the end of the host operation. -/
def concludeWith : EStateM.Result Stop State Value → Host.Outcome State Fault Refusal
  | .ok v t => .next (t.finish v)
  | .error (.err e) t => .next (t.abort e)
  | .error (.halt f) t => .next (t.takeFault f)
  | .error (.stuck r) _ => .fault r

/-- A host operation from its entry check to its end (R289, R291, R316). -/
def runOperation (g : Gate) (body : Proc Value) (s : State) : Host.Outcome State Fault Refusal :=
  if s.phase = .halted then .fault .halted
  else if s.phase = .idle then
    match s.entryFault g with
    | some f => .next (s.takeFault f)
    | none => concludeWith (body (s.goto .op))
  else .fault .operationInProgress

end Sys2Proof.Machine
end

