-- ==== Sys2Proof/Machine/Operands.lean ====
section
/-! DEFINITION. Operand forms: the named EEPROM fields (R47) by address, the admission tests the
operations make on their operands (R63, R165, R166, R167), and the length fields taken from register values (R44). -/

namespace Sys2Proof.Machine

/-- The named EEPROM fields of R47. -/
inductive EepromField where
  | dieIdentifier | productVersion | firmwareVersion | eepromVersion | irqPinConfig
deriving DecidableEq, Repr

/-- The start addresses of R47. No field length is in the spec (I3); the host gives the length. -/
def EepromField.addr : EepromField → Byte
  | .dieIdentifier => 0x00
  | .productVersion => 0x10
  | .firmwareVersion => 0x12
  | .eepromVersion => 0x14
  | .irqPinConfig => 0x1A

/-- The admission of an EEPROM read, over unbounded naturals (R63, R165). -/
def eepromAdmitted (addr len : Byte) : Bool :=
  decide (addr.toNat ≤ Config.eepromLimit) && decide (addr.toNat + len.toNat ≤ Config.eepromLimit)

/-- The admission of a Send-Data payload and its valid-bits byte (R167). -/
def sendAdmitted (payload : List Byte) (b : Byte) : Bool :=
  decide (payload.length ≤ Config.maxSendPayload) && decide (b.toNat ≤ 7)

/-- The admission of a Read-Data length (R166). -/
def readAdmitted (n : Nat) : Bool := decide (n ≤ Config.rxBufferSize)

/-- The length of the last response: RX-Status `[8:0]` (R44, R223). -/
def rxLength (rxStatus : Word) : Nat := (rxStatus.extractLsb' 0 9).toNat

end Sys2Proof.Machine
end

