-- ==== Sys2Proof/Machine/Flags.lean ====
section
/-! DEFINITION. Flag computations: the IRQ-Status bits and masks (R41, R204), the transceive-state code (R43), the tag
response flags and error codes (R111, R112, R226, R227), the system-info flags (R113). -/

namespace Sys2Proof.Machine

/-- The named IRQ-Status flags of R41. -/
inductive IrqFlag where
  | receiveEnd | transmitEnd | idle | rfOffDetected | rfOnDetected | pcdRfOff | pcdRfOn | sofDetected
deriving DecidableEq, Repr

/-- The bit positions of R41. -/
def IrqFlag.bit : IrqFlag → Nat
  | .receiveEnd => 0
  | .transmitEnd => 1
  | .idle => 2
  | .rfOffDetected => 6
  | .rfOnDetected => 7
  | .pcdRfOff => 8
  | .pcdRfOn => 9
  | .sofDetected => 14

/-- The mask of one flag (R41). -/
def IrqFlag.mask (f : IrqFlag) : Word := 1#32 <<< f.bit

/-- The flag as read from an IRQ-Status value. -/
def IrqFlag.isSet (f : IrqFlag) (irq : Word) : Bool := irq.getLsbD f.bit

/-- The flags cleared after a successful tag command: SOF-detected, idle, transmit-end, receive-end (R204, R228). -/
def tagClearMask : Word :=
  IrqFlag.sofDetected.mask ||| IrqFlag.idle.mask ||| IrqFlag.transmitEnd.mask ||| IrqFlag.receiveEnd.mask

/-- The mask `Reset` clears with: all flags (R204, R206). -/
def clearAllMask : Word := 0xFFFFFFFF

/-- `decode_ts` of the 3-bit code (R43). -/
def decodeTsCode (code : BitVec 3) : TransceiveState :=
  if code = 0 then .idle
  else if code = 1 then .waitTransmit
  else if code = 2 then .transmitting
  else if code = 3 then .waitReceive
  else if code = 4 then .waitForData
  else if code = 5 then .receiving
  else if code = 6 then .loopBack
  else .reserved

/-- The transceive state in an RF-Status value: bits `[26:24]` (R43, R202). -/
def decodeTs (rfStatus : Word) : TransceiveState := decodeTsCode (rfStatus.extractLsb' 24 3)

/-- The error flag of a tag response: bit 0 of the response flags (R111, R226). No other bit has an effect. -/
def responseError (flags : Byte) : Bool := flags.getLsbD 0

/-- `decode_err(c)`, tested in the order of R227. -/
def decodeErr (c : Byte) : TagErrorCode :=
  if 0xA0 ≤ c.toNat then .custom c
  else if c = 0x01 then .notSupported
  else if c = 0x02 then .notRecognized
  else if c = 0x03 then .optionNotSupported
  else if c = 0x0F then .unknown
  else if c = 0x10 then .blockNotAvailable
  else if c = 0x11 then .blockAlreadyLocked
  else if c = 0x12 then .blockIsLocked
  else if c = 0x13 then .blockNotProgrammed
  else if c = 0x14 then .blockNotLocked
  else .undefined

/-- The optional fields of Get-System-Info (R113), in their fixed order. -/
inductive InfoFlag where
  | dsfid | afi | memorySize | icReference
deriving DecidableEq, Repr

/-- The bit positions of R113. -/
def InfoFlag.bit : InfoFlag → Nat
  | .dsfid => 0
  | .afi => 1
  | .memorySize => 2
  | .icReference => 3

/-- Whether the info flags announce the field (R113). Bits 4 to 7 are ignored. -/
def InfoFlag.isSet (f : InfoFlag) (info : Byte) : Bool := info.getLsbD f.bit

/-- `numBlocks = nb + 1` (R233, R234). -/
def numBlocksOf (nb : Byte) : Nat := nb.toNat + 1

/-- `blockSize = (bs & 0x1F) + 1` (R233, R234). -/
def blockSizeOf (bs : Byte) : Nat := (bs &&& 0x1F).toNat + 1

end Sys2Proof.Machine
end

