-- ==== Sys2Proof/Machine/Transport.lean ====
section
/-! DEFINITION. The transport controller (40_transport.md): the bounded busy wait of R132 and the exchange of one command
frame of R130, line by line. -/

namespace Sys2Proof.Machine

/-- The loop of `WaitBusy(target)` (R132). The first argument bounds the recursion; it never ends the loop before the
sample count does. -/
def waitBusyLoop (target : Bool) : Nat → Proc Unit
  | 0 => do
    let s ← current
    raise (.busyTimeout s.phase)
  | n + 1 => do
    let sample ← readBusy
    update fun s => s.setPolls (s.polls + 1)
    let s ← current
    if sample = target then pure ()
    else if s.polls = Config.busyPollLimit then raise (.busyTimeout s.phase)
    else do
      update State.sleep
      waitBusyLoop target n

/-- `WaitBusy(target)` (R132): at least 1 and at most `BUSY_POLL_LIMIT` samples. -/
def waitBusy (target : Bool) : Proc Unit := do
  update fun s => s.setPolls 0
  waitBusyLoop target Config.busyPollLimit

/-- Assert chip-select in phase `p` (R130 steps 2 and 6). -/
def State.select (s : State) (p : Phase) : State := ((s.goto p).setCs true).settle .csSettle

/-- Release chip-select in phase `p` (R130 steps 4 and 6). -/
def State.release (s : State) (p : Phase) : State := ((s.goto p).setCs false).settle .csReleaseSettle

/-- `Xfer(o) -> i` in the command transaction: the peer shifts out a byte too, and it is discarded (R12, R130 step 2,
R134). -/
def State.sendByte (s : State) (o : Byte) : State :=
  (s.emitWith (.xfer o s.peer.elapse.drawDiscard.1) s.peer.elapse.drawDiscard.2).setXi (s.xi + 1)

/-- The byte loop of the command transaction (R130 step 2). -/
def sendBytes : List Byte → Proc Unit
  | [] => pure ()
  | o :: rest => do
    update fun s => s.sendByte o
    sendBytes rest

/-- Where the received bytes go (R130): the scratch buffer (only for Read-Data), or a buffer of the calling operation. -/
inductive Destination where
  | scratch
  | transient
deriving DecidableEq, Repr

/-- `Xfer(RX_FILLER)`: the peer's reply byte (R12, R130 step 6). -/
def exchangeFiller : Proc Byte := fun s =>
  .ok (s.peer.elapse.drawReply s.xi).1
    (s.emitWith (.xfer Config.rxFiller (s.peer.elapse.drawReply s.xi).1) (s.peer.elapse.drawReply s.xi).2)

/-- `dst[S.xi] <- b` (R130 step 6). -/
def storeReply (dst : Destination) (b : Byte) : Proc Unit :=
  match dst with
  | .scratch => do
    let s ← current
    memWrite s.xi [b]
  | .transient => pure ()

/-- The byte loop of the receive transaction (R130 step 6). -/
def receiveBytes (dst : Destination) : Nat → Proc (List Byte)
  | 0 => pure []
  | n + 1 => do
    let b ← exchangeFiller
    storeReply dst b
    update fun s => s.setXi (s.xi + 1)
    let rest ← receiveBytes dst n
    pure (b :: rest)

/-- The peer executed the frame, or did not: after a timeout in `T_WAIT_BUSY` or `T_WAIT_DONE` this is unknown (R287). -/
def State.maybeExecuted (s : State) (frame : List Byte) : State :=
  s.setPeer (if s.peer.drawExecuted.1 then s.peer.drawExecuted.2.act (·.execute frame) else s.peer.drawExecuted.2)

/-- A wait after the frame has been sent: its timeout leaves the peer's execution unknown (R287). -/
def waitBusySent (target : Bool) (frame : List Byte) : Proc Unit := fun s =>
  match waitBusy target s with
  | .ok u t => .ok u t
  | .error e t => .error e (t.maybeExecuted frame)

/-- Steps 1 to 4 of R130: the command transaction with the waits around it. The peer's effect is complete with the last
"not busy" (R75, R160). -/
def exchangeCommand (frame : List Byte) : Proc Unit := do
  update fun s => s.goto .tWaitReady
  waitBusy false
  update fun s => s.select .tSelect
  update fun s => (s.goto .tSend).setXi 0
  sendBytes frame
  update fun s => s.goto .tWaitBusy
  waitBusySent true frame
  update fun s => s.release .tRelease
  update fun s => s.goto .tWaitDone
  waitBusySent false frame
  update fun s => s.setPeer (s.peer.act (·.execute frame))

/-- Step 6 of R130: the receive transaction. It has no wait for "busy" (R131, C4). From its beginning to the last byte there are
`rl + 2` primitives: `SetCS`, `Settle` and the exchanges. -/
def exchangeResponse (frame : List Byte) (rl : Nat) (dst : Destination) : Proc (List Byte) := do
  let began ← current
  update fun s => s.select .rSelect
  update fun s => (s.goto .rRecv).setXi 0
  let reply ← receiveBytes dst rl
  update fun s => s.setPeer (s.peer.answered began.peer frame reply (rl + 2))
  update fun s => s.release .rRelease
  update fun s => s.goto .rWaitDone
  waitBusy false
  pure reply

/-- `Transceive(send, rl, dst)` (R130). On return the operation is outside any transaction, phase `OP` (R21; log 10). -/
def transceive (frame : List Byte) (rl : Nat) (dst : Destination) : Proc (List Byte) :=
  if frame.length = 0 ∨ Config.maxFrame < frame.length ∨ Config.rxBufferSize < rl then halt .transportPrecondition
  else do
    exchangeCommand frame
    if rl = 0 then do
      update fun s => s.goto .op
      pure []
    else do
      let reply ← exchangeResponse frame rl dst
      update fun s => s.goto .op
      pure reply

end Sys2Proof.Machine
end

