-- ==== Sys2Proof/Machine/Access.lean ====
section
/-! DEFINITION. The access multiplexer (41_register_access.md) and the interrupt-status reads it rests on: the procedures
of R161 to R171, R200 to R202, and the meanings of the host operations. -/

namespace Sys2Proof.Machine

/-! ## Procedures -/

/-- One write-only exchange cycle: `Transceive(frame, 0, none)` (R130 step 5). -/
def sendFrame (frame : List Byte) : Proc Unit := do
  let _ ← transceive frame 0 .transient
  pure ()

/-- `WriteRegister(a, v)` (R161). -/
def writeRegister (a : Byte) (v : Word) : Proc Unit := sendFrame (frameWriteRegister a v)

/-- `WriteRegisterOr(a, m)` (R162). -/
def writeRegisterOr (a : Byte) (m : Word) : Proc Unit := sendFrame (frameWriteRegisterOrMask a m)

/-- `WriteRegisterAnd(a, m)` (R163). -/
def writeRegisterAnd (a : Byte) (m : Word) : Proc Unit := sendFrame (frameWriteRegisterAndMask a m)

/-- The value of a register response: `le32(r0, r1, r2, r3)` (R65, R164). `Transceive` returns four bytes. -/
def responseWord : List Byte → Word
  | [r0, r1, r2, r3] => le32 r0 r1 r2 r3
  | _ => 0

/-- `ReadRegister(a)` (R164). -/
def readRegister (a : Byte) : Proc Word := do
  let r ← transceive (frameReadRegister a) 4 .transient
  pure (responseWord r)

/-- `GetIrqStatus()` (R200). -/
def getIrqStatus : Proc Word := readRegister PeerRegister.irqStatus.addr

/-- `ClearIrqStatus(m)` (R201): one write to IRQ-Clear. -/
def clearIrqStatus (m : Word) : Proc Unit := writeRegister PeerRegister.irqClear.addr m

/-- `GetTransceiveState()` (R202): a `BusyTimeout` is swallowed, with its abort effects, and reads as `Idle` (R286). -/
def getTransceiveState : Proc TransceiveState := fun s =>
  match readRegister PeerRegister.rfStatus.addr s with
  | .ok v t => .ok (decodeTs v) t
  | .error (.err (.busyTimeout _)) t => .ok .idle (t.abortTo .op)
  | .error e t => .error e t

/-- The loop of `WaitIrq(k, limit)` (R171). -/
def waitIrqLoop (flag : IrqFlag) (limit : Nat) : Nat → Proc Unit
  | 0 => raise (.irqWaitTimeout flag.bit)
  | n + 1 => do
    let irq ← getIrqStatus
    update fun s => s.setIrqPolls (s.irqPolls + 1)
    let s ← current
    if flag.isSet irq = true then pure ()
    else if s.irqPolls = limit then raise (.irqWaitTimeout flag.bit)
    else do
      update State.sleep
      waitIrqLoop flag limit n

/-- `WaitIrq(k, limit)` (R171): at most `limit` IRQ-status reads (D4; log 15 for a limit of 0). -/
def waitIrq (flag : IrqFlag) (limit : Nat) : Proc Unit := do
  update fun s => s.setIrqPolls 0
  waitIrqLoop flag limit limit

/-- `ReadEeprom(addr, len)` (R165). -/
def readEeprom (addr len : Byte) : Proc (List Byte) := do
  require (eepromAdmitted addr len) .outOfRange
  transceive (frameReadEeprom addr len) len.toNat .transient

/-- `ReadData(n)` once its length is admitted (R166, R26): the exchange into the scratch buffer, and what it returns. -/
def fetchData (n : Nat) : Proc (List Byte) := do
  update fun s => s.setValid 0
  let _ ← transceive frameReadData n .scratch
  update fun s => s.setValid n
  memRead 0 n

/-- `ReadData(n)` (R166): an oversized length is fatal. -/
def readData (n : Nat) : Proc (List Byte) :=
  if readAdmitted n = true then fetchData n else halt .oversizedRead

/-- `SendData(payload, b)` (R167), in its normative order. -/
def sendData (payload : List Byte) (b : Byte) : Proc Unit := do
  require (sendAdmitted payload b) .outOfRange
  writeRegisterAnd PeerRegister.systemConfig.addr Config.cmdClearMask
  writeRegisterOr PeerRegister.systemConfig.addr Config.cmdTransceive
  let st ← getTransceiveState
  require (decide (st = .waitTransmit)) .notReady
  sendFrame (frameSendData b payload)

/-- `SetRfOn()` (R168). -/
def setRfOn : Proc Unit := do
  sendFrame frameRfOn
  let s ← current
  waitIrq .pcdRfOn s.params.irqPollLimit
  clearIrqStatus IrqFlag.pcdRfOn.mask
  update fun s => s.setRfOn true

/-- `SetRfOff()` (R169). -/
def setRfOff : Proc Unit := do
  sendFrame frameRfOff
  let s ← current
  waitIrq .pcdRfOff s.params.irqPollLimit
  clearIrqStatus IrqFlag.pcdRfOff.mask
  update fun s => s.setRfOn false

/-- `LoadRfConfig(t, r)` (R170). -/
def loadRfConfig (t r : Byte) : Proc Unit := sendFrame (frameLoadRfConfig t r)

/-! ## Meanings -/

/-- A procedure without a result, as an operation that returns `()`. -/
def returningUnit (p : Proc Unit) : Proc Value := do
  p
  pure .unit

/-- A procedure that returns a 32-bit value. -/
def returningWord (p : Proc Word) : Proc Value := do
  let v ← p
  pure (.word v)

/-- A procedure that returns bytes. -/
def returningBytes (p : Proc (List Byte)) : Proc Value := do
  let bs ← p
  pure (.bytes bs)

/-- WRITE_REG (R161). -/
def execWriteReg (a : Byte) (v : Word) (s : State) : Host.Outcome State Fault Refusal :=
  runOperation .booted (returningUnit (writeRegister a v)) s

/-- WRITE_REG_OR (R162). -/
def execWriteRegOr (a : Byte) (m : Word) (s : State) : Host.Outcome State Fault Refusal :=
  runOperation .booted (returningUnit (writeRegisterOr a m)) s

/-- WRITE_REG_AND (R163). -/
def execWriteRegAnd (a : Byte) (m : Word) (s : State) : Host.Outcome State Fault Refusal :=
  runOperation .booted (returningUnit (writeRegisterAnd a m)) s

/-- READ_REG (R164). -/
def execReadReg (a : Byte) (s : State) : Host.Outcome State Fault Refusal :=
  runOperation .booted (returningWord (readRegister a)) s

/-- READ_EEPROM, the host operation (R165). -/
def execReadEeprom (addr len : Byte) (s : State) : Host.Outcome State Fault Refusal :=
  runOperation .booted (returningBytes (readEeprom addr len)) s

/-- SEND_DATA, the host operation (R167). -/
def execSendData (payload : List Byte) (b : Byte) (s : State) : Host.Outcome State Fault Refusal :=
  runOperation .booted (returningUnit (sendData payload b)) s

/-- READ_DATA, the host operation (R166). -/
def execReadData (n : Nat) (s : State) : Host.Outcome State Fault Refusal :=
  runOperation .booted (returningBytes (readData n)) s

/-- LOAD_RF_CONFIG, the host operation (R170). -/
def execLoadRfConfig (t r : Byte) (s : State) : Host.Outcome State Fault Refusal :=
  runOperation .booted (returningUnit (loadRfConfig t r)) s

/-- RF_ON, the host operation (R168). -/
def execRfOn (s : State) : Host.Outcome State Fault Refusal := runOperation .booted (returningUnit setRfOn) s

/-- RF_OFF, the host operation (R169). -/
def execRfOff (s : State) : Host.Outcome State Fault Refusal := runOperation .booted (returningUnit setRfOff) s

end Sys2Proof.Machine
end

