-- ==== Sys2Proof/Machine/Monitor.lean ====
section
/-! DEFINITION. The interrupt-status monitor and the reset (42_irq_monitor.md): the meanings of GET_IRQ, CLEAR_IRQ, GET_TS
and RESET. -/

namespace Sys2Proof.Machine

/-- `Reset()` (R206): the record of the field is dropped, the reset line driven Low and High (R205), the idle flag awaited
and every flag cleared. -/
def resetPeer : Proc Unit := do
  update fun s => s.setRfOn false
  update fun s => (s.setRst .low).settle .resetHold
  update fun s => (s.setRst .high).settle .resetHold
  let s ← current
  waitIrq .idle s.params.resetPollLimit
  clearIrqStatus clearAllMask
  update fun s => s.setInitialized true

/-- GET_IRQ (R200). -/
def execGetIrq (s : State) : Host.Outcome State Fault Refusal := runOperation .booted (returningWord getIrqStatus) s

/-- CLEAR_IRQ (R201). -/
def execClearIrq (m : Word) (s : State) : Host.Outcome State Fault Refusal :=
  runOperation .booted (returningUnit (clearIrqStatus m)) s

/-- A procedure that returns a transceive state. -/
def returningTransceiveState (p : Proc TransceiveState) : Proc Value := do
  let t ← p
  pure (.transceiveState t)

/-- GET_TS (R202). -/
def execGetTs (s : State) : Host.Outcome State Fault Refusal :=
  runOperation .booted (returningTransceiveState getTransceiveState) s

/-- RESET (R206), the one operation admitted before a completed `Reset` (R289). -/
def execReset (s : State) : Host.Outcome State Fault Refusal := runOperation .cold (returningUnit resetPeer) s

end Sys2Proof.Machine
end

