-- ==== Sys2Proof/Machine/Tag.lean ====
section
/-! DEFINITION. The tag-protocol sequencer (43_tag_protocol.md): the shared sequencer of R221, the response parsers of R226
to R233, and the meanings of INVENTORY, READ_BLOCK, WRITE_BLOCK, GET_SYSINFO and SETUP_RF. -/

namespace Sys2Proof.Machine

/-! ## Response parsers -/

/-- Step 6 of R221 on the response bytes: the flags test, the error byte, or the bytes after the flags (R226, R229). -/
def parseResponse : List Byte → Except OpError (List Byte)
  | [] => .error .malformedResponse
  | flags :: rest =>
    if responseError flags = true then
      match rest with
      | [] => .error .malformedResponse
      | c :: _ => .error (.tagError (decodeErr c))
    else .ok rest

/-- Inventory's payload: the DSFID, then the UID in wire order (R230). -/
def parseInventory (p : List Byte) : Except OpError Value :=
  if p.length < 9 then .error .malformedResponse else .ok (.bytes ((p.drop 1).take 8))

/-- Read-Single-Block's payload (R231). -/
def parseBlock (blockSize : Nat) (p : List Byte) : Except OpError Value :=
  if p.length < blockSize then .error .malformedResponse else .ok (.bytes (p.take blockSize))

/-- `take(1)` of R233 where the field is announced: the field, and the bytes after it. -/
def takeField (present : Bool) (p : List Byte) : Except OpError (Option Byte × List Byte) :=
  if present = true then
    match p with
    | b :: rest => .ok (some b, rest)
    | [] => .error .malformedResponse
  else .ok (none, p)

/-- `take(2)` of R233 where the memory size is announced: number of blocks and block size, and the bytes after it. -/
def takeMemorySize (present : Bool) (p : List Byte) : Except OpError (Option (Nat × Nat) × List Byte) :=
  if present = true then
    match p with
    | nb :: bs :: rest => .ok (some (numBlocksOf nb, blockSizeOf bs), rest)
    | _ => .error .malformedResponse
  else .ok (none, p)

/-- The optional fields after the UID, in their fixed order (R113, R233). -/
def parseInfoFields (info : Byte) (p : List Byte) : Except OpError SystemInfo :=
  match takeField (InfoFlag.dsfid.isSet info) p with
  | .error e => .error e
  | .ok (dsfid, p) =>
    match takeField (InfoFlag.afi.isSet info) p with
    | .error e => .error e
    | .ok (afi, p) =>
      match takeMemorySize (InfoFlag.memorySize.isSet info) p with
      | .error e => .error e
      | .ok (mem, p) =>
        match takeField (InfoFlag.icReference.isSet info) p with
        | .error e => .error e
        | .ok (icRef, _) =>
          .ok { dsfid := dsfid
                afi := afi
                numBlocks := mem.map fun m => m.1
                blockSize := mem.map fun m => m.2
                icRef := icRef
                memSize := mem.map fun m => m.2 * m.1 }

/-- Get-System-Info's payload: the info flags, the UID (skipped), the optional fields (R233). -/
def parseSystemInfo (p : List Byte) : Except OpError Value :=
  if p.length < 9 then .error .malformedResponse
  else
    match p with
    | [] => .error .malformedResponse
    | info :: rest =>
      match parseInfoFields info (rest.drop 8) with
      | .error e => .error e
      | .ok r => .ok (.systemInfo r)

/-! ## The shared sequencer -/

/-- `IssueTagCommand(req)` (R221) with the command's own parser of the payload (R230 to R233). A `MalformedResponse` of
that parser clears no flag either (R228, R295, R321, D27), so it runs before the clear of step 7; the pseudocode, which
runs it after, is not followed there (log 29). -/
def issueTagCommand (req : List Byte) (parser : List Byte → Except OpError Value) : Proc Value := do
  sendData req 0
  update fun s => s.settle .sofSettle
  let irq ← getIrqStatus
  require (IrqFlag.sofDetected.isSet irq) .noCardDetected
  let rxs ← readRegister PeerRegister.rxStatus.addr
  let resp ← readData (rxLength rxs)
  let irq2 ← getIrqStatus
  require (IrqFlag.sofDetected.isSet irq2) .noCardDetected
  let payload ← fromParser (parseResponse resp)
  let v ← fromParser (parser payload)
  clearIrqStatus tagClearMask
  pure v

/-- `SetupRf()` (R235). -/
def setupRf : Proc Unit := do
  loadRfConfig Config.rfProfileTx Config.rfProfileRx
  setRfOn
  writeRegisterAnd PeerRegister.systemConfig.addr Config.cmdClearMask
  writeRegisterOr PeerRegister.systemConfig.addr Config.cmdTransceive

/-! ## Meanings -/

/-- INVENTORY (R230). -/
def execInventory (s : State) : Host.Outcome State Fault Refusal :=
  runOperation .rfConfirmed (issueTagCommand requestInventory parseInventory) s

/-- READ_BLOCK (R231). -/
def execReadBlock (uid : Uid) (blockNo : Byte) (blockSize : Nat) (s : State) : Host.Outcome State Fault Refusal :=
  runOperation .rfConfirmed (issueTagCommand (requestReadSingleBlock uid blockNo) (parseBlock blockSize)) s

/-- WRITE_BLOCK (R232): the payload of a successful response is ignored. -/
def execWriteBlock (uid : Uid) (blockNo : Byte) (data : List Byte) (s : State) : Host.Outcome State Fault Refusal :=
  runOperation .rfConfirmed (issueTagCommand (requestWriteSingleBlock uid blockNo data) fun _ => .ok .unit) s

/-- GET_SYSINFO (R233). -/
def execGetSysinfo (uid : Uid) (s : State) : Host.Outcome State Fault Refusal :=
  runOperation .rfConfirmed (issueTagCommand (requestGetSystemInfo uid) parseSystemInfo) s

/-- SETUP_RF (R235). -/
def execSetupRf (s : State) : Host.Outcome State Fault Refusal := runOperation .booted (returningUnit setupRf) s

end Sys2Proof.Machine
end

