-- ==== Sys2Proof/Machine/Commands.lean ====
section
/-! DEFINITION. The encoded layers as instructions (log 1): a direct command is one `Transceive` of its frame (R92 to R101,
R130); a tag request that the controller builds is one `IssueTagCommand` of its frame (R110, R221); a tag code that the
controller never builds is refused by name (R241 to R251). Each is admitted by the entry check of R289. -/

namespace Sys2Proof.Machine

/-! ## Direct commands -/

/-- WRITE_REGISTER, opcode 0x00 (R92). -/
def execCmdWriteRegister (a : Byte) (v : Word) (s : State) : Host.Outcome State Fault Refusal :=
  runOperation .booted (returningUnit (writeRegister a v)) s

/-- WRITE_REGISTER_OR_MASK, opcode 0x01 (R93). -/
def execCmdWriteRegisterOrMask (a : Byte) (m : Word) (s : State) : Host.Outcome State Fault Refusal :=
  runOperation .booted (returningUnit (writeRegisterOr a m)) s

/-- WRITE_REGISTER_AND_MASK, opcode 0x02 (R94). -/
def execCmdWriteRegisterAndMask (a : Byte) (m : Word) (s : State) : Host.Outcome State Fault Refusal :=
  runOperation .booted (returningUnit (writeRegisterAnd a m)) s

/-- READ_REGISTER, opcode 0x04 (R95). -/
def execCmdReadRegister (a : Byte) (s : State) : Host.Outcome State Fault Refusal :=
  runOperation .booted (returningWord (readRegister a)) s

/-- READ_EEPROM, opcode 0x07 (R96), admitted by R63. -/
def execCmdReadEeprom (e l : Byte) (s : State) : Host.Outcome State Fault Refusal :=
  runOperation .booted (returningBytes (readEeprom e l)) s

/-- SEND_DATA, opcode 0x09 (R97): the frame alone. A frame over 262 bytes is the fault of R130. -/
def execCmdSendData (b : Byte) (payload : List Byte) (s : State) : Host.Outcome State Fault Refusal :=
  runOperation .booted (returningUnit (sendFrame (frameSendData b payload))) s

/-- READ_DATA, opcode 0x0A (R98), into the scratch buffer. A receive length over 508 is the fault of R130. -/
def execCmdReadData (n : Nat) (s : State) : Host.Outcome State Fault Refusal :=
  runOperation .booted (returningBytes (fetchData n)) s

/-- LOAD_RF_CONFIG, opcode 0x11 (R99). -/
def execCmdLoadRfConfig (t r : Byte) (s : State) : Host.Outcome State Fault Refusal :=
  runOperation .booted (returningUnit (loadRfConfig t r)) s

/-- RF_ON, opcode 0x16 (R100): the command alone, so the field is not confirmed on (R28). -/
def execCmdRfOn (s : State) : Host.Outcome State Fault Refusal :=
  runOperation .booted (returningUnit (sendFrame frameRfOn)) s

/-- RF_OFF, opcode 0x17 (R101): the command alone. -/
def execCmdRfOff (s : State) : Host.Outcome State Fault Refusal :=
  runOperation .booted (returningUnit (sendFrame frameRfOff)) s

/-! ## Tag requests the controller builds -/

/-- The payload as it is. -/
def parsePayload (payload : List Byte) : Except OpError Value := .ok (.bytes payload)

/-- TAG_INVENTORY, code 0x01 (R110, R221): the payload. -/
def execTagInventory (s : State) : Host.Outcome State Fault Refusal :=
  runOperation .rfConfirmed (issueTagCommand requestInventory parsePayload) s

/-- TAG_READ_SINGLE_BLOCK, code 0x20 (R110, R221): the payload. -/
def execTagReadSingleBlock (uid : Uid) (blockNo : Byte) (s : State) : Host.Outcome State Fault Refusal :=
  runOperation .rfConfirmed (issueTagCommand (requestReadSingleBlock uid blockNo) parsePayload) s

/-- TAG_WRITE_SINGLE_BLOCK, code 0x21 (R110, R221): the payload. -/
def execTagWriteSingleBlock (uid : Uid) (blockNo : Byte) (data : List Byte) (s : State) :
    Host.Outcome State Fault Refusal :=
  runOperation .rfConfirmed (issueTagCommand (requestWriteSingleBlock uid blockNo data) parsePayload) s

/-- TAG_GET_SYSTEM_INFO, code 0x2B (R110, R221): the payload. -/
def execTagGetSystemInfo (uid : Uid) (s : State) : Host.Outcome State Fault Refusal :=
  runOperation .rfConfirmed (issueTagCommand (requestGetSystemInfo uid) parsePayload) s

/-! ## Tag codes the controller never builds: "Any term naming it is refused" -/

/-- Refused by name, in every state (R241 to R251, I16). -/
def refuseTagCode (c : TagCode) : Host.Outcome State Fault Refusal := .refused (.tagCodeNeverBuilt c.code)

/-- TAG_STAY_QUIET, code 0x02 (R241). -/
def execTagStayQuiet (_s : State) : Host.Outcome State Fault Refusal := refuseTagCode .stayQuiet

/-- TAG_LOCK_BLOCK, code 0x22 (R242). -/
def execTagLockBlock (_s : State) : Host.Outcome State Fault Refusal := refuseTagCode .lockBlock

/-- TAG_READ_MULTIPLE_BLOCKS, code 0x23 (R243). -/
def execTagReadMultipleBlocks (_s : State) : Host.Outcome State Fault Refusal := refuseTagCode .readMultipleBlocks

/-- TAG_WRITE_MULTIPLE_BLOCK, code 0x24 (R244). -/
def execTagWriteMultipleBlock (_s : State) : Host.Outcome State Fault Refusal := refuseTagCode .writeMultipleBlock

/-- TAG_SELECT, code 0x25 (R245). -/
def execTagSelect (_s : State) : Host.Outcome State Fault Refusal := refuseTagCode .select

/-- TAG_RESET_TO_READY, code 0x26 (R246). -/
def execTagResetToReady (_s : State) : Host.Outcome State Fault Refusal := refuseTagCode .resetToReady

/-- TAG_WRITE_AFI, code 0x27 (R247). -/
def execTagWriteAfi (_s : State) : Host.Outcome State Fault Refusal := refuseTagCode .writeAfi

/-- TAG_LOCK_AFI, code 0x28 (R248). -/
def execTagLockAfi (_s : State) : Host.Outcome State Fault Refusal := refuseTagCode .lockAfi

/-- TAG_WRITE_DSFID, code 0x29 (R249). -/
def execTagWriteDsfid (_s : State) : Host.Outcome State Fault Refusal := refuseTagCode .writeDsfid

/-- TAG_LOCK_DSFID, code 0x2A (R250). -/
def execTagLockDsfid (_s : State) : Host.Outcome State Fault Refusal := refuseTagCode .lockDsfid

/-- TAG_GET_MULTIPLE_BLOCK_SECURITY_STATUS, code 0x2C (R251). -/
def execTagGetMultipleBlockSecurityStatus (_s : State) : Host.Outcome State Fault Refusal :=
  refuseTagCode .getMultipleBlockSecurityStatus

end Sys2Proof.Machine
end

