-- ==== Sys2Proof/Machine/Fetch.lean ====
section
/-! DEFINITION. How the controller comes to its next instruction: the host's request at the head of the queue. There is no
instruction memory and no instruction fetch (R60); a program is a list of requests (R119). Log 2. -/

namespace Sys2Proof.Machine

/-- The request at the head of the queue and its decoding; none if the host has issued nothing. -/
def State.fetch (s : State) : Option (Except DecodeError Instr) :=
  match s.queue with
  | [] => none
  | r :: _ => some (decode r)

/-- A step with no request: an idle controller stays as it is (R21); a halted one is stuck (R291). Log 3. -/
def stepWithoutRequest (s : State) : Host.Outcome State Fault Refusal :=
  if s.phase = .halted then .fault .halted
  else if s.phase = .idle then .next s
  else .fault .operationInProgress

/-- A step with a request that is no instruction: a halted controller is stuck, any other refuses (R103, R115, R118). -/
def stepUndecodable (e : DecodeError) (s : State) : Host.Outcome State Fault Refusal :=
  if s.phase = .halted then .fault .halted else .refused (.undecodable e)

/-- The host issues a request before all others. -/
def State.issue (s : State) (r : Request) : State := { s with queue := r :: s.queue }

end Sys2Proof.Machine
end

