-- ==== Sys2Proof/Machine/Dispatch.lean ====
section
/-! DEFINITION. One arm per row of spec/opcode_table.json, each one direct call of its meaning. -/

namespace Sys2Proof.Machine

def exec (i : Instr) (s : State) : Host.Outcome State Fault Refusal :=
  match i with
  -- direct commands (R102)
  | .cmdWriteRegister a v => Sys2Proof.Machine.execCmdWriteRegister a v s
  | .cmdWriteRegisterOrMask a m => Sys2Proof.Machine.execCmdWriteRegisterOrMask a m s
  | .cmdWriteRegisterAndMask a m => Sys2Proof.Machine.execCmdWriteRegisterAndMask a m s
  | .cmdReadRegister a => Sys2Proof.Machine.execCmdReadRegister a s
  | .cmdReadEeprom e l => Sys2Proof.Machine.execCmdReadEeprom e l s
  | .cmdSendData b payload => Sys2Proof.Machine.execCmdSendData b payload s
  | .cmdReadData n => Sys2Proof.Machine.execCmdReadData n s
  | .cmdLoadRfConfig t r => Sys2Proof.Machine.execCmdLoadRfConfig t r s
  | .cmdRfOn => Sys2Proof.Machine.execCmdRfOn s
  | .cmdRfOff => Sys2Proof.Machine.execCmdRfOff s
  -- tag requests (R114)
  | .tagInventory => Sys2Proof.Machine.execTagInventory s
  | .tagStayQuiet _ _ => Sys2Proof.Machine.execTagStayQuiet s
  | .tagReadSingleBlock uid blockNo => Sys2Proof.Machine.execTagReadSingleBlock uid blockNo s
  | .tagWriteSingleBlock uid blockNo data => Sys2Proof.Machine.execTagWriteSingleBlock uid blockNo data s
  | .tagLockBlock _ _ => Sys2Proof.Machine.execTagLockBlock s
  | .tagReadMultipleBlocks _ _ => Sys2Proof.Machine.execTagReadMultipleBlocks s
  | .tagWriteMultipleBlock _ _ => Sys2Proof.Machine.execTagWriteMultipleBlock s
  | .tagSelect _ _ => Sys2Proof.Machine.execTagSelect s
  | .tagResetToReady _ _ => Sys2Proof.Machine.execTagResetToReady s
  | .tagWriteAfi _ _ => Sys2Proof.Machine.execTagWriteAfi s
  | .tagLockAfi _ _ => Sys2Proof.Machine.execTagLockAfi s
  | .tagWriteDsfid _ _ => Sys2Proof.Machine.execTagWriteDsfid s
  | .tagLockDsfid _ _ => Sys2Proof.Machine.execTagLockDsfid s
  | .tagGetSystemInfo uid => Sys2Proof.Machine.execTagGetSystemInfo uid s
  | .tagGetMultipleBlockSecurityStatus _ _ => Sys2Proof.Machine.execTagGetMultipleBlockSecurityStatus s
  -- host operations (R118)
  | .writeReg a v => Sys2Proof.Machine.execWriteReg a v s
  | .writeRegOr a m => Sys2Proof.Machine.execWriteRegOr a m s
  | .writeRegAnd a m => Sys2Proof.Machine.execWriteRegAnd a m s
  | .readReg a => Sys2Proof.Machine.execReadReg a s
  | .readEeprom addr len => Sys2Proof.Machine.execReadEeprom addr len s
  | .sendData payload b => Sys2Proof.Machine.execSendData payload b s
  | .readData n => Sys2Proof.Machine.execReadData n s
  | .loadRfConfig t r => Sys2Proof.Machine.execLoadRfConfig t r s
  | .rfOn => Sys2Proof.Machine.execRfOn s
  | .rfOff => Sys2Proof.Machine.execRfOff s
  | .getIrq => Sys2Proof.Machine.execGetIrq s
  | .clearIrq m => Sys2Proof.Machine.execClearIrq m s
  | .getTs => Sys2Proof.Machine.execGetTs s
  | .reset => Sys2Proof.Machine.execReset s
  | .inventory => Sys2Proof.Machine.execInventory s
  | .readBlock uid blockNo blockSize => Sys2Proof.Machine.execReadBlock uid blockNo blockSize s
  | .writeBlock uid blockNo data => Sys2Proof.Machine.execWriteBlock uid blockNo data s
  | .getSysinfo uid => Sys2Proof.Machine.execGetSysinfo uid s
  | .setupRf => Sys2Proof.Machine.execSetupRf s

end Sys2Proof.Machine
end

