-- ==== Sys2Proof/Machine/Text.lean ====
section
/-! DEFINITION. The textual syntax of programs (30_encoding.md R119): "a list of host operations, one per line, written
OPERATION operand, operand, …", numbers decimal or hexadecimal with 0x, byte sequences in brackets. Log 18. -/

namespace Sys2Proof.Machine

/-- The operation names of R119, in upper-case snake form. -/
def opNames : List (String × OpName) :=
  [("WRITE_REG", .writeReg), ("WRITE_REG_OR", .writeRegOr), ("WRITE_REG_AND", .writeRegAnd), ("READ_REG", .readReg),
   ("READ_EEPROM", .readEeprom), ("SEND_DATA", .sendData), ("READ_DATA", .readData),
   ("LOAD_RF_CONFIG", .loadRfConfig), ("RF_ON", .rfOn), ("RF_OFF", .rfOff), ("GET_IRQ", .getIrq),
   ("CLEAR_IRQ", .clearIrq), ("GET_TS", .getTs), ("RESET", .reset), ("INVENTORY", .inventory),
   ("READ_BLOCK", .readBlock), ("WRITE_BLOCK", .writeBlock), ("GET_SYSINFO", .getSysinfo), ("SETUP_RF", .setupRf)]

/-- The operation of a name, as characters. -/
def opNameOf (cs : List Char) : Option OpName :=
  (opNames.find? fun e => e.1.toList == cs).map fun e => e.2

/-- The tokens of a line. -/
inductive Token where
  | word (cs : List Char)
  | comma
  | bracketLeft
  | bracketRight
deriving DecidableEq, Repr

/-- The word read so far, as a token. -/
def flushWord (acc : List Char) (ts : List Token) : List Token :=
  match acc with
  | [] => ts
  | _ => .word acc.reverse :: ts

/-- A line as tokens; blanks only separate. The second argument holds the word being read, last character first. -/
def tokenize : List Char → List Char → List Token
  | [], acc => flushWord acc []
  | c :: cs, acc =>
    if c = ' ' then flushWord acc (tokenize cs [])
    else if c = ',' then flushWord acc (.comma :: tokenize cs [])
    else if c = '[' then flushWord acc (.bracketLeft :: tokenize cs [])
    else if c = ']' then flushWord acc (.bracketRight :: tokenize cs [])
    else tokenize cs (c :: acc)

/-- The value of a digit. -/
def digitValue (c : Char) : Option Nat :=
  if '0' ≤ c ∧ c ≤ '9' then some (c.toNat - 48)
  else if 'a' ≤ c ∧ c ≤ 'f' then some (c.toNat - 87)
  else if 'A' ≤ c ∧ c ≤ 'F' then some (c.toNat - 55)
  else none

/-- Digits in a base, most significant first. -/
def digitsValue (base : Nat) : List Char → Nat → Option Nat
  | [], acc => some acc
  | c :: cs, acc =>
    match digitValue c with
    | some d => if d < base then digitsValue base cs (acc * base + d) else none
    | none => none

/-- A number: "hexadecimal with 0x or decimal" (R119). -/
def numberOf : List Char → Option Nat
  | '0' :: 'x' :: c :: cs => digitsValue 16 (c :: cs) 0
  | c :: cs => digitsValue 10 (c :: cs) 0
  | [] => none

/-- A number that is a byte. -/
def byteOf (cs : List Char) : Option Byte :=
  match numberOf cs with
  | some n => if n < 256 then some (BitVec.ofNat 8 n) else none
  | none => none

/-- What the operand reader expects next; the bytes of an open bracket, last first. -/
inductive Expecting where
  | firstOperand
  | operand
  | commaOrEnd
  | firstByte
  | byte (acc : List Byte)
  | commaOrBracket (acc : List Byte)
deriving DecidableEq, Repr

/-- The operands of a line. -/
def operandsOf : List Token → Expecting → Option (List Operand)
  | [], .firstOperand => some []
  | [], .commaOrEnd => some []
  | [], _ => none
  | .word w :: ts, .firstOperand =>
    match numberOf w with
    | some n => (operandsOf ts .commaOrEnd).map fun os => .num n :: os
    | none => none
  | .word w :: ts, .operand =>
    match numberOf w with
    | some n => (operandsOf ts .commaOrEnd).map fun os => .num n :: os
    | none => none
  | .bracketLeft :: ts, .firstOperand => operandsOf ts .firstByte
  | .bracketLeft :: ts, .operand => operandsOf ts .firstByte
  | .comma :: ts, .commaOrEnd => operandsOf ts .operand
  | .bracketRight :: ts, .firstByte => (operandsOf ts .commaOrEnd).map fun os => .bytes [] :: os
  | .word w :: ts, .firstByte =>
    match byteOf w with
    | some b => operandsOf ts (.commaOrBracket [b])
    | none => none
  | .word w :: ts, .byte acc =>
    match byteOf w with
    | some b => operandsOf ts (.commaOrBracket (b :: acc))
    | none => none
  | .comma :: ts, .commaOrBracket acc => operandsOf ts (.byte acc)
  | .bracketRight :: ts, .commaOrBracket acc => (operandsOf ts .commaOrEnd).map fun os => .bytes acc.reverse :: os
  | _ :: _, _ => none

/-- A line of a program as a host term. -/
def parseLine (line : String) : Option Term :=
  match tokenize line.toList [] with
  | .word w :: ts =>
    match opNameOf w, operandsOf ts .firstOperand with
    | some name, some os => some ⟨name, os⟩
    | _, _ => none
  | _ => none

/-- A program, a line each, as the requests a host issues (R119). -/
def parseProgram : List String → Option (List Request)
  | [] => some []
  | line :: lines =>
    match parseLine line, parseProgram lines with
    | some t, some rs => some (.term t :: rs)
    | _, _ => none

/-- A program loaded from outside: the host's requests stand in the queue. Log 2. -/
def State.loadProgram (s : State) (program : List Request) : State := { s with queue := program }

end Sys2Proof.Machine
end

