-- ==== Sys2Proof/Machine/Step.lean ====
section
/-! DEFINITION. One step: the controller takes the host's next request and runs it to its end. The host cannot observe the
states in between (R316); every primitive of the run stands in the wire trace. -/

namespace Sys2Proof.Machine

/-- The step. -/
def step (s : State) : Host.Outcome State Fault Refusal :=
  match s.fetch with
  | none => stepWithoutRequest s
  | some (.error e) => stepUndecodable e s
  | some (.ok i) => exec i s.popRequest

/-- `s` with a word of the opcode table issued as the next request. -/
def State.withFetchWord (s : State) (nbits w : Nat) : State := s.issue (requestOfWord nbits w)

end Sys2Proof.Machine
end

