-- ==== Sys2Proof/Safety.lean ====
section
/-! DEFINITION. What counts as a safe run, and the vocabulary that claims use: the rules of the wire trace, the invariant
of the machine, the peer's answers in one exchange cycle, and the exchanges of each operation. -/

namespace Sys2Proof.Machine

/-! ## The wire trace -/

/-- The phases in which chip-select may be asserted (R22). -/
def Phase.selected : Phase → Bool
  | .tSelect => true
  | .tSend => true
  | .tWaitBusy => true
  | .rSelect => true
  | .rRecv => true
  | .idle => false
  | .op => false
  | .tWaitReady => false
  | .tRelease => false
  | .tWaitDone => false
  | .rRelease => false
  | .rWaitDone => false
  | .halted => false

/-- What a byte exchange obeys: chip-select is asserted (R12); in `T_SEND` the first byte of a frame is an opcode of R102
(R103); in `R_RECV` the filler goes out (R134). -/
def Event.xferOk (e : Event) (sent : Byte) : Bool :=
  e.cs && ((e.phase == .tSend && (e.xi != 0 || (Opcode.ofByte sent).isSome)) ||
    (e.phase == .rRecv && sent == Config.rxFiller))

/-- The rules of one event: chip-select only in the phases of R22, byte exchanges as `xferOk` says, and the reset line
driven only outside any transaction (R23). -/
def Event.ok (e : Event) : Bool :=
  (!e.cs || e.phase.selected) &&
    match e.action with
    | .xfer sent _ => e.xferOk sent
    | .setRst _ => e.phase == .op
    | .readBusy _ => true
    | .setCs _ => true
    | .sleep => true
    | .settle _ => true

/-- One more byte of the frame being sent. -/
def appendToLast (b : Byte) : List (List Byte) → List (List Byte)
  | [] => [[b]]
  | [f] => [f ++ [b]]
  | f :: fs => f :: appendToLast b fs

/-- The command frames so far, one event later: byte 0 of a command transaction begins a frame. -/
def addToFrames (frames : List (List Byte)) (e : Event) : List (List Byte) :=
  match e.phase, e.action with
  | .tSend, .xfer sent _ => if e.xi = 0 then frames ++ [[sent]] else appendToLast sent frames
  | _, _ => frames

/-- The command frames of a wire trace, in order (R319). -/
def sentFrames (wire : List Event) : List (List Byte) := wire.foldl addToFrames []

/-- The register that Write-Register at address `a` changes: IRQ-Clear's mask acts on IRQ-Status (R42, R46). -/
def writtenRegister (a : Byte) : Byte := if a = addrIrqClear then addrIrqStatus else a

/-- The reset-line levels driven in a wire trace, in order. -/
def resetLevels (wire : List Event) : List Level :=
  wire.filterMap fun e =>
    match e.action with
    | .setRst l => some l
    | .readBusy _ => none
    | .setCs _ => none
    | .xfer _ _ => none
    | .sleep => none
    | .settle _ => none

/-- The events of a command transaction's exchanges from counter value `xi` on: each byte sent with the byte that the peer
shifted out meanwhile, which is discarded (R12, R130 step 2). -/
def sendEvents (p : Phase) (cs : Bool) : Nat → List (Byte × Byte) → List Event
  | _, [] => []
  | xi, x :: xs => ⟨p, cs, xi, .xfer x.1 x.2⟩ :: sendEvents p cs (xi + 1) xs

/-- The events of the bytes received from counter value `xi` on. -/
def receiveEvents (p : Phase) (cs : Bool) : Nat → List Byte → List Event
  | _, [] => []
  | xi, b :: bs => ⟨p, cs, xi, .xfer Config.rxFiller b⟩ :: receiveEvents p cs (xi + 1) bs

/-- The events of a busy wait in phase `p` that is met after `k` unmet samples (R132). -/
def waitEvents (p : Phase) (cs : Bool) (xi : Nat) (target : Bool) : Nat → List Event
  | 0 => [⟨p, cs, xi, .readBusy target⟩]
  | k + 1 => ⟨p, cs, xi, .readBusy (!target)⟩ :: ⟨p, cs, xi, .sleep⟩ :: waitEvents p cs xi target k

/-- The events of a busy wait in phase `p` of which no sample is the awaited value (R132). -/
def missEvents (p : Phase) (cs : Bool) (xi : Nat) (target : Bool) : Nat → List Event
  | 0 => []
  | 1 => [⟨p, cs, xi, .readBusy (!target)⟩]
  | n + 2 => ⟨p, cs, xi, .readBusy (!target)⟩ :: ⟨p, cs, xi, .sleep⟩ :: missEvents p cs xi target (n + 1)

/-- The events of a command transaction with its waits, begun with chip-select and byte counter as given (R130 steps 1
to 4). -/
def commandEvents (cs : Bool) (xi : Nat) (exchanged : List (Byte × Byte)) (ready busy done : Nat) : List Event :=
  waitEvents .tWaitReady cs xi false ready
    ++ [⟨.tSelect, true, xi, .setCs true⟩, ⟨.tSelect, true, xi, .settle .csSettle⟩]
    ++ sendEvents .tSend true 0 exchanged
    ++ waitEvents .tWaitBusy true exchanged.length true busy
    ++ [⟨.tRelease, false, exchanged.length, .setCs false⟩,
      ⟨.tRelease, false, exchanged.length, .settle .csReleaseSettle⟩]
    ++ waitEvents .tWaitDone false exchanged.length false done

/-- The events of a receive transaction with its wait, from counter value `xi` on (R130 step 6). -/
def responseEvents (xi : Nat) (reply : List Byte) (finish : Nat) : List Event :=
  [⟨.rSelect, true, xi, .setCs true⟩, ⟨.rSelect, true, xi, .settle .csSettle⟩]
    ++ receiveEvents .rRecv true 0 reply
    ++ [⟨.rRelease, false, reply.length, .setCs false⟩, ⟨.rRelease, false, reply.length, .settle .csReleaseSettle⟩]
    ++ waitEvents .rWaitDone false reply.length false finish

/-! ## The invariant -/

/-- Some fault bit is set. -/
def FaultSet.any (fs : FaultSet) : Bool := fs.oversizedRead || fs.bootOrder || fs.rfNotOn || fs.transportPrecondition

/-- What holds of the record at every line of every procedure: the canonical forms, the ranges of R20 (log 11), the valid
scratch bytes (R26), the field only after a completed Reset (R289), and the rules of the wire trace. -/
structure State.Sound (s : State) : Prop where
  scratch_wf : s.scratch.wf = true
  valid_le : s.scratchValid ≤ Config.rxBufferSize
  valid_written : ∀ a, a < s.scratchValid → (cellsRead s.scratch a).isSome = true
  polls_le : s.polls ≤ Config.busyPollLimit
  irqPolls_le : s.irqPolls ≤ max s.params.irqPollLimit s.params.resetPollLimit
  xi_le : s.xi ≤ Config.rxBufferSize
  regs_rising : cellsRising s.peer.chip.regs = true
  rf_initialized : s.rfOn = true → s.initialized = true
  cs_selected : s.cs = true → s.phase.selected = true
  wire_ok : ∀ e ∈ s.wire, e.ok = true

/-- The invariant between host operations: the record is sound, chip-select released, and the controller is either IDLE
with its counters at 0 and no fault, or HALTED with one (R22, R286, R290). -/
structure State.Inv (s : State) : Prop where
  sound : s.Sound
  cs_released : s.cs = false
  phase_boundary : s.phase = .idle ∨ s.phase = .halted
  idle_clear : s.phase = .idle → s.polls = 0 ∧ s.irqPolls = 0 ∧ s.xi = 0
  halted_iff_fault : s.phase = .halted ↔ s.faults.any = true

/-- A safe state: the controller has not halted (R291: a run that reaches HALTED "refutes any claim"). -/
def State.Safe (s : State) : Prop := s.phase ≠ .halted

/-- A host's program: host operations only (R118: "no raw frame can reach the peer"). -/
def State.HostOnly (s : State) : Prop := ∀ r ∈ s.queue, ∃ t : Term, r = .term t

/-! ## Frames -/

/-- The scratch buffer is unchanged, byte by byte, and so is the count of valid bytes (R25, R26). -/
def State.KeepsScratch (s t : State) : Prop :=
  t.scratchValid = s.scratchValid ∧ ∀ a, cellsRead t.scratch a = cellsRead s.scratch a

/-- The reset line and `initialized` are unchanged, and the line has not been driven (R23, R27). -/
def State.KeepsBoot (s t : State) : Prop :=
  t.rst = s.rst ∧ resetLevels t.wire = resetLevels s.wire ∧ t.initialized = s.initialized

/-- The record of the field is unchanged (R28). -/
def State.KeepsField (s t : State) : Prop := t.rfOn = s.rfOn

/-- The parameters and the requests not yet begun are unchanged; the faults too, unless the machine halts, and then none is
cleared (R290). -/
def State.KeepsRest (s t : State) : Prop :=
  t.params = s.params ∧ t.queue = s.queue ∧
    (t.faults = s.faults ∨ t.phase = .halted ∧ ∃ f, t.faults = s.faults.insert f)

/-- The peer changes nothing by itself: "assuming no intervening mutation" (R46). A value that a read answers counts as what
the register held (log 12). A masking of IRQ-Status by IRQ-Enable (R294), too, would be a change of the peer's own (log 32). -/
def Peer.Quiet (p : Peer) : Prop := p.events = [] ∧ p.restless = false

/-- Of a quiet peer's registers only those listed may hold another value, or be known where they were not (R40, R46). -/
def State.KeepsRegistersBut (s t : State) (listed : List Byte) : Prop :=
  s.peer.Quiet → ∀ b : Byte, b ∉ listed → cellsRead t.peer.chip.regs b.toNat = cellsRead s.peer.chip.regs b.toNat

/-- No flag of a quiet peer's IRQ-Status that was set is cleared (R295). -/
def State.KeepsFlags (s t : State) : Prop :=
  s.peer.Quiet → ∀ u, cellsRead s.peer.chip.regs 0x02 = some u →
    ∃ v, cellsRead t.peer.chip.regs 0x02 = some v ∧ u &&& v = u

/-- A quiet peer's EEPROM is unchanged (R47). -/
def State.KeepsEeprom (s t : State) : Prop := s.peer.Quiet → t.peer.chip.eeprom = s.peer.chip.eeprom

/-- A quiet peer's transmit buffer is unchanged (R49). -/
def State.KeepsTransmit (s t : State) : Prop := s.peer.Quiet → t.peer.chip.tx = s.peer.chip.tx

/-- A quiet peer's receive buffer is unchanged (R49). -/
def State.KeepsReceive (s t : State) : Prop := s.peer.Quiet → t.peer.chip.rx = s.peer.chip.rx

/-- A quiet peer's RF profile is unchanged (R170). -/
def State.KeepsProfile (s t : State) : Prop := s.peer.Quiet → t.peer.chip.rfConfig = s.peer.chip.rfConfig

/-- A quiet peer's field as last commanded is unchanged (R168, R169). -/
def State.KeepsCommand (s t : State) : Prop := s.peer.Quiet → t.peer.chip.rfField = s.peer.chip.rfField

/-! ## A peer that answers within the bounds -/

/-- How many unmet samples each wait of one exchange cycle sees before the awaited value (R130, R132). -/
structure Pace where
  ready : Nat
  busy : Nat
  done : Nat
  finish : Nat
deriving DecidableEq, Repr

/-- Every wait is met within its bound (R132). -/
def Pace.bounded (p : Pace) : Bool :=
  decide (p.ready < Config.busyPollLimit) && decide (p.busy < Config.busyPollLimit)
    && decide (p.done < Config.busyPollLimit) && decide (p.finish < Config.busyPollLimit)

/-- The BUSY samples of one wait that is met after `k` unmet ones. -/
def waitSamples (target : Bool) (k : Nat) : List Bool := List.replicate k (!target) ++ [target]

/-- The BUSY samples of a write-only exchange cycle: "not busy", "busy", "not busy" (R130 steps 1, 3, 4). -/
def Pace.write (p : Pace) : List Bool :=
  waitSamples false p.ready ++ waitSamples true p.busy ++ waitSamples false p.done

/-- The BUSY samples of an exchange cycle with a receive phase: one more "not busy" (R130 step 6). -/
def Pace.read (p : Pace) : List Bool := p.write ++ waitSamples false p.finish

/-- The four phases in which an exchange cycle waits (R130, R132). -/
def waitPhases : List Phase := [.tWaitReady, .tWaitBusy, .tWaitDone, .rWaitDone]

/-- The BUSY samples of an exchange cycle whose wait in the phase `ph` is not met within its bound (R132). -/
def Pace.timeout (p : Pace) (ph : Phase) : List Bool :=
  match ph with
  | .tWaitReady => List.replicate Config.busyPollLimit true
  | .tWaitBusy => waitSamples false p.ready ++ List.replicate Config.busyPollLimit false
  | .tWaitDone => waitSamples false p.ready ++ waitSamples true p.busy ++ List.replicate Config.busyPollLimit true
  | .rWaitDone => p.write ++ List.replicate Config.busyPollLimit true
  | .idle | .op | .tSelect | .tSend | .tRelease | .rSelect | .rRecv | .rRelease | .halted => []

/-- The peer's part in one exchange cycle: its samples, and the bytes it answers in the receive transaction. -/
structure Turn where
  pace : Pace
  reply : List Byte
deriving DecidableEq, Repr

/-- The BUSY samples of a cycle; one without a reply is write-only (R130 step 5). -/
def Turn.samples (t : Turn) : List Bool := if t.reply = [] then t.pace.write else t.pace.read

/-- A write-only cycle. -/
def Pace.silent (p : Pace) : Turn := ⟨p, []⟩

/-- A Read-Register cycle in which the peer answers `v`. -/
def Pace.answer (p : Pace) (v : Word) : Turn := ⟨p, bytesLe32 v⟩

/-- A Read-Data or Read-EEPROM cycle in which the peer answers `bs`. -/
def Pace.reply (p : Pace) (bs : List Byte) : Turn := ⟨p, bs⟩

/-- The BUSY samples of several cycles in a row. -/
def turnSamples (ts : List Turn) : List Bool := ts.flatMap Turn.samples

/-- Reply bytes the peer answers whatever it holds. -/
def answers (bs : List Byte) : List Reply := bs.map .byte

/-- The reply bytes drawn in an exchange cycle that times out in the phase `ph`: its bytes have been received only in the
last wait. -/
def Phase.replies (ph : Phase) (bs : List Byte) : List Reply := if ph = .rWaitDone then answers bs else []

/-- The frames sent in an exchange cycle that times out in the phase `ph`: none before the first wait is met. -/
def Phase.sends (ph : Phase) (frame : List Byte) : List (List Byte) := if ph = .tWaitReady then [] else [frame]

/-- The reply bytes of several cycles in a row. -/
def turnReplies (ts : List Turn) : List Reply := ts.flatMap fun t => answers t.reply

/-- The peer's coming answers are the cycles `ts`, every wait met within its bound; then `busy` and `replies`. -/
structure Peer.Plays (p : Peer) (ts : List Turn) (busy : List Bool) (replies : List Reply) : Prop where
  bounded : ∀ t ∈ ts, t.pace.bounded = true
  busy : p.busy = turnSamples ts ++ busy
  replies : p.replies = turnReplies ts ++ replies

/-- The state after an operation with outcome `o`, but for the fields that the operation itself changes: IDLE, the lines and
counters of R286 and R312, the outcome delivered, the peer and the trace as given. -/
def State.completed (s : State) (o : OpOutcome) (p : Peer) (w : List Event) : State :=
  { s with
    phase := .idle, cs := false, polls := 0, irqPolls := 0, xi := 0
    peer := p, delivered := s.delivered ++ [o], wire := w }

/-- The scratch buffer after a `ReadData` that received `bs` (R166). -/
def State.received (s : State) (bs : List Byte) : State :=
  { s with scratch := s.scratch.write 0 bs, scratchValid := bs.length }

/-- Reads of IRQ-Status that the peer answers with the given words. -/
def irqTurns (reads : List (Pace × Word)) : List Turn := reads.map fun m => m.1.answer m.2

/-- A command frame, the reads of an IRQ wait that ends with `hit`, and the clear of the flag (R168, R169). -/
def switchTurns (send : Pace) (misses : List (Pace × Word)) (hit : Pace × Word) (clear : Pace) : List Turn :=
  send.silent :: (irqTurns (misses ++ [hit]) ++ [clear.silent])

/-- What the peer answers in the nine cycles of a tag command (R221), one field per cycle: its samples and its answer. -/
structure TagTurns where
  clearMask : Pace
  setMask : Pace
  state : Pace × Word
  send : Pace
  irq : Pace × Word
  length : Pace × Word
  response : Pace × List Byte
  irqAgain : Pace × Word
  clear : Pace

/-- The four cycles of `SendData`. -/
def TagTurns.sending (t : TagTurns) : List Turn :=
  [t.clearMask.silent, t.setMask.silent, t.state.1.answer t.state.2, t.send.silent]

/-- The cycles up to the second read of IRQ-Status. -/
def TagTurns.reading (t : TagTurns) : List Turn :=
  t.sending ++ [t.irq.1.answer t.irq.2, t.length.1.answer t.length.2, t.response.1.reply t.response.2,
    t.irqAgain.1.answer t.irqAgain.2]

/-- All nine. -/
def TagTurns.all (t : TagTurns) : List Turn := t.reading ++ [t.clear.silent]

/-- The peer is ready to transmit, start-of-frame is set at both reads, and the response has the length announced. -/
def TagTurns.answered (t : TagTurns) : Bool :=
  decide (decodeTs t.state.2 = .waitTransmit) && t.irq.2.getLsbD 14 && t.irqAgain.2.getLsbD 14
    && decide (rxLength t.length.2 = t.response.2.length) && decide (t.response.2.length ≤ Config.rxBufferSize)

/-- The tag request of the eight instructions that carry one (R110, R230 to R233), byte by byte. -/
def tagRequestOf : Instr → Option (List Byte)
  | .inventory | .tagInventory => some [0x26, 0x01, 0x00]
  | .readBlock uid b _ | .tagReadSingleBlock uid b => some ([0x22, 0x20] ++ uid.bytes ++ [b])
  | .writeBlock uid b data | .tagWriteSingleBlock uid b data => some ([0x22, 0x21] ++ uid.bytes ++ [b] ++ data)
  | .getSysinfo uid | .tagGetSystemInfo uid => some ([0x22, 0x2B] ++ uid.bytes)
  | .cmdWriteRegister _ _ | .cmdWriteRegisterOrMask _ _ | .cmdWriteRegisterAndMask _ _ | .cmdReadRegister _
  | .cmdReadEeprom _ _ | .cmdSendData _ _ | .cmdReadData _ | .cmdLoadRfConfig _ _ | .cmdRfOn | .cmdRfOff
  | .tagStayQuiet _ _ | .tagLockBlock _ _ | .tagReadMultipleBlocks _ _ | .tagWriteMultipleBlock _ _ | .tagSelect _ _
  | .tagResetToReady _ _ | .tagWriteAfi _ _ | .tagLockAfi _ _ | .tagWriteDsfid _ _ | .tagLockDsfid _ _
  | .tagGetMultipleBlockSecurityStatus _ _ | .writeReg _ _ | .writeRegOr _ _ | .writeRegAnd _ _ | .readReg _
  | .readEeprom _ _ | .sendData _ _ | .readData _ | .loadRfConfig _ _ | .rfOn | .rfOff | .getIrq | .clearIrq _ | .getTs
  | .reset | .setupRf => none

/-- The frames of `SendData` before the Send-Data frame itself: the two mask writes and the read of RF-Status (R167). -/
def armingFrames : List (List Byte) :=
  [[0x02, 0x00, 0xF8, 0xFF, 0xFF, 0xFF], [0x01, 0x00, 0x03, 0x00, 0x00, 0x00], [0x04, 0x1D]]

/-- A payload too short for the command's own parser (R230, R231, R233): GET_SYSINFO's holds the info flags, the UID, and then
one byte each for the flags 0, 1 and 3, two for flag 2. -/
def PayloadTooShort (i : Instr) (payload : List Byte) : Prop :=
  (i = .inventory ∧ payload.length < 9) ∨ (∃ uid b n, i = .readBlock uid b n ∧ payload.length < n) ∨
    ∃ uid, i = .getSysinfo uid ∧ (payload.length < 9 ∨ ∃ info rest, payload = info :: rest ∧
      rest.length < 8 + ((if info.getLsbD 0 then 1 else 0) + (if info.getLsbD 1 then 1 else 0)
        + (if info.getLsbD 2 then 2 else 0) + if info.getLsbD 3 then 1 else 0))

/-! ## Operations exchange by exchange -/

/-- What the peer holds once it has executed a frame and answered. -/
def Chip.exchange (c : Chip) (frame reply : List Byte) : Chip := (c.execute frame).observe frame reply

/-- What the peer holds when an exchange has timed out in the phase `ph`: what it held before the frame was sent; the frame
executed or not, as the draw `x` says (R287); executed and answered. -/
def Chip.stalled (c : Chip) (frame reply : List Byte) (ph : Phase) (x : Bool) : Chip :=
  match ph with
  | .tWaitBusy | .tWaitDone => if x = true then c.execute frame else c
  | .rWaitDone => c.exchange frame reply
  | .idle | .op | .tWaitReady | .tSelect | .tSend | .tRelease | .rSelect | .rRecv | .rRelease | .halted => c

/-- One exchange of an operation: its command frame, the peer's part in it, and the record that a wait in it which is never
met leaves, beside the lines, counters, peer and trace (R286); `none` where such a wait does not end the operation: in the
read of RF-Status of `GetTransceiveState` (R202). -/
structure Exchange where
  frame : List Byte
  turn : Turn
  left : Option State

/-- What the peer holds after the exchange. -/
def Exchange.done (e : Exchange) (c : Chip) : Chip := c.exchange e.frame e.turn.reply

/-- The scratch buffer after a timeout of the exchange in the phase `ph`: only Read-Data's bytes go there, and they have been
received only in the last wait (R130). -/
def Exchange.stored (e : Exchange) (ph : Phase) (m : Memory) : Memory :=
  if e.frame = [0x0A, 0x00] ∧ ph = .rWaitDone then m.write 0 e.turn.reply else m

/-- The peer plays the exchanges `before` with every wait met, and then `e` up to its wait in the phase `ph`, which is not met
within its bound; then `busy` and `replies`. -/
structure Peer.Stalls (p : Peer) (before : List Exchange) (e : Exchange) (ph : Phase) (busy : List Bool)
    (replies : List Reply) : Prop where
  wait : ph ∈ waitPhases
  received : ph = .rWaitDone → e.turn.reply ≠ []
  before_bounded : ∀ x ∈ before, x.turn.pace.bounded = true
  bounded : e.turn.pace.bounded = true
  busy : p.busy = turnSamples (before.map (·.turn)) ++ (e.turn.pace.timeout ph ++ busy)
  replies : p.replies = turnReplies (before.map (·.turn)) ++ (ph.replies e.turn.reply ++ replies)

/-- Reads of IRQ-Status (R200). -/
def irqExchanges (u : State) (reads : List (Pace × Word)) : List Exchange :=
  reads.map fun m => ⟨[0x04, 0x02], m.1.answer m.2, some u⟩

/-- A clear of the flags of `mask` (R201). -/
def clearExchange (u : State) (mask : Word) (clear : Pace) : Exchange :=
  ⟨[0x00, 0x03] ++ bytesLe32 mask, clear.silent, some u⟩

/-- The exchanges of `SetRfOn` or `SetRfOff` (R168, R169): the command, the IRQ wait, the clear. -/
def switchExchanges (u : State) (frame : List Byte) (mask : Word) (send : Pace) (reads : List (Pace × Word))
    (clear : Pace) : List Exchange :=
  ⟨frame, send.silent, some u⟩ :: (irqExchanges u reads ++ [clearExchange u mask clear])

/-- The two mask writes to System-Config (R167, R235). -/
def armExchanges (u : State) (p1 p2 : Pace) : List Exchange :=
  [⟨[0x02, 0x00, 0xF8, 0xFF, 0xFF, 0xFF], p1.silent, some u⟩, ⟨[0x01, 0x00, 0x03, 0x00, 0x00, 0x00], p2.silent, some u⟩]

/-- The exchanges of `SendData` (R167). -/
def sendExchanges (u : State) (b : Byte) (payload : List Byte) (p1 p2 : Pace) (status : Pace × Word) (p4 : Pace) :
    List Exchange :=
  armExchanges u p1 p2 ++
    [⟨[0x04, 0x1D], status.1.answer status.2, none⟩, ⟨[0x09, b] ++ payload, p4.silent, some u⟩]

/-- The exchanges of a tag command up to its second read of IRQ-Status (R221). -/
def tagExchanges (s : State) (req : List Byte) (t : TagTurns) : List Exchange :=
  sendExchanges s 0x00 req t.clearMask t.setMask t.state t.send ++
    [⟨[0x04, 0x02], t.irq.1.answer t.irq.2, some s⟩, ⟨[0x04, 0x13], t.length.1.answer t.length.2, some s⟩,
      ⟨[0x0A, 0x00], t.response.1.reply t.response.2, some { s with scratchValid := 0 }⟩,
      ⟨[0x04, 0x02], t.irqAgain.1.answer t.irqAgain.2, some (s.received t.response.2)⟩]

/-- The exchanges, in order, of a run of `i` from `s` in which the peer answers so that the run gets that far: an IRQ wait that
ends within its bound, a peer that is ready to transmit, a start-of-frame and a response that can be read. -/
inductive Course (s : State) : Instr → List Exchange → Prop where
  | write {a t r : Byte} {v : Word} {i : Instr} {frame : List Byte} (pace : Pace)
      (h : (i, frame) ∈
        [(Instr.writeReg a v, [0x00, a] ++ bytesLe32 v), (.cmdWriteRegister a v, [0x00, a] ++ bytesLe32 v),
          (.writeRegOr a v, [0x01, a] ++ bytesLe32 v), (.cmdWriteRegisterOrMask a v, [0x01, a] ++ bytesLe32 v),
          (.writeRegAnd a v, [0x02, a] ++ bytesLe32 v), (.cmdWriteRegisterAndMask a v, [0x02, a] ++ bytesLe32 v),
          (.clearIrq v, [0x00, 0x03] ++ bytesLe32 v), (.loadRfConfig t r, [0x11, t, r]),
          (.cmdLoadRfConfig t r, [0x11, t, r]), (.cmdRfOn, [0x16, 0x00]), (.cmdRfOff, [0x17, 0x00])]) :
      Course s i [⟨frame, pace.silent, some s⟩]
  | sendCommand {b : Byte} {payload : List Byte} (pace : Pace) (h : payload.length ≤ 260) :
      Course s (.cmdSendData b payload) [⟨[0x09, b] ++ payload, pace.silent, some s⟩]
  | readWord {a : Byte} {i : Instr} {frame : List Byte} (pace : Pace) (bs : List Byte) (hl : bs.length = 4)
      (h : (i, frame) ∈
        [(Instr.readReg a, [0x04, a]), (.cmdReadRegister a, [0x04, a]), (.getIrq, [0x04, 0x02])]) :
      Course s i [⟨frame, pace.reply bs, some s⟩]
  | readEeprom {a l : Byte} {i : Instr} (pace : Pace) (bs : List Byte) (ha : a.toNat + l.toNat ≤ 254)
      (hl : bs.length = l.toNat) (h : i ∈ [Instr.readEeprom a l, .cmdReadEeprom a l]) :
      Course s i [⟨[0x07, a, l], pace.reply bs, some s⟩]
  | readData {i : Instr} (pace : Pace) (bs : List Byte) (hl : bs.length ≤ 508)
      (h : i ∈ [Instr.readData bs.length, .cmdReadData bs.length]) :
      Course s i [⟨[0x0A, 0x00], pace.reply bs, some { s with scratchValid := 0 }⟩]
  | sendData {b : Byte} {payload : List Byte} (p1 p2 : Pace) (status : Pace × Word) (p4 : Pace)
      (hl : payload.length ≤ 260) (hb : b.toNat ≤ 7) (h : status.2.extractLsb' 24 3 = 1) :
      Course s (.sendData payload b) (sendExchanges s b payload p1 p2 status p4)
  | rfOn (send clear : Pace) (misses : List (Pace × Word)) (hit : Pace × Word)
      (hl : misses.length < s.params.irqPollLimit) (hm : ∀ m ∈ misses, m.2.getLsbD 9 = false)
      (hh : hit.2.getLsbD 9 = true) :
      Course s .rfOn (switchExchanges s [0x16, 0x00] 0x00000200 send (misses ++ [hit]) clear)
  | rfOff (send clear : Pace) (misses : List (Pace × Word)) (hit : Pace × Word)
      (hl : misses.length < s.params.irqPollLimit) (hm : ∀ m ∈ misses, m.2.getLsbD 8 = false)
      (hh : hit.2.getLsbD 8 = true) :
      Course s .rfOff (switchExchanges s [0x17, 0x00] 0x00000100 send (misses ++ [hit]) clear)
  | setupRf (p1 send clear p2 p3 : Pace) (misses : List (Pace × Word)) (hit : Pace × Word)
      (hl : misses.length < s.params.irqPollLimit) (hm : ∀ m ∈ misses, m.2.getLsbD 9 = false)
      (hh : hit.2.getLsbD 9 = true) :
      Course s .setupRf (⟨[0x11, 0x0D, 0x8D], p1.silent, some s⟩ ::
        (switchExchanges s [0x16, 0x00] 0x00000200 send (misses ++ [hit]) clear
          ++ armExchanges { s with rfOn := true } p2 p3))
  | reset (clear : Pace) (misses : List (Pace × Word)) (hit : Pace × Word)
      (hl : misses.length < s.params.resetPollLimit) (hm : ∀ m ∈ misses, m.2.getLsbD 2 = false)
      (hh : hit.2.getLsbD 2 = true) :
      Course s .reset (irqExchanges { s with rst := .high, rfOn := false } (misses ++ [hit])
        ++ [clearExchange { s with rst := .high, rfOn := false } 0xFFFFFFFF clear])
  | tag {i : Instr} {req : List Byte} (t : TagTurns) (hi : tagRequestOf i = some req) (hr : req.length ≤ 260)
      (h1 : t.state.2.extractLsb' 24 3 = 1) (h2 : t.irq.2.getLsbD 14 = true)
      (h3 : rxLength t.length.2 = t.response.2.length) (h4 : t.response.2.length ≤ 508) :
      Course s i (tagExchanges s req t)
  | tagClear {i : Instr} {req : List Byte} (t : TagTurns) {flags : Byte} {payload : List Byte}
      (hi : tagRequestOf i = some req) (hr : req.length ≤ 260) (ha : t.answered = true)
      (hp : t.response.2 = flags :: payload) (hf : flags.getLsbD 0 = false) (hs : ¬ PayloadTooShort i payload) :
      Course s i (tagExchanges s req t ++ [clearExchange (s.received t.response.2) 0x00004007 t.clear])

end Sys2Proof.Machine
end

