-- ==== Sys2Proof/Certificates/Slice0/Obligations.lean ====
section
/-! DEFINITION. The statements for the provers. A docstring names the rules a statement formalises, and the decisions D<n> of
spec/92_eei_decisions.md or the log entries of notes/assumptions/ that it rests on. -/

open Sys2Proof Sys2Proof.Machine

/-! ## Encoding -/

/-- The frame layouts of R92 to R94: opcode, address, four little-endian bytes, receive length 0. -/
def Obligations.RegisterWriteFrames : Prop :=
  ∀ (a v0 v1 v2 v3 : Byte),
    decode (.frame [0x00, a, v0, v1, v2, v3] 0) = .ok (.cmdWriteRegister a (le32 v0 v1 v2 v3)) ∧
      decode (.frame [0x01, a, v0, v1, v2, v3] 0) = .ok (.cmdWriteRegisterOrMask a (le32 v0 v1 v2 v3)) ∧
      decode (.frame [0x02, a, v0, v1, v2, v3] 0) = .ok (.cmdWriteRegisterAndMask a (le32 v0 v1 v2 v3)) ∧
      (le32 v0 v1 v2 v3).toNat = v0.toNat + 256 * v1.toNat + 65536 * v2.toNat + 16777216 * v3.toNat

/-- A few words of the opcode table and what they stand for (R92 to R101, R110). -/
def Obligations.SampleWordsDecode : Prop :=
  decodeTableWord 48 0xA1B2C3D41100 = some (.cmdWriteRegister 0x11 0xA1B2C3D4) ∧
    decodeTableWord 16 0x0204 = some (.cmdReadRegister 0x02) ∧
    decodeTableWord 24 0x021207 = some (.cmdReadEeprom 0x12 0x02) ∧
    decodeTableWord 24 0x8D0D11 = some (.cmdLoadRfConfig 0x0D 0x8D) ∧
    decodeTableWord 8 0x16 = some .cmdRfOn ∧
    decode (.tagRequest [0x26, 0x01, 0x00]) = .ok .tagInventory ∧
    decode (.term ⟨.readEeprom, [.num 0x12, .num 2]⟩) = .ok (.readEeprom 0x12 0x02)

/-- Every well-formed instruction is what its encoding decodes to (30_encoding.md). -/
def Obligations.DecodeEncode : Prop := ∀ i : Instr, i.wellFormed = true → decode (encode i) = .ok i

/-- Whatever decodes is a well-formed instruction, and its encoding is the request it was decoded from: no two requests
decode to one instruction (30_encoding.md). -/
def Obligations.EncodeDecode : Prop :=
  ∀ (r : Request) (i : Instr), decode r = .ok i → i.wellFormed = true ∧ encode i = r

/-- An opcode byte outside R102 is no command, and a code byte outside R114 no tag request (D9). -/
def Obligations.ReservedCodesRejected : Prop :=
  (∀ (op : Byte) (ps : List Byte) (rl : Nat),
      op.toNat ∉ [0x00, 0x01, 0x02, 0x04, 0x07, 0x09, 0x0A, 0x11, 0x16, 0x17] →
      decode (.frame (op :: ps) rl) = .error (.reservedOpcode op)) ∧
    ∀ (flags code : Byte) (ps : List Byte),
      code.toNat ≠ 0x01 → code.toNat ≠ 0x02 → ¬ (0x20 ≤ code.toNat ∧ code.toNat ≤ 0x2C) →
      decode (.tagRequest (flags :: code :: ps)) = .error (.reservedTagCode code)

/-- The frame of a well-formed direct command is non-empty and at most 262 bytes (R91). -/
def Obligations.FrameBounds : Prop :=
  ∀ (i : Instr) (bs : List Byte) (rl : Nat), i.wellFormed = true → encode i = .frame bs rl →
    bs ≠ [] ∧ bs.length ≤ 262

/-! ## Reset, and what every step keeps -/

/-- The record at power-up (10_state.md §3; every value there is decision D41). The reset level is not stated (log 7), nor
any field that is the model's own. -/
def Obligations.ResetRecord : Prop :=
  State.reset.phase = .idle ∧ State.reset.cs = false ∧ State.reset.scratchValid = 0 ∧
    (∀ a, State.reset.scratchByte a = none) ∧ State.reset.initialized = false ∧ State.reset.rfOn = false ∧
    State.reset.faults = .empty ∧ State.reset.polls = 0 ∧ State.reset.irqPolls = 0 ∧ State.reset.xi = 0

/-- The invariant holds at power-up (10_state.md §3; D41). -/
def Obligations.ResetInv : Prop := State.reset.Inv

/-- Every step keeps the invariant: the canonical forms, the ranges of the record, chip-select only in the phases of R22,
only opcodes of R102 sent, IDLE with counters at 0 or HALTED with a fault (R22, R25, R26, R286, R289, R290; D8, D20, D30;
the ranges of the counters: log 11). -/
def Obligations.StepKeepsInv : Prop :=
  ∀ s t : State, s.Inv → step s = .next t → t.Inv

/-- Only `Reset` writes `S.rst` or drives the reset line (R23). -/
def Obligations.ResetLineOnlyByReset : Prop :=
  ∀ (i : Instr) (s t : State), i ≠ .reset → exec i s = .next t →
    t.rst = s.rst ∧ resetLevels t.wire = resetLevels s.wire

/-- `S.initialized` becomes true only by `Reset`, and nothing clears it (10_state.md R27, D30); `S.rf_on` changes only by
`SetRfOn`, `SetRfOff`, `SetupRf` and `Reset` (R28, D40). -/
def Obligations.RecordBitsOnlyByTheirOperations : Prop :=
  ∀ (i : Instr) (s t : State), exec i s = .next t →
    (i ≠ .reset → t.initialized = s.initialized) ∧ (s.initialized = true → t.initialized = true) ∧
      (t.rfOn ≠ s.rfOn → i = .rfOn ∨ i = .rfOff ∨ i = .setupRf ∨ i = .reset)

/-- No step clears a fault bit, and none leaves HALTED (60_exceptions.md R290, R291; D20). -/
def Obligations.FaultsNeverCleared : Prop :=
  ∀ s t : State, step s = .next t →
    s.phase ≠ .halted ∧
      (s.faults.oversizedRead = true → t.faults.oversizedRead = true) ∧
      (s.faults.bootOrder = true → t.faults.bootOrder = true) ∧
      (s.faults.rfNotOn = true → t.faults.rfNotOn = true) ∧
      (s.faults.transportPrecondition = true → t.faults.transportPrecondition = true)

/-! ## The step -/

/-- A step runs the instruction that the first request decodes to; the request leaves the queue (log 2). -/
def Obligations.StepRunsDecoded : Prop :=
  ∀ (s : State) (r : Request) (q : List Request) (i : Instr), s.queue = r :: q → decode r = .ok i →
    step s = exec i { s with queue := q }

/-- A well-formed instruction that is issued is the one that the step runs (log 2). -/
def Obligations.StepRunsIssued : Prop :=
  ∀ (s : State) (i : Instr), i.wellFormed = true → step (s.issue (encode i)) = exec i s

/-- Without a request an idle controller stays as it is (log 3); a request that is no instruction is refused by name. -/
def Obligations.StepOtherwise : Prop :=
  (∀ s : State, s.queue = [] → s.phase = .idle → step s = .next s) ∧
    ∀ (s : State) (r : Request) (q : List Request) (e : DecodeError), s.queue = r :: q → decode r = .error e →
      s.phase ≠ .halted → step s = .refused (.undecodable e)

/-! ## Admission (60_exceptions.md §2) -/

/-- A halted controller takes no step (60_exceptions.md R291, D20): no step has a next state, and every instruction that is
not refused by name is stuck. No operation is admitted while one is in progress (70_reset_and_hazards.md R316, D31). -/
def Obligations.StuckUnlessIdle : Prop :=
  ∀ s : State,
    (s.phase = .halted → (∀ t, step s ≠ .next t) ∧ ∀ i : Instr, i.neverBuilt = false → exec i s = .fault .halted) ∧
    (s.phase ≠ .idle → s.phase ≠ .halted → ∀ i : Instr, i.neverBuilt = false →
      exec i s = .fault .operationInProgress)

/-- The two faults of the entry check (R236, R289, R290; D30). Before the first completed `Reset` every operation but `Reset`
is BootOrder; a tag command without the field confirmed on is RfNotOn. The bit is set, the machine halts, and nothing else
changes. -/
def Obligations.EntryFaults : Prop :=
  ∀ (s : State) (i : Instr), s.phase = .idle → s.cs = false →
    (s.initialized = false → i ≠ .reset → i.neverBuilt = false →
      exec i s = .next { s with phase := .halted, faults := { s.faults with bootOrder := true } }) ∧
    (s.initialized = true → s.rfOn = false → tagRequestOf i ≠ none →
      exec i s = .next { s with phase := .halted, faults := { s.faults with rfNotOn := true } })

/-- An initialized idle controller admits every instruction that is not refused by name; a tag command while the field is
on (R289, D30). -/
def Obligations.AdmittedWhenReady : Prop :=
  ∀ (s : State) (i : Instr), s.phase = .idle → s.initialized = true → i.neverBuilt = false →
    (tagRequestOf i ≠ none → s.rfOn = true) →
    ∃ t, exec i s = .next t ∧ t.faults.bootOrder = s.faults.bootOrder ∧ t.faults.rfNotOn = s.faults.rfNotOn

/-- The eleven tag codes that the controller never builds are refused by name, in every state (R241 to R251: "never built
and never sent. Any term naming it is refused"; D9; log 20). -/
def Obligations.TagCodesRefused : Prop :=
  ∀ (s : State) (flags : Byte) (ps : List Byte),
    exec (.tagStayQuiet flags ps) s = .refused (.tagCodeNeverBuilt 0x02) ∧
    exec (.tagLockBlock flags ps) s = .refused (.tagCodeNeverBuilt 0x22) ∧
    exec (.tagReadMultipleBlocks flags ps) s = .refused (.tagCodeNeverBuilt 0x23) ∧
    exec (.tagWriteMultipleBlock flags ps) s = .refused (.tagCodeNeverBuilt 0x24) ∧
    exec (.tagSelect flags ps) s = .refused (.tagCodeNeverBuilt 0x25) ∧
    exec (.tagResetToReady flags ps) s = .refused (.tagCodeNeverBuilt 0x26) ∧
    exec (.tagWriteAfi flags ps) s = .refused (.tagCodeNeverBuilt 0x27) ∧
    exec (.tagLockAfi flags ps) s = .refused (.tagCodeNeverBuilt 0x28) ∧
    exec (.tagWriteDsfid flags ps) s = .refused (.tagCodeNeverBuilt 0x29) ∧
    exec (.tagLockDsfid flags ps) s = .refused (.tagCodeNeverBuilt 0x2A) ∧
    exec (.tagGetMultipleBlockSecurityStatus flags ps) s = .refused (.tagCodeNeverBuilt 0x2C)

/-! ## Outcomes (60_exceptions.md §1) -/

/-- Every instruction that takes a step ends IDLE with exactly one outcome and no new fault, or HALTED with a fault, chip-
select released and no outcome (R280, R286, R290; D8, D20). The host
sees one outcome more, that one as it is shown to a host (R132), or none. -/
def Obligations.OneOutcomeOrOneFault : Prop :=
  ∀ (i : Instr) (s t : State), exec i s = .next t →
    (t.phase = .idle ∧ t.faults = s.faults ∧ ∃ o, t.delivered = s.delivered ++ [o] ∧
        t.hostSees = s.hostSees ++ [o.seen]) ∨
      (t.phase = .halted ∧ t.cs = false ∧ t.delivered = s.delivered ∧ t.hostSees = s.hostSees ∧
        ∃ f, t.faults = s.faults.insert f)

/-- After an outcome is delivered the controller is IDLE and admits any host operation, the same one again included; no
state has to be restored (R288). -/
def Obligations.IdleAfterOutcome : Prop :=
  ∀ (i : Instr) (s t : State) (o : OpOutcome), exec i s = .next t → t.delivered = s.delivered ++ [o] →
    t.phase = .idle ∧ ∀ j : Instr, j.isHostOp = true → ∃ u, exec j t = .next u

/-- `OutOfRange` is raised before any transaction and changes nothing: but for the outcome itself the state is the one
before (R282). -/
def Obligations.OutOfRangeChangesNothing : Prop :=
  ∀ (i : Instr) (s t : State), s.Inv → exec i s = .next t → t.delivered = s.delivered ++ [.err .outOfRange] →
    t = { s with delivered := s.delivered ++ [.err .outOfRange] }

/-- `NoCardDetected` and `TagError` are results: no fault is recorded and the controller is IDLE (R237). -/
def Obligations.TagErrorsAreResults : Prop :=
  ∀ (i : Instr) (s t : State) (e : OpError), exec i s = .next t → t.delivered = s.delivered ++ [.err e] →
    (e = .noCardDetected ∨ ∃ c, e = .tagError c) → t.faults = s.faults ∧ t.phase = .idle

/-! ## The transport (40_transport.md) -/

/-- A busy wait takes 1 to 2000 samples: it ends at the first sample of the awaited value, or times out in its phase after
exactly 2000 without it (R132, D4); between two samples it sleeps. It changes nothing but the sample count, the peer's
coming samples and the trace, nor what a peer that changes nothing by itself holds. -/
def Obligations.BusyWaitBounded : Prop :=
  ∀ (target : Bool) (s : State),
    match waitBusy target s with
    | .ok _ t =>
      ∃ k p, k < 2000 ∧
        t = { s with polls := k + 1, peer := p, wire := s.wire ++ waitEvents s.phase s.cs s.xi target k } ∧
        p.busy = s.peer.busy.drop (k + 1) ∧ p.replies = s.peer.replies ∧ (s.peer.Quiet → p.chip = s.peer.chip)
    | .error e t =>
      e = .err (.busyTimeout s.phase) ∧
        ∃ p, t = { s with polls := 2000, peer := p, wire := s.wire ++ missEvents s.phase s.cs s.xi target 2000 } ∧
          p.busy = s.peer.busy.drop 2000 ∧ p.replies = s.peer.replies ∧ (s.peer.Quiet → p.chip = s.peer.chip)

/-- The handshake of one exchange cycle, event by event (R130, R131, R133; D6, D7): wait for "not busy", select, exchange
every byte of the frame for a byte of the peer, wait for "busy" with chip-select asserted, release, wait for "not busy";
then, with a receive length, select, exchange fillers, release, wait for "not busy", and no wait for "busy". The events are the
same wherever the received bytes go; they go to the scratch buffer from offset 0 on for Read-Data only (R25, R130). -/
def Obligations.HandshakeOrder : Prop :=
  ∀ (s : State) (frame : List Byte) (turn : Turn) (dst : Destination) (busy : List Bool) (replies : List Reply),
    frame ≠ [] → frame.length ≤ 262 → turn.reply.length ≤ 508 → s.peer.Plays [turn] busy replies →
    ∃ t exchanged, exchanged.map Prod.fst = frame ∧
      transceive frame turn.reply.length dst s = .ok turn.reply t ∧ t.cs = false ∧
      t.scratch = (match dst with | .scratch => s.scratch.write 0 turn.reply | .transient => s.scratch) ∧
      t.wire = s.wire ++ commandEvents s.cs s.xi exchanged turn.pace.ready turn.pace.busy turn.pace.done
        ++ if turn.reply = [] then [] else responseEvents frame.length turn.reply turn.pace.finish

/-- A transfer over the bounds is fatal before any byte is exchanged (R130, R166, R290; D9, D20): `ReadData(n)` with `n > 508`
is OversizedRead; the direct commands with a longer payload or receive length are TransportPrecondition (log 1). -/
def Obligations.OversizedTransfersAreFatal : Prop :=
  ∀ (s : State) (b : Byte) (payload : List Byte) (n : Nat), s.phase = .idle → s.cs = false → s.initialized = true →
    (508 < n → exec (.readData n) s =
      .next { s with phase := .halted, faults := { s.faults with oversizedRead := true } }) ∧
    (260 < payload.length → exec (.cmdSendData b payload) s =
      .next { s with phase := .halted, faults := { s.faults with transportPrecondition := true } }) ∧
    (508 < n → exec (.cmdReadData n) s =
      .next { s with
        phase := .halted, scratchValid := 0, faults := { s.faults with transportPrecondition := true } })

/-- A peer that stays busy: the first wait times out after 2000 samples, with no byte sent and chip-select never asserted
(R132, R286; D4). -/
def Obligations.NeverReadyTimesOut : Prop :=
  ∀ (s : State) (a : Byte) (v : Word) (t r : Byte) (rest : List Bool), s.phase = .idle → s.initialized = true →
    s.cs = false → s.peer.busy = List.replicate 2000 true ++ rest →
    ∀ i ∈ [Instr.writeReg a v, .writeRegOr a v, .writeRegAnd a v, .readReg a, .loadRfConfig t r, .rfOn, .rfOff, .getIrq,
        .clearIrq v, .setupRf, .cmdWriteRegister a v, .cmdReadRegister a, .cmdRfOn],
      ∃ p, exec i s = .next (s.completed (.err (.busyTimeout .tWaitReady)) p
          (s.wire ++ missEvents .tWaitReady false s.xi false 2000)) ∧
        p.busy = rest ∧ p.replies = s.peer.replies ∧ (s.peer.Quiet → p.chip = s.peer.chip)

/-- A wait that is never met, in whichever exchange of an operation and whichever of its waits (R132, R135, R138, R171, R286,
R287, R324; D4, D8): the operation ends with `BusyTimeout` of that wait's phase, of which the host sees the variant alone (R132),
chip-select released, every exchange before
it in effect and nothing rolled back. Whether the peer executed a frame that timed out before its last wait is the peer's draw
`x` (log 14). The field `left` says what is left of the record: `Reset` has dropped `S.rf_on`, `SetupRf` has confirmed it once
its clear is done, and a `ReadData` that times out leaves no scratch byte valid (R26, R166). A `Course` is given for every
instruction but GET_TS, whose timeout is swallowed (R202); `SendData`'s read of RF-Status swallows it too, so it has no
`left`. What a quiet peer holds after each exchange is as the model's peer contract has it (logs 12, 13, 27, 30, 32 to 35, 37). -/
def Obligations.UnmetWaitsTimeOut : Prop :=
  ∀ (s u : State) (i : Instr) (before after : List Exchange) (e : Exchange) (ph : Phase) (busy : List Bool)
    (replies : List Reply), s.phase = .idle → (i ≠ .reset → s.initialized = true) →
    (tagRequestOf i ≠ none → s.rfOn = true) → (ph = .tWaitReady → s.cs = false) →
    Course s i (before ++ e :: after) → e.left = some u → s.peer.Stalls before e ph busy replies →
    ∃ p w x t, exec i s = .next t ∧
      t = { u.completed (.err (.busyTimeout ph)) p w with scratch := e.stored ph u.scratch } ∧
      t.hostSees = s.hostSees ++ [.err .busyTimeout] ∧
      sentFrames w = sentFrames s.wire ++ before.map (·.frame) ++ ph.sends e.frame ∧
      p.busy = busy ∧ p.replies = replies ∧ (∀ y ys, s.peer.executed = y :: ys → x = y) ∧
      (s.peer.Quiet → p.chip = (before.foldl (fun c y => y.done c)
        (if i = .reset then s.peer.chip.hardwareReset else s.peer.chip)).stalled e.frame e.turn.reply ph x)

/-! ## Register access (41_register_access.md, 42_irq_monitor.md) -/

/-- `WriteRegister(a, v)` (R161): the frame `[0x00, a]` and the value's bytes; outcomes `()` and `BusyTimeout` only. On a peer
that changes nothing by itself: `R[a] <- v` at a named address (R46); the clear of IRQ-Status where `a` is IRQ-Clear (R42,
D14). What is the model's: at IRQ-Status the peer then sets the flags it held again by itself, so that the write clears none (R48,
R295; log 27); the direct command's row does the same (log 1), IRQ-Clear's own cell stays as it was (log 33), a write changes no
other register (logs 32, 35, 37), and nothing is known of the peer after a write to an unnamed address (R62, log 12). -/
def Obligations.WriteRegister : Prop :=
  ∀ (s : State) (a : Byte) (v : Word), s.phase = .idle → s.initialized = true →
    ∀ i ∈ [Instr.writeReg a v, .cmdWriteRegister a v],
      (∀ (pace : Pace) (busy : List Bool) (replies : List Reply), s.peer.Plays [pace.silent] busy replies →
        ∃ p w, exec i s = .next (s.completed (.ok .unit) p w) ∧
          sentFrames w = sentFrames s.wire ++ [[0x00, a] ++ bytesLe32 v] ∧ p.busy = busy ∧ p.replies = replies ∧
          (s.peer.Quiet →
            (namedAddress a = true → a ≠ 0x03 →
              p.chip.regs = cellsWrite s.peer.chip.regs a.toNat
                (if a = 0x02 then v ||| s.peer.chip.reg 0x02 else v)) ∧
            (a = 0x03 → p.chip.regs = cellsWrite s.peer.chip.regs 0x02 (s.peer.chip.reg 0x02 &&& ~~~v)) ∧
            (namedAddress a = false → p.chip.regs = []))) ∧
      ∃ t, exec i s = .next t ∧ (t.delivered = s.delivered ++ [.ok .unit] ∨
        ∃ ph, t.delivered = s.delivered ++ [.err (.busyTimeout ph)])

/-- `WriteRegisterOr(a, m)` (R162): outcomes `()` and `BusyTimeout` only; on a peer that changes nothing by itself
`R[a] <- R[a] | m` at a named address (R46). The model's choices: the direct command's row does the same (log 1), at IRQ-Clear
the flags stay (log 33), a mask changes no other register (logs 32, 35, 37), and nothing is known of the peer after an unnamed
address (R62, log 12). -/
def Obligations.WriteRegisterOr : Prop :=
  ∀ (s : State) (a : Byte) (m : Word), s.phase = .idle → s.initialized = true →
    ∀ i ∈ [Instr.writeRegOr a m, .cmdWriteRegisterOrMask a m],
      (∀ (pace : Pace) (busy : List Bool) (replies : List Reply), s.peer.Plays [pace.silent] busy replies →
        ∃ p w, exec i s = .next (s.completed (.ok .unit) p w) ∧
          sentFrames w = sentFrames s.wire ++ [[0x01, a] ++ bytesLe32 m] ∧ p.busy = busy ∧ p.replies = replies ∧
          (s.peer.Quiet →
            (namedAddress a = true →
              p.chip.regs = cellsWrite s.peer.chip.regs a.toNat (s.peer.chip.reg a ||| m)) ∧
            (namedAddress a = false → p.chip.regs = []))) ∧
      ∃ t, exec i s = .next t ∧ (t.delivered = s.delivered ++ [.ok .unit] ∨
        ∃ ph, t.delivered = s.delivered ++ [.err (.busyTimeout ph)])

/-- `WriteRegisterAnd(a, m)` (R163): outcomes `()` and `BusyTimeout` only; on a peer that changes nothing by itself
`R[a] <- R[a] & m` at a named address (R46). The model's choices: at IRQ-Status the peer then sets the flags it held again by
itself, so that the mask clears none (R48, R295; log 27); the direct command's row does the same (log 1), at IRQ-Clear the flags
stay (log 33), a mask changes no other register (logs 32, 35, 37), and nothing is known of the peer after an unnamed address (R62,
log 12). -/
def Obligations.WriteRegisterAnd : Prop :=
  ∀ (s : State) (a : Byte) (m : Word), s.phase = .idle → s.initialized = true →
    ∀ i ∈ [Instr.writeRegAnd a m, .cmdWriteRegisterAndMask a m],
      (∀ (pace : Pace) (busy : List Bool) (replies : List Reply), s.peer.Plays [pace.silent] busy replies →
        ∃ p w, exec i s = .next (s.completed (.ok .unit) p w) ∧
          sentFrames w = sentFrames s.wire ++ [[0x02, a] ++ bytesLe32 m] ∧ p.busy = busy ∧ p.replies = replies ∧
          (s.peer.Quiet →
            (namedAddress a = true →
              p.chip.regs = cellsWrite s.peer.chip.regs a.toNat
                (if a = 0x02 then s.peer.chip.reg 0x02 else s.peer.chip.reg a &&& m)) ∧
            (namedAddress a = false → p.chip.regs = []))) ∧
      ∃ t, exec i s = .next t ∧ (t.delivered = s.delivered ++ [.ok .unit] ∨
        ∃ ph, t.delivered = s.delivered ++ [.err (.busyTimeout ph)])

/-- `ReadRegister(a)` (R164): the value is whatever four bytes the peer returned, least significant first; outcomes that
value and `BusyTimeout` only. On a peer that changes nothing by itself no other register is changed: of IRQ-Status R72 says so,
of the others it is the model's choice (log 37). The direct command's row does the same (log 1). -/
def Obligations.ReadRegister : Prop :=
  ∀ (s : State) (a : Byte), s.phase = .idle → s.initialized = true →
    ∀ i ∈ [Instr.readReg a, .cmdReadRegister a],
      (∀ (pace : Pace) (r0 r1 r2 r3 : Byte) (busy : List Bool) (replies : List Reply),
        s.peer.Plays [pace.reply [r0, r1, r2, r3]] busy replies →
        ∃ p w, exec i s = .next (s.completed (.ok (.word (le32 r0 r1 r2 r3))) p w) ∧
          sentFrames w = sentFrames s.wire ++ [[0x04, a]] ∧ p.busy = busy ∧ p.replies = replies ∧
          (s.peer.Quiet →
            ∀ b : Byte, b ≠ a → cellsRead p.chip.regs b.toNat = cellsRead s.peer.chip.regs b.toNat)) ∧
      ∃ t, exec i s = .next t ∧ ((∃ v, t.delivered = s.delivered ++ [.ok (.word v)]) ∨
        ∃ ph, t.delivered = s.delivered ++ [.err (.busyTimeout ph)])

/-- The read-back law of R46 on the model's peer, "assuming no intervening mutation": a read that is answered with what the
peer holds returns the register's value (log 5), so a write followed by such a read of the same named address returns the
written value. At IRQ-Status it does so if the write drops no flag that was set; one that it drops the peer has set again by
itself, the intervening mutation that the law leaves out, and the read shows it (R48, R295; log 27). What IRQ-Clear reads as is
any value (R42). -/
def Obligations.ReadBackLaw : Prop :=
  ∀ (s : State) (a : Byte) (v : Word) (p1 p2 : Pace) (busy : List Bool) (replies : List Reply),
    namedAddress a = true → a ≠ 0x03 → s.phase = .idle → s.initialized = true → p1.bounded = true →
    p2.bounded = true → s.peer.Quiet →
    s.peer.busy = p1.write ++ p2.read ++ busy → s.peer.replies = [.held, .held, .held, .held] ++ replies →
    ∃ t u, exec (.writeReg a v) s = .next t ∧ exec (.readReg a) t = .next u ∧
      (a ≠ 0x02 ∨ s.peer.chip.reg 0x02 &&& ~~~v = 0 → u.delivered = s.delivered ++ [.ok .unit, .ok (.word v)]) ∧
      (a = 0x02 → u.delivered = s.delivered ++ [.ok .unit, .ok (.word (v ||| s.peer.chip.reg 0x02))])

/-- `ReadEeprom(addr, len)` (R165, R63; D33): admitted exactly when `addr` and `addr + len` are at most 254 over the
naturals; then the bytes received, else `OutOfRange`. A peer that changes nothing by itself and answers with what it holds
(log 5) answers the bytes of its EEPROM from `addr` to `addr + len - 1`, in order. The direct command's row does the same
(log 1). -/
def Obligations.ReadEeprom : Prop :=
  ∀ (s : State) (addr len : Byte), s.phase = .idle → s.cs = false → s.initialized = true →
    ∀ i ∈ [Instr.readEeprom addr len, .cmdReadEeprom addr len],
      (addr.toNat + len.toNat ≤ 254 →
        ∀ (pace : Pace) (bs : List Byte) (busy : List Bool) (replies : List Reply), bs.length = len.toNat →
          s.peer.Plays [pace.reply bs] busy replies →
          ∃ p w, exec i s = .next (s.completed (.ok (.bytes bs)) p w) ∧
            sentFrames w = sentFrames s.wire ++ [[0x07, addr, len]] ∧ p.busy = busy ∧ p.replies = replies) ∧
      (addr.toNat + len.toNat ≤ 254 →
        ∀ (pace : Pace) (bs : List Byte) (busy : List Bool) (replies : List Reply), bs.length = len.toNat →
          pace.bounded = true → s.peer.Quiet →
          (∀ k, k < bs.length → cellsRead s.peer.chip.eeprom (addr.toNat + k) = bs[k]?) →
          s.peer.busy = (pace.reply bs).samples ++ busy →
          s.peer.replies = List.replicate bs.length .held ++ replies →
          ∃ p w, exec i s = .next (s.completed (.ok (.bytes bs)) p w) ∧
            sentFrames w = sentFrames s.wire ++ [[0x07, addr, len]] ∧ p.busy = busy ∧ p.replies = replies) ∧
      (254 < addr.toNat + len.toNat → exec i s = .next (s.completed (.err .outOfRange) s.peer s.wire))

/-- `ReadData(n)` (R166, R26; D21; the direct command's row alike: log 1, log 22) for at most 508 bytes: they are returned,
stand in the scratch buffer from offset 0, count as valid, and every other byte of the buffer is as before. In every state a
read that takes in a byte past the valid ones has no value. -/
def Obligations.ReadData : Prop :=
  ∀ (s : State) (bs : List Byte) (pace : Pace) (busy : List Bool) (replies : List Reply), s.phase = .idle →
    s.initialized = true → bs.length ≤ 508 → s.peer.Plays [pace.reply bs] busy replies →
    ∀ i ∈ [Instr.readData bs.length, .cmdReadData bs.length],
      ∃ p w m, exec i s =
          .next { s.completed (.ok (.bytes bs)) p w with scratch := m, scratchValid := bs.length } ∧
        sentFrames w = sentFrames s.wire ++ [[0x0A, 0x00]] ∧ p.busy = busy ∧ p.replies = replies ∧
        (∀ a, a < bs.length → cellsRead m a = bs[a]?) ∧
        (∀ a, bs.length ≤ a → cellsRead m a = cellsRead s.scratch a) ∧
        ∀ u : State, u.scratchValid = bs.length → ∀ a n, bs.length < a + n → 0 < n → ∀ vs v, memRead a n u ≠ .ok vs v

/-- Only `ReadData`, alone or in a tag command, writes the scratch buffer; it leaves the offsets from `n` on unchanged,
whatever its outcome, and holds bytes below 508 only (R25). In a tag command `n` is the length that RX-Status announced, which
a peer that changes nothing by itself still holds (logs 12, 30, 37). -/
def Obligations.ScratchWrittenOnlyByReadData : Prop :=
  ∀ (i : Instr) (s t : State), exec i s = .next t →
    ((∀ n, i ≠ .readData n) → (∀ n, i ≠ .cmdReadData n) → tagRequestOf i = none → t.scratch = s.scratch) ∧
    (∀ n, i = .readData n ∨ i = .cmdReadData n → ∀ a, n ≤ a → cellsRead t.scratch a = cellsRead s.scratch a) ∧
    (tagRequestOf i ≠ none → s.peer.Quiet → t.scratch = s.scratch ∨ ∃ v, cellsRead t.peer.chip.regs 0x13 = some v ∧
      ∀ a, rxLength v ≤ a → cellsRead t.scratch a = cellsRead s.scratch a) ∧
    (s.Inv → ∀ a, 508 ≤ a → cellsRead t.scratch a = none)

/-- `SendData(payload, b)` (R167; D12, D19): the two mask writes, the read of RF-Status, and, where that says WaitTransmit,
the Send-Data frame; on the peer System-Config's command field is cleared and set to 3 and the transmit buffer loaded. A
payload over 260 bytes or valid bits over 7 is `OutOfRange` before any transaction (R282). That Send-Data and the
read of RF-Status leave System-Config as it was is the model's choice (R72, logs 35, 37). -/
def Obligations.SendData : Prop :=
  ∀ (s : State) (payload : List Byte) (b : Byte), s.phase = .idle → s.initialized = true →
    (payload.length ≤ 260 → b.toNat ≤ 7 →
      ∀ (p1 p2 p3 p4 : Pace) (status : Word) (busy : List Bool) (replies : List Reply),
      status.extractLsb' 24 3 = 1 → s.peer.Plays [p1.silent, p2.silent, p3.answer status, p4.silent] busy replies →
      ∃ p w, exec (.sendData payload b) s = .next (s.completed (.ok .unit) p w) ∧
        sentFrames w = sentFrames s.wire ++ armingFrames ++ [[0x09, b] ++ payload] ∧
        p.busy = busy ∧ p.replies = replies ∧ (s.peer.Quiet → p.chip.tx = some (b, payload) ∧
          cellsRead p.chip.regs 0x00 = some ((s.peer.chip.reg 0x00 &&& 0xFFFFFFF8) ||| 0x00000003))) ∧
    (260 < payload.length ∨ 7 < b.toNat → s.cs = false →
      exec (.sendData payload b) s = .next (s.completed (.err .outOfRange) s.peer s.wire))

/-- `NotReady` is raised after the two System-Config mask writes and the read of RF-Status, and before the Send-Data
transaction; the earlier transactions stay in effect (R283). It is the outcome of every `SendData`, alone or in a tag
command, whose RF-Status read does not say WaitTransmit, and of every one whose RF-Status read times out in whichever of its
waits, which counts as Idle (R167, R202). `SendData` alone asks for no field (R289). That the mask writes and the read leave the
transmit buffer, and the read System-Config, as they were is the model's choice (log 37). -/
def Obligations.NotReadyBeforeSending : Prop :=
  ∀ (s : State) (i : Instr) (payload : List Byte) (b : Byte) (p1 p2 p3 : Pace) (status : Word) (bs : List Byte)
    (ph : Phase) (busy : List Bool) (replies : List Reply), s.phase = .idle → s.initialized = true →
    payload.length ≤ 260 → b.toNat ≤ 7 →
    i = .sendData payload b ∨ (s.rfOn = true ∧ tagRequestOf i = some payload) →
    (status.extractLsb' 24 3 ≠ 1 → s.peer.Plays [p1.silent, p2.silent, p3.answer status] busy replies →
      ∃ p w, exec i s = .next (s.completed (.err .notReady) p w) ∧
        sentFrames w = sentFrames s.wire ++ armingFrames ∧ p.busy = busy ∧ p.replies = replies ∧
        (s.peer.Quiet → p.chip.tx = s.peer.chip.tx ∧
          cellsRead p.chip.regs 0x00 = some ((s.peer.chip.reg 0x00 &&& 0xFFFFFFF8) ||| 0x00000003))) ∧
    (ph ∈ waitPhases → bs.length = 4 → p1.bounded = true → p2.bounded = true → p3.bounded = true →
      s.peer.busy = p1.write ++ p2.write ++ p3.timeout ph ++ busy → s.peer.replies = ph.replies bs ++ replies →
      ∃ p w, exec i s = .next (s.completed (.err .notReady) p w) ∧
        sentFrames w = sentFrames s.wire ++ (if ph = .tWaitReady then armingFrames.take 2 else armingFrames) ∧
        p.busy = busy ∧ p.replies = replies ∧
        (s.peer.Quiet → p.chip.tx = s.peer.chip.tx ∧
          cellsRead p.chip.regs 0x00 = some ((s.peer.chip.reg 0x00 &&& 0xFFFFFFF8) ||| 0x00000003)))

/-- The direct commands Send-Data, RF-On and RF-Off (R97, R100, R101; D10; log 1): one frame each; the transmit buffer, or the
field, of the peer. `S.rf_on` is not confirmed by the command alone (R28). -/
def Obligations.SingleFrameCommands : Prop :=
  ∀ (s : State) (payload : List Byte) (b : Byte) (pace : Pace) (busy : List Bool) (replies : List Reply),
    s.phase = .idle → s.initialized = true → s.peer.Plays [pace.silent] busy replies →
    (payload.length ≤ 260 → ∃ p w, exec (.cmdSendData b payload) s = .next (s.completed (.ok .unit) p w) ∧
      sentFrames w = sentFrames s.wire ++ [[0x09, b] ++ payload] ∧ p.busy = busy ∧ p.replies = replies ∧
      (s.peer.Quiet → p.chip.tx = some (b, payload))) ∧
    (∃ p w, exec .cmdRfOn s = .next (s.completed (.ok .unit) p w) ∧
      sentFrames w = sentFrames s.wire ++ [[0x16, 0x00]] ∧ p.busy = busy ∧ p.replies = replies ∧
      (s.peer.Quiet → p.chip.rfField = some true)) ∧
    (∃ p w, exec .cmdRfOff s = .next (s.completed (.ok .unit) p w) ∧
      sentFrames w = sentFrames s.wire ++ [[0x17, 0x00]] ∧ p.busy = busy ∧ p.replies = replies ∧
      (s.peer.Quiet → p.chip.rfField = some false))

/-- `LoadRfConfig(t, r)` sends `[0x11, t, r]` and checks no profile value; outcomes `()` and `BusyTimeout` only (R170). The
direct command's row does the same (log 1), and the model's peer records the pair (log 12). -/
def Obligations.LoadRfConfig : Prop :=
  ∀ (s : State) (t r : Byte), s.phase = .idle → s.initialized = true →
    ∀ i ∈ [Instr.loadRfConfig t r, .cmdLoadRfConfig t r],
      (∀ (pace : Pace) (busy : List Bool) (replies : List Reply), s.peer.Plays [pace.silent] busy replies →
        ∃ p w, exec i s = .next (s.completed (.ok .unit) p w) ∧
          sentFrames w = sentFrames s.wire ++ [[0x11, t, r]] ∧ p.busy = busy ∧ p.replies = replies ∧
          (s.peer.Quiet → p.chip.rfConfig = some (t, r))) ∧
      ∃ u, exec i s = .next u ∧ (u.delivered = s.delivered ++ [.ok .unit] ∨
        ∃ ph, u.delivered = s.delivered ++ [.err (.busyTimeout ph)])

/-- `SetRfOn()` (R168, R171; D16, D17): the RF-On frame, reads of IRQ-Status until bit 9 is set, the clear of exactly that
flag; `S.rf_on` becomes true. `SetRfOff()` (R169) the same with bit 8 and false. A flag already set ends the wait at the
first read (R321). That IRQ-Status holds what the last read answered, but for the cleared flag, and that the reads leave the field
as it was, is the model's peer (logs 12, 37). -/
def Obligations.SwitchRf : Prop :=
  ∀ (s : State) (send clear : Pace) (misses : List (Pace × Word)) (hit : Pace × Word) (busy : List Bool)
    (replies : List Reply), s.phase = .idle → s.initialized = true → misses.length < s.params.irqPollLimit →
    s.peer.Plays (switchTurns send misses hit clear) busy replies →
    ((∀ m ∈ misses, m.2.getLsbD 9 = false) → hit.2.getLsbD 9 = true →
      ∃ p w, exec .rfOn s = .next { s.completed (.ok .unit) p w with rfOn := true } ∧
        sentFrames w = sentFrames s.wire ++ [[0x16, 0x00]] ++ misses.map (fun _ => [0x04, 0x02])
          ++ [[0x04, 0x02], [0x00, 0x03, 0x00, 0x02, 0x00, 0x00]] ∧
        p.busy = busy ∧ p.replies = replies ∧ (s.peer.Quiet → p.chip.rfField = some true ∧
          cellsRead p.chip.regs 0x02 = some (hit.2 &&& ~~~0x00000200))) ∧
    ((∀ m ∈ misses, m.2.getLsbD 8 = false) → hit.2.getLsbD 8 = true →
      ∃ p w, exec .rfOff s = .next { s.completed (.ok .unit) p w with rfOn := false } ∧
        sentFrames w = sentFrames s.wire ++ [[0x17, 0x00]] ++ misses.map (fun _ => [0x04, 0x02])
          ++ [[0x04, 0x02], [0x00, 0x03, 0x00, 0x01, 0x00, 0x00]] ∧
        p.busy = busy ∧ p.replies = replies ∧ (s.peer.Quiet → p.chip.rfField = some false ∧
          cellsRead p.chip.regs 0x02 = some (hit.2 &&& ~~~0x00000100)))

/-- An IRQ wait that never sees its flag ends with `IrqWaitTimeout` after exactly the bound's number of reads; nothing is
cleared; `S.rf_on` is unchanged by `SetRfOn`, `SetRfOff` and `SetupRf`, which makes no mask write then and leaves the profile
loaded (the model's peer: logs 12, 35, 37), and `S.initialized` by `Reset`, a first `Reset` included (R168, R169, R171, R206, R235,
R281, R313; D17). -/
def Obligations.IrqWaitTimesOut : Prop :=
  ∀ (s : State) (load send : Pace) (reads : List (Pace × Word)) (busy : List Bool) (replies : List Reply),
    s.phase = .idle → reads ≠ [] →
    (s.initialized = true → reads.length = s.params.irqPollLimit → (∀ m ∈ reads, m.2.getLsbD 9 = false) →
      s.peer.Plays (send.silent :: irqTurns reads) busy replies →
      ∃ p w, exec .rfOn s = .next (s.completed (.err (.irqWaitTimeout 9)) p w) ∧
        sentFrames w = sentFrames s.wire ++ [[0x16, 0x00]] ++ reads.map fun _ => [0x04, 0x02]) ∧
    (s.initialized = true → reads.length = s.params.irqPollLimit → (∀ m ∈ reads, m.2.getLsbD 8 = false) →
      s.peer.Plays (send.silent :: irqTurns reads) busy replies →
      ∃ p w, exec .rfOff s = .next (s.completed (.err (.irqWaitTimeout 8)) p w) ∧
        sentFrames w = sentFrames s.wire ++ [[0x17, 0x00]] ++ reads.map fun _ => [0x04, 0x02]) ∧
    (s.initialized = true → reads.length = s.params.irqPollLimit → (∀ m ∈ reads, m.2.getLsbD 9 = false) →
      s.peer.Plays (load.silent :: send.silent :: irqTurns reads) busy replies →
      ∃ p w, exec .setupRf s = .next (s.completed (.err (.irqWaitTimeout 9)) p w) ∧
        sentFrames w = sentFrames s.wire ++ [[0x11, 0x0D, 0x8D], [0x16, 0x00]] ++ reads.map (fun _ => [0x04, 0x02]) ∧
        (s.peer.Quiet → p.chip.rfConfig = some (0x0D, 0x8D))) ∧
    (reads.length = s.params.resetPollLimit → (∀ m ∈ reads, m.2.getLsbD 2 = false) →
      s.peer.Plays (irqTurns reads) busy replies →
      ∃ p w, exec .reset s =
          .next { s.completed (.err (.irqWaitTimeout 2)) p w with rst := .high, rfOn := false } ∧
        sentFrames w = sentFrames s.wire ++ reads.map fun _ => [0x04, 0x02])

/-- GET_IRQ, CLEAR_IRQ and GET_TS (R200 to R202; D13, D14, D15): one exchange cycle each; the value of IRQ-Status as
answered; the flags of the mask cleared and no other; the state that bits 26..24 of RF-Status name. A read of RF-Status that
times out, in whichever of its waits, is swallowed and reads as Idle: the operation succeeds (R202, R286). That IRQ-Status holds
what the read answered is the model's peer (log 12). -/
def Obligations.MonitorOperations : Prop :=
  ∀ (s : State) (m v : Word) (pace : Pace) (busy : List Bool) (replies : List Reply), s.phase = .idle →
    s.initialized = true →
    (s.peer.Plays [pace.answer v] busy replies →
      (∃ p w, exec .getIrq s = .next (s.completed (.ok (.word v)) p w) ∧
        sentFrames w = sentFrames s.wire ++ [[0x04, 0x02]] ∧
        (s.peer.Quiet → cellsRead p.chip.regs 0x02 = some v)) ∧
      ∃ p w, exec .getTs s = .next (s.completed (.ok (.transceiveState (decodeTsCode (v.extractLsb' 24 3)))) p w) ∧
        sentFrames w = sentFrames s.wire ++ [[0x04, 0x1D]]) ∧
    (s.peer.Plays [pace.silent] busy replies →
      ∃ p w, exec (.clearIrq m) s = .next (s.completed (.ok .unit) p w) ∧
        sentFrames w = sentFrames s.wire ++ [[0x00, 0x03] ++ bytesLe32 m] ∧
        (s.peer.Quiet → cellsRead p.chip.regs 0x02 = some (s.peer.chip.reg 0x02 &&& ~~~m))) ∧
    ∀ (ph : Phase) (bs : List Byte), ph ∈ waitPhases → bs.length = 4 → pace.bounded = true → s.cs = false →
      s.peer.busy = pace.timeout ph ++ busy → s.peer.replies = ph.replies bs ++ replies →
      ∃ p w, exec .getTs s = .next (s.completed (.ok (.transceiveState .idle)) p w) ∧
        sentFrames w = sentFrames s.wire ++ (if ph = .tWaitReady then [] else [[0x04, 0x1D]]) ∧
        p.busy = busy ∧ p.replies = replies

/-- `Reset()` (R205, R206, R312; D18): the reset line driven Low then High, reads of IRQ-Status until the idle flag, and the
clear of every flag; `S.rst` High, `S.initialized` true, `S.rf_on` false; the scratch buffer and the faults unchanged; every
IRQ-Status bit clear on the peer. Before a first Reset too. -/
def Obligations.ResetOperation : Prop :=
  ∀ (s : State) (clear : Pace) (misses : List (Pace × Word)) (hit : Pace × Word) (busy : List Bool)
    (replies : List Reply), s.phase = .idle → misses.length < s.params.resetPollLimit →
    (∀ m ∈ misses, m.2.getLsbD 2 = false) → hit.2.getLsbD 2 = true →
    s.peer.Plays (irqTurns (misses ++ [hit]) ++ [clear.silent]) busy replies →
    ∃ p w, exec .reset s =
        .next { s.completed (.ok .unit) p w with rst := .high, rfOn := false, initialized := true } ∧
      sentFrames w = sentFrames s.wire ++ misses.map (fun _ => [0x04, 0x02])
        ++ [[0x04, 0x02], [0x00, 0x03, 0xFF, 0xFF, 0xFF, 0xFF]] ∧
      resetLevels w = resetLevels s.wire ++ [.low, .high] ∧
      p.busy = busy ∧ p.replies = replies ∧ (s.peer.Quiet → cellsRead p.chip.regs 0x02 = some 0x00000000)

/-- `SetupRf()` (R235; D29, D12, D16): the profile pair, `SetRfOn`, then the two mask writes. That the peer records the pair, and
that Load-RF-Config and RF-On leave a known System-Config as it was, is the model's choice (R170, R72; logs 12, 34, 35), and
so is that the reads of IRQ-Status leave the profile, the field and System-Config (log 37). -/
def Obligations.SetupRf : Prop :=
  ∀ (s : State) (p1 send clear p2 p3 : Pace) (misses : List (Pace × Word)) (hit : Pace × Word) (busy : List Bool)
    (replies : List Reply), s.phase = .idle → s.initialized = true → misses.length < s.params.irqPollLimit →
    (∀ m ∈ misses, m.2.getLsbD 9 = false) → hit.2.getLsbD 9 = true →
    s.peer.Plays (p1.silent :: (switchTurns send misses hit clear ++ [p2.silent, p3.silent])) busy replies →
    ∃ p w, exec .setupRf s = .next { s.completed (.ok .unit) p w with rfOn := true } ∧
      sentFrames w = sentFrames s.wire ++ [[0x11, 0x0D, 0x8D], [0x16, 0x00]] ++ misses.map (fun _ => [0x04, 0x02])
        ++ [[0x04, 0x02], [0x00, 0x03, 0x00, 0x02, 0x00, 0x00], [0x02, 0x00, 0xF8, 0xFF, 0xFF, 0xFF],
          [0x01, 0x00, 0x03, 0x00, 0x00, 0x00]] ∧
      p.busy = busy ∧ p.replies = replies ∧
      (s.peer.Quiet → p.chip.rfConfig = some (0x0D, 0x8D) ∧ p.chip.rfField = some true ∧
        ∃ v, cellsRead p.chip.regs 0x00 = some ((v &&& 0xFFFFFFF8) ||| 0x00000003) ∧
          ∀ u, cellsRead s.peer.chip.regs 0x00 = some u → v = u)

/-! ## Tag commands (43_tag_protocol.md) -/

/-- The common part of the nine-cycle statements: `i` ends with `v`, the response in the scratch buffer, the request and
the clear of exactly the flags 14, 2, 1, 0 on the wire. What is the model's of the quiet peer: that its transmit buffer still holds
the request after the Read-Data (R72 leaves it open, log 30) and after the register reads and the clear (log 37), and that
IRQ-Status holds what the second read answered but for those flags (log 12). -/
def TagCompletes (s : State) (i : Instr) (req : List Byte) (t : TagTurns) (v : Value) : Prop :=
  ∃ p w, exec i s = .next ((s.received t.response.2).completed (.ok v) p w) ∧
    sentFrames w = sentFrames s.wire ++ armingFrames ++ [[0x09, 0x00] ++ req, [0x04, 0x02], [0x04, 0x13], [0x0A, 0x00],
      [0x04, 0x02], [0x00, 0x03, 0x07, 0x40, 0x00, 0x00]] ∧
    (s.peer.Quiet → p.chip.tx = some (0x00, req) ∧
      cellsRead p.chip.regs 0x02 = some (t.irqAgain.2 &&& ~~~0x00004007))

/-- The hypotheses of a tag command that is answered: ready, the field on, and nine cycles within their bounds. -/
def TagAnswered (s : State) (t : TagTurns) : Prop :=
  s.phase = .idle ∧ s.initialized = true ∧ s.rfOn = true ∧ t.answered = true ∧
    ∃ busy replies, s.peer.Plays t.all busy replies

/-- `Inventory()` (R221, R228, R230; D22, D27, D44): the UID bytes of the response in wire order; extra bytes ignored. The quiet
peer's transmit buffer and IRQ-Status at the end, as in `TagCompletes`, are the model's peer (logs 12, 30, 37). -/
def Obligations.Inventory : Prop :=
  ∀ (s : State) (t : TagTurns) (flags dsfid : Byte) (uid extra : List Byte), TagAnswered s t →
    t.response.2 = [flags, dsfid] ++ uid ++ extra → flags.getLsbD 0 = false → uid.length = 8 →
    TagCompletes s .inventory [0x26, 0x01, 0x00] t (.bytes uid)

/-- `ReadSingleBlock(uid, blockNo, blockSize)` (R221, R228, R231; D22, D27, D45): the first `blockSize` payload bytes.
`WriteSingleBlock(uid, blockNo, data)` (R232; D46) with at most 249 data bytes; a longer one is `OutOfRange` with no
transaction, and that the raw request's instruction ends so too is the model's choice (logs 1, 36). The quiet peer's transmit
buffer and IRQ-Status at the end, as in `TagCompletes`, are the model's peer (logs 12, 30, 37). -/
def Obligations.BlockOperations : Prop :=
  ∀ (s : State) (t : TagTurns) (uid : Uid) (b flags : Byte) (data extra : List Byte),
    (TagAnswered s t → t.response.2 = flags :: (data ++ extra) → flags.getLsbD 0 = false →
      TagCompletes s (.readBlock uid b data.length) ([0x22, 0x20] ++ uid.bytes ++ [b]) t (.bytes data)) ∧
    (TagAnswered s t → data.length ≤ 249 → t.response.2 = flags :: extra → flags.getLsbD 0 = false →
      TagCompletes s (.writeBlock uid b data) ([0x22, 0x21] ++ uid.bytes ++ [b] ++ data) t .unit) ∧
    (s.phase = .idle → s.cs = false → s.initialized = true → s.rfOn = true → 249 < data.length →
      ∀ i ∈ [Instr.writeBlock uid b data, .tagWriteSingleBlock uid b data],
        exec i s = .next (s.completed (.err .outOfRange) s.peer s.wire))

/-- `GetSystemInfo(uid)` (R113, R221, R228, R233, R234; D22, D27, D28): each optional field present exactly when its flag is
set, in the fixed order; `numBlocks = nb + 1`, `blockSize = (bs & 0x1F) + 1`, `memSize` their product. The quiet peer's transmit
buffer and IRQ-Status at the end, as in `TagCompletes`, are the model's peer (logs 12, 30, 37). -/
def Obligations.GetSysinfo : Prop :=
  ∀ (s : State) (t : TagTurns) (uid : Uid) (flags info dsfid afi nb bs ic : Byte) (echo extra : List Byte),
    TagAnswered s t → flags.getLsbD 0 = false → echo.length = 8 →
    t.response.2 = [flags, info] ++ echo ++ (if info.getLsbD 0 then [dsfid] else [])
      ++ (if info.getLsbD 1 then [afi] else []) ++ (if info.getLsbD 2 then [nb, bs] else [])
      ++ (if info.getLsbD 3 then [ic] else []) ++ extra →
    TagCompletes s (.getSysinfo uid) ([0x22, 0x2B] ++ uid.bytes) t (.systemInfo {
      dsfid := if info.getLsbD 0 then some dsfid else none
      afi := if info.getLsbD 1 then some afi else none
      numBlocks := if info.getLsbD 2 then some (nb.toNat + 1) else none
      blockSize := if info.getLsbD 2 then some (bs.toNat % 32 + 1) else none
      icRef := if info.getLsbD 3 then some ic else none
      memSize := if info.getLsbD 2 then some ((bs.toNat % 32 + 1) * (nb.toNat + 1)) else none })

/-- The four tag requests as instructions run the sequencer and return the payload, the bytes after the flags byte (R221,
R228; D22, D27; log 1). The quiet peer's transmit buffer and IRQ-Status at the end, as in `TagCompletes`, are the model's peer
(logs 12, 30, 37). -/
def Obligations.TagRequests : Prop :=
  ∀ (s : State) (t : TagTurns) (uid : Uid) (b flags : Byte) (data payload : List Byte), TagAnswered s t →
    t.response.2 = flags :: payload → flags.getLsbD 0 = false → data.length ≤ 249 →
    TagCompletes s .tagInventory [0x26, 0x01, 0x00] t (.bytes payload) ∧
    TagCompletes s (.tagReadSingleBlock uid b) ([0x22, 0x20] ++ uid.bytes ++ [b]) t (.bytes payload) ∧
    TagCompletes s (.tagWriteSingleBlock uid b data) ([0x22, 0x21] ++ uid.bytes ++ [b] ++ data) t (.bytes payload) ∧
    TagCompletes s (.tagGetSystemInfo uid) ([0x22, 0x2B] ++ uid.bytes) t (.bytes payload)

/-- An error response (R226, R227; D24, D27): the outcome is the decoded error byte, the flags in IRQ-Status are not cleared,
whatever follows the error byte: a quiet peer's IRQ-Status holds what the second read answered (log 12). -/
def Obligations.TagErrorResponse : Prop :=
  ∀ (s : State) (i : Instr) (req : List Byte) (t : TagTurns) (flags code : Byte) (rest : List Byte) (busy : List Bool)
    (replies : List Reply), tagRequestOf i = some req → req.length ≤ 260 → s.phase = .idle → s.initialized = true →
    s.rfOn = true → t.answered = true → s.peer.Plays t.reading busy replies →
    t.response.2 = flags :: code :: rest → flags.getLsbD 0 = true →
    ∃ p w, exec i s = .next ((s.received t.response.2).completed (.err (.tagError (decodeErr code))) p w) ∧
      sentFrames w = sentFrames s.wire ++ armingFrames ++
        [[0x09, 0x00] ++ req, [0x04, 0x02], [0x04, 0x13], [0x0A, 0x00], [0x04, 0x02]] ∧
      (s.peer.Quiet → cellsRead p.chip.regs 0x02 = some t.irqAgain.2)

/-- The code tables: the eight transceive states (R43; D13, D48), and the tag error codes on every byte (R112, R227; D24):
custom from 0xA0 on with the raw code kept, the nine named codes, Undefined for every other one. -/
def Obligations.CodeTables : Prop :=
  [0, 1, 2, 3, 4, 5, 6, 7].map decodeTsCode =
      [.idle, .waitTransmit, .transmitting, .waitReceive, .waitForData, .receiving, .loopBack, .reserved] ∧
    (∀ c : Byte, 0xA0 ≤ c.toNat → decodeErr c = .custom c) ∧
    [0x01, 0x02, 0x03, 0x0F, 0x10, 0x11, 0x12, 0x13, 0x14].map decodeErr =
      [.notSupported, .notRecognized, .optionNotSupported, .unknown, .blockNotAvailable, .blockAlreadyLocked,
        .blockIsLocked, .blockNotProgrammed, .blockNotLocked] ∧
    ∀ c : Byte, c.toNat < 0xA0 → c.toNat ∉ [0x01, 0x02, 0x03, 0x0F, 0x10, 0x11, 0x12, 0x13, 0x14] →
      decodeErr c = .undefined

/-- Start-of-frame absent at the first read is `NoCardDetected` with no response read; absent at the second read it is
`NoCardDetected` too, before the response is looked at (R222, R225; D26, D27). Nothing is cleared. -/
def Obligations.NoCardDetected : Prop :=
  ∀ (s : State) (i : Instr) (req : List Byte) (t : TagTurns) (busy : List Bool) (replies : List Reply),
    tagRequestOf i = some req → req.length ≤ 260 → s.phase = .idle → s.initialized = true → s.rfOn = true →
    t.state.2.extractLsb' 24 3 = 1 →
    (t.irq.2.getLsbD 14 = false → s.peer.Plays (t.sending ++ [t.irq.1.answer t.irq.2]) busy replies →
      ∃ p w, exec i s = .next (s.completed (.err .noCardDetected) p w) ∧
        sentFrames w = sentFrames s.wire ++ armingFrames ++ [[0x09, 0x00] ++ req, [0x04, 0x02]]) ∧
    (t.irq.2.getLsbD 14 = true → t.irqAgain.2.getLsbD 14 = false → rxLength t.length.2 = t.response.2.length →
      t.response.2.length ≤ 508 → s.peer.Plays t.reading busy replies →
      ∃ p w, exec i s = .next ((s.received t.response.2).completed (.err .noCardDetected) p w) ∧
        sentFrames w = sentFrames s.wire ++ armingFrames ++
          [[0x09, 0x00] ++ req, [0x04, 0x02], [0x04, 0x13], [0x0A, 0x00], [0x04, 0x02]])

/-- A response too short for the byte the parser must read is `MalformedResponse` (R229; D23): an empty one, a flagged one of
one byte, and one whose payload is too short for the command's own parser, GET_SYSINFO's announced fields included (R230,
R231, R233). It clears no flag (R228, R295, R321; D27; the pseudocode of R221 with R230 says otherwise of the last: log 29):
a quiet peer's IRQ-Status holds what the second read answered (log 12). -/
def Obligations.MalformedResponse : Prop :=
  ∀ (s : State) (t : TagTurns) (i : Instr) (req : List Byte) (busy : List Bool) (replies : List Reply),
    s.phase = .idle → s.initialized = true → s.rfOn = true → t.answered = true → s.peer.Plays t.reading busy replies →
    tagRequestOf i = some req → req.length ≤ 260 →
    (t.response.2 = [] ∨ (∃ flags, t.response.2 = [flags] ∧ flags.getLsbD 0 = true) ∨
      ∃ flags payload, t.response.2 = flags :: payload ∧ flags.getLsbD 0 = false ∧ PayloadTooShort i payload) →
    ∃ p w, exec i s = .next ((s.received t.response.2).completed (.err .malformedResponse) p w) ∧
      sentFrames w = sentFrames s.wire ++ armingFrames ++
        [[0x09, 0x00] ++ req, [0x04, 0x02], [0x04, 0x13], [0x0A, 0x00], [0x04, 0x02]] ∧
      p.busy = busy ∧ p.replies = replies ∧ (s.peer.Quiet → cellsRead p.chip.regs 0x02 = some t.irqAgain.2)

/-- A response length of 509 to 511 is fatal: the controller halts with OversizedRead and no outcome, without fetching the
response (R224; D20). -/
def Obligations.OversizedResponseIsFatal : Prop :=
  ∀ (s : State) (i : Instr) (req : List Byte) (t : TagTurns) (busy : List Bool) (replies : List Reply),
    tagRequestOf i = some req → req.length ≤ 260 → s.phase = .idle → s.initialized = true → s.rfOn = true →
    t.state.2.extractLsb' 24 3 = 1 → t.irq.2.getLsbD 14 = true → 508 < rxLength t.length.2 →
    s.peer.Plays (t.sending ++ [t.irq.1.answer t.irq.2, t.length.1.answer t.length.2]) busy replies →
    ∃ u, exec i s = .next u ∧ u.phase = .halted ∧ u.cs = false ∧ u.delivered = s.delivered ∧
      u.faults = { s.faults with oversizedRead := true } ∧ u.scratch = s.scratch ∧
      u.scratchValid = s.scratchValid ∧
      sentFrames u.wire = sentFrames s.wire ++ armingFrames ++ [[0x09, 0x00] ++ req, [0x04, 0x02], [0x04, 0x13]]

/-! ## Frames: what an instruction leaves unchanged, whatever its outcome

Each `Keeps` about the peer speaks of a peer that changes nothing by itself (log 28). -/

/-- The register operations and the monitor (R160 to R164, R200 to R202). No write to a named address clears a flag of IRQ-Status
but a Write-Register to IRQ-Clear, CLEAR_IRQ's among them (R295; at IRQ-Status itself by log 27). Beside the transport's own state
and the outcome nothing changes; of a peer that changes nothing by itself only the one register listed. After a write of any kind
to an unnamed address the peer may have changed in any way (R62). What is the model's choice: that a write to IRQ-Enable leaves
IRQ-Status alone (R294, log 32); that a Write-Register to IRQ-Clear, CLEAR_IRQ's among them, leaves IRQ-Clear's own cell as it
was, and that an OR- or AND-mask there leaves IRQ-Status alone (R42, log 33); that a write to System-Config or to
any other register changes no other register (logs 35, 37); that a read changes nothing but what is known of the register read
(R72 says so of IRQ-Status only, log 37). -/
def Obligations.FrameRegisterOperations : Prop :=
  ∀ (s t : State) (a : Byte) (v : Word),
    ∀ x ∈ [(Instr.writeReg a v, if a = 0x03 then 0x02 else a), (.cmdWriteRegister a v, if a = 0x03 then 0x02 else a),
        (.writeRegOr a v, a), (.cmdWriteRegisterOrMask a v, a), (.writeRegAnd a v, a), (.cmdWriteRegisterAndMask a v, a),
        (.readReg a, a), (.cmdReadRegister a, a), (.getIrq, 0x02), (.clearIrq v, 0x02), (.getTs, 0x1D)],
      exec x.1 s = .next t →
      s.KeepsScratch t ∧ s.KeepsBoot t ∧ s.KeepsField t ∧ s.KeepsRest t ∧
        (namedAddress a = true ∨ x.1 ∈ [Instr.readReg a, .cmdReadRegister a, .getIrq, .clearIrq v, .getTs] →
          s.KeepsRegistersBut t [x.2] ∧ s.KeepsEeprom t ∧ s.KeepsTransmit t ∧ s.KeepsReceive t ∧ s.KeepsProfile t ∧
            s.KeepsCommand t) ∧
        (namedAddress a = true → x.1 ∉ [Instr.readReg a, .cmdReadRegister a, .getIrq, .clearIrq v] →
          (a = 0x03 → x.1 ≠ .writeReg a v ∧ x.1 ≠ .cmdWriteRegister a v) → s.KeepsFlags t)

/-- The commands of one frame that touch no register (R165, R170, R97, R100, R101): every peer register is as before, and
of the peer's other parts only the one the command is for may change (for Read-EEPROM and Load-RF-Config the model's choice,
logs 30 and 34; for Send-Data, RF-On and RF-Off log 35). -/
def Obligations.FrameSingleCommands : Prop :=
  ∀ (s t : State) (a l b : Byte) (payload : List Byte),
    (∀ i ∈ [Instr.readEeprom a l, .cmdReadEeprom a l, .loadRfConfig a l, .cmdLoadRfConfig a l, .cmdSendData b payload,
        .cmdRfOn, .cmdRfOff], exec i s = .next t →
      s.KeepsScratch t ∧ s.KeepsBoot t ∧ s.KeepsField t ∧ s.KeepsRest t ∧ s.KeepsRegistersBut t [] ∧
        s.KeepsEeprom t ∧
        (i ≠ .readEeprom a l → i ≠ .cmdReadEeprom a l → s.KeepsReceive t) ∧
        (i ≠ .cmdSendData b payload → s.KeepsTransmit t) ∧
        (i ≠ .loadRfConfig a l → i ≠ .cmdLoadRfConfig a l → s.KeepsProfile t) ∧
        (i ≠ .cmdRfOn → i ≠ .cmdRfOff → s.KeepsCommand t))

/-- `SendData` (R167): of the peer only System-Config, what is known of RF-Status, and the transmit buffer may change.
`ReadData` (R166, R26): the scratch buffer below `n`, the count of valid bytes and the peer's receive buffer may change; the
count is `n` after its normal end and 0 after a `BusyTimeout`. That Send-Data and Read-Data change nothing else of the peer is
the model's choice (logs 35 and 30), and so is that the mask writes and the read of RF-Status do not (log 37). -/
def Obligations.FrameDataTransfers : Prop :=
  ∀ (s t : State) (payload : List Byte) (b : Byte) (n : Nat),
    (exec (.sendData payload b) s = .next t →
      s.KeepsScratch t ∧ s.KeepsBoot t ∧ s.KeepsField t ∧ s.KeepsRest t ∧ s.KeepsRegistersBut t [0x00, 0x1D] ∧
        s.KeepsEeprom t ∧ s.KeepsReceive t ∧ s.KeepsProfile t ∧ s.KeepsCommand t) ∧
    ∀ i ∈ [Instr.readData n, .cmdReadData n], exec i s = .next t →
      (∀ a, n ≤ a → cellsRead t.scratch a = cellsRead s.scratch a) ∧
        (∀ v, t.delivered = s.delivered ++ [.ok v] → t.scratchValid = n) ∧
        (∀ ph, t.delivered = s.delivered ++ [.err (.busyTimeout ph)] → t.scratchValid = 0) ∧
        (t.scratchValid = s.scratchValid ∨ t.scratchValid = 0 ∨ t.scratchValid = n) ∧
        s.KeepsBoot t ∧ s.KeepsField t ∧ s.KeepsRest t ∧ s.KeepsRegistersBut t [] ∧ s.KeepsEeprom t ∧
        s.KeepsTransmit t ∧ s.KeepsProfile t ∧ s.KeepsCommand t

/-- The RF operations (R168, R169, R235): `S.rf_on`, the field, IRQ-Status, and for SETUP_RF the profile and System-Config
may change (that Load-RF-Config, RF-On and RF-Off change no other register is the model's choice, logs 34 and 35, and so
is that the register accesses change nothing else, log 37). -/
def Obligations.FrameRfOperations : Prop :=
  ∀ (s t : State), ∀ i ∈ [Instr.rfOn, .rfOff, .setupRf], exec i s = .next t →
    s.KeepsScratch t ∧ s.KeepsBoot t ∧ s.KeepsRest t ∧ s.KeepsEeprom t ∧ s.KeepsTransmit t ∧ s.KeepsReceive t ∧
      s.KeepsRegistersBut t (if i = .setupRf then [0x00, 0x02] else [0x02]) ∧ (i ≠ .setupRf → s.KeepsProfile t)

/-- `Reset` (R206, R312, R313): the scratch buffer, the faults and the rest are unchanged, and the peer's EEPROM (the model's
choice, logs 13 and 37); whatever its outcome the reset line is High and `S.rf_on` false; `S.initialized` changes only with the
outcome `()`. -/
def Obligations.FrameReset : Prop :=
  ∀ (s t : State), exec .reset s = .next t →
    s.KeepsScratch t ∧ s.KeepsRest t ∧ s.KeepsEeprom t ∧ t.rst = .high ∧ t.rfOn = false ∧
      (t.initialized ≠ s.initialized → t.delivered = s.delivered ++ [.ok .unit])

/-- The tag commands (R221): beside the scratch buffer, of the peer only System-Config, IRQ-Status, what is known of RX-Status
and RF-Status, and the two buffers may change (that Read-Data and Send-Data change nothing else: logs 30 and 35; that the register
accesses do not: log 37). -/
def Obligations.FrameTagCommands : Prop :=
  ∀ (s t : State) (i : Instr) (req : List Byte), tagRequestOf i = some req → exec i s = .next t →
    s.KeepsBoot t ∧ s.KeepsField t ∧ s.KeepsRest t ∧ s.KeepsRegistersBut t [0x00, 0x02, 0x13, 0x1D] ∧
      s.KeepsEeprom t ∧ s.KeepsProfile t ∧ s.KeepsCommand t
end

