-- ==== Sys2Proof/Laws/Cells.lean ====
section
/-! SUPPORT. The laws of the sparse storage: a read after a write gives the value written, a write leaves every other
address alone, and every operation keeps the canonical form. -/

namespace Sys2Proof.Machine

variable {α : Type}

@[simp] theorem cellsRead_write_same (l : List (Nat × α)) (a : Nat) (v : α) :
    cellsRead (cellsWrite l a v) a = some v := by
  induction l with
  | nil => simp [cellsWrite, cellsRead]
  | cons c l ih =>
    obtain ⟨k, w⟩ := c
    simp only [cellsWrite]
    split
    · simp [cellsRead]
    · split
      · simp [cellsRead]
      · have : k ≠ a := by omega
        simp [cellsRead, this, ih]

theorem cellsRead_write_other (l : List (Nat × α)) {a b : Nat} (v : α) (h : b ≠ a) :
    cellsRead (cellsWrite l a v) b = cellsRead l b := by
  induction l with
  | nil => simp [cellsWrite, cellsRead, h.symm]
  | cons c l ih =>
    obtain ⟨k, w⟩ := c
    simp only [cellsWrite]
    split
    · simp [cellsRead, h.symm]
    · split
      · next h2 => subst h2; simp [cellsRead, h.symm]
      · by_cases hk : k = b <;> simp [cellsRead, hk, ih]

theorem cellsRead_write (l : List (Nat × α)) (a b : Nat) (v : α) :
    cellsRead (cellsWrite l a v) b = if b = a then some v else cellsRead l b := by
  split
  · next h => subst h; simp
  · next h => exact cellsRead_write_other l v h

/-- The later of two writes at one address stays. -/
@[simp] theorem cellsWrite_write (l : List (Nat × α)) (a : Nat) (v w : α) :
    cellsWrite (cellsWrite l a v) a w = cellsWrite l a w := by
  induction l with
  | nil => simp [cellsWrite]
  | cons c l ih =>
    obtain ⟨k, x⟩ := c
    simp only [cellsWrite]
    split
    · simp [cellsWrite]
    · split
      · simp [cellsWrite]
      · simp [cellsWrite, *]

theorem all_cellsWrite (p : Nat × α → Bool) (l : List (Nat × α)) (a : Nat) (v : α)
    (h : l.all p = true) (hv : p (a, v) = true) : (cellsWrite l a v).all p = true := by
  induction l with
  | nil => simp [cellsWrite, hv]
  | cons c l ih =>
    obtain ⟨k, w⟩ := c
    simp only [List.all_cons, Bool.and_eq_true] at h
    simp only [cellsWrite]
    split
    · simp [hv, h.1, h.2]
    · split
      · simp [hv, h.2]
      · simp [h.1, ih h.2]

/-- Writing keeps the canonical form. -/
theorem cellsRising_write (l : List (Nat × α)) (a : Nat) (v : α) (h : cellsRising l = true) :
    cellsRising (cellsWrite l a v) = true := by
  induction l with
  | nil => simp [cellsWrite, cellsRising]
  | cons c l ih =>
    obtain ⟨k, w⟩ := c
    simp only [cellsRising, Bool.and_eq_true] at h
    simp only [cellsWrite]
    split
    · next hlt =>
      simp only [cellsRising, Bool.and_eq_true, List.all_cons, decide_eq_true_eq]
      refine ⟨⟨hlt, ?_⟩, h⟩
      simp only [List.all_eq_true, decide_eq_true_eq] at h ⊢
      intro c hc
      exact Nat.lt_trans hlt (h.1 c hc)
    · split
      · next h2 => subst h2; simpa [cellsRising] using h
      · next h1 h2 =>
        simp only [cellsRising, Bool.and_eq_true]
        exact ⟨all_cellsWrite _ _ _ _ h.1 (by simp; omega), ih h.2⟩

/-- Writing inside the buffer keeps the scratch memory's canonical form. -/
theorem Memory.wf_cellsWrite (m : Memory) (a : Nat) (b : Byte) (h : m.wf = true) (ha : a < Config.rxBufferSize) :
    Memory.wf (cellsWrite m a b) = true := by
  simp only [Memory.wf, Bool.and_eq_true] at h ⊢
  exact ⟨cellsRising_write _ _ _ h.1, all_cellsWrite _ _ _ _ h.2 (by simpa using ha)⟩

theorem Memory.wf_write (m : Memory) (a : Nat) (bs : List Byte) (h : m.wf = true)
    (ha : a + bs.length ≤ Config.rxBufferSize) : (m.write a bs).wf = true := by
  induction bs generalizing m a with
  | nil => exact h
  | cons b bs ih =>
    simp only [List.length_cons] at ha
    exact ih _ _ (m.wf_cellsWrite a b h (by omega)) (by omega)

@[simp] theorem Memory.write_nil (m : Memory) (a : Nat) : m.write a [] = m := rfl

@[simp] theorem Memory.write_cons (m : Memory) (a : Nat) (b : Byte) (bs : List Byte) :
    m.write a (b :: bs) = Memory.write (cellsWrite m a b) (a + 1) bs := rfl

/-- What a store leaves at every address: the stored byte inside the stored range, the old entry outside it. -/
theorem Memory.read_write (m : Memory) (a : Nat) (bs : List Byte) (x : Nat) :
    cellsRead (m.write a bs) x = if a ≤ x ∧ x < a + bs.length then bs[x - a]? else cellsRead m x := by
  induction bs generalizing m a with
  | nil => simp
  | cons b bs ih =>
    rw [Memory.write_cons, ih, cellsRead_write]
    simp only [List.length_cons]
    by_cases hx : x = a
    · subst hx; simp
    · by_cases h1 : a + 1 ≤ x ∧ x < a + 1 + bs.length
      · have : x - a = (x - (a + 1)) + 1 := by omega
        rw [if_pos h1, if_pos (by omega), this]; simp
      · rw [if_neg h1, if_neg hx, if_neg (by omega)]

end Sys2Proof.Machine
end

