-- ==== Sys2Proof/Laws/State.lean ====
section
/-! SUPPORT. One lemma per field per named update of State, of the peer and of what the peer holds, each true by
unfolding the update once. -/

namespace Sys2Proof.Machine

@[simp] theorem State.goto_phase (s : State) (p : Phase) : (s.goto p).phase = p := rfl
@[simp] theorem State.goto_cs (s : State) (p : Phase) : (s.goto p).cs = s.cs := rfl
@[simp] theorem State.goto_rst (s : State) (p : Phase) : (s.goto p).rst = s.rst := rfl
@[simp] theorem State.goto_scratch (s : State) (p : Phase) : (s.goto p).scratch = s.scratch := rfl
@[simp] theorem State.goto_scratchValid (s : State) (p : Phase) : (s.goto p).scratchValid = s.scratchValid := rfl
@[simp] theorem State.goto_initialized (s : State) (p : Phase) : (s.goto p).initialized = s.initialized := rfl
@[simp] theorem State.goto_rfOn (s : State) (p : Phase) : (s.goto p).rfOn = s.rfOn := rfl
@[simp] theorem State.goto_faults (s : State) (p : Phase) : (s.goto p).faults = s.faults := rfl
@[simp] theorem State.goto_polls (s : State) (p : Phase) : (s.goto p).polls = s.polls := rfl
@[simp] theorem State.goto_irqPolls (s : State) (p : Phase) : (s.goto p).irqPolls = s.irqPolls := rfl
@[simp] theorem State.goto_xi (s : State) (p : Phase) : (s.goto p).xi = s.xi := rfl
@[simp] theorem State.goto_params (s : State) (p : Phase) : (s.goto p).params = s.params := rfl
@[simp] theorem State.goto_peer (s : State) (p : Phase) : (s.goto p).peer = s.peer := rfl
@[simp] theorem State.goto_queue (s : State) (p : Phase) : (s.goto p).queue = s.queue := rfl
@[simp] theorem State.goto_delivered (s : State) (p : Phase) : (s.goto p).delivered = s.delivered := rfl
@[simp] theorem State.goto_wire (s : State) (p : Phase) : (s.goto p).wire = s.wire := rfl

@[simp] theorem State.emit_phase (s : State) (a : Action) : (s.emit a).phase = s.phase := rfl
@[simp] theorem State.emit_cs (s : State) (a : Action) : (s.emit a).cs = s.cs := rfl
@[simp] theorem State.emit_rst (s : State) (a : Action) : (s.emit a).rst = s.rst := rfl
@[simp] theorem State.emit_scratch (s : State) (a : Action) : (s.emit a).scratch = s.scratch := rfl
@[simp] theorem State.emit_scratchValid (s : State) (a : Action) : (s.emit a).scratchValid = s.scratchValid := rfl
@[simp] theorem State.emit_initialized (s : State) (a : Action) : (s.emit a).initialized = s.initialized := rfl
@[simp] theorem State.emit_rfOn (s : State) (a : Action) : (s.emit a).rfOn = s.rfOn := rfl
@[simp] theorem State.emit_faults (s : State) (a : Action) : (s.emit a).faults = s.faults := rfl
@[simp] theorem State.emit_polls (s : State) (a : Action) : (s.emit a).polls = s.polls := rfl
@[simp] theorem State.emit_irqPolls (s : State) (a : Action) : (s.emit a).irqPolls = s.irqPolls := rfl
@[simp] theorem State.emit_xi (s : State) (a : Action) : (s.emit a).xi = s.xi := rfl
@[simp] theorem State.emit_params (s : State) (a : Action) : (s.emit a).params = s.params := rfl
@[simp] theorem State.emit_peer (s : State) (a : Action) : (s.emit a).peer = s.peer.elapse := rfl
@[simp] theorem State.emit_queue (s : State) (a : Action) : (s.emit a).queue = s.queue := rfl
@[simp] theorem State.emit_delivered (s : State) (a : Action) : (s.emit a).delivered = s.delivered := rfl
@[simp] theorem State.emit_wire (s : State) (a : Action) : (s.emit a).wire = s.wire ++ [⟨s.phase, s.cs, s.xi, a⟩] := rfl

@[simp] theorem State.emitWith_phase (s : State) (a : Action) (p : Peer) : (s.emitWith a p).phase = s.phase := rfl
@[simp] theorem State.emitWith_cs (s : State) (a : Action) (p : Peer) : (s.emitWith a p).cs = s.cs := rfl
@[simp] theorem State.emitWith_rst (s : State) (a : Action) (p : Peer) : (s.emitWith a p).rst = s.rst := rfl
@[simp] theorem State.emitWith_scratch (s : State) (a : Action) (p : Peer) : (s.emitWith a p).scratch = s.scratch := rfl
@[simp] theorem State.emitWith_scratchValid (s : State) (a : Action) (p : Peer) : (s.emitWith a p).scratchValid = s.scratchValid := rfl
@[simp] theorem State.emitWith_initialized (s : State) (a : Action) (p : Peer) : (s.emitWith a p).initialized = s.initialized := rfl
@[simp] theorem State.emitWith_rfOn (s : State) (a : Action) (p : Peer) : (s.emitWith a p).rfOn = s.rfOn := rfl
@[simp] theorem State.emitWith_faults (s : State) (a : Action) (p : Peer) : (s.emitWith a p).faults = s.faults := rfl
@[simp] theorem State.emitWith_polls (s : State) (a : Action) (p : Peer) : (s.emitWith a p).polls = s.polls := rfl
@[simp] theorem State.emitWith_irqPolls (s : State) (a : Action) (p : Peer) : (s.emitWith a p).irqPolls = s.irqPolls := rfl
@[simp] theorem State.emitWith_xi (s : State) (a : Action) (p : Peer) : (s.emitWith a p).xi = s.xi := rfl
@[simp] theorem State.emitWith_params (s : State) (a : Action) (p : Peer) : (s.emitWith a p).params = s.params := rfl
@[simp] theorem State.emitWith_peer (s : State) (a : Action) (p : Peer) : (s.emitWith a p).peer = p := rfl
@[simp] theorem State.emitWith_queue (s : State) (a : Action) (p : Peer) : (s.emitWith a p).queue = s.queue := rfl
@[simp] theorem State.emitWith_delivered (s : State) (a : Action) (p : Peer) : (s.emitWith a p).delivered = s.delivered := rfl
@[simp] theorem State.emitWith_wire (s : State) (a : Action) (p : Peer) : (s.emitWith a p).wire = s.wire ++ [⟨s.phase, s.cs, s.xi, a⟩] := rfl

@[simp] theorem State.setPeer_phase (s : State) (p : Peer) : (s.setPeer p).phase = s.phase := rfl
@[simp] theorem State.setPeer_cs (s : State) (p : Peer) : (s.setPeer p).cs = s.cs := rfl
@[simp] theorem State.setPeer_rst (s : State) (p : Peer) : (s.setPeer p).rst = s.rst := rfl
@[simp] theorem State.setPeer_scratch (s : State) (p : Peer) : (s.setPeer p).scratch = s.scratch := rfl
@[simp] theorem State.setPeer_scratchValid (s : State) (p : Peer) : (s.setPeer p).scratchValid = s.scratchValid := rfl
@[simp] theorem State.setPeer_initialized (s : State) (p : Peer) : (s.setPeer p).initialized = s.initialized := rfl
@[simp] theorem State.setPeer_rfOn (s : State) (p : Peer) : (s.setPeer p).rfOn = s.rfOn := rfl
@[simp] theorem State.setPeer_faults (s : State) (p : Peer) : (s.setPeer p).faults = s.faults := rfl
@[simp] theorem State.setPeer_polls (s : State) (p : Peer) : (s.setPeer p).polls = s.polls := rfl
@[simp] theorem State.setPeer_irqPolls (s : State) (p : Peer) : (s.setPeer p).irqPolls = s.irqPolls := rfl
@[simp] theorem State.setPeer_xi (s : State) (p : Peer) : (s.setPeer p).xi = s.xi := rfl
@[simp] theorem State.setPeer_params (s : State) (p : Peer) : (s.setPeer p).params = s.params := rfl
@[simp] theorem State.setPeer_peer (s : State) (p : Peer) : (s.setPeer p).peer = p := rfl
@[simp] theorem State.setPeer_queue (s : State) (p : Peer) : (s.setPeer p).queue = s.queue := rfl
@[simp] theorem State.setPeer_delivered (s : State) (p : Peer) : (s.setPeer p).delivered = s.delivered := rfl
@[simp] theorem State.setPeer_wire (s : State) (p : Peer) : (s.setPeer p).wire = s.wire := rfl

@[simp] theorem State.setPolls_phase (s : State) (n : Nat) : (s.setPolls n).phase = s.phase := rfl
@[simp] theorem State.setPolls_cs (s : State) (n : Nat) : (s.setPolls n).cs = s.cs := rfl
@[simp] theorem State.setPolls_rst (s : State) (n : Nat) : (s.setPolls n).rst = s.rst := rfl
@[simp] theorem State.setPolls_scratch (s : State) (n : Nat) : (s.setPolls n).scratch = s.scratch := rfl
@[simp] theorem State.setPolls_scratchValid (s : State) (n : Nat) : (s.setPolls n).scratchValid = s.scratchValid := rfl
@[simp] theorem State.setPolls_initialized (s : State) (n : Nat) : (s.setPolls n).initialized = s.initialized := rfl
@[simp] theorem State.setPolls_rfOn (s : State) (n : Nat) : (s.setPolls n).rfOn = s.rfOn := rfl
@[simp] theorem State.setPolls_faults (s : State) (n : Nat) : (s.setPolls n).faults = s.faults := rfl
@[simp] theorem State.setPolls_polls (s : State) (n : Nat) : (s.setPolls n).polls = n := rfl
@[simp] theorem State.setPolls_irqPolls (s : State) (n : Nat) : (s.setPolls n).irqPolls = s.irqPolls := rfl
@[simp] theorem State.setPolls_xi (s : State) (n : Nat) : (s.setPolls n).xi = s.xi := rfl
@[simp] theorem State.setPolls_params (s : State) (n : Nat) : (s.setPolls n).params = s.params := rfl
@[simp] theorem State.setPolls_peer (s : State) (n : Nat) : (s.setPolls n).peer = s.peer := rfl
@[simp] theorem State.setPolls_queue (s : State) (n : Nat) : (s.setPolls n).queue = s.queue := rfl
@[simp] theorem State.setPolls_delivered (s : State) (n : Nat) : (s.setPolls n).delivered = s.delivered := rfl
@[simp] theorem State.setPolls_wire (s : State) (n : Nat) : (s.setPolls n).wire = s.wire := rfl

@[simp] theorem State.setIrqPolls_phase (s : State) (n : Nat) : (s.setIrqPolls n).phase = s.phase := rfl
@[simp] theorem State.setIrqPolls_cs (s : State) (n : Nat) : (s.setIrqPolls n).cs = s.cs := rfl
@[simp] theorem State.setIrqPolls_rst (s : State) (n : Nat) : (s.setIrqPolls n).rst = s.rst := rfl
@[simp] theorem State.setIrqPolls_scratch (s : State) (n : Nat) : (s.setIrqPolls n).scratch = s.scratch := rfl
@[simp] theorem State.setIrqPolls_scratchValid (s : State) (n : Nat) : (s.setIrqPolls n).scratchValid = s.scratchValid := rfl
@[simp] theorem State.setIrqPolls_initialized (s : State) (n : Nat) : (s.setIrqPolls n).initialized = s.initialized := rfl
@[simp] theorem State.setIrqPolls_rfOn (s : State) (n : Nat) : (s.setIrqPolls n).rfOn = s.rfOn := rfl
@[simp] theorem State.setIrqPolls_faults (s : State) (n : Nat) : (s.setIrqPolls n).faults = s.faults := rfl
@[simp] theorem State.setIrqPolls_polls (s : State) (n : Nat) : (s.setIrqPolls n).polls = s.polls := rfl
@[simp] theorem State.setIrqPolls_irqPolls (s : State) (n : Nat) : (s.setIrqPolls n).irqPolls = n := rfl
@[simp] theorem State.setIrqPolls_xi (s : State) (n : Nat) : (s.setIrqPolls n).xi = s.xi := rfl
@[simp] theorem State.setIrqPolls_params (s : State) (n : Nat) : (s.setIrqPolls n).params = s.params := rfl
@[simp] theorem State.setIrqPolls_peer (s : State) (n : Nat) : (s.setIrqPolls n).peer = s.peer := rfl
@[simp] theorem State.setIrqPolls_queue (s : State) (n : Nat) : (s.setIrqPolls n).queue = s.queue := rfl
@[simp] theorem State.setIrqPolls_delivered (s : State) (n : Nat) : (s.setIrqPolls n).delivered = s.delivered := rfl
@[simp] theorem State.setIrqPolls_wire (s : State) (n : Nat) : (s.setIrqPolls n).wire = s.wire := rfl

@[simp] theorem State.setXi_phase (s : State) (n : Nat) : (s.setXi n).phase = s.phase := rfl
@[simp] theorem State.setXi_cs (s : State) (n : Nat) : (s.setXi n).cs = s.cs := rfl
@[simp] theorem State.setXi_rst (s : State) (n : Nat) : (s.setXi n).rst = s.rst := rfl
@[simp] theorem State.setXi_scratch (s : State) (n : Nat) : (s.setXi n).scratch = s.scratch := rfl
@[simp] theorem State.setXi_scratchValid (s : State) (n : Nat) : (s.setXi n).scratchValid = s.scratchValid := rfl
@[simp] theorem State.setXi_initialized (s : State) (n : Nat) : (s.setXi n).initialized = s.initialized := rfl
@[simp] theorem State.setXi_rfOn (s : State) (n : Nat) : (s.setXi n).rfOn = s.rfOn := rfl
@[simp] theorem State.setXi_faults (s : State) (n : Nat) : (s.setXi n).faults = s.faults := rfl
@[simp] theorem State.setXi_polls (s : State) (n : Nat) : (s.setXi n).polls = s.polls := rfl
@[simp] theorem State.setXi_irqPolls (s : State) (n : Nat) : (s.setXi n).irqPolls = s.irqPolls := rfl
@[simp] theorem State.setXi_xi (s : State) (n : Nat) : (s.setXi n).xi = n := rfl
@[simp] theorem State.setXi_params (s : State) (n : Nat) : (s.setXi n).params = s.params := rfl
@[simp] theorem State.setXi_peer (s : State) (n : Nat) : (s.setXi n).peer = s.peer := rfl
@[simp] theorem State.setXi_queue (s : State) (n : Nat) : (s.setXi n).queue = s.queue := rfl
@[simp] theorem State.setXi_delivered (s : State) (n : Nat) : (s.setXi n).delivered = s.delivered := rfl
@[simp] theorem State.setXi_wire (s : State) (n : Nat) : (s.setXi n).wire = s.wire := rfl

@[simp] theorem State.setValid_phase (s : State) (n : Nat) : (s.setValid n).phase = s.phase := rfl
@[simp] theorem State.setValid_cs (s : State) (n : Nat) : (s.setValid n).cs = s.cs := rfl
@[simp] theorem State.setValid_rst (s : State) (n : Nat) : (s.setValid n).rst = s.rst := rfl
@[simp] theorem State.setValid_scratch (s : State) (n : Nat) : (s.setValid n).scratch = s.scratch := rfl
@[simp] theorem State.setValid_scratchValid (s : State) (n : Nat) : (s.setValid n).scratchValid = n := rfl
@[simp] theorem State.setValid_initialized (s : State) (n : Nat) : (s.setValid n).initialized = s.initialized := rfl
@[simp] theorem State.setValid_rfOn (s : State) (n : Nat) : (s.setValid n).rfOn = s.rfOn := rfl
@[simp] theorem State.setValid_faults (s : State) (n : Nat) : (s.setValid n).faults = s.faults := rfl
@[simp] theorem State.setValid_polls (s : State) (n : Nat) : (s.setValid n).polls = s.polls := rfl
@[simp] theorem State.setValid_irqPolls (s : State) (n : Nat) : (s.setValid n).irqPolls = s.irqPolls := rfl
@[simp] theorem State.setValid_xi (s : State) (n : Nat) : (s.setValid n).xi = s.xi := rfl
@[simp] theorem State.setValid_params (s : State) (n : Nat) : (s.setValid n).params = s.params := rfl
@[simp] theorem State.setValid_peer (s : State) (n : Nat) : (s.setValid n).peer = s.peer := rfl
@[simp] theorem State.setValid_queue (s : State) (n : Nat) : (s.setValid n).queue = s.queue := rfl
@[simp] theorem State.setValid_delivered (s : State) (n : Nat) : (s.setValid n).delivered = s.delivered := rfl
@[simp] theorem State.setValid_wire (s : State) (n : Nat) : (s.setValid n).wire = s.wire := rfl

@[simp] theorem State.setScratch_phase (s : State) (m : Memory) : (s.setScratch m).phase = s.phase := rfl
@[simp] theorem State.setScratch_cs (s : State) (m : Memory) : (s.setScratch m).cs = s.cs := rfl
@[simp] theorem State.setScratch_rst (s : State) (m : Memory) : (s.setScratch m).rst = s.rst := rfl
@[simp] theorem State.setScratch_scratch (s : State) (m : Memory) : (s.setScratch m).scratch = m := rfl
@[simp] theorem State.setScratch_scratchValid (s : State) (m : Memory) : (s.setScratch m).scratchValid = s.scratchValid := rfl
@[simp] theorem State.setScratch_initialized (s : State) (m : Memory) : (s.setScratch m).initialized = s.initialized := rfl
@[simp] theorem State.setScratch_rfOn (s : State) (m : Memory) : (s.setScratch m).rfOn = s.rfOn := rfl
@[simp] theorem State.setScratch_faults (s : State) (m : Memory) : (s.setScratch m).faults = s.faults := rfl
@[simp] theorem State.setScratch_polls (s : State) (m : Memory) : (s.setScratch m).polls = s.polls := rfl
@[simp] theorem State.setScratch_irqPolls (s : State) (m : Memory) : (s.setScratch m).irqPolls = s.irqPolls := rfl
@[simp] theorem State.setScratch_xi (s : State) (m : Memory) : (s.setScratch m).xi = s.xi := rfl
@[simp] theorem State.setScratch_params (s : State) (m : Memory) : (s.setScratch m).params = s.params := rfl
@[simp] theorem State.setScratch_peer (s : State) (m : Memory) : (s.setScratch m).peer = s.peer := rfl
@[simp] theorem State.setScratch_queue (s : State) (m : Memory) : (s.setScratch m).queue = s.queue := rfl
@[simp] theorem State.setScratch_delivered (s : State) (m : Memory) : (s.setScratch m).delivered = s.delivered := rfl
@[simp] theorem State.setScratch_wire (s : State) (m : Memory) : (s.setScratch m).wire = s.wire := rfl

@[simp] theorem State.setRfOn_phase (s : State) (b : Bool) : (s.setRfOn b).phase = s.phase := rfl
@[simp] theorem State.setRfOn_cs (s : State) (b : Bool) : (s.setRfOn b).cs = s.cs := rfl
@[simp] theorem State.setRfOn_rst (s : State) (b : Bool) : (s.setRfOn b).rst = s.rst := rfl
@[simp] theorem State.setRfOn_scratch (s : State) (b : Bool) : (s.setRfOn b).scratch = s.scratch := rfl
@[simp] theorem State.setRfOn_scratchValid (s : State) (b : Bool) : (s.setRfOn b).scratchValid = s.scratchValid := rfl
@[simp] theorem State.setRfOn_initialized (s : State) (b : Bool) : (s.setRfOn b).initialized = s.initialized := rfl
@[simp] theorem State.setRfOn_rfOn (s : State) (b : Bool) : (s.setRfOn b).rfOn = b := rfl
@[simp] theorem State.setRfOn_faults (s : State) (b : Bool) : (s.setRfOn b).faults = s.faults := rfl
@[simp] theorem State.setRfOn_polls (s : State) (b : Bool) : (s.setRfOn b).polls = s.polls := rfl
@[simp] theorem State.setRfOn_irqPolls (s : State) (b : Bool) : (s.setRfOn b).irqPolls = s.irqPolls := rfl
@[simp] theorem State.setRfOn_xi (s : State) (b : Bool) : (s.setRfOn b).xi = s.xi := rfl
@[simp] theorem State.setRfOn_params (s : State) (b : Bool) : (s.setRfOn b).params = s.params := rfl
@[simp] theorem State.setRfOn_peer (s : State) (b : Bool) : (s.setRfOn b).peer = s.peer := rfl
@[simp] theorem State.setRfOn_queue (s : State) (b : Bool) : (s.setRfOn b).queue = s.queue := rfl
@[simp] theorem State.setRfOn_delivered (s : State) (b : Bool) : (s.setRfOn b).delivered = s.delivered := rfl
@[simp] theorem State.setRfOn_wire (s : State) (b : Bool) : (s.setRfOn b).wire = s.wire := rfl

@[simp] theorem State.setInitialized_phase (s : State) (b : Bool) : (s.setInitialized b).phase = s.phase := rfl
@[simp] theorem State.setInitialized_cs (s : State) (b : Bool) : (s.setInitialized b).cs = s.cs := rfl
@[simp] theorem State.setInitialized_rst (s : State) (b : Bool) : (s.setInitialized b).rst = s.rst := rfl
@[simp] theorem State.setInitialized_scratch (s : State) (b : Bool) : (s.setInitialized b).scratch = s.scratch := rfl
@[simp] theorem State.setInitialized_scratchValid (s : State) (b : Bool) : (s.setInitialized b).scratchValid = s.scratchValid := rfl
@[simp] theorem State.setInitialized_initialized (s : State) (b : Bool) : (s.setInitialized b).initialized = b := rfl
@[simp] theorem State.setInitialized_rfOn (s : State) (b : Bool) : (s.setInitialized b).rfOn = s.rfOn := rfl
@[simp] theorem State.setInitialized_faults (s : State) (b : Bool) : (s.setInitialized b).faults = s.faults := rfl
@[simp] theorem State.setInitialized_polls (s : State) (b : Bool) : (s.setInitialized b).polls = s.polls := rfl
@[simp] theorem State.setInitialized_irqPolls (s : State) (b : Bool) : (s.setInitialized b).irqPolls = s.irqPolls := rfl
@[simp] theorem State.setInitialized_xi (s : State) (b : Bool) : (s.setInitialized b).xi = s.xi := rfl
@[simp] theorem State.setInitialized_params (s : State) (b : Bool) : (s.setInitialized b).params = s.params := rfl
@[simp] theorem State.setInitialized_peer (s : State) (b : Bool) : (s.setInitialized b).peer = s.peer := rfl
@[simp] theorem State.setInitialized_queue (s : State) (b : Bool) : (s.setInitialized b).queue = s.queue := rfl
@[simp] theorem State.setInitialized_delivered (s : State) (b : Bool) : (s.setInitialized b).delivered = s.delivered := rfl
@[simp] theorem State.setInitialized_wire (s : State) (b : Bool) : (s.setInitialized b).wire = s.wire := rfl

@[simp] theorem State.setCs_phase (s : State) (a : Bool) : (s.setCs a).phase = s.phase := rfl
@[simp] theorem State.setCs_cs (s : State) (a : Bool) : (s.setCs a).cs = a := rfl
@[simp] theorem State.setCs_rst (s : State) (a : Bool) : (s.setCs a).rst = s.rst := rfl
@[simp] theorem State.setCs_scratch (s : State) (a : Bool) : (s.setCs a).scratch = s.scratch := rfl
@[simp] theorem State.setCs_scratchValid (s : State) (a : Bool) : (s.setCs a).scratchValid = s.scratchValid := rfl
@[simp] theorem State.setCs_initialized (s : State) (a : Bool) : (s.setCs a).initialized = s.initialized := rfl
@[simp] theorem State.setCs_rfOn (s : State) (a : Bool) : (s.setCs a).rfOn = s.rfOn := rfl
@[simp] theorem State.setCs_faults (s : State) (a : Bool) : (s.setCs a).faults = s.faults := rfl
@[simp] theorem State.setCs_polls (s : State) (a : Bool) : (s.setCs a).polls = s.polls := rfl
@[simp] theorem State.setCs_irqPolls (s : State) (a : Bool) : (s.setCs a).irqPolls = s.irqPolls := rfl
@[simp] theorem State.setCs_xi (s : State) (a : Bool) : (s.setCs a).xi = s.xi := rfl
@[simp] theorem State.setCs_params (s : State) (a : Bool) : (s.setCs a).params = s.params := rfl
@[simp] theorem State.setCs_peer (s : State) (a : Bool) : (s.setCs a).peer = s.peer.elapse := rfl
@[simp] theorem State.setCs_queue (s : State) (a : Bool) : (s.setCs a).queue = s.queue := rfl
@[simp] theorem State.setCs_delivered (s : State) (a : Bool) : (s.setCs a).delivered = s.delivered := rfl
@[simp] theorem State.setCs_wire (s : State) (a : Bool) : (s.setCs a).wire = s.wire ++ [⟨s.phase, a, s.xi, .setCs a⟩] := rfl

@[simp] theorem State.setRst_phase (s : State) (l : Level) : (s.setRst l).phase = s.phase := rfl
@[simp] theorem State.setRst_cs (s : State) (l : Level) : (s.setRst l).cs = s.cs := rfl
@[simp] theorem State.setRst_rst (s : State) (l : Level) : (s.setRst l).rst = l := rfl
@[simp] theorem State.setRst_scratch (s : State) (l : Level) : (s.setRst l).scratch = s.scratch := rfl
@[simp] theorem State.setRst_scratchValid (s : State) (l : Level) : (s.setRst l).scratchValid = s.scratchValid := rfl
@[simp] theorem State.setRst_initialized (s : State) (l : Level) : (s.setRst l).initialized = s.initialized := rfl
@[simp] theorem State.setRst_rfOn (s : State) (l : Level) : (s.setRst l).rfOn = s.rfOn := rfl
@[simp] theorem State.setRst_faults (s : State) (l : Level) : (s.setRst l).faults = s.faults := rfl
@[simp] theorem State.setRst_polls (s : State) (l : Level) : (s.setRst l).polls = s.polls := rfl
@[simp] theorem State.setRst_irqPolls (s : State) (l : Level) : (s.setRst l).irqPolls = s.irqPolls := rfl
@[simp] theorem State.setRst_xi (s : State) (l : Level) : (s.setRst l).xi = s.xi := rfl
@[simp] theorem State.setRst_params (s : State) (l : Level) : (s.setRst l).params = s.params := rfl
@[simp] theorem State.setRst_peer (s : State) (l : Level) : (s.setRst l).peer =
    (if l = .low then s.peer.elapse.act Chip.hardwareReset else s.peer.elapse) := rfl
@[simp] theorem State.setRst_queue (s : State) (l : Level) : (s.setRst l).queue = s.queue := rfl
@[simp] theorem State.setRst_delivered (s : State) (l : Level) : (s.setRst l).delivered = s.delivered := rfl
@[simp] theorem State.setRst_wire (s : State) (l : Level) : (s.setRst l).wire = s.wire ++ [⟨s.phase, s.cs, s.xi, .setRst l⟩] := rfl

@[simp] theorem State.settle_phase (s : State) (d : Delay) : (s.settle d).phase = s.phase := rfl
@[simp] theorem State.settle_cs (s : State) (d : Delay) : (s.settle d).cs = s.cs := rfl
@[simp] theorem State.settle_rst (s : State) (d : Delay) : (s.settle d).rst = s.rst := rfl
@[simp] theorem State.settle_scratch (s : State) (d : Delay) : (s.settle d).scratch = s.scratch := rfl
@[simp] theorem State.settle_scratchValid (s : State) (d : Delay) : (s.settle d).scratchValid = s.scratchValid := rfl
@[simp] theorem State.settle_initialized (s : State) (d : Delay) : (s.settle d).initialized = s.initialized := rfl
@[simp] theorem State.settle_rfOn (s : State) (d : Delay) : (s.settle d).rfOn = s.rfOn := rfl
@[simp] theorem State.settle_faults (s : State) (d : Delay) : (s.settle d).faults = s.faults := rfl
@[simp] theorem State.settle_polls (s : State) (d : Delay) : (s.settle d).polls = s.polls := rfl
@[simp] theorem State.settle_irqPolls (s : State) (d : Delay) : (s.settle d).irqPolls = s.irqPolls := rfl
@[simp] theorem State.settle_xi (s : State) (d : Delay) : (s.settle d).xi = s.xi := rfl
@[simp] theorem State.settle_params (s : State) (d : Delay) : (s.settle d).params = s.params := rfl
@[simp] theorem State.settle_peer (s : State) (d : Delay) : (s.settle d).peer = s.peer.elapse := rfl
@[simp] theorem State.settle_queue (s : State) (d : Delay) : (s.settle d).queue = s.queue := rfl
@[simp] theorem State.settle_delivered (s : State) (d : Delay) : (s.settle d).delivered = s.delivered := rfl
@[simp] theorem State.settle_wire (s : State) (d : Delay) : (s.settle d).wire = s.wire ++ [⟨s.phase, s.cs, s.xi, .settle d⟩] := rfl

@[simp] theorem State.sleep_phase (s : State) : (s.sleep).phase = s.phase := rfl
@[simp] theorem State.sleep_cs (s : State) : (s.sleep).cs = s.cs := rfl
@[simp] theorem State.sleep_rst (s : State) : (s.sleep).rst = s.rst := rfl
@[simp] theorem State.sleep_scratch (s : State) : (s.sleep).scratch = s.scratch := rfl
@[simp] theorem State.sleep_scratchValid (s : State) : (s.sleep).scratchValid = s.scratchValid := rfl
@[simp] theorem State.sleep_initialized (s : State) : (s.sleep).initialized = s.initialized := rfl
@[simp] theorem State.sleep_rfOn (s : State) : (s.sleep).rfOn = s.rfOn := rfl
@[simp] theorem State.sleep_faults (s : State) : (s.sleep).faults = s.faults := rfl
@[simp] theorem State.sleep_polls (s : State) : (s.sleep).polls = s.polls := rfl
@[simp] theorem State.sleep_irqPolls (s : State) : (s.sleep).irqPolls = s.irqPolls := rfl
@[simp] theorem State.sleep_xi (s : State) : (s.sleep).xi = s.xi := rfl
@[simp] theorem State.sleep_params (s : State) : (s.sleep).params = s.params := rfl
@[simp] theorem State.sleep_peer (s : State) : (s.sleep).peer = s.peer.elapse := rfl
@[simp] theorem State.sleep_queue (s : State) : (s.sleep).queue = s.queue := rfl
@[simp] theorem State.sleep_delivered (s : State) : (s.sleep).delivered = s.delivered := rfl
@[simp] theorem State.sleep_wire (s : State) : (s.sleep).wire = s.wire ++ [⟨s.phase, s.cs, s.xi, .sleep⟩] := rfl

@[simp] theorem State.clearCounters_phase (s : State) : (s.clearCounters).phase = s.phase := rfl
@[simp] theorem State.clearCounters_cs (s : State) : (s.clearCounters).cs = s.cs := rfl
@[simp] theorem State.clearCounters_rst (s : State) : (s.clearCounters).rst = s.rst := rfl
@[simp] theorem State.clearCounters_scratch (s : State) : (s.clearCounters).scratch = s.scratch := rfl
@[simp] theorem State.clearCounters_scratchValid (s : State) : (s.clearCounters).scratchValid = s.scratchValid := rfl
@[simp] theorem State.clearCounters_initialized (s : State) : (s.clearCounters).initialized = s.initialized := rfl
@[simp] theorem State.clearCounters_rfOn (s : State) : (s.clearCounters).rfOn = s.rfOn := rfl
@[simp] theorem State.clearCounters_faults (s : State) : (s.clearCounters).faults = s.faults := rfl
@[simp] theorem State.clearCounters_polls (s : State) : (s.clearCounters).polls = 0 := rfl
@[simp] theorem State.clearCounters_irqPolls (s : State) : (s.clearCounters).irqPolls = 0 := rfl
@[simp] theorem State.clearCounters_xi (s : State) : (s.clearCounters).xi = 0 := rfl
@[simp] theorem State.clearCounters_params (s : State) : (s.clearCounters).params = s.params := rfl
@[simp] theorem State.clearCounters_peer (s : State) : (s.clearCounters).peer = s.peer := rfl
@[simp] theorem State.clearCounters_queue (s : State) : (s.clearCounters).queue = s.queue := rfl
@[simp] theorem State.clearCounters_delivered (s : State) : (s.clearCounters).delivered = s.delivered := rfl
@[simp] theorem State.clearCounters_wire (s : State) : (s.clearCounters).wire = s.wire := rfl

@[simp] theorem State.deliver_phase (s : State) (o : OpOutcome) : (s.deliver o).phase = s.phase := rfl
@[simp] theorem State.deliver_cs (s : State) (o : OpOutcome) : (s.deliver o).cs = s.cs := rfl
@[simp] theorem State.deliver_rst (s : State) (o : OpOutcome) : (s.deliver o).rst = s.rst := rfl
@[simp] theorem State.deliver_scratch (s : State) (o : OpOutcome) : (s.deliver o).scratch = s.scratch := rfl
@[simp] theorem State.deliver_scratchValid (s : State) (o : OpOutcome) : (s.deliver o).scratchValid = s.scratchValid := rfl
@[simp] theorem State.deliver_initialized (s : State) (o : OpOutcome) : (s.deliver o).initialized = s.initialized := rfl
@[simp] theorem State.deliver_rfOn (s : State) (o : OpOutcome) : (s.deliver o).rfOn = s.rfOn := rfl
@[simp] theorem State.deliver_faults (s : State) (o : OpOutcome) : (s.deliver o).faults = s.faults := rfl
@[simp] theorem State.deliver_polls (s : State) (o : OpOutcome) : (s.deliver o).polls = s.polls := rfl
@[simp] theorem State.deliver_irqPolls (s : State) (o : OpOutcome) : (s.deliver o).irqPolls = s.irqPolls := rfl
@[simp] theorem State.deliver_xi (s : State) (o : OpOutcome) : (s.deliver o).xi = s.xi := rfl
@[simp] theorem State.deliver_params (s : State) (o : OpOutcome) : (s.deliver o).params = s.params := rfl
@[simp] theorem State.deliver_peer (s : State) (o : OpOutcome) : (s.deliver o).peer = s.peer := rfl
@[simp] theorem State.deliver_queue (s : State) (o : OpOutcome) : (s.deliver o).queue = s.queue := rfl
@[simp] theorem State.deliver_delivered (s : State) (o : OpOutcome) : (s.deliver o).delivered = s.delivered ++ [o] := rfl
/-- The host sees the outcome, without the phase of a `BusyTimeout` (R132). -/
@[simp] theorem State.deliver_hostSees (s : State) (o : OpOutcome) : (s.deliver o).hostSees = s.hostSees ++ [o.seen] := by
  simp [State.hostSees, State.deliver]

/-- What the host sees follows what is delivered. -/
theorem State.hostSees_congr {s t : State} (h : t.delivered = s.delivered) : t.hostSees = s.hostSees :=
  congrArg (List.map OpOutcome.seen) h

/-- One outcome more is delivered, so the host sees one more. -/
theorem State.hostSees_append {s t : State} {o : OpOutcome} (h : t.delivered = s.delivered ++ [o]) :
    t.hostSees = s.hostSees ++ [o.seen] := by simp [State.hostSees, h]

@[simp] theorem State.deliver_wire (s : State) (o : OpOutcome) : (s.deliver o).wire = s.wire := rfl

@[simp] theorem State.popRequest_phase (s : State) : (s.popRequest).phase = s.phase := rfl
@[simp] theorem State.popRequest_cs (s : State) : (s.popRequest).cs = s.cs := rfl
@[simp] theorem State.popRequest_rst (s : State) : (s.popRequest).rst = s.rst := rfl
@[simp] theorem State.popRequest_scratch (s : State) : (s.popRequest).scratch = s.scratch := rfl
@[simp] theorem State.popRequest_scratchValid (s : State) : (s.popRequest).scratchValid = s.scratchValid := rfl
@[simp] theorem State.popRequest_initialized (s : State) : (s.popRequest).initialized = s.initialized := rfl
@[simp] theorem State.popRequest_rfOn (s : State) : (s.popRequest).rfOn = s.rfOn := rfl
@[simp] theorem State.popRequest_faults (s : State) : (s.popRequest).faults = s.faults := rfl
@[simp] theorem State.popRequest_polls (s : State) : (s.popRequest).polls = s.polls := rfl
@[simp] theorem State.popRequest_irqPolls (s : State) : (s.popRequest).irqPolls = s.irqPolls := rfl
@[simp] theorem State.popRequest_xi (s : State) : (s.popRequest).xi = s.xi := rfl
@[simp] theorem State.popRequest_params (s : State) : (s.popRequest).params = s.params := rfl
@[simp] theorem State.popRequest_peer (s : State) : (s.popRequest).peer = s.peer := rfl
@[simp] theorem State.popRequest_queue (s : State) : (s.popRequest).queue = s.queue.tail := rfl
@[simp] theorem State.popRequest_delivered (s : State) : (s.popRequest).delivered = s.delivered := rfl
@[simp] theorem State.popRequest_wire (s : State) : (s.popRequest).wire = s.wire := rfl

@[simp] theorem State.issue_phase (s : State) (r : Request) : (s.issue r).phase = s.phase := rfl
@[simp] theorem State.issue_cs (s : State) (r : Request) : (s.issue r).cs = s.cs := rfl
@[simp] theorem State.issue_rst (s : State) (r : Request) : (s.issue r).rst = s.rst := rfl
@[simp] theorem State.issue_scratch (s : State) (r : Request) : (s.issue r).scratch = s.scratch := rfl
@[simp] theorem State.issue_scratchValid (s : State) (r : Request) : (s.issue r).scratchValid = s.scratchValid := rfl
@[simp] theorem State.issue_initialized (s : State) (r : Request) : (s.issue r).initialized = s.initialized := rfl
@[simp] theorem State.issue_rfOn (s : State) (r : Request) : (s.issue r).rfOn = s.rfOn := rfl
@[simp] theorem State.issue_faults (s : State) (r : Request) : (s.issue r).faults = s.faults := rfl
@[simp] theorem State.issue_polls (s : State) (r : Request) : (s.issue r).polls = s.polls := rfl
@[simp] theorem State.issue_irqPolls (s : State) (r : Request) : (s.issue r).irqPolls = s.irqPolls := rfl
@[simp] theorem State.issue_xi (s : State) (r : Request) : (s.issue r).xi = s.xi := rfl
@[simp] theorem State.issue_params (s : State) (r : Request) : (s.issue r).params = s.params := rfl
@[simp] theorem State.issue_peer (s : State) (r : Request) : (s.issue r).peer = s.peer := rfl
@[simp] theorem State.issue_queue (s : State) (r : Request) : (s.issue r).queue = r :: s.queue := rfl
@[simp] theorem State.issue_delivered (s : State) (r : Request) : (s.issue r).delivered = s.delivered := rfl
@[simp] theorem State.issue_wire (s : State) (r : Request) : (s.issue r).wire = s.wire := rfl

@[simp] theorem State.sendByte_phase (s : State) (o : Byte) : (s.sendByte o).phase = s.phase := rfl
@[simp] theorem State.sendByte_cs (s : State) (o : Byte) : (s.sendByte o).cs = s.cs := rfl
@[simp] theorem State.sendByte_rst (s : State) (o : Byte) : (s.sendByte o).rst = s.rst := rfl
@[simp] theorem State.sendByte_scratch (s : State) (o : Byte) : (s.sendByte o).scratch = s.scratch := rfl
@[simp] theorem State.sendByte_scratchValid (s : State) (o : Byte) : (s.sendByte o).scratchValid = s.scratchValid := rfl
@[simp] theorem State.sendByte_initialized (s : State) (o : Byte) : (s.sendByte o).initialized = s.initialized := rfl
@[simp] theorem State.sendByte_rfOn (s : State) (o : Byte) : (s.sendByte o).rfOn = s.rfOn := rfl
@[simp] theorem State.sendByte_faults (s : State) (o : Byte) : (s.sendByte o).faults = s.faults := rfl
@[simp] theorem State.sendByte_polls (s : State) (o : Byte) : (s.sendByte o).polls = s.polls := rfl
@[simp] theorem State.sendByte_irqPolls (s : State) (o : Byte) : (s.sendByte o).irqPolls = s.irqPolls := rfl
@[simp] theorem State.sendByte_xi (s : State) (o : Byte) : (s.sendByte o).xi = s.xi + 1 := rfl
@[simp] theorem State.sendByte_params (s : State) (o : Byte) : (s.sendByte o).params = s.params := rfl
@[simp] theorem State.sendByte_peer (s : State) (o : Byte) : (s.sendByte o).peer = s.peer.elapse.drawDiscard.2 := rfl
@[simp] theorem State.sendByte_queue (s : State) (o : Byte) : (s.sendByte o).queue = s.queue := rfl
@[simp] theorem State.sendByte_delivered (s : State) (o : Byte) : (s.sendByte o).delivered = s.delivered := rfl
@[simp] theorem State.sendByte_wire (s : State) (o : Byte) : (s.sendByte o).wire = s.wire ++ [⟨s.phase, s.cs, s.xi, .xfer o s.peer.elapse.drawDiscard.1⟩] := rfl

@[simp] theorem State.select_phase (s : State) (p : Phase) : (s.select p).phase = p := rfl
@[simp] theorem State.select_cs (s : State) (p : Phase) : (s.select p).cs = true := rfl
@[simp] theorem State.select_rst (s : State) (p : Phase) : (s.select p).rst = s.rst := rfl
@[simp] theorem State.select_scratch (s : State) (p : Phase) : (s.select p).scratch = s.scratch := rfl
@[simp] theorem State.select_scratchValid (s : State) (p : Phase) : (s.select p).scratchValid = s.scratchValid := rfl
@[simp] theorem State.select_initialized (s : State) (p : Phase) : (s.select p).initialized = s.initialized := rfl
@[simp] theorem State.select_rfOn (s : State) (p : Phase) : (s.select p).rfOn = s.rfOn := rfl
@[simp] theorem State.select_faults (s : State) (p : Phase) : (s.select p).faults = s.faults := rfl
@[simp] theorem State.select_polls (s : State) (p : Phase) : (s.select p).polls = s.polls := rfl
@[simp] theorem State.select_irqPolls (s : State) (p : Phase) : (s.select p).irqPolls = s.irqPolls := rfl
@[simp] theorem State.select_xi (s : State) (p : Phase) : (s.select p).xi = s.xi := rfl
@[simp] theorem State.select_params (s : State) (p : Phase) : (s.select p).params = s.params := rfl
@[simp] theorem State.select_peer (s : State) (p : Phase) : (s.select p).peer = s.peer.elapse.elapse := rfl
@[simp] theorem State.select_queue (s : State) (p : Phase) : (s.select p).queue = s.queue := rfl
@[simp] theorem State.select_delivered (s : State) (p : Phase) : (s.select p).delivered = s.delivered := rfl
@[simp] theorem State.select_wire (s : State) (p : Phase) : (s.select p).wire = s.wire ++ [⟨p, true, s.xi, .setCs true⟩] ++ [⟨p, true, s.xi, .settle .csSettle⟩] := rfl

@[simp] theorem State.release_phase (s : State) (p : Phase) : (s.release p).phase = p := rfl
@[simp] theorem State.release_cs (s : State) (p : Phase) : (s.release p).cs = false := rfl
@[simp] theorem State.release_rst (s : State) (p : Phase) : (s.release p).rst = s.rst := rfl
@[simp] theorem State.release_scratch (s : State) (p : Phase) : (s.release p).scratch = s.scratch := rfl
@[simp] theorem State.release_scratchValid (s : State) (p : Phase) : (s.release p).scratchValid = s.scratchValid := rfl
@[simp] theorem State.release_initialized (s : State) (p : Phase) : (s.release p).initialized = s.initialized := rfl
@[simp] theorem State.release_rfOn (s : State) (p : Phase) : (s.release p).rfOn = s.rfOn := rfl
@[simp] theorem State.release_faults (s : State) (p : Phase) : (s.release p).faults = s.faults := rfl
@[simp] theorem State.release_polls (s : State) (p : Phase) : (s.release p).polls = s.polls := rfl
@[simp] theorem State.release_irqPolls (s : State) (p : Phase) : (s.release p).irqPolls = s.irqPolls := rfl
@[simp] theorem State.release_xi (s : State) (p : Phase) : (s.release p).xi = s.xi := rfl
@[simp] theorem State.release_params (s : State) (p : Phase) : (s.release p).params = s.params := rfl
@[simp] theorem State.release_peer (s : State) (p : Phase) : (s.release p).peer = s.peer.elapse.elapse := rfl
@[simp] theorem State.release_queue (s : State) (p : Phase) : (s.release p).queue = s.queue := rfl
@[simp] theorem State.release_delivered (s : State) (p : Phase) : (s.release p).delivered = s.delivered := rfl
@[simp] theorem State.release_wire (s : State) (p : Phase) : (s.release p).wire = s.wire ++ [⟨p, false, s.xi, .setCs false⟩] ++ [⟨p, false, s.xi, .settle .csReleaseSettle⟩] := rfl

@[simp] theorem Peer.act_busy (p : Peer) (f : Chip → Chip) : (p.act f).busy = p.busy := rfl
@[simp] theorem Peer.act_replies (p : Peer) (f : Chip → Chip) : (p.act f).replies = p.replies := rfl
@[simp] theorem Peer.act_discards (p : Peer) (f : Chip → Chip) : (p.act f).discards = p.discards := rfl
@[simp] theorem Peer.act_executed (p : Peer) (f : Chip → Chip) : (p.act f).executed = p.executed := rfl
@[simp] theorem Peer.act_events (p : Peer) (f : Chip → Chip) : (p.act f).events = p.events := rfl
@[simp] theorem Peer.act_restless (p : Peer) (f : Chip → Chip) : (p.act f).restless = p.restless := rfl
@[simp] theorem Peer.act_draws (p : Peer) (f : Chip → Chip) : (p.act f).draws = p.draws := rfl
@[simp] theorem Peer.act_chip (p : Peer) (f : Chip → Chip) : (p.act f).chip = f p.chip := rfl

@[simp] theorem Chip.setReg_regs (c : Chip) (a : Byte) (v : Word) : (c.setReg a v).regs = cellsWrite c.regs a.toNat v := rfl
@[simp] theorem Chip.setReg_eeprom (c : Chip) (a : Byte) (v : Word) : (c.setReg a v).eeprom = c.eeprom := rfl
@[simp] theorem Chip.setReg_tx (c : Chip) (a : Byte) (v : Word) : (c.setReg a v).tx = c.tx := rfl
@[simp] theorem Chip.setReg_rx (c : Chip) (a : Byte) (v : Word) : (c.setReg a v).rx = c.rx := rfl
@[simp] theorem Chip.setReg_rfConfig (c : Chip) (a : Byte) (v : Word) : (c.setReg a v).rfConfig = c.rfConfig := rfl
@[simp] theorem Chip.setReg_rfField (c : Chip) (a : Byte) (v : Word) : (c.setReg a v).rfField = c.rfField := rfl
@[simp] theorem Chip.setReg_response (c : Chip) (a : Byte) (v : Word) : (c.setReg a v).response = c.response := rfl
@[simp] theorem Chip.setReg_epoch (c : Chip) (a : Byte) (v : Word) : (c.setReg a v).epoch = c.epoch := rfl

@[simp] theorem Chip.updateReg_regs (c : Chip) (a : Byte) (f : Word → Word) : (c.updateReg a f).regs = cellsWrite c.regs a.toNat (f (c.reg a)) := rfl
@[simp] theorem Chip.updateReg_eeprom (c : Chip) (a : Byte) (f : Word → Word) : (c.updateReg a f).eeprom = c.eeprom := rfl
@[simp] theorem Chip.updateReg_tx (c : Chip) (a : Byte) (f : Word → Word) : (c.updateReg a f).tx = c.tx := rfl
@[simp] theorem Chip.updateReg_rx (c : Chip) (a : Byte) (f : Word → Word) : (c.updateReg a f).rx = c.rx := rfl
@[simp] theorem Chip.updateReg_rfConfig (c : Chip) (a : Byte) (f : Word → Word) : (c.updateReg a f).rfConfig = c.rfConfig := rfl
@[simp] theorem Chip.updateReg_rfField (c : Chip) (a : Byte) (f : Word → Word) : (c.updateReg a f).rfField = c.rfField := rfl
@[simp] theorem Chip.updateReg_response (c : Chip) (a : Byte) (f : Word → Word) : (c.updateReg a f).response = c.response := rfl
@[simp] theorem Chip.updateReg_epoch (c : Chip) (a : Byte) (f : Word → Word) : (c.updateReg a f).epoch = c.epoch := rfl


@[simp] theorem Chip.hardwareReset_regs (c : Chip) : (c.hardwareReset).regs = [] := rfl
@[simp] theorem Chip.hardwareReset_eeprom (c : Chip) : (c.hardwareReset).eeprom = c.eeprom := rfl
@[simp] theorem Chip.hardwareReset_tx (c : Chip) : (c.hardwareReset).tx = none := rfl
@[simp] theorem Chip.hardwareReset_rx (c : Chip) : (c.hardwareReset).rx = [] := rfl
@[simp] theorem Chip.hardwareReset_rfConfig (c : Chip) : (c.hardwareReset).rfConfig = none := rfl
@[simp] theorem Chip.hardwareReset_rfField (c : Chip) : (c.hardwareReset).rfField = none := rfl
@[simp] theorem Chip.hardwareReset_response (c : Chip) : (c.hardwareReset).response = [] := rfl
@[simp] theorem Chip.hardwareReset_epoch (c : Chip) : (c.hardwareReset).epoch = c.epoch + 1 := rfl

end Sys2Proof.Machine
end

