-- ==== Sys2Proof/Laws/Peer.lean ====
section
/-! SUPPORT. The peer, said once: what a draw and the peer's own changes leave, and that every change of what the peer holds
keeps the canonical form of its registers. -/

namespace Sys2Proof.Machine

/-! ## The canonical form of the registers -/

theorem Chip.updateReg_rising (c : Chip) (a : Byte) (f : Word → Word) (h : cellsRising c.regs = true) :
    cellsRising (c.updateReg a f).regs = true := cellsRising_write _ _ _ h

theorem Chip.flagsSetAgain_rising (c : Chip) (a : Byte) (b : Chip) (h : cellsRising c.regs = true) :
    cellsRising (c.flagsSetAgain a b).regs = true := by
  unfold Chip.flagsSetAgain
  split
  · exact c.updateReg_rising _ _ h
  · exact h

theorem Chip.writeRegister_rising (c : Chip) (a : Byte) (v : Word) (h : cellsRising c.regs = true) :
    cellsRising (c.writeRegister a v).regs = true := by
  unfold Chip.writeRegister
  split
  · exact c.updateReg_rising _ _ h
  · exact cellsRising_write _ _ _ h

theorem Chip.accessed_rising (c : Chip) (a : Byte) (f : Chip → Chip) (h : cellsRising (f c).regs = true) :
    cellsRising (c.accessed a f).regs = true := by
  unfold Chip.accessed
  split
  · exact h
  · rfl

theorem Chip.execute_rising (c : Chip) (frame : List Byte) (h : cellsRising c.regs = true) :
    cellsRising (c.execute frame).regs = true := by
  unfold Chip.execute
  split
  · exact h
  · split
    · exact h
    · unfold Chip.executeParams
      split
      · exact c.accessed_rising _ _ (Chip.flagsSetAgain_rising _ _ _ (c.writeRegister_rising _ _ h))
      · exact c.accessed_rising _ _ (c.updateReg_rising _ _ h)
      · exact c.accessed_rising _ _ (Chip.flagsSetAgain_rising _ _ _ (c.updateReg_rising _ _ h))
      all_goals exact h

theorem Chip.observe_rising (c : Chip) (f r : List Byte) (h : cellsRising c.regs = true) :
    cellsRising (c.observe f r).regs = true := by
  unfold Chip.observe
  split
  · split
    · exact cellsRising_write _ _ _ h
    · exact h
  · exact h

theorem Chip.undergo_rising (c : Chip) (e : PeerEvent) (h : cellsRising c.regs = true) :
    cellsRising (c.undergo e).regs = true := by
  cases e with
  | raise m => exact c.updateReg_rising _ _ h
  | register a v => exact cellsRising_write _ _ _ h
  | receive bs => exact h
  | anything => rfl

/-! ## The peer's own changes -/

@[simp] theorem Peer.act_quiet (p : Peer) (f : Chip → Chip) : (p.act f).Quiet ↔ p.Quiet := Iff.rfl

theorem Peer.elapse_eq (p : Peer) : ∃ es c, p.elapse = { p with events := es, chip := c } := by
  unfold Peer.elapse
  split
  · exact ⟨_, _, rfl⟩
  · split
    · exact ⟨_, _, rfl⟩
    · exact ⟨_, _, rfl⟩

@[simp] theorem Peer.elapse_busy (p : Peer) : p.elapse.busy = p.busy := by obtain ⟨_, _, h⟩ := p.elapse_eq; rw [h]
@[simp] theorem Peer.elapse_replies (p : Peer) : p.elapse.replies = p.replies := by
  obtain ⟨_, _, h⟩ := p.elapse_eq; rw [h]
@[simp] theorem Peer.elapse_executed (p : Peer) : p.elapse.executed = p.executed := by
  obtain ⟨_, _, h⟩ := p.elapse_eq; rw [h]

/-- A quiet peer changes nothing by itself. -/
theorem Peer.Quiet.elapse {p : Peer} (h : p.Quiet) : p.elapse = p := by
  unfold Peer.elapse
  rw [h.1, h.2]
  rfl

theorem Peer.elapse_rising (p : Peer) (h : cellsRising p.chip.regs = true) : cellsRising p.elapse.chip.regs = true := by
  unfold Peer.elapse
  split
  · next es rest _ =>
    show cellsRising (es.foldl Chip.undergo p.chip).regs = true
    revert h
    generalize p.chip = c
    intro h
    clear * - h
    induction es generalizing c with
    | nil => exact h
    | cons e es ih => exact ih _ (c.undergo_rising e h)
  · split
    · rfl
    · exact h

/-- What a stretch of primitives without the effect of a command does to the peer: the answers drawn, and its own changes. -/
structure Drawn (p q : Peer) : Prop where
  executed : q.executed = p.executed
  quiet : p.Quiet → q.Quiet
  chip : p.Quiet → q.chip = p.chip
  rising : cellsRising p.chip.regs = true → cellsRising q.chip.regs = true

theorem Drawn.refl (p : Peer) : Drawn p p := ⟨rfl, id, fun _ => rfl, id⟩

theorem Drawn.trans {p q r : Peer} (h : Drawn p q) (h' : Drawn q r) : Drawn p r :=
  ⟨h'.executed.trans h.executed, fun k => h'.quiet (h.quiet k), fun k => (h'.chip (h.quiet k)).trans (h.chip k),
    fun k => h'.rising (h.rising k)⟩

/-- Only the scripts and the counter of the answers differ. -/
theorem Drawn.answers (p : Peer) (b : List Bool) (r : List Reply) (d : List Byte) (n : Nat) :
    Drawn p { p with busy := b, replies := r, discards := d, draws := n } := ⟨rfl, id, fun _ => rfl, id⟩

theorem Peer.elapse_drawn (p : Peer) : Drawn p p.elapse :=
  ⟨p.elapse_executed, fun h => by rw [h.elapse]; exact h, fun h => by rw [h.elapse], p.elapse_rising⟩

/-- The peer's own changes over several primitives. -/
theorem Peer.elapseTimes_drawn (p : Peer) (k : Nat) : Drawn p (p.elapseTimes k) := by
  induction k generalizing p with
  | zero => exact Drawn.refl p
  | succ k ih => exact p.elapse_drawn.trans (ih p.elapse)

/-- What the peer holds once it has answered: of a quiet peer, what it held, with the register read at the value answered. -/
theorem Peer.answered_chip {began : Peer} (p : Peer) (frame reply : List Byte) (k : Nat) (h : began.Quiet) :
    (p.answered began frame reply k).chip = began.chip.observe frame reply :=
  (Peer.elapseTimes_drawn { began with chip := began.chip.observe frame reply } k).chip h

theorem Peer.answered_rising {began : Peer} (p : Peer) (frame reply : List Byte) (k : Nat)
    (h : cellsRising began.chip.regs = true) : cellsRising (p.answered began frame reply k).chip.regs = true :=
  (Peer.elapseTimes_drawn { began with chip := began.chip.observe frame reply } k).rising
    (Chip.observe_rising _ _ _ h)

/-! ## The draws -/

theorem Peer.drawBusy_effect (p : Peer) :
    Drawn p p.drawBusy.2 ∧ p.drawBusy.2.busy = p.busy.drop 1 ∧ p.drawBusy.2.replies = p.replies := by
  unfold Peer.drawBusy
  split
  · next h => exact ⟨Drawn.answers p _ p.replies p.discards p.draws, by rw [h]; rfl, rfl⟩
  · next h => exact ⟨Drawn.answers p p.busy p.replies p.discards _, by rw [h]; rfl, rfl⟩

theorem Peer.freeReply_effect (p : Peer) :
    Drawn p p.freeReply.2 ∧ p.freeReply.2.busy = p.busy ∧ p.freeReply.2.replies = p.replies :=
  ⟨Drawn.answers p p.busy p.replies p.discards _, rfl, rfl⟩

theorem Peer.drawReply_effect (p : Peer) (i : Nat) :
    Drawn p (p.drawReply i).2 ∧ (p.drawReply i).2.busy = p.busy ∧ (p.drawReply i).2.replies = p.replies.drop 1 := by
  unfold Peer.drawReply
  split
  · next h => exact ⟨Drawn.answers p p.busy _ p.discards p.draws, rfl, by rw [h]; rfl⟩
  · next h =>
    split
    · exact ⟨Drawn.answers p p.busy _ p.discards p.draws, rfl, by rw [h]; rfl⟩
    · exact ⟨Drawn.answers p p.busy _ p.discards _, rfl, by rw [h]; rfl⟩
    · exact ⟨Drawn.answers p p.busy _ p.discards _, rfl, by rw [h]; rfl⟩
  · next h => exact ⟨p.freeReply_effect.1, rfl, by rw [p.freeReply_effect.2.2, h]; rfl⟩

theorem Peer.drawDiscard_effect (p : Peer) :
    Drawn p p.drawDiscard.2 ∧ p.drawDiscard.2.busy = p.busy ∧ p.drawDiscard.2.replies = p.replies := by
  unfold Peer.drawDiscard
  split
  · exact ⟨Drawn.answers p p.busy p.replies _ p.draws, rfl, rfl⟩
  · exact p.freeReply_effect

theorem Peer.drawExecuted_effect (p : Peer) : ∃ x d, p.drawExecuted.2 = { p with executed := x, draws := d } := by
  unfold Peer.drawExecuted
  split
  · exact ⟨_, p.draws, rfl⟩
  · exact ⟨p.executed, _, rfl⟩

/-! ## A peer whose coming answers are known -/

/-- The peer's coming answers are `b` and `r`; if it was quiet at the start (`Q`), it is, and holds `c`. -/
structure Peer.Has (Q : Prop) (b : List Bool) (r : List Reply) (c : Chip) (p : Peer) : Prop where
  busy : p.busy = b
  replies : p.replies = r
  quiet : Q → p.Quiet
  chip : Q → p.chip = c

section Has
variable {Q : Prop} {b b' : List Bool} {r r' : List Reply} {c : Chip} {p q : Peer}

theorem Peer.has_self (p : Peer) : p.Has p.Quiet p.busy p.replies p.chip := ⟨rfl, rfl, id, fun _ => rfl⟩

theorem Peer.Has.drawn (h : p.Has Q b r c) (hd : Drawn p q) {b' : List Bool} {r' : List Reply} (hb : q.busy = b')
    (hr : q.replies = r') : q.Has Q b' r' c :=
  ⟨hb, hr, fun k => hd.quiet (h.quiet k), fun k => (hd.chip (h.quiet k)).trans (h.chip k)⟩

theorem Peer.Has.elapse (h : p.Has Q b r c) : p.elapse.Has Q b r c :=
  h.drawn p.elapse_drawn (by simp [h.busy]) (by simp [h.replies])

theorem Peer.Has.act (h : p.Has Q b r c) (f : Chip → Chip) : (p.act f).Has Q b r (f c) :=
  ⟨h.busy, h.replies, h.quiet, fun k => congrArg f (h.chip k)⟩

/-- A peer that has answered: what was known of it when it began, and the answer. -/
theorem Peer.Has.answered {began : Peer} (hb : began.Has Q b' r' c) (h : p.Has Q b r c) (frame reply : List Byte) (k : Nat) :
    (p.answered began frame reply k).Has Q b r (c.observe frame reply) :=
  ⟨h.busy, h.replies, h.quiet, fun q => by rw [Peer.answered_chip p frame reply k (hb.quiet q), hb.chip q]⟩

theorem Peer.Has.discard (h : p.Has Q b r c) : p.drawDiscard.2.Has Q b r c :=
  h.drawn p.drawDiscard_effect.1 (p.drawDiscard_effect.2.1.trans h.busy) (p.drawDiscard_effect.2.2.trans h.replies)

/-- A BUSY sample that the script gives. -/
theorem Peer.Has.sample {v : Bool} (h : p.Has Q (v :: b) r c) :
    p.drawBusy.1 = v ∧ p.drawBusy.2.Has Q b r c := by
  refine ⟨?_, h.drawn p.drawBusy_effect.1 (by rw [p.drawBusy_effect.2.1, h.busy]; rfl)
    (p.drawBusy_effect.2.2.trans h.replies)⟩
  unfold Peer.drawBusy
  rw [h.busy]

/-- A reply byte that is what the peer has ready. -/
theorem Peer.Has.held {x : Byte} {i : Nat} (h : p.Has Q b (.held :: r) c) (hq : Q)
    (hx : c.response[i]? = some (some x)) : (p.drawReply i).1 = x ∧ (p.drawReply i).2.Has Q b r c := by
  refine ⟨?_, h.drawn (p.drawReply_effect i).1 ((p.drawReply_effect i).2.1.trans h.busy)
    (by rw [(p.drawReply_effect i).2.2, h.replies]; rfl)⟩
  unfold Peer.drawReply
  rw [h.replies, h.chip hq]
  simp only [hx]

/-- A reply byte that the script gives. -/
theorem Peer.Has.reply {x : Byte} (h : p.Has Q b (.byte x :: r) c) (i : Nat) :
    (p.drawReply i).1 = x ∧ (p.drawReply i).2.Has Q b r c := by
  refine ⟨?_, h.drawn (p.drawReply_effect i).1 ((p.drawReply_effect i).2.1.trans h.busy)
    (by rw [(p.drawReply_effect i).2.2, h.replies]; rfl)⟩
  unfold Peer.drawReply
  rw [h.replies]

end Has

end Sys2Proof.Machine
end

