-- ==== Sys2Proof/Laws/Proc.lean ====
section
/-! SUPPORT. Reasoning about procedures: what a run guarantees at its normal end and at an early end, one rule per
construct of the pseudocode. -/

namespace Sys2Proof.Machine

variable {α β : Type}

/-- From `s`, the run of `p` ends normally with `Q`, or early with `E`. -/
def Proc.Holds (p : Proc α) (s : State) (Q : α → State → Prop) (E : Stop → State → Prop) : Prop :=
  match p s with
  | .ok a t => Q a t
  | .error e t => E e t

theorem Proc.Holds.mono {p : Proc α} {s : State} {Q Q' : α → State → Prop} {E E' : Stop → State → Prop}
    (h : Proc.Holds p s Q E) (hQ : ∀ a t, Q a t → Q' a t) (hE : ∀ e t, E e t → E' e t) : Proc.Holds p s Q' E' := by
  unfold Proc.Holds at *
  split <;> simp_all

/-- Two guarantees of one run hold together. -/
theorem Proc.Holds.and {p : Proc α} {s : State} {Q Q' : α → State → Prop} {E E' : Stop → State → Prop}
    (h : Proc.Holds p s Q E) (h' : Proc.Holds p s Q' E') :
    Proc.Holds p s (fun a t => Q a t ∧ Q' a t) (fun e t => E e t ∧ E' e t) := by
  unfold Proc.Holds at *
  split <;> simp_all

theorem Proc.Holds.ok {p : Proc α} {s t : State} {a : α} {Q : α → State → Prop} {E : Stop → State → Prop}
    (h : Proc.Holds p s Q E) (hp : p s = .ok a t) : Q a t := by
  simpa [Proc.Holds, hp] using h

theorem Proc.Holds.error {p : Proc α} {s t : State} {e : Stop} {Q : α → State → Prop} {E : Stop → State → Prop}
    (h : Proc.Holds p s Q E) (hp : p s = .error e t) : E e t := by
  simpa [Proc.Holds, hp] using h

theorem bind_run (p : Proc α) (f : α → Proc β) (s : State) :
    (p >>= f) s = match p s with
      | .ok a t => f a t
      | .error e t => .error e t := by
  show EStateM.bind p f s = _
  unfold EStateM.bind
  cases p s <;> rfl

/-- A run that ends normally is continued. -/
theorem bind_ok {p : Proc α} {f : α → Proc β} {s t : State} {a : α} (h : p s = .ok a t) : (p >>= f) s = f a t := by
  rw [bind_run, h]

/-- A run that ends early ends the whole. -/
theorem bind_error {p : Proc α} {f : α → Proc β} {s t : State} {e : Stop} (h : p s = .error e t) :
    (p >>= f) s = .error e t := by
  rw [bind_run, h]

@[simp] theorem pure_run (a : α) (s : State) : (pure a : Proc α) s = .ok a s := rfl
@[simp] theorem update_run (f : State → State) (s : State) : update f s = .ok () (f s) := rfl
@[simp] theorem current_run (s : State) : current s = .ok s s := rfl
@[simp] theorem raise_run (e : OpError) (s : State) : (raise e : Proc α) s = .error (.err e) s := rfl
@[simp] theorem halt_run (f : FaultKind) (s : State) : (halt f : Proc α) s = .error (.halt f) s := rfl

@[simp] theorem update_bind_run (f : State → State) (g : Unit → Proc β) (s : State) :
    (update f >>= g) s = g () (f s) := rfl
@[simp] theorem current_bind_run (g : State → Proc β) (s : State) : (current >>= g) s = g s s := rfl
@[simp] theorem pure_bind_run (a : α) (g : α → Proc β) (s : State) : ((pure a : Proc α) >>= g) s = g a s := rfl

theorem require_run (c : Bool) (e : OpError) (s : State) :
    require c e s = if c = true then .ok () s else .error (.err e) s := by
  unfold require; split <;> rfl

section Rules

variable {s : State} {Q : β → State → Prop} {E : Stop → State → Prop}

theorem holds_bind {p : Proc α} {f : α → Proc β} :
    Proc.Holds (p >>= f) s Q E ↔ Proc.Holds p s (fun a t => Proc.Holds (f a) t Q E) E := by
  simp only [Proc.Holds, bind_run]
  cases p s <;> rfl

@[simp] theorem holds_pure {a : β} : Proc.Holds (pure a) s Q E ↔ Q a s := Iff.rfl
@[simp] theorem holds_update {Q : Unit → State → Prop} {f : State → State} :
    Proc.Holds (update f) s Q E ↔ Q () (f s) := Iff.rfl
@[simp] theorem holds_current {Q : State → State → Prop} : Proc.Holds current s Q E ↔ Q s s := Iff.rfl
@[simp] theorem holds_raise {e : OpError} : Proc.Holds (raise e : Proc β) s Q E ↔ E (.err e) s := Iff.rfl
@[simp] theorem holds_halt {f : FaultKind} : Proc.Holds (halt f : Proc β) s Q E ↔ E (.halt f) s := Iff.rfl

@[simp] theorem holds_update_bind {f : State → State} {g : Unit → Proc β} :
    Proc.Holds (update f >>= g) s Q E ↔ Proc.Holds (g ()) (f s) Q E := Iff.rfl
@[simp] theorem holds_current_bind {g : State → Proc β} :
    Proc.Holds (current >>= g) s Q E ↔ Proc.Holds (g s) s Q E := Iff.rfl

theorem holds_require {Q : Unit → State → Prop} {c : Bool} {e : OpError} :
    Proc.Holds (require c e) s Q E ↔ (c = true → Q () s) ∧ (c = false → E (.err e) s) := by
  unfold require; cases c <;> simp

theorem holds_fromParser {r : Except OpError β} :
    Proc.Holds (fromParser r) s Q E ↔ (∀ a, r = .ok a → Q a s) ∧ (∀ e, r = .error e → E (.err e) s) := by
  cases r <;> simp [fromParser]

end Rules

/-- A procedure that guarantees the same at both ends, from every state that meets `P`, guarantees it in sequence. -/
theorem Proc.Holds.seq {p : Proc α} {f : α → Proc β} {s : State} {Q : α → State → Prop} {Q' : β → State → Prop}
    {E : Stop → State → Prop} (h : Proc.Holds p s Q E) (hf : ∀ a t, Q a t → Proc.Holds (f a) t Q' E) :
    Proc.Holds (p >>= f) s Q' E :=
  holds_bind.2 (h.mono hf fun _ _ h => h)

/-- Sequencing where the early end of the first part is turned into that of the whole. -/
theorem Proc.Holds.seq' {p : Proc α} {f : α → Proc β} {s : State} {Q : α → State → Prop} {Q' : β → State → Prop}
    {E E' : Stop → State → Prop} (h : Proc.Holds p s Q E) (hE : ∀ e t, E e t → E' e t)
    (hf : ∀ a t, Q a t → Proc.Holds (f a) t Q' E') : Proc.Holds (p >>= f) s Q' E' :=
  holds_bind.2 (h.mono hf hE)

end Sys2Proof.Machine
end

