-- ==== Sys2Proof/Laws/Transport.lean ====
section
/-! SUPPORT. What the transport can do, said once: a busy wait and the byte loops, event by event. -/

namespace Sys2Proof.Machine

/-! ## The busy wait -/

/-- The state after a wait that leaves `n` as the count of samples. -/
def State.waited (s : State) (n : Nat) (p : Peer) (es : List Event) : State :=
  { s with polls := n, peer := p, wire := s.wire ++ es }

/-- `t` is `s` after a wait of `m` samples with the events `es`. -/
def Waited (s t : State) (m : Nat) (es : List Event) : Prop :=
  ∃ p, t = s.waited (s.polls + m) p es ∧ Drawn s.peer p ∧ p.busy = s.peer.busy.drop m ∧ p.replies = s.peer.replies

/-- The state after one sample of a busy wait. -/
def State.sampled (s : State) : State :=
  (s.emitWith (.readBusy s.peer.elapse.drawBusy.1) s.peer.elapse.drawBusy.2).setPolls (s.polls + 1)

theorem waitBusyLoop_succ (target : Bool) (n : Nat) (s : State) :
    waitBusyLoop target (n + 1) s =
      if s.peer.elapse.drawBusy.1 = target then .ok () s.sampled
      else if s.polls + 1 = Config.busyPollLimit then .error (.err (.busyTimeout s.phase)) s.sampled
      else waitBusyLoop target n s.sampled.sleep := by
  have h1 : waitBusyLoop target (n + 1) s =
      (if s.peer.elapse.drawBusy.1 = target then pure ()
       else if s.polls + 1 = Config.busyPollLimit then raise (.busyTimeout s.phase)
       else (update State.sleep >>= fun _ => waitBusyLoop target n) : Proc Unit) s.sampled := rfl
  rw [h1]
  split
  · rfl
  · split <;> rfl

@[simp] theorem State.sampled_phase (s : State) : s.sampled.phase = s.phase := rfl
@[simp] theorem State.sampled_cs (s : State) : s.sampled.cs = s.cs := rfl
@[simp] theorem State.sampled_xi (s : State) : s.sampled.xi = s.xi := rfl

theorem State.sampled_waited (s : State) :
    Waited s s.sampled 1 [⟨s.phase, s.cs, s.xi, .readBusy s.peer.elapse.drawBusy.1⟩] := by
  obtain ⟨h1, h2, h3⟩ := s.peer.elapse.drawBusy_effect
  exact ⟨_, rfl, (Peer.elapse_drawn _).trans h1, by simp [h2], by simp [h3]⟩

/-- A sample and a sleep, then a wait. -/
theorem Waited.cons {s t : State} {m : Nat} {es : List Event} (h : Waited s.sampled.sleep t m es) :
    Waited s t (m + 1) (⟨s.phase, s.cs, s.xi, .readBusy s.peer.elapse.drawBusy.1⟩ :: ⟨s.phase, s.cs, s.xi, .sleep⟩ :: es) := by
  obtain ⟨h1, h2, h3⟩ := s.peer.elapse.drawBusy_effect
  obtain ⟨p, rfl, hd, hb, hr⟩ := h
  have e : s.sampled.sleep.peer = s.peer.elapse.drawBusy.2.elapse := rfl
  rw [e] at hd hb hr
  refine ⟨p, ?_, (((Peer.elapse_drawn _).trans h1).trans (Peer.elapse_drawn _)).trans hd, ?_, by simpa [h3] using hr⟩
  · simp [State.waited, State.sampled, State.sleep, State.setPolls, State.emitWith, State.emit, State.setPeer, Nat.add_assoc, Nat.add_comm 1]
  · simpa [h2, Nat.add_comm 1] using hb

theorem waitBusyLoop_effect (target : Bool) (n : Nat) (s : State) (h : s.polls + n = Config.busyPollLimit) :
    Proc.Holds (waitBusyLoop target n) s
      (fun _ t => ∃ k, k < n ∧ Waited s t (k + 1) (waitEvents s.phase s.cs s.xi target k))
      (fun e t => e = .err (.busyTimeout s.phase) ∧ Waited s t n (missEvents s.phase s.cs s.xi target n)) := by
  induction n generalizing s with
  | zero => exact ⟨rfl, s.peer, by simp [State.waited, missEvents], Drawn.refl _, rfl, rfl⟩
  | succ n ih =>
    unfold Proc.Holds
    rw [waitBusyLoop_succ]
    by_cases hv : s.peer.elapse.drawBusy.1 = target
    · rw [if_pos hv]
      exact ⟨0, by omega, by simpa [waitEvents, hv] using s.sampled_waited⟩
    have hv' : s.peer.elapse.drawBusy.1 = !target := by cases target <;> simpa using hv
    rw [if_neg hv]
    by_cases hl : s.polls + 1 = Config.busyPollLimit
    · rw [if_pos hl]
      obtain rfl : n = 0 := by omega
      exact ⟨rfl, by simpa [missEvents, hv'] using s.sampled_waited⟩
    rw [if_neg hl]
    have hs := ih s.sampled.sleep (by simp [State.sampled]; omega)
    unfold Proc.Holds at hs
    revert hs
    cases waitBusyLoop target n s.sampled.sleep with
    | ok _ t =>
      rintro ⟨k, hk, hw⟩
      exact ⟨k + 1, by omega, by simpa [waitEvents, hv'] using hw.cons⟩
    | error e t =>
      rintro ⟨he, hw⟩
      refine ⟨he, ?_⟩
      obtain ⟨n, rfl⟩ : ∃ m, n = m + 1 := ⟨n - 1, by omega⟩
      simpa [missEvents, hv'] using hw.cons

/-- A busy wait ends at the first sample of the awaited value, or after 2000 samples without it (R132). -/
theorem waitBusy_effect (target : Bool) (s : State) :
    Proc.Holds (waitBusy target) s
      (fun _ t => ∃ k, k < Config.busyPollLimit ∧
        Waited (s.setPolls 0) t (k + 1) (waitEvents s.phase s.cs s.xi target k))
      (fun e t => e = .err (.busyTimeout s.phase) ∧
        Waited (s.setPolls 0) t Config.busyPollLimit (missEvents s.phase s.cs s.xi target Config.busyPollLimit)) :=
  waitBusyLoop_effect target Config.busyPollLimit (s.setPolls 0) (by simp)

/-- A wait draws answers of the peer, and does nothing else to it. -/
theorem waitBusy_drawn {target : Bool} {s t : State} (h : waitBusy target s = .ok () t) : Drawn s.peer t.peer := by
  obtain ⟨k, -, p, rfl, hd, -⟩ := (waitBusy_effect target s).ok h
  exact hd

/-- An event of a wait made in the phase and on the lines of `s`: a sample, or the sleep between two. -/
def Event.ofWait (s : State) (e : Event) : Prop :=
  e.phase = s.phase ∧ e.cs = s.cs ∧ e.xi = s.xi ∧ (e.action = .sleep ∨ ∃ b, e.action = .readBusy b)

theorem waitEvents_ofWait (s : State) (target : Bool) (k : Nat) :
    ∀ e ∈ waitEvents s.phase s.cs s.xi target k, e.ofWait s := by
  induction k with
  | zero => simp [waitEvents, Event.ofWait]
  | succ k ih =>
    intro e he
    simp only [waitEvents, List.mem_cons] at he
    rcases he with rfl | rfl | he
    · simp [Event.ofWait]
    · simp [Event.ofWait]
    · exact ih e he

theorem missEvents_ofWait (s : State) (target : Bool) (n : Nat) :
    ∀ e ∈ missEvents s.phase s.cs s.xi target n, e.ofWait s := by
  induction n with
  | zero => simp [missEvents]
  | succ n ih =>
    intro e he
    cases n with
    | zero =>
      simp only [missEvents, List.mem_cons, List.not_mem_nil, or_false] at he
      subst he; simp [Event.ofWait]
    | succ n =>
      simp only [missEvents, List.mem_cons] at he
      rcases he with rfl | rfl | he
      · simp [Event.ofWait]
      · simp [Event.ofWait]
      · exact ih e he

section Script
variable {Q : Prop} {b : List Bool} {r : List Reply} {c : Chip}

theorem State.sampled_sleep_peer (s : State) : s.sampled.sleep.peer = s.peer.elapse.drawBusy.2.elapse := rfl

theorem waitBusyLoop_meets (target : Bool) (k n : Nat) (s : State) (hk : k < n)
    (hn : s.polls + n = Config.busyPollLimit) (hs : s.peer.Has Q (waitSamples target k ++ b) r c) :
    ∃ p, p.Has Q b r c ∧ waitBusyLoop target n s =
      .ok () (s.waited (s.polls + (k + 1)) p (waitEvents s.phase s.cs s.xi target k)) := by
  induction k generalizing n s with
  | zero =>
    obtain ⟨n, rfl⟩ : ∃ m, n = m + 1 := ⟨n - 1, by omega⟩
    obtain ⟨hv, hp⟩ := Peer.Has.sample (v := target) (Peer.Has.elapse hs)
    refine ⟨_, hp, ?_⟩
    rw [waitBusyLoop_succ, if_pos hv]
    simp [State.sampled, State.waited, State.emitWith, State.setPeer, State.emit, State.setPolls, waitEvents, hv]
  | succ k ih =>
    obtain ⟨n, rfl⟩ : ∃ m, n = m + 1 := ⟨n - 1, by omega⟩
    obtain ⟨hv, hp⟩ := Peer.Has.sample (v := !target) (b := waitSamples target k ++ b)
      (Peer.Has.elapse (by simpa [waitSamples, List.replicate_succ] using hs))
    have hne : ¬ s.peer.elapse.drawBusy.1 = target := by rw [hv]; cases target <;> decide
    obtain ⟨p, h1, h2⟩ := ih n s.sampled.sleep (by omega) (by simp [State.sampled]; omega)
      (by rw [State.sampled_sleep_peer]; exact hp.elapse)
    refine ⟨p, h1, ?_⟩
    rw [waitBusyLoop_succ, if_neg hne, if_neg (by omega), h2]
    simp [State.waited, State.sampled, State.sleep, State.setPolls, State.emitWith, State.emit, State.setPeer, waitEvents, hv,
      Nat.add_assoc, Nat.add_comm 1]

/-- A wait whose awaited value comes within the bound (R132). -/
theorem waitBusy_meets (target : Bool) (k : Nat) (s : State) (hk : k < Config.busyPollLimit)
    (hs : s.peer.Has Q (waitSamples target k ++ b) r c) :
    ∃ p, p.Has Q b r c ∧
      waitBusy target s = .ok () (s.waited (k + 1) p (waitEvents s.phase s.cs s.xi target k)) := by
  obtain ⟨p, h1, h2⟩ := waitBusyLoop_meets target k Config.busyPollLimit (s.setPolls 0) hk (by simp) hs
  refine ⟨p, h1, ?_⟩
  unfold waitBusy
  rw [update_bind_run, h2]
  simp [State.setPolls, State.waited]

theorem waitBusyLoop_misses (target : Bool) (n : Nat) (s : State) (hn0 : 0 < n)
    (hn : s.polls + n = Config.busyPollLimit) (hs : s.peer.Has Q (List.replicate n (!target) ++ b) r c) :
    ∃ p, p.Has Q b r c ∧ waitBusyLoop target n s =
      .error (.err (.busyTimeout s.phase)) (s.waited (s.polls + n) p (missEvents s.phase s.cs s.xi target n)) := by
  induction n generalizing s with
  | zero => omega
  | succ n ih =>
    obtain ⟨hv, hp⟩ := Peer.Has.sample (v := !target) (b := List.replicate n (!target) ++ b)
      (Peer.Has.elapse (by simpa [List.replicate_succ] using hs))
    have hne : ¬ s.peer.elapse.drawBusy.1 = target := by rw [hv]; cases target <;> decide
    rw [waitBusyLoop_succ, if_neg hne]
    cases n with
    | zero =>
      rw [if_pos hn]
      refine ⟨_, hp, ?_⟩
      simp [State.sampled, State.waited, State.emitWith, State.setPeer, State.emit, State.setPolls, missEvents, hv]
    | succ n =>
      rw [if_neg (by omega)]
      obtain ⟨p, h1, h2⟩ := ih s.sampled.sleep (by omega) (by simp [State.sampled]; omega)
        (by rw [State.sampled_sleep_peer]; exact hp.elapse)
      refine ⟨p, h1, ?_⟩
      rw [h2]
      simp [State.waited, State.sampled, State.sleep, State.setPolls, State.emitWith, State.emit, State.setPeer, missEvents, hv,
        Nat.add_assoc, Nat.add_comm 1]

/-- A wait whose awaited value does not come within the bound (R132). -/
theorem waitBusy_misses (target : Bool) (s : State)
    (hs : s.peer.Has Q (List.replicate Config.busyPollLimit (!target) ++ b) r c) :
    ∃ p, p.Has Q b r c ∧ waitBusy target s = .error (.err (.busyTimeout s.phase))
      (s.waited Config.busyPollLimit p (missEvents s.phase s.cs s.xi target Config.busyPollLimit)) := by
  obtain ⟨p, h1, h2⟩ := waitBusyLoop_misses target Config.busyPollLimit (s.setPolls 0) (by decide) (by simp) hs
  refine ⟨p, h1, ?_⟩
  unfold waitBusy
  rw [update_bind_run, h2]
  simp [State.setPolls, State.waited]

end Script

/-! ## The byte loops -/

/-- The state after the exchanges `xs` of a command transaction. -/
def State.sent (s : State) (xs : List (Byte × Byte)) (p : Peer) : State :=
  { s with xi := s.xi + xs.length, peer := p, wire := s.wire ++ sendEvents s.phase s.cs s.xi xs }

/-- Sending bytes: each exchange draws one byte of the peer (R12, R130 step 2). -/
theorem sendBytes_run (bs : List Byte) (s : State) :
    ∃ xs p, xs.map Prod.fst = bs ∧ Drawn s.peer p ∧ p.busy = s.peer.busy ∧ p.replies = s.peer.replies ∧
      sendBytes bs s = .ok () (s.sent xs p) := by
  induction bs generalizing s with
  | nil => exact ⟨[], s.peer, rfl, Drawn.refl _, rfl, rfl, by simp [sendBytes, sendEvents, State.sent]⟩
  | cons b bs ih =>
    obtain ⟨h1, h2, h3⟩ := s.peer.elapse.drawDiscard_effect
    obtain ⟨xs, p, hx, hd, hb, hr, hrun⟩ := ih (s.sendByte b)
    have e : (s.sendByte b).peer = s.peer.elapse.drawDiscard.2 := rfl
    rw [e] at hd hb hr
    refine ⟨(b, s.peer.elapse.drawDiscard.1) :: xs, p, by simp [hx], ((Peer.elapse_drawn _).trans h1).trans hd, by simp [hb, h2],
      by simp [hr, h3], ?_⟩
    simp only [sendBytes, update_bind_run, hrun, sendEvents, State.sent]
    simp [State.sendByte, State.emitWith, State.emit, State.setXi, State.setPeer, Nat.add_assoc, Nat.add_comm 1]

theorem length_of_map_fst {xs : List (Byte × Byte)} {bs : List Byte} (h : xs.map Prod.fst = bs) :
    xs.length = bs.length := by rw [← h]; simp

theorem memWrite_run (a : Nat) (bs : List Byte) (s : State) (h : a + bs.length ≤ Config.rxBufferSize) :
    memWrite a bs s = .ok () (s.setScratch (s.scratch.write a bs)) := by
  unfold memWrite; rw [if_pos h]

/-- Where the received bytes `r` go: the scratch buffer from the counter on, or nowhere in State. -/
def Destination.stored (dst : Destination) (s : State) (r : List Byte) : Memory :=
  match dst with
  | .scratch => s.scratch.write s.xi r
  | .transient => s.scratch

/-- The state after the bytes `bs` have been received. -/
def State.read (s : State) (dst : Destination) (bs : List Byte) (p : Peer) : State :=
  { s with
    xi := s.xi + bs.length
    scratch := dst.stored s bs
    peer := p
    wire := s.wire ++ receiveEvents s.phase s.cs s.xi bs }

theorem receiveBytes_zero (dst : Destination) (s : State) : receiveBytes dst 0 s = .ok [] (s.read dst [] s.peer) := by
  cases dst <;> simp [receiveBytes, receiveEvents, Destination.stored, State.read]

/-- One byte received, then the rest. -/
theorem receiveBytes_succ (dst : Destination) (n : Nat) (s : State) (h : s.xi + 1 ≤ Config.rxBufferSize) :
    receiveBytes dst (n + 1) s =
      match receiveBytes dst n (s.read dst [(s.peer.elapse.drawReply s.xi).1] (s.peer.elapse.drawReply s.xi).2) with
      | .ok bs t => .ok ((s.peer.elapse.drawReply s.xi).1 :: bs) t
      | .error e t => .error e t := by
  cases dst with
  | transient =>
    simp only [receiveBytes, bind_run, exchangeFiller, storeReply, pure_run, update_run]
    have e : ((s.emitWith (.xfer Config.rxFiller (s.peer.elapse.drawReply s.xi).1) (s.peer.elapse.drawReply s.xi).2).setXi
        ((s.emitWith (.xfer Config.rxFiller (s.peer.elapse.drawReply s.xi).1) (s.peer.elapse.drawReply s.xi).2).xi + 1)) =
        s.read .transient [(s.peer.elapse.drawReply s.xi).1] (s.peer.elapse.drawReply s.xi).2 := rfl
    rw [e]
    cases receiveBytes .transient n _ <;> rfl
  | scratch =>
    have hb : s.xi + [(s.peer.elapse.drawReply s.xi).1].length ≤ Config.rxBufferSize := by simpa using h
    simp only [receiveBytes, bind_run, exchangeFiller, storeReply, current_run, State.emitWith_xi,
      memWrite_run _ _ _ hb, update_run]
    have e : (((s.emitWith (.xfer Config.rxFiller (s.peer.elapse.drawReply s.xi).1) (s.peer.elapse.drawReply s.xi).2).setScratch
        ((s.emitWith (.xfer Config.rxFiller (s.peer.elapse.drawReply s.xi).1) (s.peer.elapse.drawReply s.xi).2).scratch.write
          s.xi [(s.peer.elapse.drawReply s.xi).1])).setXi (s.xi + 1)) =
        s.read .scratch [(s.peer.elapse.drawReply s.xi).1] (s.peer.elapse.drawReply s.xi).2 := rfl
    simp only [State.setScratch_xi, State.emitWith_xi]
    rw [e]
    cases receiveBytes .scratch n _ <;> rfl

theorem State.read_read (s : State) (dst : Destination) (x : Byte) (bs : List Byte) (p q : Peer) :
    (s.read dst [x] p).read dst bs q = s.read dst (x :: bs) q := by
  cases dst <;> simp [State.read, Destination.stored, receiveEvents, Nat.add_assoc, Nat.add_comm 1]

/-- Receiving `n` bytes: they are returned and, for the scratch buffer, stored in order (R130 step 6, R25). -/
theorem receiveBytes_effect (dst : Destination) (n : Nat) (s : State) (h : s.xi + n ≤ Config.rxBufferSize) :
    ∃ bs p, bs.length = n ∧ Drawn s.peer p ∧ receiveBytes dst n s = .ok bs (s.read dst bs p) := by
  induction n generalizing s with
  | zero => exact ⟨[], s.peer, rfl, Drawn.refl _, receiveBytes_zero dst s⟩
  | succ n ih =>
    rw [receiveBytes_succ dst n s (by omega)]
    obtain ⟨bs, p, hl, hd, hrun⟩ := ih (s.read dst [(s.peer.elapse.drawReply s.xi).1] (s.peer.elapse.drawReply s.xi).2)
      (by simp [State.read]; omega)
    rw [hrun]
    exact ⟨(s.peer.elapse.drawReply s.xi).1 :: bs, p, by simp [hl],
      ((Peer.elapse_drawn _).trans (s.peer.elapse.drawReply_effect s.xi).1).trans hd,
      by simp [State.read_read]⟩

/-- Receiving bytes that are what the peer has ready. -/
theorem receiveBytes_held {Q : Prop} {b : List Bool} {c : Chip} (dst : Destination) (bs : List Byte)
    (rest : List Reply) (s : State) (hq : Q) (h : s.xi + bs.length ≤ Config.rxBufferSize)
    (hx : ∀ k x, bs[k]? = some x → c.response[s.xi + k]? = some (some x))
    (hs : s.peer.Has Q b (List.replicate bs.length .held ++ rest) c) :
    ∃ p, p.Has Q b rest c ∧ receiveBytes dst bs.length s = .ok bs (s.read dst bs p) := by
  induction bs generalizing s with
  | nil => exact ⟨s.peer, by simpa using hs, receiveBytes_zero dst s⟩
  | cons x bs ih =>
    obtain ⟨hv, hp⟩ := Peer.Has.held (x := x) (i := s.xi) (r := List.replicate bs.length .held ++ rest)
      (Peer.Has.elapse (by simpa [List.replicate_succ] using hs)) hq (hx 0 x rfl)
    simp only [List.length_cons] at h
    rw [List.length_cons, receiveBytes_succ dst bs.length s (by omega), hv]
    obtain ⟨p, h1, h2⟩ := ih (s.read dst [x] (s.peer.elapse.drawReply s.xi).2) (by simp [State.read]; omega)
      (fun k y hy => by
        have := hx (k + 1) y hy
        rwa [show s.xi + (k + 1) = s.xi + [x].length + k by simp; omega] at this) hp
    rw [h2]
    exact ⟨p, h1, by simp [State.read_read]⟩

/-- Receiving bytes that the script gives. -/
theorem receiveBytes_answers {Q : Prop} {b : List Bool} {c : Chip} (dst : Destination) (bs : List Byte)
    (rest : List Reply) (s : State) (h : s.xi + bs.length ≤ Config.rxBufferSize)
    (hs : s.peer.Has Q b (answers bs ++ rest) c) :
    ∃ p, p.Has Q b rest c ∧ receiveBytes dst bs.length s = .ok bs (s.read dst bs p) := by
  induction bs generalizing s with
  | nil => exact ⟨s.peer, by simpa [answers] using hs, receiveBytes_zero dst s⟩
  | cons x bs ih =>
    obtain ⟨hx, hp⟩ := Peer.Has.reply (x := x) (r := answers bs ++ rest) (Peer.Has.elapse (by simpa [answers] using hs)) s.xi
    simp only [List.length_cons] at h
    rw [List.length_cons, receiveBytes_succ dst bs.length s (by omega), hx]
    obtain ⟨p, h1, h2⟩ := ih (s.read dst [x] (s.peer.elapse.drawReply s.xi).2) (by simp [State.read]; omega) hp
    rw [h2]
    exact ⟨p, h1, by simp [State.read_read]⟩

end Sys2Proof.Machine
end

