-- ==== Sys2Proof/Laws/Effect.lean ====
section
/-! SUPPORT. What any procedure can do to the record: one relation between the states before and after a stretch of a run,
with the fields that the stretch may change as an argument. Frames and the invariant both rest on it. -/

namespace Sys2Proof.Machine

/-- The parts of the record beside the transport's own that a procedure may change: the scratch buffer (R25), the record of
the field (R28), the reset line and `initialized` (R23, R27), and of a quiet peer its registers by address (R40), its EEPROM
(R47), its transmit and receive buffers (R49), the profile pair (R170) and the field (R168, R169). -/
structure May where
  data : Bool
  field : Bool
  reset : Bool
  regs : Nat → Bool
  eeprom : Bool
  transmit : Bool
  receive : Bool
  profile : Bool
  command : Bool
  /-- Whether a flag of IRQ-Status may be cleared (R295). -/
  clears : Bool

/-- Every flag of IRQ-Status that is set in `c` is set in `d`. -/
def FlagsKept (c d : Chip) : Prop :=
  ∀ u, cellsRead c.regs 2 = some u → ∃ v, cellsRead d.regs 2 = some v ∧ u &&& v = u

theorem FlagsKept.of_eq {c d : Chip} (h : cellsRead d.regs 2 = cellsRead c.regs 2) : FlagsKept c d :=
  fun u hu => ⟨u, h.trans hu, BitVec.and_self⟩

theorem FlagsKept.trans {c d e : Chip} (h : FlagsKept c d) (h' : FlagsKept d e) : FlagsKept c e := by
  intro u hu
  obtain ⟨v, hv, h1⟩ := h u hu
  obtain ⟨w, hw, h2⟩ := h' v hv
  exact ⟨w, hw, by rw [← h1, BitVec.and_assoc, h2]⟩

/-- What the peer holds changes only in the parts that `may` names. -/
structure Within (may : May) (c d : Chip) : Prop where
  regs : ∀ a, may.regs a = false → cellsRead d.regs a = cellsRead c.regs a
  eeprom : may.eeprom = false → d.eeprom = c.eeprom
  tx : may.transmit = false → d.tx = c.tx
  rx : may.receive = false → d.rx = c.rx
  rfConfig : may.profile = false → d.rfConfig = c.rfConfig
  rfField : may.command = false → d.rfField = c.rfField
  flags : may.clears = false → FlagsKept c d

/-- Nothing of a list of the peer's parts has changed. -/
theorem Within.same {may : May} {c d : Chip} (h1 : d.regs = c.regs) (h2 : may.eeprom = false → d.eeprom = c.eeprom)
    (h3 : may.transmit = false → d.tx = c.tx) (h4 : may.receive = false → d.rx = c.rx)
    (h5 : may.profile = false → d.rfConfig = c.rfConfig) (h6 : may.command = false → d.rfField = c.rfField) :
    Within may c d :=
  ⟨fun _ _ => by rw [h1], h2, h3, h4, h5, h6, fun _ => .of_eq (by rw [h1])⟩

theorem Within.refl {may : May} (c : Chip) : Within may c c := by apply Within.same <;> simp

theorem Within.trans {may : May} {c d e : Chip} (h : Within may c d) (h' : Within may d e) : Within may c e where
  regs a ha := (h'.regs a ha).trans (h.regs a ha)
  eeprom ha := (h'.eeprom ha).trans (h.eeprom ha)
  tx ha := (h'.tx ha).trans (h.tx ha)
  rx ha := (h'.rx ha).trans (h.rx ha)
  rfConfig ha := (h'.rfConfig ha).trans (h.rfConfig ha)
  rfField ha := (h'.rfField ha).trans (h.rfField ha)
  flags ha := (h.flags ha).trans (h'.flags ha)

theorem Within.of_eq {may : May} {c d : Chip} (h : d = c) : Within may c d := by rw [h]; exact Within.refl c

/-- Everything the peer holds may change (R62). -/
def May.AllHeld (may : May) : Prop :=
  (∀ a, may.regs a = true) ∧ may.eeprom = true ∧ may.transmit = true ∧ may.receive = true ∧ may.profile = true ∧
    may.command = true ∧ may.clears = true

theorem Within.all {may : May} (h : may.AllHeld) (c d : Chip) : Within may c d := by
  obtain ⟨h1, h2, h3, h4, h5, h6, h7⟩ := h
  constructor <;> simp [h1, h2, h3, h4, h5, h6, h7]

/-- A register that may change takes a value, of IRQ-Status one that keeps its flags unless they may be cleared. -/
theorem Within.setReg {may : May} {c : Chip} {a : Byte} {v : Word} (h : may.regs a.toNat = true)
    (hf : a = 0x02 → may.clears = true ∨ c.reg 0x02 &&& v = c.reg 0x02) : Within may c (c.setReg a v) := by
  constructor
  case regs =>
    intro b hb
    rw [Chip.setReg_regs, cellsRead_write, if_neg]
    rintro rfl
    simp [h] at hb
  case flags =>
    intro hk
    by_cases ha : a = 0x02
    · subst ha
      intro u hu
      have hr : c.reg 0x02 = u := by unfold Chip.reg; rw [show cellsRead c.regs (0x02 : Byte).toNat = _ from hu]
      exact ⟨v, cellsRead_write_same _ _ _, hr ▸ (hf rfl).resolve_left (by simp [hk])⟩
    · exact .of_eq (cellsRead_write_other _ _ fun h => ha (BitVec.eq_of_toNat_eq h.symm))
  all_goals exact fun _ => rfl

theorem Within.updateReg {may : May} {c : Chip} {a : Byte} {f : Word → Word} (h : may.regs a.toNat = true)
    (hf : a = 0x02 → may.clears = true ∨ c.reg 0x02 &&& f (c.reg 0x02) = c.reg 0x02) : Within may c (c.updateReg a f) :=
  Within.setReg h fun ha => by subst ha; exact hf rfl

/-- A write, and what the peer does by itself after it: one value in the register. -/
theorem Chip.setReg_flagsSetAgain (c : Chip) (a : Byte) (v : Word) :
    (c.setReg a v).flagsSetAgain a c = c.setReg a (if a = 0x02 then v ||| c.reg 0x02 else v) := by
  unfold Chip.flagsSetAgain
  by_cases h : a = 0x02
  · subst h
    rw [if_pos (by decide), if_pos rfl]
    simp [Chip.updateReg, Chip.setReg, Chip.reg, addrIrqStatus]
  · rw [if_neg (show a ≠ addrIrqStatus from h), if_neg h]

/-- What the peer does by itself after a write keeps the flags that were set before it (R295). -/
theorem Within.flagsSetAgain {may : May} {c : Chip} {a : Byte} {v : Word} (h : may.regs a.toNat = true) :
    Within may c ((c.setReg a v).flagsSetAgain a c) := by
  rw [Chip.setReg_flagsSetAgain]
  refine Within.setReg h fun ha => .inr ?_
  rw [if_pos ha]
  ext i hi
  simp only [BitVec.getElem_and, BitVec.getElem_or]
  cases (c.reg 0x02)[i] <;> simp

/-- The address is named and `may` allows what `f` does, or `may` allows anything. -/
theorem Within.accessed {may : May} {c : Chip} {a : Byte} {f : Chip → Chip}
    (h : namedAddress a = true ∧ Within may c (f c) ∨ may.AllHeld) : Within may c (c.accessed a f) := by
  unfold Chip.accessed
  rcases h with ⟨h1, h2⟩ | h
  · rw [if_pos h1]; exact h2
  · exact Within.all h _ _

/-- A pulse of the reset line may change the record of the line and, but for the EEPROM, everything the peer holds (R206). -/
structure May.Pulses (may : May) : Prop where
  reset : may.reset = true
  regs : ∀ a, may.regs a = true
  transmit : may.transmit = true
  receive : may.receive = true
  profile : may.profile = true
  command : may.command = true
  clears : may.clears = true

theorem Within.hardwareReset {may : May} (h : may.Pulses) (c : Chip) : Within may c c.hardwareReset := by
  constructor <;> simp [h.regs, h.transmit, h.receive, h.profile, h.command, h.clears]

/-- The scratch buffer's part of soundness. -/
def State.DataOk (s : State) : Prop :=
  s.scratch.wf = true ∧ s.scratchValid ≤ Config.rxBufferSize ∧
    ∀ a, a < s.scratchValid → (cellsRead s.scratch a).isSome = true

/-- `t` comes from `s` by steps that change only what `may` allows. `G` stands for what the caller knows of the start. -/
structure Effect (G : Prop) (may : May) (s t : State) : Prop where
  faults : t.faults = s.faults
  params : t.params = s.params
  queue : t.queue = s.queue
  delivered : t.delivered = s.delivered
  quiet : s.peer.Quiet → t.peer.Quiet
  rst : may.reset = false → t.rst = s.rst
  levels : may.reset = false → resetLevels t.wire = resetLevels s.wire
  within : s.peer.Quiet → Within may s.peer.chip t.peer.chip
  initialized : may.reset = false → t.initialized = s.initialized
  booted : s.initialized = true → t.initialized = true
  rfOn : may.field = false → t.rfOn = s.rfOn
  scratch : may.data = false → t.scratch = s.scratch
  valid : may.data = false → t.scratchValid = s.scratchValid
  data : s.DataOk → t.DataOk
  rising : cellsRising s.peer.chip.regs = true → cellsRising t.peer.chip.regs = true
  polls : s.polls ≤ Config.busyPollLimit → t.polls ≤ Config.busyPollLimit
  irqPolls : s.irqPolls ≤ max s.params.irqPollLimit s.params.resetPollLimit →
    t.irqPolls ≤ max s.params.irqPollLimit s.params.resetPollLimit
  xi : s.xi ≤ Config.rxBufferSize → t.xi ≤ Config.rxBufferSize
  rf : G → (s.rfOn = true → s.initialized = true) → t.rfOn = true → t.initialized = true
  wire : ∃ es, t.wire = s.wire ++ es ∧ (G → ∀ e ∈ es, e.ok = true)

variable {G : Prop} {may : May} {s t u : State}

theorem Effect.refl (s : State) : Effect G may s s := by
  constructor <;> simp [Within.refl]

theorem Effect.trans (h : Effect G may s t) (h' : Effect G may t u) : Effect G may s u where
  faults := h'.faults.trans h.faults
  params := h'.params.trans h.params
  queue := h'.queue.trans h.queue
  delivered := h'.delivered.trans h.delivered
  quiet hq := h'.quiet (h.quiet hq)
  rst hm := (h'.rst hm).trans (h.rst hm)
  levels hm := (h'.levels hm).trans (h.levels hm)
  within hq := (h.within hq).trans (h'.within (h.quiet hq))
  initialized hm := (h'.initialized hm).trans (h.initialized hm)
  booted hs := h'.booted (h.booted hs)
  rfOn hm := (h'.rfOn hm).trans (h.rfOn hm)
  scratch hm := (h'.scratch hm).trans (h.scratch hm)
  valid hm := (h'.valid hm).trans (h.valid hm)
  data hs := h'.data (h.data hs)
  rising hs := h'.rising (h.rising hs)
  polls hs := h'.polls (h.polls hs)
  irqPolls hs := by
    have := h'.irqPolls
    rw [h.params] at this
    exact this (h.irqPolls hs)
  xi hs := h'.xi (h.xi hs)
  rf hG hs := h'.rf hG (h.rf hG hs)
  wire := by
    obtain ⟨es, h1, h2⟩ := h.wire
    obtain ⟨es', h1', h2'⟩ := h'.wire
    refine ⟨es ++ es', by rw [h1', h1, List.append_assoc], fun hG e he => ?_⟩
    rcases List.mem_append.1 he with he | he
    · exact h2 hG e he
    · exact h2' hG e he

/-! ## The effect of the single updates -/

theorem effect_goto (p : Phase) : Effect G may s (s.goto p) := by
  constructor <;> simp [State.DataOk, Within.refl]

theorem effect_setPolls {n : Nat} (hn : n ≤ Config.busyPollLimit) : Effect G may s (s.setPolls n) := by
  constructor <;> simp [State.DataOk, Within.refl, hn]

theorem effect_setIrqPolls {n : Nat}
    (hn : s.irqPolls ≤ max s.params.irqPollLimit s.params.resetPollLimit →
      n ≤ max s.params.irqPollLimit s.params.resetPollLimit) : Effect G may s (s.setIrqPolls n) := by
  constructor <;> simp [State.DataOk, Within.refl]
  · simpa using hn

theorem effect_setXi {n : Nat} (hn : n ≤ Config.rxBufferSize) : Effect G may s (s.setXi n) := by
  constructor <;> simp [State.DataOk, Within.refl, hn]

theorem effect_setPeer {p : Peer} (hq : s.peer.Quiet → p.Quiet)
    (hr : cellsRising s.peer.chip.regs = true → cellsRising p.chip.regs = true)
    (hw : s.peer.Quiet → Within may s.peer.chip p.chip) : Effect G may s (s.setPeer p) := by
  constructor <;> simp [State.DataOk]
  · exact hq
  · exact hw
  · exact hr

/-- The peer after draws and its own changes. -/
theorem effect_drawn {p : Peer} (h : Drawn s.peer p) : Effect G may s (s.setPeer p) :=
  effect_setPeer h.quiet h.rising fun hq => Within.of_eq (h.chip hq)

@[simp] theorem resetLevels_append (w w' : List Event) : resetLevels (w ++ w') = resetLevels w ++ resetLevels w' :=
  List.filterMap_append

/-- A stretch of events that leaves the reset line alone, with the peer's draws and own changes, is the only change. -/
theorem effect_events {p : Peer} {es : List Event} (hd : Drawn s.peer p) (he : G → ∀ e ∈ es, e.ok = true)
    (hl : resetLevels es = []) : Effect G may s { s with peer := p, wire := s.wire ++ es } := by
  constructor <;> simp [State.DataOk, hl]
  · exact hd.quiet
  · exact fun hq => Within.of_eq (hd.chip hq)
  · exact hd.rising
  · exact he

theorem effect_emit {a : Action} (ha : G → Event.ok ⟨s.phase, s.cs, s.xi, a⟩ = true)
    (hl : resetLevels [⟨s.phase, s.cs, s.xi, a⟩] = []) : Effect G may s (s.emit a) :=
  effect_events s.peer.elapse_drawn (by simpa using ha) hl

theorem effect_settle {d : Delay} (h : G → s.cs = true → s.phase.selected = true) :
    Effect G may s (s.settle d) :=
  effect_emit (fun hG => by
    have := h hG
    cases hc : s.cs <;> simp_all [Event.ok]) rfl

theorem effect_sleep (h : G → s.cs = true → s.phase.selected = true) : Effect G may s s.sleep :=
  effect_emit (fun hG => by
    have := h hG
    cases hc : s.cs <;> simp_all [Event.ok]) rfl

theorem effect_setCs {b : Bool} (h : G → b = true → s.phase.selected = true) : Effect G may s (s.setCs b) := by
  have h1 : Effect G may s { s with cs := b } := by constructor <;> simp [State.DataOk, Within.refl]
  refine h1.trans (effect_emit (fun hG => ?_) rfl)
  have := h hG
  cases b <;> simp_all [Event.ok]

theorem effect_setRfOn_false (hm : may.field = true) : Effect G may s (s.setRfOn false) := by
  constructor <;> simp [State.DataOk, Within.refl, hm]

theorem effect_setRfOn_true (hm : may.field = true) (hi : G → s.initialized = true) :
    Effect G may s (s.setRfOn true) := by
  constructor <;> simp [State.DataOk, Within.refl, hm]
  · intro hG _; exact hi hG

theorem effect_setInitialized (hm : may.reset = true) : Effect G may s (s.setInitialized true) := by
  constructor <;> simp [State.DataOk, Within.refl, hm]

theorem effect_setRst {l : Level} (hm : may.Pulses) (hp : G → s.phase = .op) (hc : G → s.cs = false) :
    Effect G may s (s.setRst l) := by
  constructor <;> simp [State.DataOk, hm.reset]
  · intro hq
    split
    · exact s.peer.elapse_drawn.quiet hq
    · exact s.peer.elapse_drawn.quiet hq
  · intro hq
    split
    · exact s.peer.elapse_drawn.chip hq ▸ Within.hardwareReset hm _
    · exact Within.of_eq (s.peer.elapse_drawn.chip hq)
  · intro hr
    split
    · rfl
    · exact s.peer.elapse_rising hr
  · intro hG; simp [Event.ok, hp hG, hc hG]

theorem effect_setValid_zero (hm : may.data = true) : Effect G may s (s.setValid 0) := by
  constructor <;> simp [State.DataOk, Within.refl, hm]
  · intro h _ _; exact h

theorem effect_clearCounters : Effect G may s s.clearCounters := by
  constructor <;> simp [State.DataOk, Within.refl]

theorem effect_select {p : Phase} (hp : p.selected = true) : Effect G may s (s.select p) :=
  ((effect_goto p).trans (effect_setCs (by simp [hp]))).trans (effect_settle (by simp [hp]))

theorem effect_release {p : Phase} : Effect G may s (s.release p) :=
  ((effect_goto p).trans (effect_setCs (by simp))).trans (effect_settle (by simp))

theorem effect_releaseCs : Effect G may s s.releaseCs := by
  unfold State.releaseCs
  split
  · exact effect_setCs (by simp)
  · exact Effect.refl s

theorem effect_abortTo (p : Phase) : Effect G may s (s.abortTo p) :=
  (effect_releaseCs.trans (effect_goto p)).trans effect_clearCounters

@[simp] theorem State.releaseCs_cs (s : State) : s.releaseCs.cs = false := by
  unfold State.releaseCs; split <;> simp_all

@[simp] theorem State.abortTo_cs (s : State) (p : Phase) : (s.abortTo p).cs = false := by simp [State.abortTo]
@[simp] theorem State.abortTo_phase (s : State) (p : Phase) : (s.abortTo p).phase = p := by simp [State.abortTo]

/-! ## The peer's part -/

/-- A frame that can be sent where `may` is allowed: its first byte is an opcode of R102, and executing it and reading the
response changes only what `may` names. -/
structure Sendable (may : May) (frame : List Byte) : Prop where
  opcode : ∀ b ∈ frame.head?, (Opcode.ofByte b).isSome = true
  execute : ∀ c : Chip, Within may c (c.execute frame)
  observe : ∀ (c : Chip) (r : List Byte), Within may c (c.observe frame r)

theorem effect_act {f : Chip → Chip} (hr : ∀ c, cellsRising c.regs = true → cellsRising (f c).regs = true)
    (hw : ∀ c, Within may c (f c)) : Effect G may s (s.setPeer (s.peer.act f)) :=
  effect_setPeer id (hr _) fun _ => hw _

theorem effect_execute {frame : List Byte} (h : Sendable may frame) :
    Effect G may s (s.setPeer (s.peer.act (·.execute frame))) :=
  effect_act (fun c => c.execute_rising frame) h.execute

/-- Nothing but the peer's own changes has happened since the peer began to answer in `s`; then it has answered. -/
theorem effect_answered {f : List Byte} (h : Sendable may f) (r : List Byte) (k : Nat) (e : Effect G may s t) :
    Effect G may s (t.setPeer (t.peer.answered s.peer f r k)) where
  faults := e.faults
  params := e.params
  queue := e.queue
  delivered := e.delivered
  quiet := e.quiet
  rst := e.rst
  levels := e.levels
  within hq := by
    show Within may s.peer.chip (t.peer.answered s.peer f r k).chip
    rw [Peer.answered_chip _ f r k hq]
    exact h.observe _ r
  initialized := e.initialized
  booted := e.booted
  rfOn := e.rfOn
  scratch := e.scratch
  valid := e.valid
  data := e.data
  rising := Peer.answered_rising _ f r k
  polls := e.polls
  irqPolls := e.irqPolls
  xi := e.xi
  rf := e.rf
  wire := e.wire

theorem effect_maybeExecuted {frame : List Byte} (hf : Sendable may frame) :
    Effect G may s (s.maybeExecuted frame) := by
  obtain ⟨x, d, h⟩ := s.peer.drawExecuted_effect
  unfold State.maybeExecuted
  rw [h]
  split
  · exact effect_setPeer id (fun hr => Chip.execute_rising _ _ hr) fun _ => hf.execute _
  · exact effect_setPeer id id fun _ => Within.refl _

/-! ## The transport -/

/-- Events of a wait do not drive the reset line. -/
theorem waitEvents_levels {es : List Event} (h : ∀ e ∈ es, e.ofWait s) : resetLevels es = [] := by
  rw [resetLevels, List.filterMap_eq_nil_iff]
  intro e he
  obtain ⟨-, -, -, h4⟩ := h e he
  rcases h4 with h4 | ⟨b, h4⟩ <;> rw [h4]

theorem ofWait_ok {e : Event} (h : e.ofWait s) (hsel : s.cs = true → s.phase.selected = true) : e.ok = true := by
  obtain ⟨h1, h2, -, h4⟩ := h
  rcases h4 with h4 | ⟨b, h4⟩ <;> cases hc : s.cs <;> simp_all [Event.ok]

theorem Waited.effect {m : Nat} {es : List Event} (h : Waited (s.setPolls 0) t m es) (he : ∀ e ∈ es, e.ofWait s)
    (hm : m ≤ Config.busyPollLimit) (hsel : G → s.cs = true → s.phase.selected = true) : Effect G may s t := by
  obtain ⟨p, rfl, hd, -, -⟩ := h
  have h1 : Effect G may s (s.setPolls m) := effect_setPolls hm
  have h2 := h1.trans (effect_events (s := s.setPolls m) (es := es) hd (fun hG e he' => ofWait_ok (he e he') (hsel hG))
    (waitEvents_levels he))
  simpa [State.waited, State.setPolls] using h2

theorem Waited.lines {m : Nat} {es : List Event} (h : Waited (s.setPolls 0) t m es) :
    t.phase = s.phase ∧ t.cs = s.cs ∧ t.xi = s.xi ∧ t.scratch = s.scratch ∧ t.scratchValid = s.scratchValid ∧
      t.irqPolls = s.irqPolls := by
  obtain ⟨p, rfl, -⟩ := h
  simp [State.waited]

theorem sendEvents_ok (xs : List (Byte × Byte)) (xi : Nat)
    (h : xi = 0 → ∀ b ∈ (xs.map Prod.fst).head?, (Opcode.ofByte b).isSome = true) :
    ∀ e ∈ sendEvents .tSend true xi xs, e.ok = true := by
  induction xs generalizing xi with
  | nil => simp [sendEvents]
  | cons x xs ih =>
    intro e he
    simp only [sendEvents, List.mem_cons] at he
    rcases he with rfl | he
    · by_cases hx : xi = 0
      · simpa [Event.ok, Event.xferOk, Phase.selected, hx] using h hx x.1 (by simp)
      · simp [Event.ok, Event.xferOk, Phase.selected, hx]
    · exact ih (xi + 1) (by omega) e he

theorem receiveEvents_ok (bs : List Byte) (xi : Nat) : ∀ e ∈ receiveEvents .rRecv true xi bs, e.ok = true := by
  induction bs generalizing xi with
  | nil => simp [receiveEvents]
  | cons b bs ih =>
    intro e he
    simp only [receiveEvents, List.mem_cons] at he
    rcases he with rfl | he
    · simp [Event.ok, Event.xferOk, Phase.selected]
    · exact ih (xi + 1) e he

@[simp] theorem sendEvents_levels (p : Phase) (c : Bool) (xi : Nat) (bs : List (Byte × Byte)) :
    resetLevels (sendEvents p c xi bs) = [] := by
  induction bs generalizing xi with
  | nil => rfl
  | cons b bs ih => simpa [resetLevels, sendEvents] using ih (xi + 1)

@[simp] theorem receiveEvents_levels (p : Phase) (c : Bool) (xi : Nat) (bs : List Byte) :
    resetLevels (receiveEvents p c xi bs) = [] := by
  induction bs generalizing xi with
  | nil => rfl
  | cons b bs ih => simpa [resetLevels, receiveEvents] using ih (xi + 1)

/-- What a stretch of the transport leaves, beside its effect: the lines and the scratch buffer. -/
structure Carried (s t : State) : Prop where
  scratch : t.scratch = s.scratch
  valid : t.scratchValid = s.scratchValid
  irq : t.irqPolls = s.irqPolls

theorem Carried.trans (h : Carried s t) (h' : Carried t u) : Carried s u :=
  ⟨h'.scratch.trans h.scratch, h'.valid.trans h.valid, h'.irq.trans h.irq⟩

theorem waitBusy_holds (target : Bool) (hsel : G → s.cs = true → s.phase.selected = true) :
    Proc.Holds (waitBusy target) s
      (fun _ t => Effect G may s t ∧ Carried s t ∧ t.phase = s.phase ∧ t.cs = s.cs)
      (fun e t => e = .err (.busyTimeout s.phase) ∧ Effect G may s t ∧ Carried s t ∧ t.phase = s.phase ∧
        t.cs = s.cs) := by
  refine (waitBusy_effect target s).mono ?_ ?_
  · rintro _ t ⟨k, hk, h⟩
    obtain ⟨h1, h2, -, h4, h5, h6⟩ := h.lines
    exact ⟨h.effect (waitEvents_ofWait s target k) (by omega) hsel, ⟨h4, h5, h6⟩, h1, h2⟩
  · rintro e t ⟨he, h⟩
    obtain ⟨h1, h2, -, h4, h5, h6⟩ := h.lines
    exact ⟨he, h.effect (missEvents_ofWait s target _) (Nat.le_refl _) hsel, ⟨h4, h5, h6⟩, h1, h2⟩

theorem waitBusySent_holds (target : Bool) (frame : List Byte) (hf : Sendable may frame)
    (hsel : G → s.cs = true → s.phase.selected = true) :
    Proc.Holds (waitBusySent target frame) s
      (fun _ t => Effect G may s t ∧ Carried s t ∧ t.phase = s.phase ∧ t.cs = s.cs)
      (fun e t => e = .err (.busyTimeout s.phase) ∧ Effect G may s t ∧ Carried s t ∧ t.phase = s.phase ∧
        t.cs = s.cs) := by
  have h := waitBusy_holds (G := G) (may := may) target hsel
  unfold Proc.Holds waitBusySent at *
  revert h
  cases waitBusy target s with
  | ok _ t => exact fun h => h
  | error e t =>
    rintro ⟨h1, h2, h3, h4, h5⟩
    exact ⟨h1, h2.trans (effect_maybeExecuted hf), ⟨h3.scratch, h3.valid, h3.irq⟩, h4, h5⟩

/-- How a stretch of the transport ends early: a busy timeout, with chip-select in a phase of R22. -/
def TimedOut (G : Prop) (may : May) (s : State) (e : Stop) (t : State) : Prop :=
  (∃ p, e = .err (.busyTimeout p)) ∧ Effect G may s t ∧ Carried s t ∧
    (G → t.cs = true → t.phase.selected = true)

theorem effect_sent {xs : List (Byte × Byte)} {p : Peer} (hd : Drawn s.peer p) (hx : s.xi = 0) (hp : s.phase = .tSend)
    (hc : s.cs = true) (hl : xs.length ≤ Config.rxBufferSize)
    (ho : ∀ b ∈ (xs.map Prod.fst).head?, (Opcode.ofByte b).isSome = true) : Effect G may s (s.sent xs p) := by
  have h1 := effect_events (G := G) (may := may) (s := s) (es := sendEvents s.phase s.cs s.xi xs) hd
    (fun _ => by rw [hp, hc, hx]; exact sendEvents_ok xs 0 fun _ => ho) (sendEvents_levels _ _ _ _)
  exact h1.trans (effect_setXi (n := s.xi + xs.length) (by omega))

theorem exchangeCommand_holds (frame : List Byte) (hc : G → s.cs = false) (hop : Sendable may frame)
    (hlen : frame.length ≤ Config.maxFrame) :
    Proc.Holds (exchangeCommand frame) s
      (fun _ t => Effect G may s t ∧ Carried s t ∧ t.cs = false)
      (TimedOut G may s) := by
  have hmax : Config.maxFrame ≤ Config.rxBufferSize := by decide
  unfold exchangeCommand
  simp only [holds_update_bind]
  refine (waitBusy_holds (G := G) (may := may) false (fun hG h => by simp [hc hG] at h)).seq' ?_ ?_
  · rintro e t ⟨he, h1, h2, h3, h4⟩
    refine ⟨⟨_, he⟩, (effect_goto _).trans h1, ⟨h2.scratch, h2.valid, h2.irq⟩, fun hG hcs => ?_⟩
    rw [h4] at hcs
    simp [hc hG] at hcs
  rintro _ t1 ⟨h1, h2, -, -⟩
  have e1 : Effect G may s t1 := (effect_goto _).trans h1
  simp only [holds_update_bind]
  obtain ⟨xs, p, hx, hd, -, -, hrun⟩ := sendBytes_run frame (((t1.select .tSelect).goto .tSend).setXi 0)
  rw [holds_bind]
  unfold Proc.Holds
  rw [hrun]
  -- the state after the frame has been sent
  have e2 : Effect G may t1 (((t1.select .tSelect).goto .tSend).setXi 0) :=
    ((effect_select rfl).trans (effect_goto _)).trans (effect_setXi (by simp))
  have e3 := effect_sent (G := G) (may := may) (s := ((t1.select .tSelect).goto .tSend).setXi 0) hd rfl rfl rfl
    (by rw [length_of_map_fst hx]; omega) (by rw [hx]; exact hop.opcode)
  have c3 : Carried t1 ((((t1.select .tSelect).goto .tSend).setXi 0).sent xs p) := ⟨rfl, rfl, rfl⟩
  have e13 := e1.trans (e2.trans e3)
  generalize (((t1.select .tSelect).goto .tSend).setXi 0).sent xs p = t2 at e13 c3
  have c13 : Carried s t2 := ⟨c3.scratch.trans h2.scratch, c3.valid.trans h2.valid, c3.irq.trans h2.irq⟩
  change Proc.Holds _ t2 _ _
  simp only [holds_update_bind]
  refine (waitBusySent_holds (G := G) (may := may) true frame hop (by simp [Phase.selected])).seq' ?_ ?_
  · rintro e t ⟨he, k1, k2, k3, k4⟩
    exact ⟨⟨_, he⟩, e13.trans ((effect_goto _).trans k1), c13.trans ⟨k2.scratch, k2.valid, k2.irq⟩,
      fun _ _ => by rw [k3]; rfl⟩
  rintro _ t3 ⟨k1, k2, -, -⟩
  simp only [holds_update_bind]
  refine (waitBusySent_holds (G := G) (may := may) false frame hop (by simp)).seq' ?_ ?_
  · rintro e t ⟨he, l1, l2, l3, l4⟩
    refine ⟨⟨_, he⟩, (e13.trans ((effect_goto _).trans k1)).trans ((effect_release.trans (effect_goto _)).trans l1),
      (c13.trans ⟨k2.scratch, k2.valid, k2.irq⟩).trans ⟨l2.scratch, l2.valid, l2.irq⟩, fun _ hcs => ?_⟩
    rw [l4] at hcs; simp at hcs
  rintro _ t4 ⟨l1, l2, -, l4⟩
  refine ⟨(e13.trans ((effect_goto _).trans k1)).trans
    (((effect_release.trans (effect_goto _)).trans l1).trans (effect_execute hop)),
    (c13.trans ⟨k2.scratch, k2.valid, k2.irq⟩).trans ⟨l2.scratch, l2.valid, l2.irq⟩, by simpa using l4⟩

/-- What a receive into `dst` may need of the caller: the scratch buffer is written only while no byte counts as valid. -/
def Destination.Writable (dst : Destination) (may : May) (s : State) : Prop :=
  dst = .scratch → may.data = true ∧ s.scratchValid = 0

/-- Bytes stored to the scratch buffer while none counts as valid. -/
theorem effect_setScratch {a : Nat} {bs : List Byte} (hm : may.data = true) (hv : s.scratchValid = 0)
    (hl : a + bs.length ≤ Config.rxBufferSize) : Effect G may s (s.setScratch (s.scratch.write a bs)) := by
  constructor <;> simp [State.DataOk, Within.refl, hm]
  intro h1 h2 _
  exact ⟨Memory.wf_write _ _ _ h1 hl, h2, by omega⟩

theorem effect_received (dst : Destination) (hd : dst.Writable may s) (bs : List Byte) {p : Peer} (hp : Drawn s.peer p)
    (hx : s.xi = 0) (hr : bs.length ≤ Config.rxBufferSize) (hph : s.phase = .rRecv) (hc : s.cs = true) :
    Effect G may s (s.read dst bs p) := by
  have h1 := effect_events (G := G) (may := may) (s := s) (es := receiveEvents s.phase s.cs s.xi bs) hp
    (fun _ => by rw [hph, hc]; exact receiveEvents_ok bs s.xi) (receiveEvents_levels _ _ _ _)
  have h2 := h1.trans (effect_setXi (n := s.xi + bs.length) (by omega))
  cases dst with
  | transient => exact h2
  | scratch =>
    obtain ⟨hm, hv⟩ := hd rfl
    exact h2.trans (effect_setScratch (s := State.setXi { s with peer := p, wire := _ } _) (bs := bs) hm hv (by omega))

/-- What the precondition of R130 forbids. -/
def BadExchange (frame : List Byte) (rl : Nat) : Prop :=
  frame.length = 0 ∨ Config.maxFrame < frame.length ∨ Config.rxBufferSize < rl

/-- The scratch buffer as it was, or with `n` received bytes in it (R25). -/
def Destination.StoresAtMost (dst : Destination) (n : Nat) (s t : State) : Prop :=
  t.scratch = s.scratch ∨ ∃ r : List Byte, r.length = n ∧ t.scratch = dst.stored (s.setXi 0) r

/-- How an exchange ends early: a busy timeout, or the precondition fault where its cause `bad` holds; chip-select in a
phase of R22. -/
def ExchangeFailed (G : Prop) (may : May) (dst : Destination) (n : Nat) (s : State) (bad : Prop) (e : Stop) (t : State) :
    Prop :=
  (e = .halt .transportPrecondition ∧ bad ∨ ∃ p, e = .err (.busyTimeout p)) ∧ Effect G may s t ∧
    t.scratchValid = s.scratchValid ∧ (G → t.cs = true → t.phase.selected = true) ∧ dst.StoresAtMost n s t

theorem exchangeResponse_holds (frame : List Byte) (rl : Nat) (dst : Destination) (hd : dst.Writable may s)
    (hop : Sendable may frame) (hrl : rl ≤ Config.rxBufferSize) :
    Proc.Holds (exchangeResponse frame rl dst) s
      (fun r t => Effect G may s t ∧ t.cs = false ∧ t.scratchValid = s.scratchValid ∧ r.length = rl ∧
        t.irqPolls = s.irqPolls ∧ t.scratch = dst.stored (s.setXi 0) r)
      (ExchangeFailed G may dst rl s False) := by
  unfold exchangeResponse
  simp only [holds_current_bind, holds_update_bind]
  have e1 : Effect G may s (((s.select .rSelect).goto .rRecv).setXi 0) :=
    ((effect_select rfl).trans (effect_goto _)).trans (effect_setXi (by simp))
  have hst : ∀ r, dst.stored (((s.select .rSelect).goto .rRecv).setXi 0) r = dst.stored (s.setXi 0) r := by
    intro r; cases dst <;> simp [Destination.stored]
  have w1 : dst.Writable may (((s.select .rSelect).goto .rRecv).setXi 0) := hd
  have p1 : (((s.select .rSelect).goto .rRecv).setXi 0).phase = .rRecv := rfl
  have x1 : (((s.select .rSelect).goto .rRecv).setXi 0).xi = 0 := rfl
  have c1 : (((s.select .rSelect).goto .rRecv).setXi 0).cs = true := rfl
  have v1 : (((s.select .rSelect).goto .rRecv).setXi 0).scratchValid = s.scratchValid := rfl
  have q1 : (((s.select .rSelect).goto .rRecv).setXi 0).irqPolls = s.irqPolls := rfl
  generalize ((s.select .rSelect).goto .rRecv).setXi 0 = t1 at e1 hst w1 p1 x1 c1 v1 q1
  obtain ⟨r, p, hr, hd', hrun⟩ := receiveBytes_effect dst rl t1 (by omega)
  rw [holds_bind]
  unfold Proc.Holds
  rw [hrun]
  have e2 := effect_received (G := G) dst w1 r hd' x1 (by omega) p1 c1
  have s2 : (t1.read dst r p).scratch = dst.stored (s.setXi 0) r := hst r
  have v2 : (t1.read dst r p).scratchValid = s.scratchValid := v1
  have q2 : (t1.read dst r p).irqPolls = s.irqPolls := q1
  have e12 := e1.trans e2
  generalize t1.read dst r p = t2 at e12 s2 v2 q2
  show Proc.Holds _ t2 _ _
  simp only [holds_update_bind]
  refine (waitBusy_holds (G := G) (may := may) false (by simp)).seq' ?_ ?_
  · rintro e t ⟨he, k1, k2, k3, k4⟩
    refine ⟨.inr ⟨_, he⟩, (effect_answered hop r _ e12).trans ((effect_release.trans (effect_goto _)).trans k1),
      k2.valid.trans v2, fun _ hcs => ?_, .inr ⟨r, hr, k2.scratch.trans s2⟩⟩
    rw [k4] at hcs; simp at hcs
  · rintro _ t3 ⟨k1, k2, -, k4⟩
    rw [holds_pure]
    exact ⟨(effect_answered hop r _ e12).trans ((effect_release.trans (effect_goto _)).trans k1),
      by rw [k4]; rfl, k2.valid.trans v2, hr, k2.irq.trans q2, k2.scratch.trans s2⟩

/-- One exchange of a frame, whatever the peer answers (R130, R132, R137). -/
theorem transceive_holds (frame : List Byte) (rl : Nat) (dst : Destination) (hc : G → s.cs = false)
    (hop : Sendable may frame) (hd : dst.Writable may s) :
    Proc.Holds (transceive frame rl dst) s
      (fun r t => Effect G may s t ∧ t.cs = false ∧ t.phase = .op ∧ t.scratchValid = s.scratchValid ∧ r.length = rl ∧
        t.irqPolls = s.irqPolls ∧ rl ≤ Config.rxBufferSize ∧ t.scratch = dst.stored (s.setXi 0) r)
      (ExchangeFailed G may dst rl s (BadExchange frame rl)) := by
  unfold transceive
  split
  · next hbad =>
    rw [holds_halt]
    exact ⟨.inl ⟨rfl, hbad⟩, Effect.refl s, rfl, fun hG h => by simp [hc hG] at h, .inl rfl⟩
  · next hpre =>
    simp only [not_or, Nat.not_lt] at hpre
    refine (exchangeCommand_holds (G := G) (may := may) frame hc hop hpre.2.1).seq' ?_ ?_
    · rintro e t ⟨h1, h2, h3, h4⟩
      exact ⟨.inr h1, h2, h3.valid, h4, .inl h3.scratch⟩
    rintro _ t1 ⟨h1, h2, h3⟩
    split
    · next h0 =>
      subst h0
      rw [holds_update_bind, holds_pure]
      refine ⟨h1.trans (effect_goto _), h3, rfl, h2.valid, rfl, h2.irq, by simp, ?_⟩
      cases dst <;> simpa [Destination.stored] using h2.scratch
    · have hd1 : dst.Writable may t1 := fun h => ⟨(hd h).1, h2.valid.trans (hd h).2⟩
      refine (exchangeResponse_holds (G := G) frame rl dst hd1 hop hpre.2.2).seq' ?_ ?_
      · rintro e t ⟨k1, k2, k3, k4, k5⟩
        refine ⟨k1.imp (fun h => h.2.elim) id, h1.trans k2, k3.trans h2.valid, k4, ?_⟩
        rcases k5 with k5 | ⟨r, hr, k5⟩
        · exact .inl (k5.trans h2.scratch)
        · refine .inr ⟨r, hr, k5.trans ?_⟩
          cases dst <;> simp [Destination.stored, h2.scratch]
      · rintro r t2 ⟨k1, k2, k3, k4, k6, k5⟩
        rw [holds_update_bind, holds_pure]
        refine ⟨h1.trans (k1.trans (effect_goto _)), k2, rfl, k3.trans h2.valid, k4, k6.trans h2.irq, hpre.2.2, ?_⟩
        rw [State.goto_scratch, k5]
        cases dst <;> simp [Destination.stored, h2.scratch]

end Sys2Proof.Machine
end

