-- ==== Sys2Proof/Laws/Procedures.lean ====
section
/-! SUPPORT. The effect of every procedure of the pseudocode, composed from that of one exchange. -/

namespace Sys2Proof.Machine

variable {G : Prop} {may : May} {s : State} {α β : Type}

/-- The early ends that a procedure can have once it has begun: any error but `OutOfRange`, the two faults of a transfer over
its bounds. -/
def Stop.late : Stop → Bool
  | .err e => !(e == .outOfRange)
  | .halt .oversizedRead => true
  | .halt .transportPrecondition => true
  | .halt .bootOrder => false
  | .halt .rfNotOn => false
  | .stuck _ => false

/-- From `s` the procedure changes only what `may` allows; at its normal end chip-select is released, at an early end it is
asserted only in a phase of R22, and the early end is one of `Stop.late`. -/
def Proc.Runs (G : Prop) (may : May) (p : Proc α) (s : State) : Prop :=
  Proc.Holds p s (fun _ t => Effect G may s t ∧ (G → t.cs = false))
    (fun e t => Effect G may s t ∧ (G → t.cs = true → t.phase.selected = true) ∧ e.late = true)

/-- The same, or the procedure raises `OutOfRange` before it has done anything (R282). -/
def Proc.Begins (G : Prop) (may : May) (p : Proc α) (s : State) : Prop :=
  Proc.Holds p s (fun _ t => Effect G may s t ∧ (G → t.cs = false))
    (fun e t => Effect G may s t ∧ (G → t.cs = true → t.phase.selected = true) ∧ e.late = true ∨
      e = .err .outOfRange ∧ t = s)

theorem Proc.Runs.begins {p : Proc α} (h : Proc.Runs G may p s) : Proc.Begins G may p s :=
  h.mono (fun _ _ h => h) fun _ _ h => .inl h

theorem Proc.Begins.bind {p : Proc α} {f : α → Proc β} (h : Proc.Begins G may p s)
    (hf : ∀ a t, Effect G may s t → (G → t.cs = false) → Proc.Runs G may (f a) t) : Proc.Begins G may (p >>= f) s := by
  refine Proc.Holds.seq h fun a t ht => (hf a t ht.1 ht.2).mono ?_ ?_
  · exact fun _ _ h => ⟨ht.1.trans h.1, h.2⟩
  · exact fun _ _ h => .inl ⟨ht.1.trans h.1, h.2⟩

theorem begins_require (c : Bool) (f : Unit → Proc α) (h : Proc.Runs G may (f ()) s) :
    Proc.Begins G may (require c .outOfRange >>= f) s := by
  unfold require
  split
  · exact h.begins
  · exact .inr ⟨rfl, rfl⟩

theorem Proc.Runs.bind {p : Proc α} {f : α → Proc β} (h : Proc.Runs G may p s)
    (hf : ∀ a t, Effect G may s t → (G → t.cs = false) → Proc.Runs G may (f a) t) : Proc.Runs G may (p >>= f) s := by
  refine Proc.Holds.seq h fun a t ht => (hf a t ht.1 ht.2).mono ?_ ?_
  · exact fun _ _ h => ⟨ht.1.trans h.1, h.2⟩
  · exact fun _ _ h => ⟨ht.1.trans h.1, h.2⟩

theorem runs_pure (a : α) (hc : G → s.cs = false) : Proc.Runs G may (pure a) s := ⟨Effect.refl s, hc⟩

theorem runs_raise (e : OpError) (he : e ≠ .outOfRange) (hc : G → s.cs = false) :
    Proc.Runs G may (raise e : Proc α) s :=
  ⟨Effect.refl s, fun hG h => by simp [hc hG] at h, by simpa [Stop.late] using he⟩

theorem runs_halt (f : FaultKind) (hf : (Stop.halt f).late = true) (hc : G → s.cs = false) :
    Proc.Runs G may (halt f : Proc α) s :=
  ⟨Effect.refl s, fun hG h => by simp [hc hG] at h, hf⟩

theorem runs_require (c : Bool) (e : OpError) (he : e ≠ .outOfRange) (hc : G → s.cs = false) :
    Proc.Runs G may (require c e) s := by
  unfold require; split
  · exact runs_pure () hc
  · exact runs_raise e he hc

theorem runs_fromParser (r : Except OpError α) (hr : r ≠ .error .outOfRange) (hc : G → s.cs = false) :
    Proc.Runs G may (fromParser r) s := by
  cases r with
  | ok a => exact runs_pure a hc
  | error e => exact runs_raise e (fun h => hr (by rw [h])) hc

theorem Proc.Runs.update {f : State → State} {g : Unit → Proc β} (h : Effect G may s (f s))
    (hg : Proc.Runs G may (g ()) (f s)) : Proc.Runs G may (update f >>= g) s := by
  show Proc.Holds (g ()) (f s) _ _
  exact hg.mono (fun _ _ k => ⟨h.trans k.1, k.2⟩) (fun _ _ k => ⟨h.trans k.1, k.2⟩)

theorem runs_update {f : State → State} (h : Effect G may s (f s)) (hc : G → (f s).cs = false) :
    Proc.Runs G may (Machine.update f) s := ⟨h, hc⟩

theorem runs_transceive (frame : List Byte) (rl : Nat) (dst : Destination) (hc : G → s.cs = false)
    (hop : Sendable may frame) (hd : dst.Writable may s) : Proc.Runs G may (transceive frame rl dst) s :=
  (transceive_holds frame rl dst hc hop hd).mono (fun _ _ h => ⟨h.1, fun _ => h.2.1⟩) (by
    rintro e t ⟨h1, h2, -, h4⟩
    refine ⟨h2, h4.1, ?_⟩
    rcases h1 with ⟨h1, -⟩ | ⟨p, h1⟩ <;> simp [h1, Stop.late])

/-! ## The frames begin with an opcode of R102 -/

@[simp] theorem Opcode.ofByte_code (o : Opcode) : Opcode.ofByte o.code = some o := by cases o <;> decide

theorem Chip.execute_cons (c : Chip) (o : Opcode) (ps : List Byte) : c.execute (o.code :: ps) = c.executeParams o ps := by
  simp [Chip.execute]

/-- A frame that reads no register adds nothing to what is known. -/
theorem Chip.observe_other (c : Chip) (o : Opcode) (ps r : List Byte) (h : o ≠ .readRegister) :
    c.observe (o.code :: ps) r = c := by
  unfold Chip.observe
  split
  · next heq =>
    cases heq
    rw [if_neg]
    rintro ⟨h', -⟩
    cases o <;> first | exact h rfl | exact absurd h' (by decide)
  · rfl

theorem sendable_cons {o : Opcode} {ps : List Byte} (ho : o ≠ .readRegister)
    (h : ∀ c : Chip, Within may c (c.executeParams o ps)) : Sendable may (o.code :: ps) where
  opcode := by simp
  execute c := by rw [Chip.execute_cons]; exact h c
  observe c r := by rw [Chip.observe_other c o ps r ho]; exact Within.refl c

/-- A write to `a` that changes register `b` is allowed: `a` is named and `b` may change, and flags may be cleared where `a` is
IRQ-Clear; or anything may (R62). -/
def May.Writes (may : May) (a b : Byte) : Prop :=
  namedAddress a = true ∧ may.regs b.toNat = true ∧ (a = addrIrqClear → may.clears = true) ∨ may.AllHeld

/-- A write to System-Config changes that register and clears no flag. -/
theorem may_systemConfig (h : may.regs 0 = true) : may.Writes PeerRegister.systemConfig.addr PeerRegister.systemConfig.addr :=
  .inl ⟨rfl, h, fun k => absurd k (by decide)⟩

/-- IRQ-Status may be read and cleared. -/
structure May.Clears (may : May) : Prop where
  irq : may.regs 2 = true
  clears : may.clears = true

theorem May.Writes.accessed {a b : Byte} {c : Chip} {f : Chip → Chip} (h : may.Writes a b)
    (hf : may.regs b.toNat = true → (a = addrIrqClear → may.clears = true) → Within may c (f c)) :
    Within may c (c.accessed a f) :=
  Within.accessed (h.imp (fun h => ⟨h.1, hf h.2.1 h.2.2⟩) id)

theorem sendable_writeRegister {a : Byte} {v : Word} (h : may.Writes a (writtenRegister a)) :
    Sendable may (frameWriteRegister a v) :=
  sendable_cons (by simp) fun c => by
    show Within may c (c.accessed a fun c => (c.writeRegister a _).flagsSetAgain a c)
    refine h.accessed fun h hf => ?_
    unfold Chip.writeRegister
    unfold writtenRegister at h
    split
    · next ha =>
      rw [Chip.flagsSetAgain, if_neg (by rw [ha]; decide)]
      exact Within.updateReg (by simpa [ha] using h) fun _ => .inl (hf ha)
    · next ha =>
      rw [if_neg ha] at h
      exact Within.flagsSetAgain h

theorem sendable_writeRegisterOrMask {a : Byte} {m : Word} (h : may.Writes a a) :
    Sendable may (frameWriteRegisterOrMask a m) :=
  sendable_cons (by simp) fun c => by
    show Within may c (c.accessed a fun c => c.orRegister a _)
    refine h.accessed fun h _ => Within.updateReg h fun _ => .inr ?_
    ext i hi
    simp only [BitVec.getElem_and, BitVec.getElem_or]
    cases (c.reg 0x02)[i] <;> simp

theorem sendable_writeRegisterAndMask {a : Byte} {m : Word} (h : may.Writes a a) :
    Sendable may (frameWriteRegisterAndMask a m) :=
  sendable_cons (by simp) fun c => by
    show Within may c (c.accessed a fun c => (c.andRegister a _).flagsSetAgain a c)
    exact h.accessed fun h _ => Within.flagsSetAgain h

theorem sendable_readRegister {a : Byte} (h : namedAddress a = true → may.regs a.toNat = true)
    (hk : a = 0x02 → may.clears = true) :
    Sendable may (frameReadRegister a) where
  opcode := by simp [frameReadRegister]
  execute c := by apply Within.same <;> intros <;> rfl
  observe c r := by
    unfold Chip.observe
    split
    · next heq =>
      cases heq
      split
      · next hc => exact Within.setReg (h hc.2.2) fun ha => .inl (hk ha)
      · exact Within.refl c
    · exact Within.refl c

theorem sendable_readEeprom (e l : Byte) (h : may.receive = true) : Sendable may (frameReadEeprom e l) :=
  sendable_cons (by simp) fun _ => by apply Within.same <;> simp [Chip.executeParams, h]

theorem sendable_sendData {b : Byte} {payload : List Byte} (h : may.transmit = true) :
    Sendable may (frameSendData b payload) := sendable_cons (by simp) fun _ => by
  apply Within.same <;> simp [Chip.executeParams, h]

theorem sendable_readData (h : may.receive = true) : Sendable may frameReadData :=
  sendable_cons (by simp) fun _ => by apply Within.same <;> simp [Chip.executeParams, h]

theorem sendable_loadRfConfig {t r : Byte} (h : may.profile = true) : Sendable may (frameLoadRfConfig t r) :=
  sendable_cons (by simp) fun _ => by apply Within.same <;> simp [Chip.executeParams, h]

theorem sendable_rfOn (h : may.command = true) : Sendable may frameRfOn :=
  sendable_cons (by simp) fun _ => by apply Within.same <;> simp [Chip.executeParams, h]

theorem sendable_rfOff (h : may.command = true) : Sendable may frameRfOff :=
  sendable_cons (by simp) fun _ => by apply Within.same <;> simp [Chip.executeParams, h]

theorem transient_writable : Destination.transient.Writable may s := by simp [Destination.Writable]

/-! ## The access multiplexer and the monitor -/

theorem runs_sendFrame {frame : List Byte} (hf : Sendable may frame) (hc : G → s.cs = false) :
    Proc.Runs G may (sendFrame frame) s :=
  (runs_transceive _ _ _ hc hf transient_writable).bind fun _ _ _ h => runs_pure () h

theorem runs_writeRegister {a : Byte} (v : Word) (h : may.Writes a (writtenRegister a))
    (hc : G → s.cs = false) : Proc.Runs G may (writeRegister a v) s := runs_sendFrame (sendable_writeRegister h) hc

theorem runs_writeRegisterOr {a : Byte} (m : Word) (h : may.Writes a a) (hc : G → s.cs = false) :
    Proc.Runs G may (writeRegisterOr a m) s := runs_sendFrame (sendable_writeRegisterOrMask h) hc

theorem runs_writeRegisterAnd {a : Byte} (m : Word) (h : may.Writes a a) (hc : G → s.cs = false) :
    Proc.Runs G may (writeRegisterAnd a m) s := runs_sendFrame (sendable_writeRegisterAndMask h) hc

theorem runs_loadRfConfig (t r : Byte) (h : may.profile = true) (hc : G → s.cs = false) :
    Proc.Runs G may (loadRfConfig t r) s := runs_sendFrame (sendable_loadRfConfig h) hc

theorem runs_clearIrqStatus (m : Word) (h : may.Clears) (hc : G → s.cs = false) :
    Proc.Runs G may (clearIrqStatus m) s :=
  runs_writeRegister (a := addrIrqClear) m (.inl ⟨rfl, h.irq, fun _ => h.clears⟩) hc

theorem runs_readRegister {a : Byte} (h : namedAddress a = true → may.regs a.toNat = true)
    (hk : a = 0x02 → may.clears = true) (hc : G → s.cs = false) :
    Proc.Runs G may (readRegister a) s :=
  (runs_transceive _ _ _ hc (sendable_readRegister h hk) transient_writable).bind fun _ _ _ h => runs_pure _ h

theorem runs_getIrqStatus (h : may.Clears) (hc : G → s.cs = false) : Proc.Runs G may getIrqStatus s :=
  runs_readRegister (a := PeerRegister.irqStatus.addr) (fun _ => h.irq) (fun _ => h.clears) hc

theorem runs_getTransceiveState (hr : may.regs 0x1D = true) (hc : G → s.cs = false) :
    Proc.Runs G may getTransceiveState s := by
  have h := runs_readRegister (G := G) (may := may) (s := s) (a := PeerRegister.rfStatus.addr) (fun _ => hr)
    (by simp [PeerRegister.addr]) hc
  unfold Proc.Runs Proc.Holds getTransceiveState at *
  revert h
  cases readRegister PeerRegister.rfStatus.addr s with
  | ok v t => exact fun h => h
  | error e t =>
    intro h
    cases e with
    | err x =>
      cases x with
      | busyTimeout p => exact ⟨h.1.trans (effect_abortTo .op), by simp⟩
      | irqWaitTimeout b => exact h
      | outOfRange => exact h
      | notReady => exact h
      | noCardDetected => exact h
      | tagError c => exact h
      | malformedResponse => exact h
    | halt f => exact h
    | stuck r => exact h

/-- Sequencing that keeps one more fact of the first part's normal end. -/
theorem Proc.Runs.bindWith {p : Proc α} {f : α → Proc β} {R : α → State → Prop} (h : Proc.Runs G may p s)
    (hR : Proc.Holds p s R fun _ _ => True)
    (hf : ∀ a t, Effect G may s t → (G → t.cs = false) → R a t → Proc.Runs G may (f a) t) :
    Proc.Runs G may (p >>= f) s := by
  refine (h.and hR).seq' (fun e t h => h.1) fun a t ht => (hf a t ht.1.1 ht.1.2 ht.2).mono ?_ ?_
  · exact fun _ _ h => ⟨ht.1.1.trans h.1, h.2⟩
  · exact fun _ _ h => ⟨ht.1.1.trans h.1, h.2⟩

/-- Reading a register leaves the IRQ counter alone (R29). -/
theorem readRegister_irqPolls (a : Byte) (s : State) :
    Proc.Holds (readRegister a) s (fun _ t => t.irqPolls = s.irqPolls) fun _ _ => True := by
  refine (transceive_holds (G := False) (s := s)
    (may := ⟨false, false, false, fun _ => true, false, false, false, false, false, true⟩) (frameReadRegister a) 4 .transient
    (fun h => h.elim) (sendable_readRegister (fun _ => rfl) fun _ => rfl) transient_writable).seq' (fun _ _ _ => trivial) ?_
  intro r t h
  exact h.2.2.2.2.2.1

theorem runs_waitIrqLoop (flag : IrqFlag) (limit n : Nat) (h2 : may.Clears) (hc : G → s.cs = false)
    (hl : limit ≤ max s.params.irqPollLimit s.params.resetPollLimit) (hn : s.irqPolls + n = limit) :
    Proc.Runs G may (waitIrqLoop flag limit n) s := by
  induction n generalizing s with
  | zero => exact runs_raise _ (by simp) hc
  | succ n ih =>
    refine (runs_getIrqStatus h2 hc).bindWith (readRegister_irqPolls _ s) ?_
    intro irq t ht hcs hirq
    refine Proc.Runs.update (effect_setIrqPolls fun _ => ?_) ?_
    · rw [ht.params, hirq]; omega
    show Proc.Runs G may (if _ then _ else _) _
    split
    · exact runs_pure () hcs
    · split
      · exact runs_raise _ (by simp) hcs
      · refine Proc.Runs.update (effect_sleep fun hG h => by simp [hcs hG] at h) (ih hcs ?_ ?_)
        · simpa [ht.params] using hl
        · simp [hirq]; omega

theorem runs_waitIrq (flag : IrqFlag) (limit : Nat) (h2 : may.Clears) (hc : G → s.cs = false)
    (hl : limit ≤ max s.params.irqPollLimit s.params.resetPollLimit) : Proc.Runs G may (waitIrq flag limit) s :=
  Proc.Runs.update (effect_setIrqPolls fun _ => Nat.zero_le _) (runs_waitIrqLoop flag limit limit h2 hc hl (by simp))

theorem begins_readEeprom (addr len : Byte) (hc : G → s.cs = false) (hr : may.receive = true) :
    Proc.Begins G may (readEeprom addr len) s :=
  begins_require _ _ (runs_transceive _ _ _ hc (sendable_readEeprom _ _ hr) transient_writable)

/-! ## The scratch buffer -/

/-- Bytes that are stored and count as valid are read back in order (R10, R25, R26). -/
theorem scratchBytes_of_read (s : State) (r : List Byte) (a : Nat)
    (h : ∀ i (_ : i < r.length), s.scratchByte (a + i) = r[i]?) : s.scratchBytes a r.length = some r := by
  induction r generalizing a with
  | nil => rfl
  | cons b r ih =>
    have h0 := h 0 (by simp)
    have ht := ih (a + 1) fun i hi => by
      have := h (i + 1) (by simp; omega)
      rw [show a + 1 + i = a + (i + 1) by omega, this]
      simp
    simp only [Nat.add_zero] at h0
    simp only [List.length_cons, State.scratchBytes, h0, ht, List.getElem?_cons_zero]

/-- After `ReadData`'s exchange the read of the scratch buffer returns the bytes received (R166). -/
theorem memRead_received (s t : State) (r : List Byte) (hr : r.length ≤ Config.rxBufferSize)
    (hs : t.scratch = s.scratch.write 0 r) : memRead 0 r.length (t.setValid r.length) = .ok r (t.setValid r.length) := by
  have h : (t.setValid r.length).scratchBytes 0 r.length = some r := by
    refine scratchBytes_of_read _ r 0 fun i hi => ?_
    simp only [State.scratchByte, State.setValid_scratchValid, State.setValid_scratch, hs, Memory.read_write]
    simp [hi]
  unfold memRead
  rw [if_pos (by omega), h]

/-- The scratch buffer after its first `n` bytes have been received. -/
theorem effect_setValid_received {r : List Byte} {m : Memory} (hm : may.data = true) (hr : r.length ≤ Config.rxBufferSize)
    (hs : s.scratch = Memory.write m 0 r) : Effect G may s (s.setValid r.length) := by
  constructor <;> simp [State.DataOk, Within.refl, hm]
  · intro h1 _ _
    refine ⟨h1, hr, fun a ha => ?_⟩
    rw [hs, Memory.read_write]
    simp [ha]

theorem runs_fetchData (n : Nat) (hc : G → s.cs = false) (hm : may.data = true) (hr : may.receive = true) :
    Proc.Runs G may (fetchData n) s := by
  refine Proc.Runs.update (effect_setValid_zero hm) ?_
  have hw : Destination.scratch.Writable may (s.setValid 0) := fun _ => ⟨hm, rfl⟩
  refine (runs_transceive (s := s.setValid 0) frameReadData n .scratch hc (sendable_readData hr) hw).bindWith
    ((transceive_holds (s := s.setValid 0) (G := G) frameReadData n .scratch hc (sendable_readData hr) hw).mono
      (fun _ _ h => h) fun _ _ _ => trivial) ?_
  rintro r t ht hcs ⟨-, -, -, -, hlen, -, hle, hst⟩
  subst hlen
  have hst' : t.scratch = s.scratch.write 0 r := by simpa [Destination.stored] using hst
  refine Proc.Runs.update (effect_setValid_received hm hle hst') ?_
  unfold Proc.Runs Proc.Holds
  rw [memRead_received s t r hle hst']
  exact ⟨Effect.refl _, hcs⟩

theorem runs_readData (n : Nat) (hc : G → s.cs = false) (hm : may.data = true) (hr : may.receive = true) :
    Proc.Runs G may (readData n) s := by
  unfold readData; split
  · exact runs_fetchData n hc hm hr
  · exact runs_halt _ rfl hc

/-! ## Composite operations -/

/-- What `SendData` changes (R167): System-Config, what is known of RF-Status, and the transmit buffer. -/
structure May.Sends (may : May) : Prop where
  config : may.regs 0 = true
  status : may.regs 0x1D = true
  transmit : may.transmit = true

theorem begins_sendData (payload : List Byte) (b : Byte) (hm : may.Sends) (hc : G → s.cs = false) :
    Proc.Begins G may (sendData payload b) s :=
  begins_require _ _ <|
    (runs_writeRegisterAnd (a := PeerRegister.systemConfig.addr) _ (may_systemConfig hm.config) hc).bind fun _ _ _ h =>
      (runs_writeRegisterOr (a := PeerRegister.systemConfig.addr) _ (may_systemConfig hm.config) h).bind fun _ _ _ h =>
        (runs_getTransceiveState hm.status h).bind fun _ _ _ h =>
          (runs_require _ _ (by simp) h).bind fun _ _ _ h => runs_sendFrame (sendable_sendData hm.transmit) h

/-- What `SetRfOn` and `SetRfOff` change (R168, R169): the record of the field, the field, and IRQ-Status. -/
structure May.Switches (may : May) : Prop where
  field : may.field = true
  command : may.command = true
  irq : may.Clears

theorem runs_setRfOn (hc : G → s.cs = false) (hm : may.Switches) (hi : G → s.initialized = true) :
    Proc.Runs G may setRfOn s := by
  refine (runs_sendFrame (sendable_rfOn hm.command) hc).bind fun _ t ht h => ?_
  show Proc.Runs G may (waitIrq .pcdRfOn t.params.irqPollLimit >>= fun _ => _) t
  refine (runs_waitIrq _ _ hm.irq h (by omega)).bind fun _ u hu h => ?_
  refine (runs_clearIrqStatus _ hm.irq h).bind fun _ v hv h => ?_
  exact runs_update (effect_setRfOn_true hm.field fun hG => hv.booted (hu.booted (ht.booted (hi hG)))) h

theorem runs_setRfOff (hc : G → s.cs = false) (hm : may.Switches) : Proc.Runs G may setRfOff s := by
  refine (runs_sendFrame (sendable_rfOff hm.command) hc).bind fun _ t _ h => ?_
  show Proc.Runs G may (waitIrq .pcdRfOff t.params.irqPollLimit >>= fun _ => _) t
  refine (runs_waitIrq _ _ hm.irq h (by omega)).bind fun _ _ _ h => ?_
  refine (runs_clearIrqStatus _ hm.irq h).bind fun _ _ _ h => ?_
  exact runs_update (effect_setRfOn_false hm.field) h

/-- The reset line driven, and the hold time (R205, R206). -/
theorem effect_pulse {l : Level} (hm : may.Pulses) (hp : G → s.phase = .op) (hc : G → s.cs = false) :
    Effect G may s ((s.setRst l).settle .resetHold) :=
  (effect_setRst hm hp hc).trans (effect_settle fun hG h => by simp [hc hG] at h)

theorem runs_resetPeer (hc : G → s.cs = false) (hp : G → s.phase = .op) (hf : may.field = true) (hm : may.Pulses) :
    Proc.Runs G may resetPeer s := by
  refine Proc.Runs.update (effect_setRfOn_false hf) ?_
  refine Proc.Runs.update (effect_pulse (s := s.setRfOn false) hm hp hc) ?_
  refine Proc.Runs.update (effect_pulse (s := ((s.setRfOn false).setRst .low).settle .resetHold) hm hp hc) ?_
  refine (runs_waitIrq (s := ((((s.setRfOn false).setRst .low).settle .resetHold).setRst .high).settle .resetHold)
    .idle s.params.resetPollLimit ⟨hm.regs 2, hm.clears⟩ hc (Nat.le_max_right _ _)).bind fun _ _ _ h => ?_
  refine (runs_clearIrqStatus _ ⟨hm.regs 2, hm.clears⟩ h).bind fun _ _ _ h => ?_
  exact runs_update (effect_setInitialized hm.reset) h

/-- What a tag command changes (R221): what `SendData` and `ReadData` change, IRQ-Status, and what is known of RX-Status. -/
structure May.Tags (may : May) : Prop where
  sends : may.Sends
  data : may.data = true
  receive : may.receive = true
  irq : may.Clears
  rxStatus : may.regs 0x13 = true

theorem parseResponse_late (bs : List Byte) : parseResponse bs ≠ .error .outOfRange := by
  unfold parseResponse
  split
  · simp
  · split
    · split <;> simp
    · simp

theorem begins_issueTagCommand (req : List Byte) (parser : List Byte → Except OpError Value)
    (hp : ∀ bs, parser bs ≠ .error .outOfRange) (hc : G → s.cs = false) (hm : may.Tags) :
    Proc.Begins G may (issueTagCommand req parser) s :=
  (begins_sendData _ _ hm.sends hc).bind fun _ x _ h =>
    Proc.Runs.update (effect_settle fun hG hcs => by simp [h hG] at hcs) <|
      (runs_getIrqStatus (s := x.settle .sofSettle) hm.irq h).bind fun _ _ _ h =>
        (runs_require _ _ (by simp) h).bind fun _ _ _ h =>
          (runs_readRegister (a := PeerRegister.rxStatus.addr) (fun _ => hm.rxStatus) (by simp [PeerRegister.addr])
              h).bind fun _ _ _ h =>
            (runs_readData _ h hm.data hm.receive).bind fun _ _ _ h =>
              (runs_getIrqStatus hm.irq h).bind fun _ _ _ h =>
                (runs_require _ _ (by simp) h).bind fun _ _ _ h =>
                  (runs_fromParser _ (parseResponse_late _) h).bind fun _ _ _ h =>
                    (runs_fromParser _ (hp _) h).bind fun _ _ _ h =>
                      (runs_clearIrqStatus _ hm.irq h).bind fun _ _ _ h => runs_pure _ h

theorem parsePayload_late (bs : List Byte) : parsePayload bs ≠ .error .outOfRange := by simp [parsePayload]

theorem parseInventory_late (bs : List Byte) : parseInventory bs ≠ .error .outOfRange := by
  unfold parseInventory; split <;> simp

theorem parseBlock_late (n : Nat) (bs : List Byte) : parseBlock n bs ≠ .error .outOfRange := by
  unfold parseBlock; split <;> simp

theorem takeField_late (c : Bool) (bs : List Byte) : takeField c bs ≠ .error .outOfRange := by
  unfold takeField
  split
  · split <;> simp
  · simp

theorem takeMemorySize_late (c : Bool) (bs : List Byte) : takeMemorySize c bs ≠ .error .outOfRange := by
  unfold takeMemorySize
  split
  · split <;> simp
  · simp

theorem parseInfoFields_late (info : Byte) (bs : List Byte) : parseInfoFields info bs ≠ .error .outOfRange := by
  unfold parseInfoFields
  split
  · next h => exact fun he => takeField_late _ _ (h.trans (congrArg _ (Except.error.inj he)))
  split
  · next h => exact fun he => takeField_late _ _ (h.trans (congrArg _ (Except.error.inj he)))
  split
  · next h => exact fun he => takeMemorySize_late _ _ (h.trans (congrArg _ (Except.error.inj he)))
  split
  · next h => exact fun he => takeField_late _ _ (h.trans (congrArg _ (Except.error.inj he)))
  · simp

theorem parseSystemInfo_late (bs : List Byte) : parseSystemInfo bs ≠ .error .outOfRange := by
  unfold parseSystemInfo
  split
  · simp
  · split
    · simp
    · split
      · next h => exact fun he => parseInfoFields_late _ _ (h.trans (congrArg _ (Except.error.inj he)))
      · simp

theorem runs_setupRf (hc : G → s.cs = false) (hm : may.Switches) (hp : may.profile = true) (h0 : may.regs 0 = true)
    (hi : G → s.initialized = true) : Proc.Runs G may setupRf s :=
  (runs_loadRfConfig _ _ hp hc).bind fun _ _ ht h =>
    (runs_setRfOn h hm fun hG => ht.booted (hi hG)).bind fun _ _ _ h =>
      (runs_writeRegisterAnd (a := PeerRegister.systemConfig.addr) _ (may_systemConfig h0) h).bind fun _ _ _ h =>
        runs_writeRegisterOr (a := PeerRegister.systemConfig.addr) _ (may_systemConfig h0) h

end Sys2Proof.Machine
end

