-- ==== Sys2Proof/Laws/Exec.lean ====
section
/-! SUPPORT. How an instruction can end, said once for all of them: an entry fault, or an end of its procedure with the
effect that the instruction may have. -/

namespace Sys2Proof.Machine

variable {G : Prop} {may : May} {s t u : State}

/-- How a host operation begun in `s` after the entry check of `g` ends in `t`: a fault of the entry check (R289), a normal
return, `OutOfRange` before anything else (R282), an abort (R286), or a controller fault of a transfer (R290). -/
inductive Ending (G : Prop) (may : May) (g : Gate) (s t : State) : Prop where
  | entry (f : FaultKind) (hf : s.entryFault g = some f) (h : t = s.takeFault f)
  | ok (u : State) (v : Value) (he : Effect G may (s.goto .op) u) (hc : G → u.cs = false) (h : t = u.finish v)
  | outOfRange (h : t = (s.goto .op).abort .outOfRange)
  | err (u : State) (e : OpError) (hn : e ≠ .outOfRange) (he : Effect G may (s.goto .op) u) (h : t = u.abort e)
  | halt (u : State) (f : FaultKind) (hf : f = .oversizedRead ∨ f = .transportPrecondition)
      (he : Effect G may (s.goto .op) u) (h : t = u.takeFault f)

theorem runOperation_cases {g : Gate} {body : Proc Value} (s : State)
    (h : s.entryFault g = none → Proc.Begins G may body (s.goto .op)) :
    (∃ t, runOperation g body s = .next t ∧ s.phase = .idle ∧ Ending G may g s t) ∨
      (runOperation g body s = .fault .halted ∧ s.phase = .halted) ∨
      (runOperation g body s = .fault .operationInProgress ∧ s.phase ≠ .halted ∧ s.phase ≠ .idle) := by
  unfold runOperation
  split
  · next hp => exact .inr (.inl ⟨rfl, hp⟩)
  · next hp =>
    split
    · next hi =>
      left
      cases hf : s.entryFault g with
      | some f => exact ⟨_, rfl, hi, .entry f hf rfl⟩
      | none =>
        have hr := h hf
        unfold Proc.Begins Proc.Holds at hr
        revert hr
        cases body (s.goto .op) with
        | ok v u => exact fun hr => ⟨_, rfl, hi, .ok u v hr.1 hr.2 rfl⟩
        | error e u =>
          rintro (⟨h1, -, h3⟩ | ⟨rfl, rfl⟩)
          · cases e with
            | err e => exact ⟨_, rfl, hi, .err u e (by simpa [Stop.late] using h3) h1 rfl⟩
            | halt f =>
              refine ⟨_, rfl, hi, .halt u f ?_ h1 rfl⟩
              cases f with
              | oversizedRead => exact .inl rfl
              | transportPrecondition => exact .inr rfl
              | bootOrder => cases h3
              | rfNotOn => cases h3
            | stuck r => cases h3
          · exact ⟨_, rfl, hi, .outOfRange rfl⟩
    · next hi => exact .inr (.inr ⟨rfl, hp, hi⟩)

/-- An operation after the entry check of a gate other than `cold` finds a completed `Reset` (R289). -/
theorem initialized_of_entry {g : Gate} (hg : g ≠ .cold) (h : s.entryFault g = none) : s.initialized = true := by
  unfold State.entryFault at h
  split at h
  · cases h
  · next hn => cases hi : s.initialized <;> simp_all

theorem begins_returning {α : Type} {p : Proc α} (f : α → Value) (h : Proc.Begins G may p s) :
    Proc.Begins G may (p >>= fun v => pure (f v)) s := h.bind fun _ _ _ h => runs_pure _ h

theorem runs_returning {α : Type} {p : Proc α} (f : α → Value) (h : Proc.Runs G may p s) :
    Proc.Begins G may (p >>= fun v => pure (f v)) s := begins_returning f h.begins

/-- Nothing beside the transport's own part of the record. -/
def May.nothing : May := ⟨false, false, false, fun _ => false, false, false, false, false, false, false⟩

/-- One peer register; IRQ-Status takes what a read answers or a clear leaves. -/
def May.register (a : Byte) : May := { May.nothing with regs := fun b => b == a.toNat, clears := a == 0x02 }

/-- Everything the peer holds. -/
def May.held : May :=
  { May.nothing with
    regs := fun _ => true, eeprom := true, transmit := true, receive := true, profile := true, command := true,
    clears := true }

/-- What a write to address `a` that changes register `b` may change: at an unnamed address anything (R62). It clears a flag only
where `a` is IRQ-Clear (R295). -/
def May.write (a b : Byte) : May :=
  if namedAddress a = true then { May.register b with clears := a == addrIrqClear } else .held

/-- What `SendData` may change (R167). -/
def May.send : May := { May.nothing with regs := fun b => b == 0 || b == 0x1D, transmit := true }

/-- What a tag command may change (R221). -/
def May.tag : May :=
  { May.nothing with
    regs := fun b => b == 0 || b == 2 || b == 0x13 || b == 0x1D, transmit := true, receive := true, data := true,
    clears := true }

/-- What an instruction may change beside the transport's own part of the record. -/
def mayOf : Instr → May
  | .cmdWriteRegister a _ => .write a (writtenRegister a)
  | .cmdWriteRegisterOrMask a _ => .write a a
  | .cmdWriteRegisterAndMask a _ => .write a a
  | .cmdReadRegister a => .register a
  | .cmdReadEeprom _ _ => { May.nothing with receive := true }
  | .cmdSendData _ _ => { May.nothing with transmit := true }
  | .cmdReadData _ => { May.nothing with data := true, receive := true }
  | .cmdLoadRfConfig _ _ => { May.nothing with profile := true }
  | .cmdRfOn => { May.nothing with command := true }
  | .cmdRfOff => { May.nothing with command := true }
  | .tagInventory => .tag
  | .tagStayQuiet _ _ => .nothing
  | .tagReadSingleBlock _ _ => .tag
  | .tagWriteSingleBlock _ _ _ => .tag
  | .tagLockBlock _ _ => .nothing
  | .tagReadMultipleBlocks _ _ => .nothing
  | .tagWriteMultipleBlock _ _ => .nothing
  | .tagSelect _ _ => .nothing
  | .tagResetToReady _ _ => .nothing
  | .tagWriteAfi _ _ => .nothing
  | .tagLockAfi _ _ => .nothing
  | .tagWriteDsfid _ _ => .nothing
  | .tagLockDsfid _ _ => .nothing
  | .tagGetSystemInfo _ => .tag
  | .tagGetMultipleBlockSecurityStatus _ _ => .nothing
  | .writeReg a _ => .write a (writtenRegister a)
  | .writeRegOr a _ => .write a a
  | .writeRegAnd a _ => .write a a
  | .readReg a => .register a
  | .readEeprom _ _ => { May.nothing with receive := true }
  | .sendData _ _ => .send
  | .readData _ => { May.nothing with data := true, receive := true }
  | .loadRfConfig _ _ => { May.nothing with profile := true }
  | .rfOn => { May.nothing with field := true, command := true, regs := fun b => b == 2, clears := true }
  | .rfOff => { May.nothing with field := true, command := true, regs := fun b => b == 2, clears := true }
  | .getIrq => .register addrIrqStatus
  | .clearIrq _ => .register addrIrqStatus
  | .getTs => .register PeerRegister.rfStatus.addr
  | .reset => { May.held with eeprom := false, field := true, reset := true }
  | .inventory => .tag
  | .readBlock _ _ _ => .tag
  | .writeBlock _ _ _ => .tag
  | .getSysinfo _ => .tag
  | .setupRf =>
    { May.nothing with
      field := true
      command := true
      profile := true
      regs := fun b => b == 0 || b == 2
      clears := true }

/-- What an instruction asks for on entry (R289). -/
def gateOf (i : Instr) : Gate := if i = .reset then .cold else if i.needsRf = true then .rfConfirmed else .booted

theorem may_register (a : Byte) : (May.register a).regs a.toNat = true := by simp [May.register]

theorem may_register_clears (a : Byte) (h : a = 0x02) : (May.register a).clears = true := by simp [May.register, h]

theorem may_write (a b : Byte) : (May.write a b).Writes a b := by
  unfold May.write
  split
  · next h => exact .inl ⟨h, may_register b, fun ha => by simp [ha]⟩
  · exact .inr ⟨fun _ => rfl, rfl, rfl, rfl, rfl, rfl, rfl⟩

@[simp] theorem May.write_reset (a b : Byte) : (May.write a b).reset = false := by unfold May.write; split <;> rfl
@[simp] theorem May.write_field (a b : Byte) : (May.write a b).field = false := by unfold May.write; split <;> rfl
@[simp] theorem May.write_data (a b : Byte) : (May.write a b).data = false := by unfold May.write; split <;> rfl

theorem may_send : May.send.Sends := ⟨rfl, rfl, rfl⟩

theorem may_tag : May.tag.Tags := ⟨⟨rfl, rfl, rfl⟩, rfl, rfl, ⟨rfl, rfl⟩, rfl⟩

/-- Every instruction but the eleven that are refused by name ends as `Ending` says, or is not admitted (R289, R316). -/
theorem exec_cases (i : Instr) (s : State) (hi : i.neverBuilt = false) :
    (∃ t, exec i s = .next t ∧ s.phase = .idle ∧ Ending (s.cs = false) (mayOf i) (gateOf i) s t) ∨
      (exec i s = .fault .halted ∧ s.phase = .halted) ∨
      (exec i s = .fault .operationInProgress ∧ s.phase ≠ .halted ∧ s.phase ≠ .idle) := by
  have hc : s.cs = false → (s.goto .op).cs = false := id
  have hb : ∀ {g : Gate}, g ≠ .cold → s.entryFault g = none → s.cs = false → (s.goto .op).initialized = true :=
    fun hg h _ => initialized_of_entry hg h
  cases i with
  | cmdWriteRegister a v => exact runOperation_cases s fun _ => runs_returning _ (runs_writeRegister v (may_write _ _) hc)
  | cmdWriteRegisterOrMask a m =>
    exact runOperation_cases s fun _ => runs_returning _ (runs_writeRegisterOr m (may_write _ _) hc)
  | cmdWriteRegisterAndMask a m =>
    exact runOperation_cases s fun _ => runs_returning _ (runs_writeRegisterAnd m (may_write _ _) hc)
  | cmdReadRegister a =>
    exact runOperation_cases s fun _ =>
      runs_returning _ (runs_readRegister (fun _ => may_register a) (may_register_clears a) hc)
  | cmdReadEeprom e l => exact runOperation_cases s fun _ => begins_returning _ (begins_readEeprom e l hc rfl)
  | cmdSendData b p => exact runOperation_cases s fun _ => runs_returning _ (runs_sendFrame (sendable_sendData rfl) hc)
  | cmdReadData n => exact runOperation_cases s fun _ => runs_returning _ (runs_fetchData n hc rfl rfl)
  | cmdLoadRfConfig t r => exact runOperation_cases s fun _ => runs_returning _ (runs_loadRfConfig t r rfl hc)
  | cmdRfOn => exact runOperation_cases s fun _ => runs_returning _ (runs_sendFrame (sendable_rfOn rfl) hc)
  | cmdRfOff => exact runOperation_cases s fun _ => runs_returning _ (runs_sendFrame (sendable_rfOff rfl) hc)
  | tagInventory => exact runOperation_cases s fun _ => begins_issueTagCommand _ _ parsePayload_late hc may_tag
  | tagReadSingleBlock u b => exact runOperation_cases s fun _ => begins_issueTagCommand _ _ parsePayload_late hc may_tag
  | tagWriteSingleBlock u b d => exact runOperation_cases s fun _ => begins_issueTagCommand _ _ parsePayload_late hc may_tag
  | tagGetSystemInfo u => exact runOperation_cases s fun _ => begins_issueTagCommand _ _ parsePayload_late hc may_tag
  | writeReg a v => exact runOperation_cases s fun _ => runs_returning _ (runs_writeRegister v (may_write _ _) hc)
  | writeRegOr a m => exact runOperation_cases s fun _ => runs_returning _ (runs_writeRegisterOr m (may_write _ _) hc)
  | writeRegAnd a m => exact runOperation_cases s fun _ => runs_returning _ (runs_writeRegisterAnd m (may_write _ _) hc)
  | readReg a =>
    exact runOperation_cases s fun _ =>
      runs_returning _ (runs_readRegister (fun _ => may_register a) (may_register_clears a) hc)
  | readEeprom a l => exact runOperation_cases s fun _ => begins_returning _ (begins_readEeprom a l hc rfl)
  | sendData p b => exact runOperation_cases s fun _ => begins_returning _ (begins_sendData p b may_send hc)
  | readData n => exact runOperation_cases s fun _ => runs_returning _ (runs_readData n hc rfl rfl)
  | loadRfConfig t r => exact runOperation_cases s fun _ => runs_returning _ (runs_loadRfConfig t r rfl hc)
  | rfOn => exact runOperation_cases s fun h => runs_returning _ (runs_setRfOn hc ⟨rfl, rfl, ⟨rfl, rfl⟩⟩ (hb (by simp) h))
  | rfOff => exact runOperation_cases s fun _ => runs_returning _ (runs_setRfOff hc ⟨rfl, rfl, ⟨rfl, rfl⟩⟩)
  | getIrq => exact runOperation_cases s fun _ => runs_returning _ (runs_getIrqStatus ⟨rfl, rfl⟩ hc)
  | clearIrq m => exact runOperation_cases s fun _ => runs_returning _ (runs_clearIrqStatus m ⟨rfl, rfl⟩ hc)
  | getTs => exact runOperation_cases s fun _ => runs_returning _ (runs_getTransceiveState rfl hc)
  | reset =>
    exact runOperation_cases (g := .cold) (body := returningUnit resetPeer) s fun _ =>
      runs_returning (fun _ => .unit) (runs_resetPeer hc (fun _ => rfl) rfl ⟨rfl, fun _ => rfl, rfl, rfl, rfl, rfl, rfl⟩)
  | inventory => exact runOperation_cases s fun _ => begins_issueTagCommand _ _ parseInventory_late hc may_tag
  | readBlock u b n => exact runOperation_cases s fun _ => begins_issueTagCommand _ _ (parseBlock_late n) hc may_tag
  | writeBlock u b d => exact runOperation_cases s fun _ => begins_issueTagCommand _ _ (by simp) hc may_tag
  | getSysinfo u => exact runOperation_cases s fun _ => begins_issueTagCommand _ _ parseSystemInfo_late hc may_tag
  | setupRf =>
    exact runOperation_cases s fun h => runs_returning _ (runs_setupRf hc ⟨rfl, rfl, ⟨rfl, rfl⟩⟩ rfl rfl (hb (by simp) h))
  | _ => cases hi

/-- The eleven tag codes that are never built are refused by name (R241 to R251). -/
theorem exec_neverBuilt (i : Instr) (s : State) (hi : i.neverBuilt = true) :
    ∃ c : TagCode, exec i s = .refused (.tagCodeNeverBuilt c.code) := by
  cases i <;> first | exact ⟨_, rfl⟩ | cases hi

/-- A next state of an instruction comes from an idle controller and is one of `Ending`. -/
theorem exec_ending {i : Instr} (h : exec i s = .next t) : s.phase = .idle ∧ Ending (s.cs = false) (mayOf i) (gateOf i) s t := by
  cases hi : i.neverBuilt with
  | true =>
    obtain ⟨c, hc⟩ := exec_neverBuilt i s hi
    rw [hc] at h; cases h
  | false =>
    rcases exec_cases i s hi with ⟨t', ht, hp, he⟩ | ⟨hf, -⟩ | ⟨hf, -⟩
    · rw [ht] at h; cases h; exact ⟨hp, he⟩
    · rw [hf] at h; cases h
    · rw [hf] at h; cases h

end Sys2Proof.Machine
end

