-- ==== Sys2Proof/Laws/Invariant.lean ====
section
/-! SUPPORT. What the end of an instruction leaves: its frame, its outcome or fault, and the invariant. -/

namespace Sys2Proof.Machine

variable {G : Prop} {may : May} {g : Gate} {s t u : State}

/-- The frame of an instruction: everything that `may` does not name is unchanged. -/
structure Frame (may : May) (s t : State) : Prop where
  params : t.params = s.params
  queue : t.queue = s.queue
  quiet : s.peer.Quiet → t.peer.Quiet
  rst : may.reset = false → t.rst = s.rst
  levels : may.reset = false → resetLevels t.wire = resetLevels s.wire
  within : s.peer.Quiet → Within may s.peer.chip t.peer.chip
  initialized : may.reset = false → t.initialized = s.initialized
  booted : s.initialized = true → t.initialized = true
  rfOn : may.field = false → t.rfOn = s.rfOn
  scratch : may.data = false → t.scratch = s.scratch
  valid : may.data = false → t.scratchValid = s.scratchValid

theorem Effect.frame (h : Effect G may s t) : Frame may s t :=
  ⟨h.params, h.queue, h.quiet, h.rst, h.levels, h.within, h.initialized, h.booted, h.rfOn, h.scratch, h.valid⟩

theorem Frame.trans (h : Frame may s t) (h' : Frame may t u) : Frame may s u where
  params := h'.params.trans h.params
  queue := h'.queue.trans h.queue
  quiet hq := h'.quiet (h.quiet hq)
  rst hm := (h'.rst hm).trans (h.rst hm)
  levels hm := (h'.levels hm).trans (h.levels hm)
  within hq := (h.within hq).trans (h'.within (h.quiet hq))
  initialized hm := (h'.initialized hm).trans (h.initialized hm)
  booted hs := h'.booted (h.booted hs)
  rfOn hm := (h'.rfOn hm).trans (h.rfOn hm)
  scratch hm := (h'.scratch hm).trans (h.scratch hm)
  valid hm := (h'.valid hm).trans (h.valid hm)

theorem frame_deliver (o : OpOutcome) : Frame may s (s.deliver o) := by constructor <;> simp [Within.refl]

theorem frame_goto (p : Phase) : Frame may s (s.goto p) := (effect_goto (G := False) p).frame

theorem frame_clearCounters : Frame may s s.clearCounters := (effect_clearCounters (G := False)).frame

theorem frame_finish (v : Value) : Frame may s (s.finish v) :=
  ((frame_goto .idle).trans frame_clearCounters).trans (frame_deliver _)

theorem frame_abort (e : OpError) : Frame may s (s.abort e) :=
  (effect_abortTo (G := False) .idle).frame.trans (frame_deliver _)

theorem frame_takeFault (f : FaultKind) : Frame may s (s.takeFault f) := by
  have h1 : Frame may s { s with faults := s.faults.insert f } := by constructor <;> simp [Within.refl]
  exact h1.trans ((effect_releaseCs (G := False)).trans (effect_goto .halted)).frame

theorem Ending.frame (h : Ending G may g s t) : Frame may s t := by
  cases h with
  | entry f _ h => rw [h]; exact frame_takeFault f
  | ok u v he _ h => rw [h]; exact ((frame_goto .op).trans he.frame).trans (frame_finish v)
  | outOfRange h => rw [h]; exact (frame_goto .op).trans (frame_abort _)
  | err u e _ he h => rw [h]; exact ((frame_goto .op).trans he.frame).trans (frame_abort e)
  | halt u f _ he h => rw [h]; exact ((frame_goto .op).trans he.frame).trans (frame_takeFault f)

@[simp] theorem State.takeFault_phase (s : State) (f : FaultKind) : (s.takeFault f).phase = .halted := rfl
@[simp] theorem State.takeFault_cs (s : State) (f : FaultKind) : (s.takeFault f).cs = false := by
  simp [State.takeFault]
@[simp] theorem State.takeFault_faults (s : State) (f : FaultKind) :
    (s.takeFault f).faults = s.faults.insert f := by
  unfold State.takeFault State.releaseCs; split <;> rfl
@[simp] theorem State.takeFault_delivered (s : State) (f : FaultKind) : (s.takeFault f).delivered = s.delivered := by
  unfold State.takeFault State.releaseCs; split <;> rfl
@[simp] theorem State.abort_phase (s : State) (e : OpError) : (s.abort e).phase = .idle := by simp [State.abort]
@[simp] theorem State.abort_cs (s : State) (e : OpError) : (s.abort e).cs = false := by simp [State.abort]
@[simp] theorem State.releaseCs_faults (s : State) : s.releaseCs.faults = s.faults := by
  unfold State.releaseCs; split <;> simp
@[simp] theorem State.releaseCs_delivered (s : State) : s.releaseCs.delivered = s.delivered := by
  unfold State.releaseCs; split <;> simp
@[simp] theorem State.abort_faults (s : State) (e : OpError) : (s.abort e).faults = s.faults := by
  simp [State.abort, State.abortTo]
@[simp] theorem State.abort_delivered (s : State) (e : OpError) : (s.abort e).delivered = s.delivered ++ [.err e] := by
  simp [State.abort, State.abortTo]

/-- An instruction ends IDLE with one outcome more and no new fault, or HALTED with one fault and no outcome (R280, R290). -/
theorem Ending.outcome (h : Ending G may g s t) :
    (t.phase = .idle ∧ t.faults = s.faults ∧ ∃ o, t.delivered = s.delivered ++ [o]) ∨
      (t.phase = .halted ∧ t.cs = false ∧ t.delivered = s.delivered ∧ ∃ f, t.faults = s.faults.insert f) := by
  cases h with
  | entry f _ h => subst h; exact .inr ⟨by simp, by simp, by simp, f, by simp⟩
  | ok u v he _ h =>
    subst h
    exact .inl ⟨rfl, he.faults, .ok v, by simpa [State.finish] using he.delivered⟩
  | outOfRange h => subst h; exact .inl ⟨by simp, by simp, .err .outOfRange, by simp⟩
  | err u e _ he h =>
    subst h
    exact .inl ⟨by simp, by simpa using he.faults, .err e, by simpa using he.delivered⟩
  | halt u f _ he h =>
    subst h
    exact .inr ⟨by simp, by simp, by simpa using he.delivered, f, by simpa using congrArg (·.insert f) he.faults⟩

/-! ## The invariant -/

/-- The parts of soundness that chip-select and the phase have no part in. -/
structure State.Body (s : State) : Prop where
  data : s.DataOk
  polls_le : s.polls ≤ Config.busyPollLimit
  irqPolls_le : s.irqPolls ≤ max s.params.irqPollLimit s.params.resetPollLimit
  xi_le : s.xi ≤ Config.rxBufferSize
  regs_rising : cellsRising s.peer.chip.regs = true
  rf_initialized : s.rfOn = true → s.initialized = true
  wire_ok : ∀ e ∈ s.wire, e.ok = true

theorem State.Sound.body (h : s.Sound) : s.Body :=
  ⟨⟨h.scratch_wf, h.valid_le, h.valid_written⟩, h.polls_le, h.irqPolls_le, h.xi_le, h.regs_rising, h.rf_initialized,
    h.wire_ok⟩

theorem State.Body.sound (h : s.Body) (hc : s.cs = false) : s.Sound :=
  ⟨h.data.1, h.data.2.1, h.data.2.2, h.polls_le, h.irqPolls_le, h.xi_le, h.regs_rising, h.rf_initialized,
    fun h => by simp [hc] at h, h.wire_ok⟩

theorem Effect.body (h : Effect G may s t) (hG : G) (hs : s.Body) : t.Body where
  data := h.data hs.data
  polls_le := h.polls hs.polls_le
  irqPolls_le := by rw [h.params]; exact h.irqPolls hs.irqPolls_le
  xi_le := h.xi hs.xi_le
  regs_rising := h.rising hs.regs_rising
  rf_initialized := h.rf hG hs.rf_initialized
  wire_ok e he := by
    obtain ⟨es, h1, h2⟩ := h.wire
    rw [h1] at he
    rcases List.mem_append.1 he with he | he
    · exact hs.wire_ok e he
    · exact h2 hG e he

theorem body_deliver (o : OpOutcome) (hs : s.Body) : (s.deliver o).Body :=
  ⟨hs.data, hs.polls_le, hs.irqPolls_le, hs.xi_le, hs.regs_rising, hs.rf_initialized, hs.wire_ok⟩

theorem body_finish (v : Value) (hs : s.Body) : (s.finish v).Body :=
  body_deliver _ (((effect_goto .idle).trans effect_clearCounters : Effect True .nothing _ _).body trivial hs)

theorem body_abort (e : OpError) (hs : s.Body) : (s.abort e).Body :=
  body_deliver _ ((effect_abortTo .idle : Effect True .nothing _ _).body trivial hs)

theorem body_takeFault (f : FaultKind) (hs : s.Body) : (s.takeFault f).Body := by
  have h1 : State.Body { s with faults := s.faults.insert f } :=
    ⟨hs.data, hs.polls_le, hs.irqPolls_le, hs.xi_le, hs.regs_rising, hs.rf_initialized, hs.wire_ok⟩
  exact (effect_releaseCs.trans (effect_goto .halted) : Effect True .nothing _ _).body trivial h1

theorem FaultSet.any_insert (fs : FaultSet) (f : FaultKind) : (fs.insert f).any = true := by
  cases f <;> simp [FaultSet.insert, FaultSet.any]

theorem State.clearCounters_zero (s : State) :
    s.clearCounters.polls = 0 ∧ s.clearCounters.irqPolls = 0 ∧ s.clearCounters.xi = 0 := ⟨rfl, rfl, rfl⟩

/-- Every end of an instruction begun in a state of the invariant has the invariant. -/
theorem Ending.inv (h : Ending (s.cs = false) may g s t) (hs : s.Inv) (hi : s.phase = .idle) : t.Inv := by
  have hb := hs.sound.body
  have hg : (s.goto .op).Body := (effect_goto .op : Effect True .nothing _ _).body trivial hb
  have hf : s.faults.any = false := by
    cases h : s.faults.any with
    | false => rfl
    | true => exact absurd (hi.symm.trans (hs.halted_iff_fault.2 h)) (by simp)
  cases h with
  | entry f _ h =>
    subst h
    exact ⟨(body_takeFault f hb).sound (by simp), by simp, .inr rfl, by simp, by simp [FaultSet.any_insert]⟩
  | ok u v he hc h =>
    subst h
    have hcu : (u.finish v).cs = false := hc hs.cs_released
    refine ⟨(body_finish v (he.body hs.cs_released hg)).sound hcu, hcu, .inl rfl, fun _ => ⟨rfl, rfl, rfl⟩, ?_⟩
    have : (u.finish v).faults = s.faults := he.faults
    rw [this, hf]
    simp [State.finish]
  | outOfRange h =>
    subst h
    refine ⟨(body_abort _ hg).sound (by simp), by simp, .inl (by simp), fun _ => ⟨rfl, rfl, rfl⟩, ?_⟩
    simp [hf]
  | err u e _ he h =>
    subst h
    refine ⟨(body_abort e (he.body hs.cs_released hg)).sound (by simp), by simp, .inl (by simp),
      fun _ => ⟨rfl, rfl, rfl⟩, ?_⟩
    have : (u.abort e).faults = s.faults := by simpa using he.faults
    rw [this, hf]
    simp
  | halt u f _ he h =>
    subst h
    exact ⟨(body_takeFault f (he.body hs.cs_released hg)).sound (by simp), by simp, .inr rfl, by simp,
      by simp [FaultSet.any_insert]⟩

end Sys2Proof.Machine
end

