-- ==== Sys2Proof/Laws/Complete.lean ====
section
/-! SUPPORT. Runs against a peer that answers: one exchange, event by event, and the calculus of runs that end normally with
the value, the peer and the frames that a rule gives. -/

namespace Sys2Proof.Machine

variable {s s1 s2 : State} {α β : Type} {Q : Prop} {b : List Bool} {r : List Reply} {c : Chip}

/-! ## The trace of frames -/

theorem sentFrames_append (w es : List Event) : sentFrames (w ++ es) = es.foldl addToFrames (sentFrames w) :=
  List.foldl_append

/-- An event other than a byte exchange leaves the frames alone. -/
theorem addToFrames_other (fs : List (List Byte)) (e : Event) (h : ∀ o i, e.action ≠ .xfer o i) : addToFrames fs e = fs := by
  unfold addToFrames
  split
  · next ho => exact absurd ho (h _ _)
  · rfl

theorem quiet_waitEvents (p : Phase) (cs : Bool) (xi : Nat) (target : Bool) (k : Nat) (fs : List (List Byte)) :
    (waitEvents p cs xi target k).foldl addToFrames fs = fs := by
  induction k with
  | zero => exact addToFrames_other _ _ (by simp)
  | succ k ih =>
    rw [waitEvents, List.foldl_cons, List.foldl_cons, addToFrames_other _ _ (by simp), addToFrames_other _ _ (by simp)]
    exact ih

theorem quiet_missEvents (p : Phase) (cs : Bool) (xi : Nat) (target : Bool) (n : Nat) (fs : List (List Byte)) :
    (missEvents p cs xi target n).foldl addToFrames fs = fs := by
  induction n with
  | zero => rfl
  | succ n ih =>
    cases n with
    | zero => exact addToFrames_other _ _ (by simp)
    | succ n =>
      rw [missEvents, List.foldl_cons, List.foldl_cons, addToFrames_other _ _ (by simp), addToFrames_other _ _ (by simp)]
      exact ih

theorem appendToLast_append (b : Byte) (fs : List (List Byte)) (f : List Byte) :
    appendToLast b (fs ++ [f]) = fs ++ [f ++ [b]] := by
  induction fs with
  | nil => rfl
  | cons g fs ih =>
    cases fs with
    | nil => rfl
    | cons h fs => simpa [appendToLast] using ih

theorem foldl_sendEvents (xs : List (Byte × Byte)) (xi : Nat) (fs : List (List Byte)) (f : List Byte) (h : xi ≠ 0) :
    (sendEvents .tSend true xi xs).foldl addToFrames (fs ++ [f]) = fs ++ [f ++ xs.map Prod.fst] := by
  induction xs generalizing xi f with
  | nil => simp [sendEvents]
  | cons x xs ih =>
    rw [sendEvents, List.foldl_cons]
    have : addToFrames (fs ++ [f]) ⟨.tSend, true, xi, .xfer x.1 x.2⟩ = fs ++ [f ++ [x.1]] := by
      simp only [addToFrames, h, if_false]
      exact appendToLast_append x.1 fs f
    rw [this, ih (xi + 1) _ (by omega)]
    simp

/-- The bytes sent in one command transaction are one frame of the trace. -/
theorem foldl_sendFrame (xs : List (Byte × Byte)) (fs : List (List Byte)) (h : xs ≠ []) :
    (sendEvents .tSend true 0 xs).foldl addToFrames fs = fs ++ [xs.map Prod.fst] := by
  cases xs with
  | nil => exact absurd rfl h
  | cons x xs =>
    rw [sendEvents, List.foldl_cons]
    have : addToFrames fs ⟨.tSend, true, 0, .xfer x.1 x.2⟩ = fs ++ [[x.1]] := rfl
    rw [this, foldl_sendEvents xs 1 fs [x.1] (by omega)]
    rfl

theorem quiet_receiveEvents (cs : Bool) (bs : List Byte) (xi : Nat) (fs : List (List Byte)) :
    (receiveEvents .rRecv cs xi bs).foldl addToFrames fs = fs := by
  induction bs generalizing xi with
  | nil => rfl
  | cons b bs ih => rw [receiveEvents, List.foldl_cons]; exact ih (xi + 1)

/-- A command transaction sends its frame. -/
theorem sentFrames_command (w : List Event) (cs : Bool) (xi : Nat) (xs : List (Byte × Byte)) (k m n : Nat)
    (h : xs ≠ []) : sentFrames (w ++ commandEvents cs xi xs k m n) = sentFrames w ++ [xs.map Prod.fst] := by
  rw [sentFrames_append, commandEvents]
  simp only [List.foldl_append, quiet_waitEvents, List.foldl_cons, List.foldl_nil]
  rw [addToFrames_other (sentFrames w) _ (by simp), addToFrames_other (sentFrames w) _ (by simp), foldl_sendFrame xs _ h]
  rfl

/-- A receive transaction sends no frame. -/
theorem sentFrames_response (w : List Event) (xi : Nat) (bs : List Byte) (k : Nat) :
    sentFrames (w ++ responseEvents xi bs k) = sentFrames w := by
  rw [sentFrames_append, responseEvents]
  simp only [List.foldl_append, quiet_waitEvents, List.foldl_cons, List.foldl_nil, quiet_receiveEvents]
  rfl

/-! ## One exchange that is answered -/

theorem waitBusySent_ok {target : Bool} {frame : List Byte} {s t : State} (h : waitBusy target s = .ok () t) :
    waitBusySent target frame s = .ok () t := by
  unfold waitBusySent; rw [h]

/-- The state in which an exchange waits for "busy": the first wait met after `k` unmet samples, the frame sent. -/
def State.awaitingBusy (s : State) (k : Nat) (xs : List (Byte × Byte)) (p : Peer) : State :=
  { s with
    phase := .tWaitBusy, cs := true, polls := k + 1, xi := xs.length, peer := p
    wire := s.wire ++ waitEvents .tWaitReady s.cs s.xi false k
      ++ [⟨.tSelect, true, s.xi, .setCs true⟩, ⟨.tSelect, true, s.xi, .settle .csSettle⟩] ++ sendEvents .tSend true 0 xs }

/-- What is left of the command part once the frame has been sent. -/
def exchangeCommandRest (frame : List Byte) : Proc Unit := do
  waitBusySent true frame
  update fun s => s.release .tRelease
  update fun s => s.goto .tWaitDone
  waitBusySent false frame
  update fun s => s.setPeer (s.peer.act (·.execute frame))

/-- The command part up to the wait for "busy" (R130 steps 1 and 2). -/
theorem exchangeCommand_sends (frame : List Byte) (k : Nat) (s : State) (hk : k < Config.busyPollLimit)
    (hs : s.peer.Has Q (waitSamples false k ++ b) r c) :
    ∃ xs p, xs.map Prod.fst = frame ∧ p.Has Q b r c ∧ p.executed = s.peer.executed ∧
      exchangeCommand frame s = exchangeCommandRest frame (s.awaitingBusy k xs p) := by
  obtain ⟨p1, h1, r1⟩ := waitBusy_meets false k (s.goto .tWaitReady) hk hs
  obtain ⟨xs, p2, hx, hd, hb, hr, r2⟩ := sendBytes_run frame ((((((s.goto .tWaitReady).waited (k + 1) p1
    (waitEvents .tWaitReady s.cs s.xi false k)).select .tSelect).goto .tSend).setXi 0))
  refine ⟨xs, p2, hx, h1.elapse.elapse.drawn hd (hb.trans h1.elapse.elapse.busy) (hr.trans h1.elapse.elapse.replies),
    (hd.executed.trans (by simp [State.waited])).trans (waitBusy_drawn r1).executed, ?_⟩
  unfold exchangeCommand
  rw [update_bind_run, bind_ok r1, update_bind_run, update_bind_run]
  erw [bind_ok r2]
  rw [update_bind_run]
  simp [exchangeCommandRest, State.awaitingBusy, State.waited, State.sent, State.goto, State.select, State.setCs, State.settle,
    State.emit, State.setXi]

/-- The state in which an exchange waits for "not busy" after its command transaction. -/
def State.awaitingDone (s : State) (p : Peer) (k m : Nat) (xs : List (Byte × Byte)) : State :=
  { s with
    phase := .tWaitDone, cs := false, polls := m + 1, xi := xs.length, peer := p
    wire := s.wire ++ waitEvents .tWaitReady s.cs s.xi false k
      ++ [⟨.tSelect, true, s.xi, .setCs true⟩, ⟨.tSelect, true, s.xi, .settle .csSettle⟩] ++ sendEvents .tSend true 0 xs
      ++ waitEvents .tWaitBusy true xs.length true m
      ++ [⟨.tRelease, false, xs.length, .setCs false⟩, ⟨.tRelease, false, xs.length, .settle .csReleaseSettle⟩] }

/-- The command part up to its last wait (R130 steps 1 to 3). -/
theorem exchangeCommand_consumed (frame : List Byte) (k m : Nat) (s : State) (hk : k < Config.busyPollLimit)
    (hm : m < Config.busyPollLimit) (hs : s.peer.Has Q (waitSamples false k ++ (waitSamples true m ++ b)) r c) :
    ∃ xs p, xs.map Prod.fst = frame ∧ p.Has Q b r c ∧ p.executed = s.peer.executed ∧ exchangeCommand frame s =
      ((do
        waitBusySent false frame
        update fun s => s.setPeer (s.peer.act (·.execute frame))) : Proc Unit) (s.awaitingDone p k m xs) := by
  obtain ⟨xs, p1, hx, h1, he, r1⟩ := exchangeCommand_sends frame k s hk hs
  obtain ⟨p2, h2, r2⟩ := waitBusy_meets true m (s.awaitingBusy k xs p1) hm h1
  refine ⟨xs, p2.elapse.elapse, hx, h2.elapse.elapse, ?_, ?_⟩
  · rw [Peer.elapse_executed, Peer.elapse_executed, ← he]
    exact (waitBusy_drawn r2).executed
  rw [r1, exchangeCommandRest, bind_ok (waitBusySent_ok r2), update_bind_run, update_bind_run]
  simp [State.awaitingDone, State.awaitingBusy, State.waited, State.goto, State.release, State.setCs, State.settle, State.emit]

/-- The command part of an exchange cycle whose waits are met, with its events (R130 steps 1 to 4). -/
theorem exchangeCommand_run (frame : List Byte) (p : Pace) (s : State) (hp : p.bounded = true)
    (hs : s.peer.Has Q (p.write ++ b) r c) :
    ∃ xs q, xs.map Prod.fst = frame ∧ q.Has Q b r (c.execute frame) ∧ exchangeCommand frame s = .ok () { s with
      phase := .tWaitDone, cs := false, polls := p.done + 1, xi := frame.length, peer := q
      wire := s.wire ++ commandEvents s.cs s.xi xs p.ready p.busy p.done } := by
  simp only [Pace.bounded, Bool.and_eq_true, decide_eq_true_eq] at hp
  obtain ⟨⟨⟨h1, h2⟩, h3⟩, -⟩ := hp
  obtain ⟨xs, p1, hx, k1, -, r1⟩ := exchangeCommand_consumed frame p.ready p.busy s h1 h2 (b := waitSamples false p.done ++ b)
    (by simpa [Pace.write] using hs)
  obtain ⟨p2, k2, r2⟩ := waitBusy_meets false p.done (s.awaitingDone p1 p.ready p.busy xs) h3 k1
  refine ⟨xs, p2.act (·.execute frame), hx, k2.act fun c => c.execute frame, ?_⟩
  rw [r1, bind_ok (waitBusySent_ok r2), update_run, ← length_of_map_fst hx]
  simp [State.awaitingDone, State.waited, State.setPeer, commandEvents]

/-- The state in which an exchange waits for "not busy" after its receive transaction. -/
def State.awaitingFinish (s : State) (dst : Destination) (bs : List Byte) (p : Peer) : State :=
  { s with
    phase := .rWaitDone, cs := false, xi := bs.length, scratch := dst.stored (s.setXi 0) bs, peer := p
    wire := s.wire ++ [⟨.rSelect, true, s.xi, .setCs true⟩, ⟨.rSelect, true, s.xi, .settle .csSettle⟩]
      ++ receiveEvents .rRecv true 0 bs
      ++ [⟨.rRelease, false, bs.length, .setCs false⟩, ⟨.rRelease, false, bs.length, .settle .csReleaseSettle⟩] }

/-- The reply script `r'` answers the bytes `bs` of a receive transaction and leaves `r`, where the peer, if it was quiet at the
start (`Q`), holds `c`. -/
def Answering (Q : Prop) (c : Chip) (dst : Destination) (bs : List Byte) (r' r : List Reply) : Prop :=
  ∀ (b : List Bool) (t : State), t.xi = 0 → t.peer.Has Q b r' c →
    ∃ p, p.Has Q b r c ∧ receiveBytes dst bs.length t = .ok bs (t.read dst bs p)

/-- The script gives the bytes. -/
theorem answering_answers (dst : Destination) (bs : List Byte) (hl : bs.length ≤ Config.rxBufferSize) :
    Answering Q c dst bs (answers bs ++ r) r := fun _ t hx hs =>
  receiveBytes_answers dst bs r t (by omega) hs

/-- The script says "what the peer holds", and the bytes are what it has ready. -/
theorem answering_held (dst : Destination) (bs : List Byte) (hq : Q) (hl : bs.length ≤ Config.rxBufferSize)
    (hx : ∀ (k : Nat) (x : Byte), bs[k]? = some x → c.response[k]? = some (some x)) :
    Answering Q c dst bs (List.replicate bs.length .held ++ r) r := fun _ t h0 hs =>
  receiveBytes_held dst bs r t hq (by omega) (by simpa [h0] using hx) hs

/-- The receive part up to its wait. -/
theorem exchangeResponse_receives (frame bs : List Byte) (dst : Destination) (s : State) {r' : List Reply}
    (ha : Answering Q c dst bs r' r) (hs : s.peer.Has Q b r' c) :
    ∃ p, p.Has Q b r (c.observe frame bs) ∧ exchangeResponse frame bs.length dst s =
      ((do
        waitBusy false
        pure bs) : Proc (List Byte)) (s.awaitingFinish dst bs p) := by
  obtain ⟨p, h1, r1⟩ := ha b (((s.select .rSelect).goto .rRecv).setXi 0) rfl hs.elapse.elapse
  refine ⟨(p.answered s.peer frame bs (bs.length + 2)).elapse.elapse, (hs.answered h1 frame bs _).elapse.elapse, ?_⟩
  unfold exchangeResponse
  rw [current_bind_run, update_bind_run, update_bind_run, bind_ok r1, update_bind_run, update_bind_run, update_bind_run]
  cases dst <;>
    simp [State.awaitingFinish, State.read, State.goto, State.release, State.select, State.setCs, State.settle, State.emit,
      State.setXi, State.setPeer, Destination.stored]

/-- The receive part of an exchange cycle that is answered, with its events (R130 step 6). -/
theorem exchangeResponse_run (frame bs : List Byte) (dst : Destination) (k : Nat) (s : State) {r' : List Reply}
    (hk : k < Config.busyPollLimit) (ha : Answering Q c dst bs r' r) (hs : s.peer.Has Q (waitSamples false k ++ b) r' c) :
    ∃ q, q.Has Q b r (c.observe frame bs) ∧ exchangeResponse frame bs.length dst s = .ok bs { s with
      phase := .rWaitDone, cs := false, polls := k + 1, xi := bs.length, scratch := dst.stored (s.setXi 0) bs, peer := q
      wire := s.wire ++ responseEvents s.xi bs k } := by
  obtain ⟨p, h1, r1⟩ := exchangeResponse_receives frame bs dst s ha hs
  obtain ⟨q, h2, r2⟩ := waitBusy_meets false k (s.awaitingFinish dst bs p) hk h1
  refine ⟨q, h2, ?_⟩
  rw [r1, bind_ok r2, pure_run]
  simp [State.awaitingFinish, State.waited, responseEvents]

/-- The state after a stretch that ends outside any transaction. -/
def State.after (s : State) (c : Nat × Nat × Nat) (p : Peer) (w : List Event) : State :=
  { s with phase := .op, cs := false, polls := c.1, irqPolls := c.2.1, xi := c.2.2, peer := p, wire := w }

@[simp] theorem State.after_after (s : State) (c d : Nat × Nat × Nat) (p q : Peer) (w v : List Event) :
    (s.after c p w).after d q v = s.after d q v := rfl
@[simp] theorem State.after_peer (s : State) (c : Nat × Nat × Nat) (p : Peer) (w : List Event) :
    (s.after c p w).peer = p := rfl
@[simp] theorem State.after_wire (s : State) (c : Nat × Nat × Nat) (p : Peer) (w : List Event) :
    (s.after c p w).wire = w := rfl
@[simp] theorem State.after_params (s : State) (c : Nat × Nat × Nat) (p : Peer) (w : List Event) :
    (s.after c p w).params = s.params := rfl

/-- A frame and a receive length within the bounds of R130. -/
theorem exchange_admitted {frame : List Byte} {n : Nat} (hf : frame ≠ []) (hlen : frame.length ≤ Config.maxFrame)
    (hl : n ≤ Config.rxBufferSize) :
    ¬ (frame.length = 0 ∨ Config.maxFrame < frame.length ∨ Config.rxBufferSize < n) := by
  simp [hf]; omega

theorem Chip.observe_nil (c : Chip) (frame : List Byte) : c.observe frame [] = c := by
  unfold Chip.observe; split <;> first | rfl | (rename_i heq; cases heq)

/-- An exchange cycle that is answered, with its events (R130). -/
theorem transceive_run (frame : List Byte) (dst : Destination) (t : Turn) (s : State) (hp : t.pace.bounded = true)
    {r' : List Reply} (ha : Answering Q (c.execute frame) dst t.reply r' r) (h0 : t.reply = [] → r' = r)
    (hs : s.peer.Has Q (t.samples ++ b) r' c) (hf : frame ≠ [])
    (hlen : frame.length ≤ Config.maxFrame) (hl : t.reply.length ≤ Config.rxBufferSize) :
    ∃ xs q n, xs.map Prod.fst = frame ∧ q.Has Q b r (c.exchange frame t.reply) ∧
      transceive frame t.reply.length dst s = .ok t.reply
        (State.after { s with scratch := dst.stored (s.setXi 0) t.reply } n q (s.wire ++
          commandEvents s.cs s.xi xs t.pace.ready t.pace.busy t.pace.done ++
            if t.reply = [] then [] else responseEvents frame.length t.reply t.pace.finish)) ∧ n.2.1 = s.irqPolls := by
  unfold transceive
  rw [if_neg (exchange_admitted hf hlen hl)]
  by_cases hrep : t.reply = []
  · obtain ⟨xs, q, hx, h1, r1⟩ := exchangeCommand_run frame t.pace s hp (b := b) (r := r) (c := c) (Q := Q)
      (by simpa [Turn.samples, hrep, h0 hrep] using hs)
    refine ⟨xs, q, (t.pace.done + 1, s.irqPolls, frame.length), hx, ?_, ?_, rfl⟩
    · rw [hrep, Chip.exchange, Chip.observe_nil]; exact h1
    · rw [bind_ok r1, if_pos (by simp [hrep]), hrep, update_bind_run, pure_run, if_pos rfl, List.append_nil]
      cases dst <;> rfl
  · obtain ⟨xs, p, hx, h1, r1⟩ := exchangeCommand_run frame t.pace s hp (b := waitSamples false t.pace.finish ++ b)
      (by simpa [Turn.samples, hrep, Pace.read] using hs)
    simp only [Pace.bounded, Bool.and_eq_true, decide_eq_true_eq] at hp
    obtain ⟨q, h2, r2⟩ := exchangeResponse_run frame t.reply dst t.pace.finish { s with
      phase := .tWaitDone, cs := false, polls := t.pace.done + 1, xi := frame.length, peer := p
      wire := s.wire ++ commandEvents s.cs s.xi xs t.pace.ready t.pace.busy t.pace.done } hp.2 ha h1
    refine ⟨xs, q, (t.pace.finish + 1, s.irqPolls, t.reply.length), hx, h2, ?_, rfl⟩
    rw [bind_ok r1, if_neg (by simpa using hrep)]
    erw [bind_ok r2]
    rw [update_bind_run, pure_run, if_neg hrep]
    cases dst <;> rfl

/-! ## The calculus of runs that end normally -/

/-- From `s` the procedure ends normally with `a`, outside any transaction, with a peer that meets `P`, having sent the
frames `fs`; beside the lines, counters, peer and trace the state is that of `s1`. -/
def Proc.Goes (f : Proc α) (s s1 : State) (a : α) (P : Peer → Prop) (fs : List (List Byte)) : Prop :=
  ∃ c p w, f s = .ok a (s1.after c p w) ∧ P p ∧ sentFrames w = sentFrames s.wire ++ fs

variable {P P' : Peer → Prop}

theorem Proc.Goes.bind {f : Proc α} {g : α → Proc β} {a : α} {b : β} {fs gs : List (List Byte)}
    (h : Proc.Goes f s s1 a P fs) (hg : ∀ c p w, P p → Proc.Goes (g a) (s1.after c p w) s2 b P' gs) :
    Proc.Goes (f >>= g) s s2 b P' (fs ++ gs) := by
  obtain ⟨c, p, w, h1, h2, h3⟩ := h
  obtain ⟨d, q, v, h4, h5, h6⟩ := hg c p w h2
  exact ⟨d, q, v, by rw [bind_ok h1, h4], h5, by rw [h6, State.after_wire, h3, List.append_assoc]⟩

theorem goes_pure {a : α} {c : Nat × Nat × Nat} {p : Peer} {w : List Event} (h : P p) :
    Proc.Goes (pure a) (s.after c p w) s a P [] := ⟨c, p, w, rfl, h, by simp⟩

/-- A test that holds, before what follows. -/
theorem goes_require {b : Bool} {e : OpError} {f : Unit → Proc α} {a : α} {fs : List (List Byte)} (hb : b = true)
    (h : Proc.Goes (f ()) s s1 a P fs) : Proc.Goes (require b e >>= f) s s1 a P fs := by subst hb; exact h

/-- A parser that succeeds, before what follows. -/
theorem goes_fromParser {x : Except OpError α} {a : α} {f : α → Proc β} {v : β} {fs : List (List Byte)} (hx : x = .ok a)
    (h : Proc.Goes (f a) s s1 v P fs) : Proc.Goes (fromParser x >>= f) s s1 v P fs := by subst hx; exact h

/-- A line that sends no byte. -/
theorem Proc.Goes.update {f : State → State} {g : Unit → Proc α} {a : α} {fs : List (List Byte)}
    (hq : sentFrames (f s).wire = sentFrames s.wire) (h : Proc.Goes (g ()) (f s) s1 a P fs) :
    Proc.Goes (update f >>= g) s s1 a P fs := by
  obtain ⟨c, p, w, h1, h2, h3⟩ := h
  exact ⟨c, p, w, h1, h2, by rw [h3, hq]⟩

theorem Proc.Goes.ofCurrent {g : State → Proc α} {a : α} {fs : List (List Byte)}
    (h : Proc.Goes (g s) s s1 a P fs) : Proc.Goes (current >>= g) s s1 a P fs := h

/-- The base state may itself be one after a stretch. -/
theorem Proc.Goes.rebase {f : Proc α} {a : α} {q : Peer} {fs : List (List Byte)} {c : Nat × Nat × Nat}
    {w : List Event} (h : Proc.Goes f s (s1.after c q w) a P fs) : Proc.Goes f s s1 a P fs := h

/-- The peer has the cycles `ts` to play, then `b` and `r`; if it was quiet at the start it holds `c`. -/
def Peer.At (Q : Prop) (ts : List Turn) (b : List Bool) (r : List Reply) (c : Chip) (p : Peer) : Prop :=
  p.Has Q (turnSamples ts ++ b) (turnReplies ts ++ r) c

theorem Peer.Plays.at {p : Peer} {ts : List Turn} (h : p.Plays ts b r) : p.At p.Quiet ts b r p.chip :=
  ⟨h.busy, h.replies, id, fun _ => rfl⟩

/-- One exchange whose reply script answers. -/
theorem goes_answered (frame : List Byte) (dst : Destination) (t : Turn) {r' : List Reply}
    (ha : Answering Q (c.execute frame) dst t.reply r' r) (h0 : t.reply = [] → r' = r)
    (hs : s.peer.Has Q (t.samples ++ b) r' c) (hb : t.pace.bounded = true) (hf : frame ≠ [])
    (hlen : frame.length ≤ Config.maxFrame) (hl : t.reply.length ≤ Config.rxBufferSize) :
    Proc.Goes (transceive frame t.reply.length dst) s { s with scratch := dst.stored (s.setXi 0) t.reply } t.reply
      (Peer.Has Q b r (c.exchange frame t.reply)) [frame] := by
  obtain ⟨xs, q, n, hx, h1, h2, -⟩ := transceive_run frame dst t s hb ha h0 hs hf hlen hl
  refine ⟨n, q, _, h2, h1, ?_⟩
  have hne : xs ≠ [] := by rintro rfl; exact hf hx.symm
  split
  · rw [List.append_nil, sentFrames_command _ _ _ _ _ _ _ hne, hx]
  · rw [sentFrames_response, sentFrames_command _ _ _ _ _ _ _ hne, hx]

/-- One exchange in which the peer, quiet from the start, answers with what it holds. -/
theorem goes_held (frame : List Byte) (dst : Destination) (t : Turn) (hq : Q)
    (hx : ∀ (k : Nat) (x : Byte), t.reply[k]? = some x → (c.execute frame).response[k]? = some (some x))
    (hs : s.peer.Has Q (t.samples ++ b) (List.replicate t.reply.length .held ++ r) c) (hb : t.pace.bounded = true)
    (hf : frame ≠ []) (hlen : frame.length ≤ Config.maxFrame) (hl : t.reply.length ≤ Config.rxBufferSize) :
    Proc.Goes (transceive frame t.reply.length dst) s { s with scratch := dst.stored (s.setXi 0) t.reply } t.reply
      (Peer.Has Q b r (c.exchange frame t.reply)) [frame] :=
  goes_answered frame dst t (answering_held dst t.reply hq hl hx) (fun h => by rw [h]; rfl) hs hb hf hlen hl

/-- One exchange with the first of the cycles. -/
theorem goes_transceive (frame : List Byte) (dst : Destination) (t : Turn) {ts : List Turn}
    (hs : s.peer.At Q (t :: ts) b r c) (hb : t.pace.bounded = true) (hf : frame ≠ [])
    (hlen : frame.length ≤ Config.maxFrame) (hl : t.reply.length ≤ Config.rxBufferSize) :
    Proc.Goes (transceive frame t.reply.length dst) s { s with scratch := dst.stored (s.setXi 0) t.reply } t.reply
      (Peer.At Q ts b r (c.exchange frame t.reply)) [frame] :=
  goes_answered frame dst t (answering_answers dst t.reply hl) (fun h => by rw [h]; rfl)
    (by simpa [Peer.At, turnSamples, turnReplies] using hs) hb hf hlen hl

end Sys2Proof.Machine
end

