-- ==== Sys2Proof/Laws/Answered.lean ====
section
/-! SUPPORT. Every procedure against a peer that answers, and what the frames leave on the peer. -/

namespace Sys2Proof

/-! ## Byte order -/

theorem le32_bytes (v : Word) :
    le32 (v.extractLsb' 0 8) (v.extractLsb' 8 8) (v.extractLsb' 16 8) (v.extractLsb' 24 8) = v := by
  ext i hi
  simp only [le32, BitVec.getElem_or, BitVec.getElem_shiftLeft, BitVec.getElem_setWidth, BitVec.getLsbD_extractLsb']
  simp only [← BitVec.getLsbD_eq_getElem]
  rcases Nat.lt_or_ge i 8 with h | h
  · simp [h, show i < 16 by omega, show i < 24 by omega]
  rcases Nat.lt_or_ge i 16 with h2 | h2
  · simp [show ¬ i < 8 by omega, h2, show i < 24 by omega, show i - 8 < 8 by omega,
      show 8 + (i - 8) = i by omega]
  rcases Nat.lt_or_ge i 24 with h3 | h3
  · simp [show ¬ i < 8 by omega, show ¬ i < 16 by omega, h3, show ¬ i - 8 < 8 by omega, show i - 16 < 8 by omega,
      show 16 + (i - 16) = i by omega]
  · simp [show ¬ i < 8 by omega, show ¬ i < 16 by omega, show ¬ i < 24 by omega, show ¬ i - 8 < 8 by omega,
      show ¬ i - 16 < 8 by omega, show i - 24 < 8 by omega, show 24 + (i - 24) = i by omega]

end Sys2Proof

namespace Sys2Proof.Machine

variable {s s1 s2 : State} {α β : Type} {Q : Prop} {ts : List Turn} {b : List Bool} {r : List Reply} {c : Chip}

@[simp] theorem responseWord_bytes (v : Word) : responseWord (bytesLe32 v) = v := le32_bytes v

@[simp] theorem bytesLe32_length (v : Word) : (bytesLe32 v).length = 4 := rfl

/-! ## One frame -/

theorem goes_sendFrame {frame : List Byte} {p : Pace} (hs : s.peer.At Q (p.silent :: ts) b r c)
    (hb : p.bounded = true) (hf : frame ≠ []) (hlen : frame.length ≤ Config.maxFrame) :
    Proc.Goes (sendFrame frame) s s () (Peer.At Q ts b r (c.exchange frame [])) [frame] :=
  Proc.Goes.bind (gs := []) (goes_transceive frame .transient p.silent hs hb hf hlen (by simp [Pace.silent]))
    fun _ _ _ h => goes_pure h

theorem goes_readRegister {a : Byte} {p : Pace} {v : Word} (hs : s.peer.At Q (p.answer v :: ts) b r c)
    (hb : p.bounded = true) :
    Proc.Goes (readRegister a) s s v (Peer.At Q ts b r (c.exchange (frameReadRegister a) (bytesLe32 v)))
      [frameReadRegister a] := by
  have h := goes_transceive (frameReadRegister a) .transient (p.answer v) hs hb (by simp [frameReadRegister])
    (by simp [frameReadRegister, Config.maxFrame]) (by simp [Pace.answer, Config.rxBufferSize])
  have := Proc.Goes.bind (gs := []) (b := responseWord (bytesLe32 v))
    (g := fun r => (pure (responseWord r) : Proc Word)) h fun _ _ _ h => goes_pure h
  rw [responseWord_bytes] at this
  exact this

theorem goes_writeRegister {a : Byte} {v : Word} {p : Pace} (hs : s.peer.At Q (p.silent :: ts) b r c)
    (hb : p.bounded = true) :
    Proc.Goes (writeRegister a v) s s () (Peer.At Q ts b r (c.exchange (frameWriteRegister a v) []))
      [frameWriteRegister a v] := goes_sendFrame hs hb (by simp [frameWriteRegister])
        (by simp [frameWriteRegister, Config.maxFrame])

theorem goes_writeRegisterOr {a : Byte} {m : Word} {p : Pace} (hs : s.peer.At Q (p.silent :: ts) b r c)
    (hb : p.bounded = true) :
    Proc.Goes (writeRegisterOr a m) s s () (Peer.At Q ts b r (c.exchange (frameWriteRegisterOrMask a m) []))
      [frameWriteRegisterOrMask a m] := goes_sendFrame hs hb (by simp [frameWriteRegisterOrMask])
        (by simp [frameWriteRegisterOrMask, Config.maxFrame])

theorem goes_writeRegisterAnd {a : Byte} {m : Word} {p : Pace} (hs : s.peer.At Q (p.silent :: ts) b r c)
    (hb : p.bounded = true) :
    Proc.Goes (writeRegisterAnd a m) s s () (Peer.At Q ts b r (c.exchange (frameWriteRegisterAndMask a m) []))
      [frameWriteRegisterAndMask a m] := goes_sendFrame hs hb (by simp [frameWriteRegisterAndMask])
        (by simp [frameWriteRegisterAndMask, Config.maxFrame])

theorem goes_clearIrqStatus {m : Word} {p : Pace} (hs : s.peer.At Q (p.silent :: ts) b r c) (hb : p.bounded = true) :
    Proc.Goes (clearIrqStatus m) s s () (Peer.At Q ts b r (c.exchange (frameWriteRegister 0x03 m) []))
      [frameWriteRegister 0x03 m] := goes_writeRegister (a := PeerRegister.irqClear.addr) hs hb

theorem goes_getIrqStatus {p : Pace} {v : Word} (hs : s.peer.At Q (p.answer v :: ts) b r c) (hb : p.bounded = true) :
    Proc.Goes getIrqStatus s s v (Peer.At Q ts b r (c.exchange (frameReadRegister 0x02) (bytesLe32 v)))
      [frameReadRegister 0x02] := goes_readRegister (a := PeerRegister.irqStatus.addr) hs hb

theorem goes_getTransceiveState {p : Pace} {v : Word} (hs : s.peer.At Q (p.answer v :: ts) b r c)
    (hb : p.bounded = true) :
    Proc.Goes getTransceiveState s s (decodeTs v)
      (Peer.At Q ts b r (c.exchange (frameReadRegister 0x1D) (bytesLe32 v))) [frameReadRegister 0x1D] := by
  obtain ⟨d, p, w, h1, h2, h3⟩ := goes_readRegister (a := PeerRegister.rfStatus.addr) hs hb
  refine ⟨d, p, w, ?_, h2, h3⟩
  unfold getTransceiveState
  rw [h1]

/-- The exchange of `ReadData`: the bytes received are in the scratch buffer, count as valid, and are returned (R166). -/
theorem goes_fetchData {p : Pace} {bs : List Byte} (hs : s.peer.At Q (p.reply bs :: ts) b r c)
    (hb : p.bounded = true) (hl : bs.length ≤ Config.rxBufferSize) :
    Proc.Goes (fetchData bs.length) s (s.received bs) bs (Peer.At Q ts b r (c.exchange frameReadData bs))
      [frameReadData] := by
  obtain ⟨d, p, w, h1, h2, h3⟩ := goes_transceive (s := s.setValid 0) frameReadData .scratch (p.reply bs) hs hb
    (by simp [frameReadData]) (by simp [frameReadData, Config.maxFrame]) hl
  refine ⟨d, p, w, ?_, h2, h3⟩
  unfold fetchData
  rw [update_bind_run]
  erw [bind_ok h1]
  rw [update_bind_run]
  exact memRead_received s _ bs hl rfl

theorem goes_readData {p : Pace} {bs : List Byte} (hs : s.peer.At Q (p.reply bs :: ts) b r c)
    (hb : p.bounded = true) (hl : bs.length ≤ Config.rxBufferSize) :
    Proc.Goes (readData bs.length) s (s.received bs) bs (Peer.At Q ts b r (c.exchange frameReadData bs))
      [frameReadData] := by
  unfold readData
  rw [if_pos (by simpa [readAdmitted] using hl)]
  exact goes_fetchData hs hb hl

/-! ## Waits for a flag -/

/-- What the peer holds after reads of IRQ-Status that answered the given words. -/
def Chip.irqRead (c : Chip) (ms : List (Pace × Word)) : Chip :=
  ms.foldl (fun c m => c.exchange (frameReadRegister 0x02) (bytesLe32 m.2)) c

/-- What follows a read of the wait. -/
theorem waitIrqLoop_step (flag : IrqFlag) (limit n : Nat) {v : Word} {d : Nat × Nat × Nat} {p : Peer} {w : List Event}
    (h : readRegister PeerRegister.irqStatus.addr s = .ok v (s.after d p w)) :
    d.2.1 = s.irqPolls ∧ waitIrqLoop flag limit (n + 1) s =
      (if flag.isSet v = true then pure () else if s.irqPolls + 1 = limit then raise (.irqWaitTimeout flag.bit) else (do
        update State.sleep
        waitIrqLoop flag limit n) : Proc Unit) ((s.after d p w).setIrqPolls (s.irqPolls + 1)) := by
  have hd : d.2.1 = s.irqPolls := (readRegister_irqPolls PeerRegister.irqStatus.addr s).ok h
  refine ⟨hd, ?_⟩
  show (getIrqStatus >>= _) s = _
  rw [bind_ok (p := getIrqStatus) h, ← hd]
  rfl

/-- One read of the wait, and what follows it. -/
theorem waitIrqLoop_read (flag : IrqFlag) (limit n : Nat) {m : Pace × Word}
    (hs : s.peer.At Q (m.1.answer m.2 :: ts) b r c) (hb : m.1.bounded = true) :
    ∃ d p w, Peer.At Q ts b r (c.exchange (frameReadRegister 0x02) (bytesLe32 m.2)) p ∧ d.2.1 = s.irqPolls ∧
      sentFrames w = sentFrames s.wire ++ [frameReadRegister 0x02] ∧
      waitIrqLoop flag limit (n + 1) s =
        (if flag.isSet m.2 = true then pure () else if s.irqPolls + 1 = limit then raise (.irqWaitTimeout flag.bit) else (do
          update State.sleep
          waitIrqLoop flag limit n) : Proc Unit) ((s.after d p w).setIrqPolls (s.irqPolls + 1)) := by
  obtain ⟨d, p, w, h1, h2, h3⟩ := goes_readRegister (a := PeerRegister.irqStatus.addr) hs hb
  exact ⟨d, p, w, h2, (waitIrqLoop_step flag limit n h1).1, h3, (waitIrqLoop_step flag limit n h1).2⟩

theorem sentFrames_sleep (s : State) : sentFrames s.sleep.wire = sentFrames s.wire := by
  rw [State.sleep_wire, sentFrames_append]
  exact addToFrames_other _ _ (by simp)

theorem goes_waitIrqLoop (flag : IrqFlag) (limit : Nat) (misses : List (Pace × Word)) (hit : Pace × Word) (n : Nat)
    (hs : s.peer.At Q (irqTurns (misses ++ [hit]) ++ ts) b r c)
    (hb : ∀ m ∈ misses ++ [hit], m.1.bounded = true) (hm : ∀ m ∈ misses, flag.isSet m.2 = false)
    (hh : flag.isSet hit.2 = true) (hn : misses.length < n) (hl : s.irqPolls + n = limit) :
    Proc.Goes (waitIrqLoop flag limit n) s s () (Peer.At Q ts b r (c.irqRead (misses ++ [hit])))
      ((misses ++ [hit]).map fun _ => frameReadRegister 0x02) := by
  induction misses generalizing s c n with
  | nil =>
    obtain ⟨n, rfl⟩ : ∃ m, n = m + 1 := ⟨n - 1, by simp at hn; omega⟩
    obtain ⟨d, p, w, h1, -, h3, h4⟩ := waitIrqLoop_read flag limit n hs (hb hit (by simp))
    refine ⟨(d.1, s.irqPolls + 1, d.2.2), p, w, ?_, h1, h3⟩
    rw [h4, if_pos hh]
    rfl
  | cons m misses ih =>
    obtain ⟨n, rfl⟩ : ∃ k, n = k + 1 := ⟨n - 1, by simp at hn; omega⟩
    obtain ⟨d, p, w, h1, hd, h3, h4⟩ := waitIrqLoop_read (ts := irqTurns (misses ++ [hit]) ++ ts) flag limit n hs
      (hb m (by simp))
    have hp : ((s.after d p w).setIrqPolls (s.irqPolls + 1)).sleep.peer.At Q (irqTurns (misses ++ [hit]) ++ ts) b r
        (c.exchange (frameReadRegister 0x02) (bytesLe32 m.2)) := Peer.Has.elapse h1
    obtain ⟨e, q, v, k1, k2, k3⟩ := ih (n := n) hp (fun x hx => hb x (by simp at hx ⊢; tauto))
      (fun x hx => hm x (by simp [hx])) (by simpa using hn) (by simp; omega)
    refine ⟨e, q, v, ?_, k2, ?_⟩
    · rw [h4, if_neg (by simp [hm m (by simp)]), if_neg (by simp at hn; omega), update_bind_run, k1]
      rfl
    · rw [k3, sentFrames_sleep, State.setIrqPolls_wire, State.after_wire, h3]
      simp

theorem goes_waitIrq (flag : IrqFlag) (limit : Nat) (misses : List (Pace × Word)) (hit : Pace × Word)
    (hs : s.peer.At Q (irqTurns (misses ++ [hit]) ++ ts) b r c)
    (hb : ∀ m ∈ misses ++ [hit], m.1.bounded = true) (hm : ∀ m ∈ misses, flag.isSet m.2 = false)
    (hh : flag.isSet hit.2 = true) (hl : misses.length < limit) :
    Proc.Goes (waitIrq flag limit) s s () (Peer.At Q ts b r (c.irqRead (misses ++ [hit])))
      ((misses ++ [hit]).map fun _ => frameReadRegister 0x02) :=
  goes_waitIrqLoop (s := s.setIrqPolls 0) flag limit misses hit limit hs hb hm hh hl (by simp)

/-! ## `SendData` -/

/-- What the two mask writes leave (R167, R235). -/
def Chip.armed (c : Chip) : Chip :=
  (c.exchange (frameWriteRegisterAndMask 0x00 Config.cmdClearMask) []).exchange
    (frameWriteRegisterOrMask 0x00 Config.cmdTransceive) []

/-- The frames of the two mask writes. -/
def armFrames : List (List Byte) :=
  [frameWriteRegisterAndMask 0x00 Config.cmdClearMask, frameWriteRegisterOrMask 0x00 Config.cmdTransceive]

/-- The first three cycles of `SendData` (R167). -/
def armAndAsk : Proc TransceiveState := do
  writeRegisterAnd PeerRegister.systemConfig.addr Config.cmdClearMask
  writeRegisterOr PeerRegister.systemConfig.addr Config.cmdTransceive
  getTransceiveState

theorem sendData_admitted {payload : List Byte} {v : Byte} (ha : sendAdmitted payload v = true) :
    sendData payload v = armAndAsk >>= fun st => require (decide (st = .waitTransmit)) .notReady >>= fun _ =>
      sendFrame (frameSendData v payload) := by
  simp only [sendData, armAndAsk, ha, require, if_true, pure_bind, bind_assoc]

theorem goes_armWrites {p1 p2 : Pace} (hs : s.peer.At Q (p1.silent :: p2.silent :: ts) b r c) (h1 : p1.bounded = true)
    (h2 : p2.bounded = true) :
    Proc.Goes (writeRegisterAnd PeerRegister.systemConfig.addr Config.cmdClearMask >>= fun _ =>
      writeRegisterOr PeerRegister.systemConfig.addr Config.cmdTransceive) s s () (Peer.At Q ts b r c.armed) armFrames :=
  (goes_writeRegisterAnd (a := PeerRegister.systemConfig.addr) hs h1).bind fun d p w h =>
    (goes_writeRegisterOr (s := s.after d p w) (a := PeerRegister.systemConfig.addr) h h2).rebase

theorem goes_armAndAsk {p1 p2 p3 : Pace} {st : Word}
    (hs : s.peer.At Q (p1.silent :: p2.silent :: p3.answer st :: ts) b r c) (h1 : p1.bounded = true)
    (h2 : p2.bounded = true) (h3 : p3.bounded = true) :
    Proc.Goes armAndAsk s s (decodeTs st)
      (Peer.At Q ts b r (c.armed.exchange (frameReadRegister 0x1D) (bytesLe32 st)))
      (armFrames ++ [frameReadRegister 0x1D]) := by
  have h := (goes_armWrites hs h1 h2).bind (g := fun _ => getTransceiveState) fun d p w h =>
    (goes_getTransceiveState (s := s.after d p w) h h3).rebase
  rw [bind_assoc] at h
  exact h

theorem goes_sendData {p1 p2 p3 p4 : Pace} {st : Word} {payload : List Byte} {v : Byte}
    (hs : s.peer.At Q (p1.silent :: p2.silent :: p3.answer st :: p4.silent :: ts) b r c) (h1 : p1.bounded = true)
    (h2 : p2.bounded = true) (h3 : p3.bounded = true) (h4 : p4.bounded = true) (ha : sendAdmitted payload v = true)
    (hst : decodeTs st = .waitTransmit) :
    Proc.Goes (sendData payload v) s s () (Peer.At Q ts b r
      ((c.armed.exchange (frameReadRegister 0x1D) (bytesLe32 st)).exchange (frameSendData v payload) []))
      (armFrames ++ [frameReadRegister 0x1D] ++ [frameSendData v payload]) := by
  have hlen : (frameSendData v payload).length ≤ Config.maxFrame := by
    simp only [sendAdmitted, Bool.and_eq_true, decide_eq_true_eq] at ha
    have := ha.1
    simp only [frameSendData, List.length_cons]
    simp only [Config.maxSendPayload, Config.maxFrame] at *
    omega
  rw [sendData_admitted ha]
  exact (goes_armAndAsk hs h1 h2 h3).bind fun d p w h => goes_require (by simp [hst])
    (goes_sendFrame (s := s.after d p w) h h4 (by simp [frameSendData]) hlen).rebase

/-! ## The field and the reset -/

theorem goes_setRfOn {send clear : Pace} {misses : List (Pace × Word)} {hit : Pace × Word}
    (hs : s.peer.At Q (switchTurns send misses hit clear ++ ts) b r c) (h1 : send.bounded = true)
    (hb : ∀ m ∈ misses ++ [hit], m.1.bounded = true) (h2 : clear.bounded = true)
    (hm : ∀ m ∈ misses, IrqFlag.pcdRfOn.isSet m.2 = false) (hh : IrqFlag.pcdRfOn.isSet hit.2 = true)
    (hl : misses.length < s.params.irqPollLimit) :
    Proc.Goes setRfOn s { s with rfOn := true } () (Peer.At Q ts b r
      (((c.exchange frameRfOn []).irqRead (misses ++ [hit])).exchange (frameWriteRegister 0x03 IrqFlag.pcdRfOn.mask) []))
      ([frameRfOn] ++ (((misses ++ [hit]).map fun _ => frameReadRegister 0x02)
        ++ ([frameWriteRegister 0x03 IrqFlag.pcdRfOn.mask] ++ []))) := by
  have hs' : s.peer.At Q (send.silent :: (irqTurns (misses ++ [hit]) ++ (clear.silent :: ts))) b r c := by
    simpa [switchTurns] using hs
  refine (goes_sendFrame hs' h1 (by simp [frameRfOn]) (by simp [frameRfOn, Config.maxFrame])).bind fun d p w h => ?_
  refine Proc.Goes.ofCurrent <| Proc.Goes.bind (goes_waitIrq (s := s.after d p w) .pcdRfOn s.params.irqPollLimit misses hit
    h hb hm hh hl).rebase fun d p w h => ?_
  refine Proc.Goes.bind (goes_clearIrqStatus (s := s.after d p w) h h2).rebase fun d p w h => ?_
  exact ⟨d, p, w, rfl, h, by simp⟩

theorem goes_setRfOff {send clear : Pace} {misses : List (Pace × Word)} {hit : Pace × Word}
    (hs : s.peer.At Q (switchTurns send misses hit clear ++ ts) b r c) (h1 : send.bounded = true)
    (hb : ∀ m ∈ misses ++ [hit], m.1.bounded = true) (h2 : clear.bounded = true)
    (hm : ∀ m ∈ misses, IrqFlag.pcdRfOff.isSet m.2 = false) (hh : IrqFlag.pcdRfOff.isSet hit.2 = true)
    (hl : misses.length < s.params.irqPollLimit) :
    Proc.Goes setRfOff s { s with rfOn := false } () (Peer.At Q ts b r
      (((c.exchange frameRfOff []).irqRead (misses ++ [hit])).exchange
        (frameWriteRegister 0x03 IrqFlag.pcdRfOff.mask) []))
      ([frameRfOff] ++ (((misses ++ [hit]).map fun _ => frameReadRegister 0x02)
        ++ ([frameWriteRegister 0x03 IrqFlag.pcdRfOff.mask] ++ []))) := by
  have hs' : s.peer.At Q (send.silent :: (irqTurns (misses ++ [hit]) ++ (clear.silent :: ts))) b r c := by
    simpa [switchTurns] using hs
  refine (goes_sendFrame hs' h1 (by simp [frameRfOff]) (by simp [frameRfOff, Config.maxFrame])).bind fun d p w h => ?_
  refine Proc.Goes.ofCurrent <| Proc.Goes.bind (goes_waitIrq (s := s.after d p w) .pcdRfOff s.params.irqPollLimit misses hit
    h hb hm hh hl).rebase fun d p w h => ?_
  refine Proc.Goes.bind (goes_clearIrqStatus (s := s.after d p w) h h2).rebase fun d p w h => ?_
  exact ⟨d, p, w, rfl, h, by simp⟩

theorem goes_setupRf {p1 p2 p3 send clear : Pace} {misses : List (Pace × Word)} {hit : Pace × Word}
    (hs : s.peer.At Q (p1.silent :: (switchTurns send misses hit clear ++ (p2.silent :: p3.silent :: ts))) b r c)
    (k1 : p1.bounded = true) (k2 : p2.bounded = true) (k3 : p3.bounded = true) (h1 : send.bounded = true)
    (hb : ∀ m ∈ misses ++ [hit], m.1.bounded = true) (h2 : clear.bounded = true)
    (hm : ∀ m ∈ misses, IrqFlag.pcdRfOn.isSet m.2 = false) (hh : IrqFlag.pcdRfOn.isSet hit.2 = true)
    (hl : misses.length < s.params.irqPollLimit) :
    Proc.Goes setupRf s { s with rfOn := true } () (Peer.At Q ts b r
      ((((c.exchange (frameLoadRfConfig 0x0D 0x8D) []).exchange frameRfOn []).irqRead (misses ++ [hit])).exchange
        (frameWriteRegister 0x03 IrqFlag.pcdRfOn.mask) []).armed)
      ([frameLoadRfConfig 0x0D 0x8D] ++ ([frameRfOn] ++ (((misses ++ [hit]).map fun _ => frameReadRegister 0x02)
        ++ ([frameWriteRegister 0x03 IrqFlag.pcdRfOn.mask] ++ [])) ++ armFrames)) :=
  Proc.Goes.bind (g := fun _ => setRfOn >>= fun _ =>
      writeRegisterAnd PeerRegister.systemConfig.addr Config.cmdClearMask >>= fun _ =>
      writeRegisterOr PeerRegister.systemConfig.addr Config.cmdTransceive)
    (goes_sendFrame hs k1 (frame := frameLoadRfConfig 0x0D 0x8D) (by simp [frameLoadRfConfig])
      (by simp [frameLoadRfConfig, Config.maxFrame]))
    fun d p w h => Proc.Goes.bind (goes_setRfOn (s := s.after d p w) h h1 hb h2 hm hh hl)
      fun d p w h => (goes_armWrites (s := State.after { s with rfOn := true } d p w) h k2 k3).rebase

theorem sentFrames_settle (s : State) (d : Delay) : sentFrames (s.settle d).wire = sentFrames s.wire := by
  rw [State.settle_wire, sentFrames_append]
  exact addToFrames_other _ _ (by simp)

theorem sentFrames_pulse (s : State) (l : Level) :
    sentFrames ((s.setRst l).settle .resetHold).wire = sentFrames s.wire := by
  rw [sentFrames_settle, State.setRst_wire, sentFrames_append]
  exact addToFrames_other _ _ (by simp)

/-- The state of a reset when its wait for the idle flag begins: the record of the field dropped, the line pulsed (R206). -/
def State.pulsed (s : State) : State :=
  ((((s.setRfOn false).setRst .low).settle .resetHold).setRst .high).settle .resetHold

theorem resetPeer_eq : resetPeer = update State.pulsed >>= fun _ => current >>= fun s =>
    waitIrq .idle s.params.resetPollLimit >>= fun _ => clearIrqStatus clearAllMask >>= fun _ =>
      update fun s => s.setInitialized true := rfl

theorem sentFrames_pulsed (s : State) : sentFrames s.pulsed.wire = sentFrames s.wire := by
  unfold State.pulsed
  rw [sentFrames_pulse, sentFrames_pulse]
  rfl

theorem Peer.At.pulsed (h : s.peer.At Q ts b r c) : s.pulsed.peer.At Q ts b r c.hardwareReset :=
  (Peer.Has.act (Peer.Has.elapse h) Chip.hardwareReset).elapse.elapse.elapse

theorem goes_resetPeer {clear : Pace} {misses : List (Pace × Word)} {hit : Pace × Word}
    (hs : s.peer.At Q (irqTurns (misses ++ [hit]) ++ (clear.silent :: ts)) b r c)
    (hb : ∀ m ∈ misses ++ [hit], m.1.bounded = true) (h2 : clear.bounded = true)
    (hm : ∀ m ∈ misses, IrqFlag.idle.isSet m.2 = false) (hh : IrqFlag.idle.isSet hit.2 = true)
    (hl : misses.length < s.params.resetPollLimit) :
    Proc.Goes resetPeer s { s with rfOn := false, rst := .high, initialized := true } () (Peer.At Q ts b r
      ((c.hardwareReset.irqRead (misses ++ [hit])).exchange (frameWriteRegister 0x03 clearAllMask) []))
      (((misses ++ [hit]).map fun _ => frameReadRegister 0x02) ++ ([frameWriteRegister 0x03 clearAllMask] ++ [])) := by
  rw [resetPeer_eq]
  refine Proc.Goes.update (sentFrames_pulsed s) (Proc.Goes.ofCurrent ?_)
  refine Proc.Goes.bind (goes_waitIrq (s := s.pulsed) .idle s.params.resetPollLimit misses hit hs.pulsed hb hm hh hl)
    fun d p w h => ?_
  refine Proc.Goes.bind (goes_clearIrqStatus (s := s.pulsed.after d p w) h h2).rebase fun d p w h => ?_
  exact ⟨d, p, w, rfl, h, by simp⟩

/-! ## The tag sequencer -/

/-- What the peer holds after `SendData` of a tag request. -/
def Chip.tagSent (c : Chip) (t : TagTurns) (req : List Byte) : Chip :=
  (c.armed.exchange (frameReadRegister 0x1D) (bytesLe32 t.state.2)).exchange (frameSendData 0x00 req) []

/-- What it holds after the second read of IRQ-Status. -/
def Chip.tagRead (c : Chip) (t : TagTurns) (req : List Byte) : Chip :=
  ((((c.tagSent t req).exchange (frameReadRegister 0x02) (bytesLe32 t.irq.2)).exchange
    (frameReadRegister 0x13) (bytesLe32 t.length.2)).exchange frameReadData t.response.2).exchange
    (frameReadRegister 0x02) (bytesLe32 t.irqAgain.2)

/-- The frames of `SendData` in a tag command. -/
def tagSendFrames (req : List Byte) : List (List Byte) :=
  armFrames ++ [frameReadRegister 0x1D] ++ [frameSendData 0x00 req]

/-- The sequencer up to its first read of IRQ-Status (R221 steps 1 to 3). -/
def tagProbe (req : List Byte) : Proc Word := do
  sendData req 0
  update fun s => s.settle .sofSettle
  getIrqStatus

/-- The sequencer from there to its second read: the response and IRQ-Status (R221 steps 4 and 5). -/
def tagFetch : Proc (List Byte × Word) := do
  let rxs ← readRegister PeerRegister.rxStatus.addr
  let resp ← readData (rxLength rxs)
  let irq2 ← getIrqStatus
  pure (resp, irq2)

/-- The sequencer from the second test of the flag on (R221 steps 5 to 7). -/
def tagConclude (parser : List Byte → Except OpError Value) (resp : List Byte) (irq2 : Word) : Proc Value := do
  require (IrqFlag.sofDetected.isSet irq2) .noCardDetected
  let payload ← fromParser (parseResponse resp)
  let v ← fromParser (parser payload)
  clearIrqStatus tagClearMask
  pure v

/-- The sequencer in three parts (R221). -/
theorem issueTagCommand_eq (req : List Byte) (parser : List Byte → Except OpError Value) :
    issueTagCommand req parser = tagProbe req >>= fun irq =>
      require (IrqFlag.sofDetected.isSet irq) .noCardDetected >>= fun _ => tagFetch >>= fun x =>
        tagConclude parser x.1 x.2 := by
  simp only [issueTagCommand, tagProbe, tagFetch, tagConclude, bind_assoc, pure_bind]

theorem goes_tagProbe {p1 p2 p3 p4 p5 : Pace} {st irq : Word} {req : List Byte}
    (hs : s.peer.At Q (p1.silent :: p2.silent :: p3.answer st :: p4.silent :: p5.answer irq :: ts) b r c)
    (h1 : p1.bounded = true) (h2 : p2.bounded = true) (h3 : p3.bounded = true) (h4 : p4.bounded = true)
    (h5 : p5.bounded = true) (hreq : req.length ≤ Config.maxSendPayload) (hst : decodeTs st = .waitTransmit) :
    Proc.Goes (tagProbe req) s s irq (Peer.At Q ts b r
      (((c.armed.exchange (frameReadRegister 0x1D) (bytesLe32 st)).exchange (frameSendData 0x00 req) []).exchange
        (frameReadRegister 0x02) (bytesLe32 irq)))
      (tagSendFrames req ++ [frameReadRegister 0x02]) :=
  (goes_sendData hs h1 h2 h3 h4 (by simpa [sendAdmitted] using hreq) hst).bind fun d p w h =>
    Proc.Goes.update (sentFrames_settle _ _)
      (goes_getIrqStatus (s := (s.after d p w).settle .sofSettle) (Peer.Has.elapse h) h5)

theorem goes_tagFetch {p1 p2 p3 : Pace} {len irq : Word} {resp : List Byte}
    (hs : s.peer.At Q (p1.answer len :: p2.reply resp :: p3.answer irq :: ts) b r c) (h1 : p1.bounded = true)
    (h2 : p2.bounded = true) (h3 : p3.bounded = true) (hl : rxLength len = resp.length)
    (hle : resp.length ≤ Config.rxBufferSize) :
    Proc.Goes tagFetch s (s.received resp) (resp, irq) (Peer.At Q ts b r
      (((c.exchange (frameReadRegister 0x13) (bytesLe32 len)).exchange frameReadData resp).exchange
        (frameReadRegister 0x02) (bytesLe32 irq)))
      ([frameReadRegister 0x13] ++ ([frameReadData] ++ ([frameReadRegister 0x02] ++ []))) := by
  refine (goes_readRegister (a := PeerRegister.rxStatus.addr) hs h1).bind fun d p w h => ?_
  rw [hl]
  exact (goes_readData (s := s.after d p w) h h2 hle).bind fun d p w h =>
    (goes_getIrqStatus (s := State.after (s.received resp) d p w) h h3).rebase.bind fun d p w h => goes_pure h

/-- The frames of a tag command up to the second read of IRQ-Status. -/
def tagFrames (req : List Byte) : List (List Byte) :=
  tagSendFrames req ++ [frameReadRegister 0x02] ++
    ([frameReadRegister 0x13] ++ ([frameReadData] ++ ([frameReadRegister 0x02] ++ [])))

/-- The sequencer up to its second read of IRQ-Status, where the first one saw start-of-frame. -/
def tagPrefix (req : List Byte) : Proc (List Byte × Word) := do
  let irq ← tagProbe req
  require (IrqFlag.sofDetected.isSet irq) .noCardDetected
  tagFetch

theorem issueTagCommand_prefix (req : List Byte) (parser : List Byte → Except OpError Value) :
    issueTagCommand req parser = tagPrefix req >>= fun x => tagConclude parser x.1 x.2 := by
  rw [issueTagCommand_eq]; simp only [tagPrefix, bind_assoc]

theorem goes_tagPrefix {t : TagTurns} {req : List Byte} (hs : s.peer.At Q (t.reading ++ ts) b r c)
    (hb : ∀ x ∈ t.reading, x.pace.bounded = true) (h1 : decodeTs t.state.2 = .waitTransmit)
    (h2 : t.irq.2.getLsbD 14 = true) (h4 : rxLength t.length.2 = t.response.2.length)
    (h5 : t.response.2.length ≤ Config.rxBufferSize) (hreq : req.length ≤ Config.maxSendPayload) :
    Proc.Goes (tagPrefix req) s (s.received t.response.2) (t.response.2, t.irqAgain.2)
      (Peer.At Q ts b r (c.tagRead t req)) (tagFrames req) := by
  simp only [TagTurns.reading, TagTurns.sending, List.cons_append, List.nil_append, List.mem_cons, List.not_mem_nil,
    or_false, forall_eq_or_imp, forall_eq, Pace.silent, Pace.answer, Pace.reply] at hb
  obtain ⟨b1, b2, b3, b4, b5, b6, b7, b8⟩ := hb
  exact (goes_tagProbe (p1 := t.clearMask) (p2 := t.setMask) (p3 := t.state.1) (p4 := t.send) (p5 := t.irq.1) hs b1 b2 b3 b4
    b5 hreq h1).bind fun d p w h => goes_require h2
    (goes_tagFetch (s := s.after d p w) (p1 := t.length.1) (p2 := t.response.1) (p3 := t.irqAgain.1) h b6 b7 b8 h4 h5)

theorem TagTurns.answered_iff (t : TagTurns) : t.answered = true ↔
    decodeTs t.state.2 = .waitTransmit ∧ t.irq.2.getLsbD 14 = true ∧ t.irqAgain.2.getLsbD 14 = true ∧
      rxLength t.length.2 = t.response.2.length ∧ t.response.2.length ≤ Config.rxBufferSize := by
  simp [TagTurns.answered, and_assoc]

/-- The sequencer on a response without the error flag whose payload the command's own parser takes (R221 step 7). -/
theorem goes_issueTagCommand {t : TagTurns} {req : List Byte} {payload : List Byte} {v : Value}
    {parser : List Byte → Except OpError Value} (hs : s.peer.At Q (t.all ++ ts) b r c)
    (hb : ∀ x ∈ t.all, x.pace.bounded = true) (ha : t.answered = true) (hreq : req.length ≤ Config.maxSendPayload)
    (hp : parseResponse t.response.2 = .ok payload) (hv : parser payload = .ok v) :
    Proc.Goes (issueTagCommand req parser) s (s.received t.response.2) v
      (Peer.At Q ts b r ((c.tagRead t req).exchange (frameWriteRegister 0x03 tagClearMask) []))
      (tagFrames req ++ ([frameWriteRegister 0x03 tagClearMask] ++ [])) := by
  obtain ⟨h1, h2, h3, h4, h5⟩ := t.answered_iff.1 ha
  rw [issueTagCommand_prefix]
  refine (goes_tagPrefix (ts := t.clear.silent :: ts) (by simpa [TagTurns.all] using hs)
    (fun x hx => hb x (by simp [TagTurns.all, hx])) h1 h2 h4 h5 hreq).bind fun d p w h => ?_
  exact goes_require h3 <| goes_fromParser hp <| goes_fromParser hv <|
    (goes_clearIrqStatus (s := State.after (s.received t.response.2) d p w) h
      (hb t.clear.silent (by simp [TagTurns.all]))).rebase.bind fun d p w h => goes_pure h

/-! ## Operations -/

/-- An admitted operation whose procedure ends normally (R289). -/
theorem runOperation_goes {g : Gate} {body : Proc Value} {v : Value} {P : Peer → Prop} {fs : List (List Byte)}
    (hi : s.phase = .idle) (hg : s.entryFault g = none) (h : Proc.Goes body (s.goto .op) s1 v P fs) :
    ∃ p w, runOperation g body s = .next (s1.completed (.ok v) p w) ∧ P p ∧ sentFrames w = sentFrames s.wire ++ fs := by
  obtain ⟨c, p, w, h1, h2, h3⟩ := h
  refine ⟨p, w, ?_, h2, h3⟩
  unfold runOperation
  rw [if_neg (by simp [hi]), if_pos hi, hg, h1]
  rfl

theorem entryFault_booted (h : s.initialized = true) : s.entryFault .booted = none := by
  simp [State.entryFault, h]

theorem entryFault_rf (h : s.initialized = true) (h' : s.rfOn = true) : s.entryFault .rfConfirmed = none := by
  simp [State.entryFault, h, h']

theorem entryFault_cold : s.entryFault .cold = none := by simp [State.entryFault]

theorem goes_returning {f : Proc α} {a : α} {P : Peer → Prop} {fs : List (List Byte)} (mk : α → Value)
    (h : Proc.Goes f s s1 a P fs) : Proc.Goes (f >>= fun x => pure (mk x)) s s1 (mk a) P fs := by
  have := Proc.Goes.bind (gs := []) (s2 := s1) (g := fun x => (pure (mk x) : Proc Value)) h fun _ _ _ h => goes_pure h
  rw [List.append_nil] at this
  exact this

end Sys2Proof.Machine
end

