-- ==== Sys2Proof/Laws/Failed.lean ====
section
/-! SUPPORT. Runs that end with an error outcome: which state the abort effects of R286 leave, and the busy waits that are
never met, one per wait of an exchange. -/

namespace Sys2Proof.Machine

variable {s s1 s2 : State} {α β : Type} {Q : Prop} {b : List Bool} {r : List Reply} {c : Chip} {P P' : Peer → Prop}

/-- From `s` the procedure ends with the error `e`; after the abort effects the state is that of `s1` beside the lines,
counters, peer and trace, the peer meets `P`, and the frames `fs` have been sent. -/
def Proc.Fails (f : Proc α) (s s1 : State) (e : OpError) (P : Peer → Prop) (fs : List (List Byte)) : Prop :=
  ∃ u p w, f s = .error (.err e) u ∧ u.abortTo .op = s1.after (0, 0, 0) p w ∧ P p ∧ sentFrames w = sentFrames s.wire ++ fs

@[simp] theorem State.after_abortTo (s : State) (c : Nat × Nat × Nat) (p : Peer) (w : List Event) :
    (s.after c p w).abortTo .op = s.after (0, 0, 0) p w := by
  simp [State.abortTo, State.releaseCs, State.after, State.goto, State.clearCounters]

theorem fails_raise {e : OpError} {c : Nat × Nat × Nat} {p : Peer} {w : List Event} (h : P p) :
    Proc.Fails (raise e : Proc α) (s.after c p w) s e P [] := ⟨_, p, w, rfl, by simp, h, by simp⟩

/-- A test that fails, whatever follows it. -/
theorem fails_require {x : Bool} {e : OpError} {d : Nat × Nat × Nat} {p : Peer} {w : List Event} {g : Unit → Proc α}
    (hx : x = false) (h : P p) : Proc.Fails (require x e >>= g) (s.after d p w) s e P [] := by
  subst hx; exact fails_raise h

/-- A parser that fails, whatever follows it. -/
theorem fails_fromParser {x : Except OpError α} {e : OpError} {d : Nat × Nat × Nat} {p : Peer} {w : List Event}
    {g : α → Proc β} (hx : x = .error e) (h : P p) : Proc.Fails (fromParser x >>= g) (s.after d p w) s e P [] := by
  subst hx; exact fails_raise h

/-- A test that holds, before what fails. -/
theorem Proc.Fails.require {x : Bool} {e e' : OpError} {f : Unit → Proc α} {fs : List (List Byte)} (hx : x = true)
    (h : Proc.Fails (f ()) s s1 e P fs) : Proc.Fails (Machine.require x e' >>= f) s s1 e P fs := by subst hx; exact h

/-- A parser that succeeds, before what fails. -/
theorem Proc.Fails.fromParser {x : Except OpError α} {a : α} {e : OpError} {f : α → Proc β} {fs : List (List Byte)}
    (hx : x = .ok a) (h : Proc.Fails (f a) s s1 e P fs) : Proc.Fails (Machine.fromParser x >>= f) s s1 e P fs := by
  subst hx; exact h

/-- The first part fails, so the whole does. -/
theorem Proc.Fails.bind {f : Proc α} {g : α → Proc β} {e : OpError} {fs : List (List Byte)}
    (h : Proc.Fails f s s1 e P fs) : Proc.Fails (f >>= g) s s1 e P fs := by
  obtain ⟨u, p, w, h1, h2⟩ := h
  exact ⟨u, p, w, bind_error h1, h2⟩

/-- The first part ends normally and what follows fails. -/
theorem Proc.Goes.fails {f : Proc α} {g : α → Proc β} {a : α} {e : OpError} {fs gs : List (List Byte)}
    (h : Proc.Goes f s s1 a P fs) (hg : ∀ d p w, P p → Proc.Fails (g a) (s1.after d p w) s2 e P' gs) :
    Proc.Fails (f >>= g) s s2 e P' (fs ++ gs) := by
  obtain ⟨d, p, w, h1, h2, h3⟩ := h
  obtain ⟨u, q, v, h4, h5, h6, h7⟩ := hg d p w h2
  exact ⟨u, q, v, by rw [bind_ok h1, h4], h5, h6, by rw [h7, State.after_wire, h3, List.append_assoc]⟩

theorem Proc.Fails.rebase {f : Proc α} {e : OpError} {q : Peer} {fs : List (List Byte)} {d : Nat × Nat × Nat}
    {w : List Event} (h : Proc.Fails f s (s1.after d q w) e P fs) : Proc.Fails f s s1 e P fs := h

theorem Proc.Fails.weaken {f : Proc α} {e : OpError} {fs : List (List Byte)} (h : Proc.Fails f s s1 e P fs)
    (hp : ∀ p, P p → P' p) : Proc.Fails f s s1 e P' fs := by
  obtain ⟨u, p, w, h1, h2, h3, h4⟩ := h
  exact ⟨u, p, w, h1, h2, hp p h3, h4⟩

theorem Proc.Fails.update {f : State → State} {g : Unit → Proc α} {e : OpError} {fs : List (List Byte)}
    (hq : sentFrames (f s).wire = sentFrames s.wire) (h : Proc.Fails (g ()) (f s) s1 e P fs) :
    Proc.Fails (Machine.update f >>= g) s s1 e P fs := by
  obtain ⟨u, p, w, h1, h2, h3, h4⟩ := h
  exact ⟨u, p, w, h1, h2, h3, by rw [h4, hq]⟩

/-- What the abort of a failed procedure leaves (R286). -/
theorem abort_of_abortTo {u : State} {e : OpError} {p : Peer} {w : List Event}
    (h : u.abortTo .op = s1.after (0, 0, 0) p w) : u.abort e = s1.completed (.err e) p w := by
  have : u.abortTo .idle = (u.abortTo .op).goto .idle := rfl
  rw [State.abort, this, h]
  rfl

/-- An admitted operation whose procedure fails (R286). -/
theorem runOperation_fails {g : Gate} {body : Proc Value} {e : OpError} {fs : List (List Byte)}
    (hi : s.phase = .idle) (hg : s.entryFault g = none) (h : Proc.Fails body (s.goto .op) s1 e P fs) :
    ∃ p w, runOperation g body s = .next (s1.completed (.err e) p w) ∧ P p ∧
      sentFrames w = sentFrames s.wire ++ fs := by
  obtain ⟨u, p, w, h1, h2, h3, h4⟩ := h
  refine ⟨p, w, ?_, h3, h4⟩
  unfold runOperation
  rw [if_neg (by simp [hi]), if_pos hi, hg, h1]
  exact congrArg _ (abort_of_abortTo h2)

/-! ## The waits that are never met (R132, R286, R287) -/

theorem waitBusySent_error {target : Bool} {frame : List Byte} {s t : State} {e : Stop}
    (h : waitBusy target s = .error e t) : waitBusySent target frame s = .error e (t.maybeExecuted frame) := by
  unfold waitBusySent; rw [h]

/-- An exchange whose command part fails. -/
theorem transceive_error {frame : List Byte} {rl : Nat} {dst : Destination} {e : Stop} {u : State}
    (hok : ¬ (frame.length = 0 ∨ Config.maxFrame < frame.length ∨ Config.rxBufferSize < rl))
    (h : exchangeCommand frame s = .error e u) : transceive frame rl dst s = .error e u := by
  unfold transceive
  rw [if_neg hok]
  exact bind_error h

/-- The first wait of an exchange is never met: nothing is sent and chip-select is never asserted (R132, R286). -/
theorem transceive_never_ready (frame : List Byte) (rl : Nat) (dst : Destination) (hc : s.cs = false)
    (hok : ¬ (frame.length = 0 ∨ Config.maxFrame < frame.length ∨ Config.rxBufferSize < rl))
    (hs : s.peer.Has Q (List.replicate Config.busyPollLimit true ++ b) r c) :
    ∃ u p, transceive frame rl dst s = .error (.err (.busyTimeout .tWaitReady)) u ∧ p.Has Q b r c ∧
      u.abortTo .op = s.after (0, 0, 0) p
        (s.wire ++ missEvents .tWaitReady false s.xi false Config.busyPollLimit) := by
  obtain ⟨p, h1, h2⟩ := waitBusy_misses false (s.goto .tWaitReady) hs
  refine ⟨(s.goto .tWaitReady).waited Config.busyPollLimit p (missEvents .tWaitReady s.cs s.xi false Config.busyPollLimit),
    p, transceive_error hok ?_, h1, ?_⟩
  · unfold exchangeCommand
    rw [update_bind_run]
    exact bind_error h2
  · simp [State.abortTo, State.releaseCs, State.waited, State.goto, State.clearCounters, State.after, hc]

theorem fails_never_ready (frame : List Byte) (rl : Nat) (dst : Destination) (hc : s.cs = false)
    (hok : ¬ (frame.length = 0 ∨ Config.maxFrame < frame.length ∨ Config.rxBufferSize < rl))
    (hs : s.peer.Has Q (List.replicate Config.busyPollLimit true ++ b) r c) :
    Proc.Fails (transceive frame rl dst) s s (.busyTimeout .tWaitReady) (Peer.Has Q b r c) [] := by
  obtain ⟨u, p, h1, h2, h3⟩ := transceive_never_ready frame rl dst hc hok hs
  refine ⟨u, p, _, h1, h3, h2, ?_⟩
  rw [sentFrames_append, quiet_missEvents, List.append_nil]

/-- What is known of the peer after a timeout that leaves it unknown whether it executed the frame (R287): its draw `x`
says so. -/
def Peer.HasMaybe (Q : Prop) (b : List Bool) (r : List Reply) (c : Chip) (frame : List Byte) (ys : List Bool) (p : Peer) :
    Prop :=
  ∃ x : Bool, (∀ y rest, ys = y :: rest → x = y) ∧ p.Has Q b r (if x = true then c.execute frame else c)

theorem State.maybeExecuted_has {frame : List Byte} (hs : s.peer.Has Q b r c) :
    (s.maybeExecuted frame).peer.HasMaybe Q b r c frame s.peer.executed := by
  obtain ⟨xs, d, he⟩ := s.peer.drawExecuted_effect
  have hd : s.peer.drawExecuted.2.Has Q b r c := by
    rw [he]; exact ⟨hs.busy, hs.replies, hs.quiet, hs.chip⟩
  refine ⟨s.peer.drawExecuted.1, ?_, ?_⟩
  · intro y rest h
    unfold Peer.drawExecuted
    rw [h]
  · show Peer.Has Q b r _ (if s.peer.drawExecuted.1 = true then s.peer.drawExecuted.2.act (·.execute frame)
      else s.peer.drawExecuted.2)
    by_cases hx : s.peer.drawExecuted.1 = true
    · rw [if_pos hx, if_pos hx]; exact hd.act fun c => c.execute frame
    · rw [if_neg hx, if_neg hx]; exact hd

theorem Peer.HasMaybe.elapse {p : Peer} {frame : List Byte} {ys : List Bool} (h : p.HasMaybe Q b r c frame ys) :
    p.elapse.HasMaybe Q b r c frame ys := by
  obtain ⟨x, h1, h2⟩ := h
  exact ⟨x, h1, h2.elapse⟩

theorem sentFrames_awaitingBusy (k : Nat) (p : Peer) {xs : List (Byte × Byte)} (hx : xs ≠ []) :
    sentFrames (s.awaitingBusy k xs p).wire = sentFrames s.wire ++ [xs.map Prod.fst] := by
  simp only [State.awaitingBusy, sentFrames_append, quiet_waitEvents, List.foldl_cons, List.foldl_nil]
  rw [addToFrames_other (sentFrames s.wire) _ (by simp), addToFrames_other (sentFrames s.wire) _ (by simp),
    foldl_sendFrame xs _ hx]

theorem sentFrames_awaitingDone (k m : Nat) (p : Peer) {xs : List (Byte × Byte)} (hx : xs ≠ []) :
    sentFrames (s.awaitingDone p k m xs).wire = sentFrames s.wire ++ [xs.map Prod.fst] := by
  show sentFrames ((s.awaitingBusy k xs p).wire ++ waitEvents .tWaitBusy true xs.length true m ++ _) = _
  rw [sentFrames_append, sentFrames_append, quiet_waitEvents, sentFrames_awaitingBusy k p hx]
  rfl

theorem State.abortTo_cases (u : State) : u.abortTo .op = u.after (0, 0, 0) u.releaseCs.peer u.releaseCs.wire := by
  unfold State.abortTo State.releaseCs
  split
  · rfl
  · next h => simp [State.after, State.goto, State.clearCounters, h]

theorem sentFrames_releaseCs (u : State) : sentFrames u.releaseCs.wire = sentFrames u.wire := by
  unfold State.releaseCs
  split
  · rw [State.setCs_wire, sentFrames_append]; exact addToFrames_other _ _ (by simp)
  · rfl

/-- A procedure that fails in the state `u`. -/
theorem fails_at {f : Proc α} {e : OpError} {u : State} {fs : List (List Byte)} (h : f s = .error (.err e) u)
    (hu : ∀ p w, u.after (0, 0, 0) p w = s1.after (0, 0, 0) p w) (hp : P u.releaseCs.peer)
    (hf : sentFrames u.wire = sentFrames s.wire ++ fs) : Proc.Fails f s s1 e P fs :=
  ⟨u, _, _, h, u.abortTo_cases.trans (hu _ _), hp, (sentFrames_releaseCs u).trans hf⟩

/-- The timeout of a wait after the frame has been sent, in the state `t`. -/
theorem fails_sent {frame : List Byte} {rl : Nat} {dst : Destination} {t : State} {q : Peer} {target : Bool}
    {es : List Event} {n : Nat} {g : Unit → Proc Unit}
    (hok : ¬ (frame.length = 0 ∨ Config.maxFrame < frame.length ∨ Config.rxBufferSize < rl))
    (h : exchangeCommand frame s = (waitBusySent target frame >>= g) t)
    (hw : waitBusy target t = .error (.err (.busyTimeout t.phase)) (t.waited n q es)) (hq : q.Has Q b r c)
    (ht : ∀ d p w, t.after d p w = s.after d p w) (he : t.peer.executed = s.peer.executed)
    (hf : sentFrames (t.waited n q es).wire = sentFrames s.wire ++ [frame]) :
    Proc.Fails (transceive frame rl dst) s s (.busyTimeout t.phase) (Peer.HasMaybe Q b r c frame s.peer.executed)
      [frame] := by
  have hx : q.executed = s.peer.executed := by
    obtain ⟨-, p, h1, hd, -⟩ := (waitBusy_effect target t).error hw
    exact (congrArg (fun u : State => u.peer.executed) h1).trans (hd.executed.trans he)
  have hm := State.maybeExecuted_has (s := t.waited n q es) (frame := frame) hq
  rw [show (t.waited n q es).peer.executed = s.peer.executed from hx] at hm
  refine fails_at (u := (t.waited n q es).maybeExecuted frame) (transceive_error hok ?_) (fun p w => ht _ p w) ?_ hf
  · rw [h]; exact bind_error (waitBusySent_error hw)
  · unfold State.releaseCs
    split
    · exact hm.elapse
    · exact hm

/-- The wait for "busy" is never met: the frame has been sent, chip-select is released, and whether the peer executed the
frame is its draw (R138, R286, R287). -/
theorem fails_never_busy (frame : List Byte) (rl k : Nat) (dst : Destination) (hf : frame ≠ [])
    (hok : ¬ (frame.length = 0 ∨ Config.maxFrame < frame.length ∨ Config.rxBufferSize < rl))
    (hk : k < Config.busyPollLimit)
    (hs : s.peer.Has Q (waitSamples false k ++ (List.replicate Config.busyPollLimit false ++ b)) r c) :
    Proc.Fails (transceive frame rl dst) s s (.busyTimeout .tWaitBusy)
      (Peer.HasMaybe Q b r c frame s.peer.executed) [frame] := by
  obtain ⟨xs, p, hx, h1, he, r1⟩ := exchangeCommand_sends frame k s hk hs
  obtain ⟨q, h2, r2⟩ := waitBusy_misses true (s.awaitingBusy k xs p) h1
  refine fails_sent hok r1 r2 h2 (fun _ _ _ => rfl) he ?_
  show sentFrames ((s.awaitingBusy k xs p).wire ++ _) = _
  rw [sentFrames_append, quiet_missEvents, sentFrames_awaitingBusy k p (by rintro rfl; exact hf hx.symm), hx]

/-- The wait for "not busy" after the command transaction is never met: the frame has been sent, and whether the peer
executed it is its draw (R135, R286, R287). -/
theorem fails_never_done (frame : List Byte) (rl k m : Nat) (dst : Destination) (hf : frame ≠ [])
    (hok : ¬ (frame.length = 0 ∨ Config.maxFrame < frame.length ∨ Config.rxBufferSize < rl))
    (hk : k < Config.busyPollLimit) (hm : m < Config.busyPollLimit)
    (hs : s.peer.Has Q (waitSamples false k ++ (waitSamples true m ++ (List.replicate Config.busyPollLimit true ++ b))) r
      c) :
    Proc.Fails (transceive frame rl dst) s s (.busyTimeout .tWaitDone)
      (Peer.HasMaybe Q b r c frame s.peer.executed) [frame] := by
  obtain ⟨xs, p, hx, h1, he, r1⟩ := exchangeCommand_consumed frame k m s hk hm hs
  obtain ⟨q, h2, r2⟩ := waitBusy_misses false (s.awaitingDone p k m xs) h1
  refine fails_sent hok r1 r2 h2 (fun _ _ _ => rfl) he ?_
  show sentFrames ((s.awaitingDone p k m xs).wire ++ _) = _
  rw [sentFrames_append, quiet_missEvents, sentFrames_awaitingDone k m p (by rintro rfl; exact hf hx.symm), hx]

/-- The wait for "not busy" after the receive transaction is never met: the frame has been executed and its bytes received,
none of which counts (R130, R135, R286). -/
theorem fails_never_finished (frame bs : List Byte) (dst : Destination) (pace : Pace) (hf : frame ≠ []) (hb : bs ≠ [])
    (hok : ¬ (frame.length = 0 ∨ Config.maxFrame < frame.length ∨ Config.rxBufferSize < bs.length))
    (hp : pace.bounded = true)
    (hs : s.peer.Has Q (pace.write ++ (List.replicate Config.busyPollLimit true ++ b)) (answers bs ++ r) c) :
    Proc.Fails (transceive frame bs.length dst) s { s with scratch := dst.stored (s.setXi 0) bs } (.busyTimeout .rWaitDone)
      (Peer.Has Q b r (c.exchange frame bs)) [frame] := by
  obtain ⟨xs, p, hx, h1, r1⟩ := exchangeCommand_run frame pace s hp hs
  generalize hT : ({ s with
      phase := .tWaitDone, cs := false, polls := pace.done + 1, xi := frame.length, peer := p
      wire := s.wire ++ commandEvents s.cs s.xi xs pace.ready pace.busy pace.done } : State) = T at r1
  obtain ⟨q, h2, r2⟩ := exchangeResponse_receives (s := T) frame bs dst (answering_answers dst bs (by omega))
    (by rw [← hT]; exact h1)
  obtain ⟨q', h3, r3⟩ := waitBusy_misses false (T.awaitingFinish dst bs q) h2
  refine fails_at ?_ (fun _ _ => ?_) h3 ?_
    (u := (T.awaitingFinish dst bs q).waited Config.busyPollLimit q' (missEvents .rWaitDone false bs.length false
      Config.busyPollLimit))
  · unfold transceive
    rw [if_neg hok, bind_ok r1, if_neg (by simpa using hb)]
    refine bind_error ?_
    rw [r2]
    exact bind_error r3
  · subst hT; cases dst <;> rfl
  · subst hT
    show sentFrames (State.wire _ ++ _) = _
    rw [sentFrames_append, quiet_missEvents]
    have := sentFrames_command s.wire s.cs s.xi xs pace.ready pace.busy pace.done (by rintro rfl; exact hf hx.symm)
    simp only [State.awaitingFinish, sentFrames_append, quiet_receiveEvents] at this ⊢
    rw [this, hx]
    rfl

/-- What is known of the peer after a timeout in the phase `ph`: its draw `x` says whether it executed a frame that timed out
before its last wait (R287). -/
def Peer.Stalled (Q : Prop) (b : List Bool) (r : List Reply) (c : Chip) (frame bs : List Byte) (ph : Phase)
    (ys : List Bool) (p : Peer) : Prop :=
  ∃ x : Bool, (∀ y rest, ys = y :: rest → x = y) ∧ p.Has Q b r (c.stalled frame bs ph x)

/-- An exchange that times out in any of its waits. -/
theorem fails_timeout (frame bs : List Byte) (dst : Destination) (pace : Pace) {ph : Phase} (hph : ph ∈ waitPhases)
    (hc : ph = .tWaitReady → s.cs = false) (hf : frame ≠ [])
    (hok : ¬ (frame.length = 0 ∨ Config.maxFrame < frame.length ∨ Config.rxBufferSize < bs.length))
    (hb : ph = .rWaitDone → bs ≠ []) (hp : pace.bounded = true)
    (hs : s.peer.Has Q (pace.timeout ph ++ b) (ph.replies bs ++ r) c) :
    Proc.Fails (transceive frame bs.length dst) s
      (if ph = .rWaitDone then { s with scratch := dst.stored (s.setXi 0) bs } else s) (.busyTimeout ph)
      (Peer.Stalled Q b r c frame bs ph s.peer.executed) (ph.sends frame) := by
  have hp' := hp
  simp only [Pace.bounded, Bool.and_eq_true, decide_eq_true_eq] at hp'
  have drawn : ∀ y rest, s.peer.executed = y :: rest → s.peer.drawExecuted.1 = y := by
    intro y rest h
    unfold Peer.drawExecuted
    rw [h]
  simp only [waitPhases, List.mem_cons, List.not_mem_nil, or_false] at hph
  rcases hph with rfl | rfl | rfl | rfl
  · exact (fails_never_ready frame bs.length dst (hc rfl) hok hs).weaken fun p h => ⟨_, drawn, h⟩
  · exact fails_never_busy frame bs.length pace.ready dst hf hok hp'.1.1.1 (by simpa [Pace.timeout, Phase.replies] using hs)
  · exact fails_never_done frame bs.length pace.ready pace.busy dst hf hok hp'.1.1.1 hp'.1.1.2
      (by simpa [Pace.timeout, Phase.replies] using hs)
  · exact (fails_never_finished frame bs dst pace hf (hb rfl) hok hp (by simpa [Pace.timeout, Phase.replies] using hs)).weaken
      fun p h => ⟨_, drawn, h⟩

end Sys2Proof.Machine
end

