-- ==== Sys2Proof/Laws/Exchanged.lean ====
section
/-! SUPPORT. What each command frame leaves on the peer, field by field (R46, R49, R72), and the procedures that fail. -/

namespace Sys2Proof.Machine

variable {Q : Prop} {ts : List Turn} {b : List Bool} {r : List Reply} {c : Chip}

/-- A frame that reads no register. -/
theorem exchange_other (c : Chip) (o : Opcode) (ps reply : List Byte) (h : o ≠ .readRegister) :
    c.exchange (o.code :: ps) reply = c.executeParams o ps := by
  rw [Chip.exchange, Chip.execute_cons, Chip.observe_other _ o ps reply h]

theorem exchange_writeRegister (c : Chip) (a : Byte) (v : Word) (reply : List Byte) :
    c.exchange (frameWriteRegister a v) reply =
      c.accessed a fun c => (c.writeRegister a v).flagsSetAgain a c := by
  refine (exchange_other c .writeRegister _ reply (by simp)).trans ?_
  simp only [bytesLe32, Chip.executeParams, le32_bytes]

theorem exchange_writeRegisterOrMask (c : Chip) (a : Byte) (m : Word) (reply : List Byte) :
    c.exchange (frameWriteRegisterOrMask a m) reply = c.accessed a fun c => c.orRegister a m := by
  refine (exchange_other c .writeRegisterOrMask _ reply (by simp)).trans ?_
  simp only [bytesLe32, Chip.executeParams, le32_bytes]

theorem exchange_writeRegisterAndMask (c : Chip) (a : Byte) (m : Word) (reply : List Byte) :
    c.exchange (frameWriteRegisterAndMask a m) reply =
      c.accessed a fun c => (c.andRegister a m).flagsSetAgain a c := by
  refine (exchange_other c .writeRegisterAndMask _ reply (by simp)).trans ?_
  simp only [bytesLe32, Chip.executeParams, le32_bytes]

/-- A clear of IRQ-Status through IRQ-Clear (R42). -/
theorem exchange_clear (c : Chip) (m : Word) (reply : List Byte) :
    c.exchange (frameWriteRegister 0x03 m) reply = c.updateReg 0x02 fun irq => irq &&& ~~~m :=
  exchange_writeRegister c 0x03 m reply

/-- Reading a named register other than IRQ-Clear makes its value known (R48). -/
theorem exchange_readRegister (c : Chip) (a : Byte) (v : Word) (h : a ≠ 0x03) (hn : namedAddress a = true) :
    c.exchange (frameReadRegister a) (bytesLe32 v) =
      Chip.setReg { c with response := c.registerResponse a } a v := by
  have h1 : c.execute (frameReadRegister a) = { c with response := c.registerResponse a } :=
    Chip.execute_cons c .readRegister [a]
  rw [Chip.exchange, h1]
  refine (if_pos ⟨rfl, h, hn⟩).trans ?_
  rw [le32_bytes]

/-- The bytes ready after a Read-Register are those of the register (R46, R65). -/
theorem execute_readRegister_response {c : Chip} {a : Byte} {v : Word} (hv : cellsRead c.regs a.toNat = some v)
    (h : a ≠ 0x03) (hn : namedAddress a = true) : (c.execute (frameReadRegister a)).response = (bytesLe32 v).map some := by
  rw [show c.execute (frameReadRegister a) = { c with response := c.registerResponse a } from
    Chip.execute_cons c .readRegister [a]]
  show c.registerResponse a = _
  unfold Chip.registerResponse
  rw [if_neg (by rintro (k | k); exacts [h k, by simp [hn] at k]), hv]

/-- The bytes ready after a Read-EEPROM are those of its range (R63). -/
theorem execute_readEeprom_response (c : Chip) (e l : Byte) (k : Nat) (hk : k < l.toNat) :
    (c.execute (frameReadEeprom e l)).response[k]? = some (cellsRead c.eeprom (e.toNat + k)) := by
  rw [show c.execute (frameReadEeprom e l) = { c with response := c.eepromResponse e l, rx := [] } from
    Chip.execute_cons c .readEeprom [e, l]]
  show (c.eepromResponse e l)[k]? = _
  simp [Chip.eepromResponse, hk]

/-- A read of a register changes what is known of that register only, beside the bytes ready to be shifted out. -/
theorem exchange_readRegister_eq (c : Chip) (a : Byte) (reply : List Byte) :
    ∃ rs x, c.exchange (frameReadRegister a) reply = { c with regs := rs, response := x } ∧
      ∀ y, y ≠ a.toNat → cellsRead rs y = cellsRead c.regs y := by
  have h1 : c.execute (frameReadRegister a) = { c with response := c.registerResponse a } :=
    Chip.execute_cons c .readRegister [a]
  rw [Chip.exchange, h1]
  unfold Chip.observe
  split
  · next heq =>
    obtain ⟨-, rfl⟩ : _ ∧ _ := by simpa [frameReadRegister] using heq
    split
    · exact ⟨_, _, rfl, fun y hy => cellsRead_write_other _ _ hy⟩
    · exact ⟨_, _, rfl, fun _ _ => rfl⟩
  · exact ⟨_, _, rfl, fun _ _ => rfl⟩

@[simp] theorem exchange_readEeprom (c : Chip) (e l : Byte) (reply : List Byte) :
    c.exchange (frameReadEeprom e l) reply = { c with response := c.eepromResponse e l, rx := [] } :=
  exchange_other c .readEeprom _ reply (by simp)

@[simp] theorem exchange_sendData (c : Chip) (v : Byte) (payload reply : List Byte) :
    c.exchange (frameSendData v payload) reply = { c with tx := some (v, payload) } :=
  exchange_other c .sendData _ reply (by simp)

@[simp] theorem exchange_readData (c : Chip) (reply : List Byte) :
    c.exchange frameReadData reply = { c with response := c.rx.map some, rx := [] } :=
  exchange_other c .readData _ reply (by simp)

@[simp] theorem exchange_loadRfConfig (c : Chip) (t x : Byte) (reply : List Byte) :
    c.exchange (frameLoadRfConfig t x) reply = { c with rfConfig := some (t, x) } :=
  exchange_other c .loadRfConfig _ reply (by simp)

@[simp] theorem exchange_rfOn (c : Chip) (reply : List Byte) :
    c.exchange frameRfOn reply = { c with rfField := some true } := exchange_other c .rfOn _ reply (by simp)

@[simp] theorem exchange_rfOff (c : Chip) (reply : List Byte) :
    c.exchange frameRfOff reply = { c with rfField := some false } := exchange_other c .rfOff _ reply (by simp)

/-! ## Registers -/

/-- Write-Register at a named address other than IRQ-Clear (R46, R295). -/
theorem exchange_writeRegister_plain (c : Chip) {a : Byte} (v : Word) (reply : List Byte) (hn : namedAddress a = true)
    (h3 : a ≠ 0x03) : c.exchange (frameWriteRegister a v) reply =
      c.setReg a (if a = 0x02 then v ||| c.reg 0x02 else v) := by
  rw [exchange_writeRegister, Chip.accessed, if_pos hn, Chip.writeRegister, if_neg (show a ≠ addrIrqClear from h3)]
  exact c.setReg_flagsSetAgain a v

/-- Write-Register-OR-Mask at a named address (R46). -/
theorem exchange_writeRegisterOrMask_named (c : Chip) {a : Byte} (m : Word) (reply : List Byte)
    (hn : namedAddress a = true) :
    c.exchange (frameWriteRegisterOrMask a m) reply = c.updateReg a fun x => x ||| m := by
  rw [exchange_writeRegisterOrMask, Chip.accessed, if_pos hn]; rfl

/-- Write-Register-AND-Mask at a named address (R46, R295). -/
theorem exchange_writeRegisterAndMask_named (c : Chip) {a : Byte} (m : Word) (reply : List Byte)
    (hn : namedAddress a = true) :
    c.exchange (frameWriteRegisterAndMask a m) reply = c.setReg a (if a = 0x02 then c.reg 0x02 else c.reg a &&& m) := by
  rw [exchange_writeRegisterAndMask, Chip.accessed, if_pos hn]
  refine (c.setReg_flagsSetAgain a (c.reg a &&& m)).trans ?_
  split
  · next h =>
    subst h
    rw [show c.reg 0x02 &&& m ||| c.reg 0x02 = c.reg 0x02 by
      ext i hi
      simp only [BitVec.getElem_and, BitVec.getElem_or]
      cases (c.reg 0x02)[i] <;> simp]
  · rfl

theorem Chip.reg_of_read {c : Chip} {a : Byte} {v : Word} (h : cellsRead c.regs a.toNat = some v) : c.reg a = v := by
  unfold Chip.reg; rw [h]

theorem Chip.updateReg_reg (c : Chip) (a : Byte) (f : Word → Word) : (c.updateReg a f).reg a = f (c.reg a) :=
  Chip.reg_of_read (by simp)

/-- After a read of a named register its value is known. -/
theorem exchange_readRegister_read (c : Chip) (a : Byte) (v : Word) (h : a ≠ 0x03) (hn : namedAddress a = true) :
    cellsRead (c.exchange (frameReadRegister a) (bytesLe32 v)).regs a.toNat = some v := by
  rw [exchange_readRegister c a v h hn]; simp

/-- After a read of a register every other one is as before. -/
theorem exchange_readRegister_other (c : Chip) (a : Byte) (reply : List Byte) {x : Nat} (h : x ≠ a.toNat) :
    cellsRead (c.exchange (frameReadRegister a) reply).regs x = cellsRead c.regs x := by
  obtain ⟨rs, y, h1, h2⟩ := exchange_readRegister_eq c a reply
  rw [h1]; exact h2 x h

@[simp] theorem exchange_readRegister_tx (c : Chip) (a : Byte) (reply : List Byte) :
    (c.exchange (frameReadRegister a) reply).tx = c.tx := by
  obtain ⟨rs, y, h, -⟩ := exchange_readRegister_eq c a reply; rw [h]
@[simp] theorem exchange_readRegister_rfConfig (c : Chip) (a : Byte) (reply : List Byte) :
    (c.exchange (frameReadRegister a) reply).rfConfig = c.rfConfig := by
  obtain ⟨rs, y, h, -⟩ := exchange_readRegister_eq c a reply; rw [h]
@[simp] theorem exchange_readRegister_rfField (c : Chip) (a : Byte) (reply : List Byte) :
    (c.exchange (frameReadRegister a) reply).rfField = c.rfField := by
  obtain ⟨rs, y, h, -⟩ := exchange_readRegister_eq c a reply; rw [h]

/-! ## Stretches of several frames -/

theorem Chip.irqRead_append (c : Chip) (ms : List (Pace × Word)) (m : Pace × Word) :
    c.irqRead (ms ++ [m]) = (c.irqRead ms).exchange (frameReadRegister 0x02) (bytesLe32 m.2) := by
  simp [Chip.irqRead]

/-- After reads of IRQ-Status its last value is known. -/
theorem Chip.irqRead_read (c : Chip) (ms : List (Pace × Word)) (m : Pace × Word) :
    cellsRead (c.irqRead (ms ++ [m])).regs 0x02 = some m.2 := by
  rw [Chip.irqRead_append]
  exact exchange_readRegister_read _ 0x02 m.2 (by decide) (by decide)

theorem Chip.irqRead_other (c : Chip) (ms : List (Pace × Word)) {x : Nat} (h : x ≠ 2) :
    cellsRead (c.irqRead ms).regs x = cellsRead c.regs x := by
  induction ms generalizing c with
  | nil => rfl
  | cons m ms ih => exact (ih _).trans (exchange_readRegister_other c 0x02 (bytesLe32 m.2) h)

@[simp] theorem Chip.irqRead_tx (c : Chip) (ms : List (Pace × Word)) : (c.irqRead ms).tx = c.tx := by
  induction ms generalizing c with
  | nil => rfl
  | cons m ms ih => exact (ih _).trans (by simp)
@[simp] theorem Chip.irqRead_rfConfig (c : Chip) (ms : List (Pace × Word)) : (c.irqRead ms).rfConfig = c.rfConfig := by
  induction ms generalizing c with
  | nil => rfl
  | cons m ms ih => exact (ih _).trans (by simp)
@[simp] theorem Chip.irqRead_rfField (c : Chip) (ms : List (Pace × Word)) : (c.irqRead ms).rfField = c.rfField := by
  induction ms generalizing c with
  | nil => rfl
  | cons m ms ih => exact (ih _).trans (by simp)

/-- A clear of IRQ-Status whose value is known. -/
theorem Chip.clear_read {c : Chip} {v : Word} (h : cellsRead c.regs 0x02 = some v) (m : Word) :
    cellsRead (c.exchange (frameWriteRegister 0x03 m) []).regs 0x02 = some (v &&& ~~~m) := by
  rw [exchange_clear, Chip.updateReg_regs, Chip.reg_of_read (a := 0x02) h]
  exact cellsRead_write_same _ _ _

theorem Chip.clear_other (c : Chip) (m : Word) {x : Nat} (h : x ≠ 2) :
    cellsRead (c.exchange (frameWriteRegister 0x03 m) []).regs x = cellsRead c.regs x := by
  rw [exchange_clear, Chip.updateReg_regs]
  exact cellsRead_write_other _ _ h

theorem Chip.armed_eq (c : Chip) :
    c.armed = (c.updateReg 0x00 fun x => x &&& Config.cmdClearMask).updateReg 0x00 fun x => x ||| Config.cmdTransceive := by
  unfold Chip.armed
  rw [exchange_writeRegisterAndMask_named c _ _ (by decide),
    exchange_writeRegisterOrMask_named _ _ _ (by decide)]
  rfl

/-- What the two mask writes leave in System-Config (R45, R167). -/
theorem Chip.armed_read (c : Chip) :
    cellsRead c.armed.regs 0x00 = some ((c.reg 0x00 &&& 0xFFFFFFF8) ||| 0x00000003) := by
  rw [Chip.armed_eq, Chip.updateReg_regs, Chip.updateReg_reg]
  exact cellsRead_write_same _ _ _

theorem Chip.armed_other (c : Chip) {x : Nat} (h : x ≠ 0) : cellsRead c.armed.regs x = cellsRead c.regs x := by
  have h' : x ≠ (0x00 : Byte).toNat := h
  rw [Chip.armed_eq, Chip.updateReg_regs, cellsRead_write_other _ _ h', Chip.updateReg_regs,
    cellsRead_write_other _ _ h']

@[simp] theorem Chip.armed_tx (c : Chip) : c.armed.tx = c.tx := by rw [Chip.armed_eq]; rfl
@[simp] theorem Chip.armed_rfConfig (c : Chip) : c.armed.rfConfig = c.rfConfig := by rw [Chip.armed_eq]; rfl
@[simp] theorem Chip.armed_rfField (c : Chip) : c.armed.rfField = c.rfField := by rw [Chip.armed_eq]; rfl

theorem Chip.tagSent_tx (c : Chip) (t : TagTurns) (req : List Byte) : (c.tagSent t req).tx = some (0x00, req) := by
  simp [Chip.tagSent]

theorem Chip.tagRead_tx (c : Chip) (t : TagTurns) (req : List Byte) : (c.tagRead t req).tx = some (0x00, req) := by
  simp [Chip.tagRead, Chip.tagSent]

/-- After the second read of IRQ-Status its value is known. -/
theorem Chip.tagRead_irq (c : Chip) (t : TagTurns) (req : List Byte) :
    cellsRead (c.tagRead t req).regs 0x02 = some t.irqAgain.2 :=
  exchange_readRegister_read _ 0x02 t.irqAgain.2 (by decide) (by decide)

/-! ## Procedures that fail -/

variable {s s1 s2 : State} {α : Type}

/-- An IRQ wait that never sees its flag: after `n` reads the limit is reached (R171). -/
theorem fails_waitIrqLoop (flag : IrqFlag) (limit : Nat) (reads : List (Pace × Word)) (n : Nat)
    (hs : s.peer.At Q (irqTurns reads ++ ts) b r c) (hb : ∀ m ∈ reads, m.1.bounded = true)
    (hm : ∀ m ∈ reads, flag.isSet m.2 = false) (hn : reads.length = n) (hl : s.irqPolls + n = limit) (h0 : 0 < n) :
    Proc.Fails (waitIrqLoop flag limit n) s s (.irqWaitTimeout flag.bit) (Peer.At Q ts b r (c.irqRead reads))
      (reads.map fun _ => frameReadRegister 0x02) := by
  induction reads generalizing s c n with
  | nil => simp at hn; omega
  | cons m reads ih =>
    obtain ⟨n, rfl⟩ : ∃ k, n = k + 1 := ⟨n - 1, by simp at hn; omega⟩
    obtain ⟨d, p, w, h1, hd, h3, h4⟩ := waitIrqLoop_read (ts := irqTurns reads ++ ts) flag limit n hs (hb m (by simp))
    have hf : ¬ flag.isSet m.2 = true := by simp [hm m (by simp)]
    simp only [List.length_cons, Nat.add_right_cancel_iff] at hn
    rw [if_neg hf] at h4
    by_cases hz : n = 0
    · subst hz
      obtain rfl : reads = [] := by simpa using hn
      rw [if_pos (by omega)] at h4
      exact ⟨_, p, w, h4, by simp [State.abortTo, State.releaseCs, State.after, State.goto, State.clearCounters,
        State.setIrqPolls], h1, h3⟩
    · rw [if_neg (by omega)] at h4
      obtain ⟨u, q, v, k1, k2, k3, k4⟩ := ih (n := n) (s := ((s.after d p w).setIrqPolls (s.irqPolls + 1)).sleep)
        (c := c.exchange (frameReadRegister 0x02) (bytesLe32 m.2)) (Peer.Has.elapse h1) (fun x hx => hb x (by simp [hx]))
        (fun x hx => hm x (by simp [hx])) hn (by simp; omega) (by omega)
      refine ⟨u, q, v, h4.trans k1, k2, k3, ?_⟩
      rw [k4, sentFrames_sleep, State.setIrqPolls_wire, State.after_wire, h3]
      simp

theorem fails_waitIrq (flag : IrqFlag) (limit : Nat) (reads : List (Pace × Word))
    (hs : s.peer.At Q (irqTurns reads ++ ts) b r c) (hb : ∀ m ∈ reads, m.1.bounded = true)
    (hm : ∀ m ∈ reads, flag.isSet m.2 = false) (hn : reads.length = limit) (h0 : reads ≠ []) :
    Proc.Fails (waitIrq flag limit) s s (.irqWaitTimeout flag.bit) (Peer.At Q ts b r (c.irqRead reads))
      (reads.map fun _ => frameReadRegister 0x02) := by
  refine fails_waitIrqLoop (s := s.setIrqPolls 0) flag limit reads limit hs hb hm hn (by simp) ?_
  rw [← hn]
  exact List.length_pos_of_ne_nil h0

/-- A peer that is not ready to transmit (R167). -/
theorem fails_sendData {p1 p2 p3 : Pace} {st : Word} {payload : List Byte} {v : Byte}
    (hs : s.peer.At Q (p1.silent :: p2.silent :: p3.answer st :: ts) b r c) (h1 : p1.bounded = true)
    (h2 : p2.bounded = true) (h3 : p3.bounded = true) (ha : sendAdmitted payload v = true)
    (hst : decodeTs st ≠ .waitTransmit) :
    Proc.Fails (sendData payload v) s s .notReady
      (Peer.At Q ts b r (c.armed.exchange (frameReadRegister 0x1D) (bytesLe32 st)))
      ((armFrames ++ [frameReadRegister 0x1D]) ++ []) := by
  rw [sendData_admitted ha]
  exact (goes_armAndAsk hs h1 h2 h3).fails fun d p w h => fails_require (by simp [hst]) h

/-- `GetTransceiveState` swallows a busy timeout and answers Idle (R202, R286). -/
theorem getTransceiveState_swallows {P : Peer → Prop} {ph : Phase} {fs : List (List Byte)}
    (h : Proc.Fails (readRegister PeerRegister.rfStatus.addr) s s (.busyTimeout ph) P fs) :
    Proc.Goes getTransceiveState s s .idle P fs := by
  obtain ⟨u, p, w, h1, h2, h3, h4⟩ := h
  refine ⟨(0, 0, 0), p, w, ?_, h3, h4⟩
  unfold getTransceiveState
  rw [h1]
  exact congrArg _ h2

/-- A read of RF-Status that times out, in whichever wait, counts as Idle, so the payload is not sent (R167, R202). -/
theorem fails_sendData_unanswered {p1 p2 p3 : Pace} {payload bs : List Byte} {v : Byte} {ph : Phase}
    (hph : ph ∈ waitPhases) (hl : bs.length = 4)
    (hs : s.peer.Has Q (turnSamples [p1.silent, p2.silent] ++ (p3.timeout ph ++ b)) (ph.replies bs ++ r) c)
    (h1 : p1.bounded = true) (h2 : p2.bounded = true) (h3 : p3.bounded = true) (ha : sendAdmitted payload v = true) :
    Proc.Fails (sendData payload v) s s .notReady
      (fun p => ∃ ys, Peer.Stalled Q b r c.armed (frameReadRegister 0x1D) bs ph ys p)
      (armFrames ++ (ph.sends (frameReadRegister 0x1D) ++ [])) := by
  rw [sendData_admitted ha]
  unfold armAndAsk
  simp only [bind_assoc]
  rw [← bind_assoc]
  refine (goes_armWrites (ts := []) (r := ph.replies bs ++ r) (c := c) (Q := Q) hs h1 h2).fails fun d p w h => ?_
  refine Proc.Goes.fails (s1 := s) (getTransceiveState_swallows (s := s.after d p w) (ph := ph)
    (P := fun p => ∃ ys, Peer.Stalled Q b r c.armed (frameReadRegister 0x1D) bs ph ys p) ?_).rebase
    fun d p w h => fails_require (by decide) h
  have hne : bs ≠ [] := by rintro rfl; simp at hl
  have hok : ¬ ((frameReadRegister 0x1D).length = 0 ∨ Config.maxFrame < (frameReadRegister 0x1D).length ∨
      Config.rxBufferSize < bs.length) := by rw [hl]; decide
  have hx := fails_timeout (s := s.after d p w) (frameReadRegister 0x1D) bs .transient p3 hph (fun _ => rfl)
    (by simp [frameReadRegister]) hok (fun _ => hne) h3 (by simpa [Peer.At, turnSamples, turnReplies] using h)
  rw [hl] at hx
  have := Proc.Fails.bind (g := fun r => (pure (responseWord r) : Proc Word)) (hx.weaken
    (P' := fun p => ∃ ys, Peer.Stalled Q b r c.armed (frameReadRegister 0x1D) bs ph ys p) fun p h => ⟨_, h⟩)
  split at this <;> exact this

/-- No start-of-frame at the first read of IRQ-Status: no card (R221, R222). -/
theorem fails_noCard {t : TagTurns} {req : List Byte} {parser : List Byte → Except OpError Value}
    (hs : s.peer.At Q (t.sending ++ t.irq.1.answer t.irq.2 :: ts) b r c)
    (hb : ∀ x ∈ t.sending ++ [t.irq.1.answer t.irq.2], x.pace.bounded = true) (h1 : decodeTs t.state.2 = .waitTransmit)
    (h2 : t.irq.2.getLsbD 14 = false) (hreq : req.length ≤ Config.maxSendPayload) :
    Proc.Fails (issueTagCommand req parser) s s .noCardDetected
      (Peer.At Q ts b r ((c.tagSent t req).exchange (frameReadRegister 0x02) (bytesLe32 t.irq.2)))
      ((tagSendFrames req ++ [frameReadRegister 0x02]) ++ []) := by
  simp only [TagTurns.sending, List.cons_append, List.nil_append, List.mem_cons, List.not_mem_nil, or_false,
    forall_eq_or_imp, forall_eq, Pace.silent, Pace.answer] at hb
  obtain ⟨b1, b2, b3, b4, b5⟩ := hb
  rw [issueTagCommand_eq]
  exact (goes_tagProbe (p1 := t.clearMask) (p2 := t.setMask) (p3 := t.state.1) (p4 := t.send) (p5 := t.irq.1) hs b1 b2 b3 b4
    b5 hreq h1).fails fun d p w h => fails_require h2 h

/-- The sequencer up to its second read of IRQ-Status, with what fails from there on (R221). -/
theorem fails_tagConclude {t : TagTurns} {req : List Byte} {parser : List Byte → Except OpError Value} {e : OpError}
    (hs : s.peer.At Q (t.reading ++ ts) b r c) (hb : ∀ x ∈ t.reading, x.pace.bounded = true)
    (h1 : decodeTs t.state.2 = .waitTransmit) (h2 : t.irq.2.getLsbD 14 = true)
    (h4 : rxLength t.length.2 = t.response.2.length) (h5 : t.response.2.length ≤ Config.rxBufferSize)
    (hreq : req.length ≤ Config.maxSendPayload)
    (hf : ∀ d p w, Peer.At Q ts b r (c.tagRead t req) p →
      Proc.Fails (tagConclude parser t.response.2 t.irqAgain.2) ((s.received t.response.2).after d p w)
        (s.received t.response.2) e (Peer.At Q ts b r (c.tagRead t req)) []) :
    Proc.Fails (issueTagCommand req parser) s (s.received t.response.2) e (Peer.At Q ts b r (c.tagRead t req))
      (tagFrames req ++ []) := by
  rw [issueTagCommand_prefix]
  exact (goes_tagPrefix hs hb h1 h2 h4 h5 hreq).fails hf

/-- No start-of-frame at the second read of IRQ-Status: no card, before the response is looked at (R225). -/
theorem fails_noCardAgain {t : TagTurns} {req : List Byte} {parser : List Byte → Except OpError Value}
    (hs : s.peer.At Q (t.reading ++ ts) b r c) (hb : ∀ x ∈ t.reading, x.pace.bounded = true)
    (h1 : decodeTs t.state.2 = .waitTransmit) (h2 : t.irq.2.getLsbD 14 = true) (h3 : t.irqAgain.2.getLsbD 14 = false)
    (h4 : rxLength t.length.2 = t.response.2.length) (h5 : t.response.2.length ≤ Config.rxBufferSize)
    (hreq : req.length ≤ Config.maxSendPayload) :
    Proc.Fails (issueTagCommand req parser) s (s.received t.response.2) .noCardDetected
      (Peer.At Q ts b r (c.tagRead t req)) (tagFrames req ++ []) :=
  fails_tagConclude hs hb h1 h2 h4 h5 hreq fun _ _ _ h => fails_require (s := s.received t.response.2) h3 h

/-- A response that ends the command with an error: an error code (R226), or too short (R229). IRQ-Status stays. -/
theorem fails_response {t : TagTurns} {req : List Byte} {parser : List Byte → Except OpError Value} {e : OpError}
    (hs : s.peer.At Q (t.reading ++ ts) b r c) (hb : ∀ x ∈ t.reading, x.pace.bounded = true) (ha : t.answered = true)
    (hreq : req.length ≤ Config.maxSendPayload) (hp : parseResponse t.response.2 = .error e) :
    Proc.Fails (issueTagCommand req parser) s (s.received t.response.2) e (Peer.At Q ts b r (c.tagRead t req))
      (tagFrames req ++ []) := by
  obtain ⟨h1, h2, h3, h4, h5⟩ := t.answered_iff.1 ha
  exact fails_tagConclude hs hb h1 h2 h4 h5 hreq fun _ _ _ h =>
    Proc.Fails.require h3 (fails_fromParser (s := s.received t.response.2) hp h)

/-- A payload that the command's own parser rejects (R229). IRQ-Status stays (R228, R295; log 29). -/
theorem fails_payload {t : TagTurns} {req : List Byte} {payload : List Byte} {e : OpError}
    {parser : List Byte → Except OpError Value} (hs : s.peer.At Q (t.reading ++ ts) b r c)
    (hb : ∀ x ∈ t.reading, x.pace.bounded = true) (ha : t.answered = true) (hreq : req.length ≤ Config.maxSendPayload)
    (hp : parseResponse t.response.2 = .ok payload) (hv : parser payload = .error e) :
    Proc.Fails (issueTagCommand req parser) s (s.received t.response.2) e (Peer.At Q ts b r (c.tagRead t req))
      (tagFrames req ++ []) := by
  obtain ⟨h1, h2, h3, h4, h5⟩ := t.answered_iff.1 ha
  exact fails_tagConclude hs hb h1 h2 h4 h5 hreq fun _ _ _ h =>
    Proc.Fails.require h3 (Proc.Fails.fromParser hp (fails_fromParser (s := s.received t.response.2) hv h))

end Sys2Proof.Machine
end

