-- ==== Sys2Proof/Laws/PerInstr.lean ====
section
/-! SUPPORT. What holds of every instruction as syntax, one lemma per constructor. -/

namespace Sys2Proof.Laws

/-- The layer of an instruction: only a host operation is a term (R118), an instruction that is never built is a tag request
(R241 to R251), and the field is asked for exactly where a tag request is sent (R289). -/
def EncodedLayer.Statement (i : Instr) : Prop :=
  (i.isHostOp = true ↔ ∃ t, encode i = .term t) ∧ (i.neverBuilt = true → ∃ bs, encode i = .tagRequest bs) ∧
    (i.needsRf = true ↔ Machine.tagRequestOf i ≠ none)

variable {i : Instr}

theorem EncodedLayer.of_plainTerm {t : Term} (h1 : i.isHostOp = true) (h2 : encode i = .term t) (h3 : i.neverBuilt = false)
    (h4 : i.needsRf = false) (h5 : Machine.tagRequestOf i = none) : EncodedLayer.Statement i := by
  simp [EncodedLayer.Statement, h1, h2, h3, h4, h5]

theorem EncodedLayer.of_tagTerm {t : Term} {req : List Byte} (h1 : i.isHostOp = true) (h2 : encode i = .term t)
    (h3 : i.neverBuilt = false) (h4 : i.needsRf = true) (h5 : Machine.tagRequestOf i = some req) :
    EncodedLayer.Statement i := by
  simp [EncodedLayer.Statement, h1, h2, h3, h4, h5]

theorem EncodedLayer.of_frame {bs : List Byte} {n : Nat} (h1 : i.isHostOp = false) (h2 : encode i = .frame bs n)
    (h3 : i.neverBuilt = false) (h4 : i.needsRf = false) (h5 : Machine.tagRequestOf i = none) :
    EncodedLayer.Statement i := by
  simp [EncodedLayer.Statement, h1, h2, h3, h4, h5]

theorem EncodedLayer.of_built {bs req : List Byte} (h1 : i.isHostOp = false) (h2 : encode i = .tagRequest bs)
    (h3 : i.neverBuilt = false) (h4 : i.needsRf = true) (h5 : Machine.tagRequestOf i = some req) :
    EncodedLayer.Statement i := by
  simp [EncodedLayer.Statement, h1, h2, h3, h4, h5]

theorem EncodedLayer.of_neverBuilt {bs : List Byte} (h1 : i.isHostOp = false) (h2 : encode i = .tagRequest bs)
    (h4 : i.needsRf = false) (h5 : Machine.tagRequestOf i = none) : EncodedLayer.Statement i := by
  simp [EncodedLayer.Statement, h1, h2, h4, h5]

theorem EncodedLayer.cmdWriteRegister (a : Byte) (v : Word) : EncodedLayer.Statement (.cmdWriteRegister a v) :=
  EncodedLayer.of_frame rfl rfl rfl rfl rfl
theorem EncodedLayer.cmdWriteRegisterOrMask (a : Byte) (m : Word) : EncodedLayer.Statement (.cmdWriteRegisterOrMask a m) :=
  EncodedLayer.of_frame rfl rfl rfl rfl rfl
theorem EncodedLayer.cmdWriteRegisterAndMask (a : Byte) (m : Word) : EncodedLayer.Statement (.cmdWriteRegisterAndMask a m) :=
  EncodedLayer.of_frame rfl rfl rfl rfl rfl
theorem EncodedLayer.cmdReadRegister (a : Byte) : EncodedLayer.Statement (.cmdReadRegister a) :=
  EncodedLayer.of_frame rfl rfl rfl rfl rfl
theorem EncodedLayer.cmdReadEeprom (e l : Byte) : EncodedLayer.Statement (.cmdReadEeprom e l) :=
  EncodedLayer.of_frame rfl rfl rfl rfl rfl
theorem EncodedLayer.cmdSendData (b : Byte) (payload : List Byte) : EncodedLayer.Statement (.cmdSendData b payload) :=
  EncodedLayer.of_frame rfl rfl rfl rfl rfl
theorem EncodedLayer.cmdReadData (n : Nat) : EncodedLayer.Statement (.cmdReadData n) :=
  EncodedLayer.of_frame rfl rfl rfl rfl rfl
theorem EncodedLayer.cmdLoadRfConfig (t r : Byte) : EncodedLayer.Statement (.cmdLoadRfConfig t r) :=
  EncodedLayer.of_frame rfl rfl rfl rfl rfl
theorem EncodedLayer.cmdRfOn : EncodedLayer.Statement (.cmdRfOn) :=
  EncodedLayer.of_frame rfl rfl rfl rfl rfl
theorem EncodedLayer.cmdRfOff : EncodedLayer.Statement (.cmdRfOff) :=
  EncodedLayer.of_frame rfl rfl rfl rfl rfl
theorem EncodedLayer.tagInventory : EncodedLayer.Statement (.tagInventory) :=
  EncodedLayer.of_built rfl rfl rfl rfl rfl
theorem EncodedLayer.tagStayQuiet (flags : Byte) (params : List Byte) : EncodedLayer.Statement (.tagStayQuiet flags params) :=
  EncodedLayer.of_neverBuilt rfl rfl rfl rfl
theorem EncodedLayer.tagReadSingleBlock (uid : Uid) (blockNo : Byte) : EncodedLayer.Statement (.tagReadSingleBlock uid blockNo) :=
  EncodedLayer.of_built rfl rfl rfl rfl rfl
theorem EncodedLayer.tagWriteSingleBlock (uid : Uid) (blockNo : Byte) (data : List Byte) : EncodedLayer.Statement (.tagWriteSingleBlock uid blockNo data) :=
  EncodedLayer.of_built rfl rfl rfl rfl rfl
theorem EncodedLayer.tagLockBlock (flags : Byte) (params : List Byte) : EncodedLayer.Statement (.tagLockBlock flags params) :=
  EncodedLayer.of_neverBuilt rfl rfl rfl rfl
theorem EncodedLayer.tagReadMultipleBlocks (flags : Byte) (params : List Byte) : EncodedLayer.Statement (.tagReadMultipleBlocks flags params) :=
  EncodedLayer.of_neverBuilt rfl rfl rfl rfl
theorem EncodedLayer.tagWriteMultipleBlock (flags : Byte) (params : List Byte) : EncodedLayer.Statement (.tagWriteMultipleBlock flags params) :=
  EncodedLayer.of_neverBuilt rfl rfl rfl rfl
theorem EncodedLayer.tagSelect (flags : Byte) (params : List Byte) : EncodedLayer.Statement (.tagSelect flags params) :=
  EncodedLayer.of_neverBuilt rfl rfl rfl rfl
theorem EncodedLayer.tagResetToReady (flags : Byte) (params : List Byte) : EncodedLayer.Statement (.tagResetToReady flags params) :=
  EncodedLayer.of_neverBuilt rfl rfl rfl rfl
theorem EncodedLayer.tagWriteAfi (flags : Byte) (params : List Byte) : EncodedLayer.Statement (.tagWriteAfi flags params) :=
  EncodedLayer.of_neverBuilt rfl rfl rfl rfl
theorem EncodedLayer.tagLockAfi (flags : Byte) (params : List Byte) : EncodedLayer.Statement (.tagLockAfi flags params) :=
  EncodedLayer.of_neverBuilt rfl rfl rfl rfl
theorem EncodedLayer.tagWriteDsfid (flags : Byte) (params : List Byte) : EncodedLayer.Statement (.tagWriteDsfid flags params) :=
  EncodedLayer.of_neverBuilt rfl rfl rfl rfl
theorem EncodedLayer.tagLockDsfid (flags : Byte) (params : List Byte) : EncodedLayer.Statement (.tagLockDsfid flags params) :=
  EncodedLayer.of_neverBuilt rfl rfl rfl rfl
theorem EncodedLayer.tagGetSystemInfo (uid : Uid) : EncodedLayer.Statement (.tagGetSystemInfo uid) :=
  EncodedLayer.of_built rfl rfl rfl rfl rfl
theorem EncodedLayer.tagGetMultipleBlockSecurityStatus (flags : Byte) (params : List Byte) : EncodedLayer.Statement (.tagGetMultipleBlockSecurityStatus flags params) :=
  EncodedLayer.of_neverBuilt rfl rfl rfl rfl
theorem EncodedLayer.writeReg (a : Byte) (v : Word) : EncodedLayer.Statement (.writeReg a v) :=
  EncodedLayer.of_plainTerm rfl rfl rfl rfl rfl
theorem EncodedLayer.writeRegOr (a : Byte) (m : Word) : EncodedLayer.Statement (.writeRegOr a m) :=
  EncodedLayer.of_plainTerm rfl rfl rfl rfl rfl
theorem EncodedLayer.writeRegAnd (a : Byte) (m : Word) : EncodedLayer.Statement (.writeRegAnd a m) :=
  EncodedLayer.of_plainTerm rfl rfl rfl rfl rfl
theorem EncodedLayer.readReg (a : Byte) : EncodedLayer.Statement (.readReg a) :=
  EncodedLayer.of_plainTerm rfl rfl rfl rfl rfl
theorem EncodedLayer.readEeprom (addr len : Byte) : EncodedLayer.Statement (.readEeprom addr len) :=
  EncodedLayer.of_plainTerm rfl rfl rfl rfl rfl
theorem EncodedLayer.sendData (payload : List Byte) (b : Byte) : EncodedLayer.Statement (.sendData payload b) :=
  EncodedLayer.of_plainTerm rfl rfl rfl rfl rfl
theorem EncodedLayer.readData (n : Nat) : EncodedLayer.Statement (.readData n) :=
  EncodedLayer.of_plainTerm rfl rfl rfl rfl rfl
theorem EncodedLayer.loadRfConfig (t r : Byte) : EncodedLayer.Statement (.loadRfConfig t r) :=
  EncodedLayer.of_plainTerm rfl rfl rfl rfl rfl
theorem EncodedLayer.rfOn : EncodedLayer.Statement (.rfOn) :=
  EncodedLayer.of_plainTerm rfl rfl rfl rfl rfl
theorem EncodedLayer.rfOff : EncodedLayer.Statement (.rfOff) :=
  EncodedLayer.of_plainTerm rfl rfl rfl rfl rfl
theorem EncodedLayer.getIrq : EncodedLayer.Statement (.getIrq) :=
  EncodedLayer.of_plainTerm rfl rfl rfl rfl rfl
theorem EncodedLayer.clearIrq (m : Word) : EncodedLayer.Statement (.clearIrq m) :=
  EncodedLayer.of_plainTerm rfl rfl rfl rfl rfl
theorem EncodedLayer.getTs : EncodedLayer.Statement (.getTs) :=
  EncodedLayer.of_plainTerm rfl rfl rfl rfl rfl
theorem EncodedLayer.reset : EncodedLayer.Statement (.reset) :=
  EncodedLayer.of_plainTerm rfl rfl rfl rfl rfl
theorem EncodedLayer.inventory : EncodedLayer.Statement (.inventory) :=
  EncodedLayer.of_tagTerm rfl rfl rfl rfl rfl
theorem EncodedLayer.readBlock (uid : Uid) (blockNo : Byte) (blockSize : Nat) : EncodedLayer.Statement (.readBlock uid blockNo blockSize) :=
  EncodedLayer.of_tagTerm rfl rfl rfl rfl rfl
theorem EncodedLayer.writeBlock (uid : Uid) (blockNo : Byte) (data : List Byte) : EncodedLayer.Statement (.writeBlock uid blockNo data) :=
  EncodedLayer.of_tagTerm rfl rfl rfl rfl rfl
theorem EncodedLayer.getSysinfo (uid : Uid) : EncodedLayer.Statement (.getSysinfo uid) :=
  EncodedLayer.of_tagTerm rfl rfl rfl rfl rfl
theorem EncodedLayer.setupRf : EncodedLayer.Statement (.setupRf) :=
  EncodedLayer.of_plainTerm rfl rfl rfl rfl rfl

end Sys2Proof.Laws
end

