-- ==== Sys2Proof/Laws/Trace.lean ====
section
/-! SUPPORT. The reset-line levels of a reset; where the received bytes go; the outcomes of a one-frame operation; the shape
that the tag commands share. -/

namespace Sys2Proof.Machine

variable {s : State} {α : Type}

/-! ## The reset line -/

/-- A stretch that may not touch the reset line keeps the levels driven, whatever its end. -/
theorem Proc.Runs.levels {G : Prop} {may : May} {p : Proc α} (h : Proc.Runs G may p s) (hm : may.reset = false) :
    Proc.Holds p s (fun _ t => resetLevels t.wire = resetLevels s.wire ∧ t.rst = s.rst)
      fun _ t => resetLevels t.wire = resetLevels s.wire ∧ t.rst = s.rst :=
  h.mono (fun _ _ h => ⟨h.1.levels hm, h.1.rst hm⟩) fun _ _ h => ⟨h.1.levels hm, h.1.rst hm⟩

/-- `Reset` drives the line Low, then High, and leaves it High, whatever its end (R206). -/
theorem resetPeer_levels (s : State) :
    Proc.Holds resetPeer s (fun _ t => resetLevels t.wire = resetLevels s.wire ++ [.low, .high] ∧ t.rst = .high)
      fun _ t => resetLevels t.wire = resetLevels s.wire ++ [.low, .high] ∧ t.rst = .high := by
  rw [resetPeer_eq]
  simp only [holds_update_bind, holds_current_bind]
  have h0 : resetLevels s.pulsed.wire = resetLevels s.wire ++ [.low, .high] := by simp [State.pulsed, resetLevels]
  have h1 : s.pulsed.rst = .high := rfl
  generalize s.pulsed = t at h0 h1
  refine ((runs_waitIrq (G := False) (may := .register addrIrqStatus) (s := t) .idle t.params.resetPollLimit ⟨rfl, rfl⟩
    (by simp) (Nat.le_max_right _ _)).levels rfl).seq' ?_ fun _ u hu => ?_
  · rintro e u ⟨k1, k2⟩
    exact ⟨k1.trans h0, k2.trans h1⟩
  refine ((runs_clearIrqStatus (G := False) (may := .register addrIrqStatus) (s := u) clearAllMask ⟨rfl, rfl⟩ (by simp)).levels
    rfl).seq' ?_ fun _ v hv => ?_
  · rintro e v ⟨k1, k2⟩
    exact ⟨(k1.trans hu.1).trans h0, (k2.trans hu.2).trans h1⟩
  · exact ⟨(hv.1.trans hu.1).trans h0, (hv.2.trans hu.2).trans h1⟩

/-! ## The scratch buffer -/

/-- `ReadData(n)` writes no byte of the scratch buffer from offset `n` on, whatever its end; at its normal end `n` bytes
count as valid, at any other none (R25, R26, R166). -/
theorem fetchData_scratch (n : Nat) (s : State) :
    Proc.Holds (fetchData n) s
      (fun _ t => (∀ a, n ≤ a → cellsRead t.scratch a = cellsRead s.scratch a) ∧ t.scratchValid = n)
      fun _ t => (∀ a, n ≤ a → cellsRead t.scratch a = cellsRead s.scratch a) ∧ t.scratchValid = 0 := by
  have stored : ∀ (t : State) (r : List Byte), r.length = n → t.scratch = s.scratch.write 0 r →
      ∀ a, n ≤ a → cellsRead t.scratch a = cellsRead s.scratch a := by
    intro t r hr ht a ha
    rw [ht, Memory.read_write, if_neg (by omega)]
  let may : May := { May.nothing with data := true, receive := true }
  unfold fetchData
  rw [holds_update_bind]
  refine (transceive_holds (G := False) (may := may) (s := s.setValid 0) frameReadData n .scratch (by simp)
    (sendable_readData rfl) fun _ => ⟨rfl, rfl⟩).seq' ?_ ?_
  · rintro e t ⟨-, -, hv, -, h⟩
    refine ⟨?_, hv⟩
    rcases h with h | ⟨r, hr, h⟩
    · intro a _; rw [h]; rfl
    · exact stored t r hr h
  · rintro r t ⟨-, -, -, -, hr, -, hle, h⟩
    rw [holds_update_bind]
    subst hr
    unfold Proc.Holds
    rw [memRead_received s t r hle h]
    exact ⟨stored _ r rfl h, rfl⟩

/-! ## Operations of one frame -/

/-- A frame within its bounds is sent or times out; no outcome has been delivered yet (R130, R132). -/
theorem sendFrame_ends {may : May} (frame : List Byte) (s : State) (hf : Sendable may frame)
    (hok : ¬ BadExchange frame 0) :
    Proc.Holds (sendFrame frame) s (fun _ t => t.delivered = s.delivered)
      fun e t => t.delivered = s.delivered ∧ ∃ p, e = .err (.busyTimeout p) := by
  refine (transceive_holds (G := False) (may := may) frame 0 .transient (by simp) hf transient_writable).seq' ?_ ?_
  · rintro e t ⟨h1, h2, -⟩
    exact ⟨h2.delivered, h1.resolve_left fun h => hok h.2⟩
  · exact fun _ _ h => h.1.delivered

/-- An operation whose procedure ends normally or with a busy timeout (R161 to R164, R170). -/
theorem booted_ends {body : Proc Value} (P : Value → Prop) (hi : s.phase = .idle) (hb : s.initialized = true)
    (h : Proc.Holds body (s.goto .op) (fun v t => t.delivered = s.delivered ∧ P v)
      fun e t => t.delivered = s.delivered ∧ ∃ p, e = .err (.busyTimeout p)) :
    ∃ t, runOperation .booted body s = .next t ∧ ((∃ v, P v ∧ t.delivered = s.delivered ++ [.ok v]) ∨
      ∃ ph, t.delivered = s.delivered ++ [.err (.busyTimeout ph)]) := by
  unfold runOperation
  rw [if_neg (by simp [hi]), if_pos hi, entryFault_booted hb]
  unfold Proc.Holds at h
  revert h
  cases body (s.goto .op) with
  | ok v t => exact fun ⟨h1, h2⟩ => ⟨_, rfl, .inl ⟨v, h2, by simp [State.finish, h1]⟩⟩
  | error e t =>
    rintro ⟨h1, p, rfl⟩
    exact ⟨_, rfl, .inr ⟨p, by simp [h1]⟩⟩

/-! ## The tag commands -/

/-- Every instruction with a tag request runs the sequencer on it, with its own parser (R221, R230 to R233). -/
theorem exec_tag {i : Instr} {req : List Byte} (h : tagRequestOf i = some req) :
    ∃ f, ∀ s, exec i s = runOperation .rfConfirmed (issueTagCommand req f) s := by
  cases i <;> simp [tagRequestOf] at h <;> subst h <;> exact ⟨_, fun _ => rfl⟩

end Sys2Proof.Machine
end

