-- ==== Sys2Proof/Laws/Stalled.lean ====
section
/-! SUPPORT. Procedures exchange by exchange: what each does when the peer plays all of its exchanges, and when a wait in one of
them is never met. -/

namespace Sys2Proof.Machine

variable {s s1 s2 u : State} {α β : Type} {Q : Prop} {b : List Bool} {r : List Reply} {c : Chip}

/-! ## The draws on a timeout are drawn on a timeout only -/

/-- A run that ends normally leaves the script of those draws alone. -/
def Proc.Steady (f : Proc α) : Prop := ∀ s, Proc.Holds f s (fun _ t => t.peer.executed = s.peer.executed) fun _ _ => True

theorem Proc.Steady.bind {f : Proc α} {g : α → Proc β} (hf : f.Steady) (hg : ∀ a, (g a).Steady) : (f >>= g).Steady :=
  fun s => (hf s).seq fun a t h => (hg a t).mono (fun _ _ k => k.trans h) fun _ _ _ => trivial

theorem steady_pure (a : α) : (pure a : Proc α).Steady := fun _ => rfl

theorem steady_update {f : State → State} {g : Unit → Proc α} (h : ∀ s, (f s).peer.executed = s.peer.executed)
    (hg : (g ()).Steady) : (update f >>= g).Steady :=
  fun s => (hg (f s)).mono (fun _ _ k => k.trans (h s)) fun _ _ _ => trivial

theorem steady_current {g : State → Proc α} (h : ∀ s, (g s).Steady) : (current >>= g).Steady := fun s => h s s

theorem steady_waitBusySent (target : Bool) (frame : List Byte) : (waitBusySent target frame).Steady := by
  intro s
  unfold Proc.Holds
  cases h : waitBusy target s with
  | ok a t => rw [waitBusySent_ok h]; exact (waitBusy_drawn h).executed
  | error e t => rw [waitBusySent_error h]; trivial

theorem steady_waitBusy (target : Bool) : (waitBusy target).Steady := by
  intro s
  unfold Proc.Holds
  cases h : waitBusy target s with
  | ok a t => exact (waitBusy_drawn h).executed
  | error e t => trivial

theorem steady_sendBytes (bs : List Byte) : (sendBytes bs).Steady := by
  intro s
  obtain ⟨xs, p, -, hd, -, -, h⟩ := sendBytes_run bs s
  unfold Proc.Holds
  rw [h]
  exact hd.executed

theorem steady_storeReply (dst : Destination) (x : Byte) : (storeReply dst x).Steady := by
  intro s
  cases dst with
  | transient => rfl
  | scratch =>
    show Proc.Holds (memWrite s.xi [x]) s _ _
    unfold Proc.Holds memWrite
    by_cases h : s.xi + [x].length ≤ Config.rxBufferSize
    · rw [if_pos h]; rfl
    · rw [if_neg h]; trivial

theorem steady_receiveBytes (dst : Destination) (n : Nat) : (receiveBytes dst n).Steady := by
  induction n with
  | zero => exact steady_pure []
  | succ n ih =>
    refine Proc.Steady.bind (fun s => ?_) fun x => Proc.Steady.bind (steady_storeReply dst x) fun _ =>
      steady_update (fun _ => rfl) (Proc.Steady.bind ih fun _ => steady_pure _)
    exact ((Peer.elapse_drawn _).trans (s.peer.elapse.drawReply_effect s.xi).1).executed

theorem steady_exchangeCommand (frame : List Byte) : (exchangeCommand frame).Steady :=
  steady_update (fun _ => rfl) <| Proc.Steady.bind (steady_waitBusy false) fun _ =>
  steady_update (fun _ => by simp [State.select]) <| steady_update (fun _ => rfl) <|
  Proc.Steady.bind (steady_sendBytes frame) fun _ => steady_update (fun _ => rfl) <|
  Proc.Steady.bind (steady_waitBusySent true frame) fun _ => steady_update (fun _ => by simp [State.release]) <|
  steady_update (fun _ => rfl) <| Proc.Steady.bind (steady_waitBusySent false frame) fun _ => fun _ => rfl

theorem steady_exchangeResponse (frame : List Byte) (n : Nat) (dst : Destination) :
    (exchangeResponse frame n dst).Steady :=
  steady_current fun _ => steady_update (fun _ => by simp [State.select]) <| steady_update (fun _ => rfl) <|
  Proc.Steady.bind (steady_receiveBytes dst n) fun _ => steady_update (fun _ => rfl) <|
  steady_update (fun _ => by simp [State.release]) <| steady_update (fun _ => rfl) <|
  Proc.Steady.bind (steady_waitBusy false) fun _ => steady_pure _

theorem steady_transceive (frame : List Byte) (rl : Nat) (dst : Destination) : (transceive frame rl dst).Steady := by
  unfold transceive
  split
  · exact fun _ => trivial
  · refine Proc.Steady.bind (steady_exchangeCommand frame) fun _ => ?_
    split
    · exact steady_update (fun _ => rfl) (steady_pure _)
    · exact Proc.Steady.bind (steady_exchangeResponse frame rl dst) fun _ => steady_update (fun _ => rfl) (steady_pure _)

/-! ## Exchange by exchange -/

/-- What the peer holds after several exchanges. -/
def Chip.through (c : Chip) (es : List Exchange) : Chip := es.foldl (fun c e => e.done c) c

@[simp] theorem Chip.through_nil (c : Chip) : c.through [] = c := rfl
@[simp] theorem Chip.through_cons (c : Chip) (e : Exchange) (es : List Exchange) :
    c.through (e :: es) = (e.done c).through es := rfl
theorem Chip.through_append (c : Chip) (es fs : List Exchange) : c.through (es ++ fs) = (c.through es).through fs :=
  List.foldl_append

/-- The state after a timeout of `e` in the phase `ph`, beside the lines, counters, peer and trace. -/
def Exchange.leaves (e : Exchange) (ph : Phase) (u : State) : State := { u with scratch := e.stored ph u.scratch }

/-- What the procedure does from `s` when the peer plays the exchanges `es`: with every wait met it ends normally, the frames
sent; a wait in one of them that is never met ends it with `BusyTimeout`, unless the timeout is swallowed (R202, R286). -/
structure Proc.Follows (f : Proc α) (s s1 : State) (a : α) (es : List Exchange) : Prop where
  goes : ∀ {Q b r c}, s.peer.Has Q (turnSamples (es.map (·.turn)) ++ b) (turnReplies (es.map (·.turn)) ++ r) c →
    (∀ e ∈ es, e.turn.pace.bounded = true) →
    Proc.Goes f s s1 a (fun p => p.Has Q b r (c.through es) ∧ p.executed = s.peer.executed) (es.map (·.frame))
  stalls : ∀ {Q b r c before e after u ph}, es = before ++ e :: after → e.left = some u → ph ∈ waitPhases →
    (ph = .rWaitDone → e.turn.reply ≠ []) → (ph = .tWaitReady → s.cs = false) →
    (∀ x ∈ before, x.turn.pace.bounded = true) → e.turn.pace.bounded = true →
    s.peer.Has Q (turnSamples (before.map (·.turn)) ++ (e.turn.pace.timeout ph ++ b))
      (turnReplies (before.map (·.turn)) ++ (ph.replies e.turn.reply ++ r)) c →
    Proc.Fails f s (e.leaves ph u) (.busyTimeout ph)
      (Peer.Stalled Q b r (c.through before) e.frame e.turn.reply ph s.peer.executed)
      (before.map (·.frame) ++ ph.sends e.frame)

/-- A list of exchanges in two parts: where one of its elements stands. -/
theorem append_split {es fs before after : List Exchange} {e : Exchange} (h : es ++ fs = before ++ e :: after) :
    (∃ rest, es = before ++ e :: rest) ∨ ∃ mid, before = es ++ mid ∧ fs = mid ++ e :: after := by
  rcases List.append_eq_append_iff.1 h with ⟨mid, h1, h2⟩ | ⟨mid, h1, h2⟩
  · exact .inr ⟨mid, h1, h2⟩
  · cases mid with
    | nil => exact .inr ⟨[], by simpa using h1.symm, by simpa using h2.symm⟩
    | cons x mid =>
      simp only [List.cons_append, List.cons.injEq] at h2
      obtain ⟨rfl, -⟩ := h2
      exact .inl ⟨mid, h1⟩

theorem turnSamples_append (ts us : List Turn) : turnSamples (ts ++ us) = turnSamples ts ++ turnSamples us :=
  List.flatMap_append

theorem turnReplies_append (ts us : List Turn) : turnReplies (ts ++ us) = turnReplies ts ++ turnReplies us :=
  List.flatMap_append

/-- In sequence. -/
theorem Proc.Follows.bind {f : Proc α} {g : α → Proc β} {a : α} {x : β} {es fs : List Exchange}
    (hf : Proc.Follows f s s1 a es) (hg : ∀ d p w, Proc.Follows (g a) (s1.after d p w) s2 x fs) :
    Proc.Follows (f >>= g) s s2 x (es ++ fs) where
  goes hs hb := by
    simp only [List.map_append, turnSamples_append, turnReplies_append, List.append_assoc] at hs ⊢
    refine (hf.goes hs fun e h => hb e (by simp [h])).bind fun d p w h => ?_
    obtain ⟨d', p', w', k1, k2, k3⟩ := (hg d p w).goes h.1 fun e h => hb e (by simp [h])
    exact ⟨d', p', w', k1, ⟨by rw [Chip.through_append]; exact k2.1, k2.2.trans h.2⟩, k3⟩
  stalls he hl hph hr hc hb hb' hs := by
    rcases append_split he with ⟨rest, h⟩ | ⟨mid, rfl, h⟩
    · exact (hf.stalls h hl hph hr hc hb hb' hs).bind
    · simp only [List.map_append, turnSamples_append, turnReplies_append, List.append_assoc] at hs ⊢
      refine (hf.goes hs fun e h => hb e (by simp [h])).fails fun d p w h' => ?_
      obtain ⟨v, p', w', k1, k2, ⟨y, k3, k4⟩, k5⟩ := (hg d p w).stalls h hl hph hr (fun _ => rfl)
        (fun e h => hb e (by simp [h])) hb' h'.1
      refine ⟨v, p', w', k1, k2, ⟨y, fun z zs hz => k3 z zs (h'.2.trans hz), ?_⟩, k5⟩
      rw [Chip.through_append]
      exact k4

theorem follows_pure (a : α) (d : Nat × Nat × Nat) (p : Peer) (w : List Event) :
    Proc.Follows (pure a : Proc α) (s.after d p w) s a [] where
  goes hs _ := goes_pure ⟨hs, rfl⟩
  stalls he := by simp at he

/-- What ends the procedure changes no more than what `update` does. -/
theorem follows_update {f : State → State} (d : Nat × Nat × Nat) (p : Peer) (w : List Event)
    (h : f (s.after d p w) = s1.after d p w) : Proc.Follows (update f) (s.after d p w) s1 () [] where
  goes hs _ := ⟨d, p, w, by rw [update_run, h], ⟨hs, rfl⟩, by simp⟩
  stalls he := by simp at he

/-- A line that sends no byte. -/
theorem Proc.Follows.update {f : State → State} {g : Unit → Proc α} {a : α} {es : List Exchange}
    (hq : sentFrames (f s).wire = sentFrames s.wire) (hc : (f s).cs = s.cs)
    (hx : (f s).peer.executed = s.peer.executed) (hp : ∀ {Q b r c}, s.peer.Has Q b r c → (f s).peer.Has Q b r c)
    (h : Proc.Follows (g ()) (f s) s1 a es) : Proc.Follows (Machine.update f >>= g) s s1 a es where
  goes hs hb := Proc.Goes.update hq (hx ▸ h.goes (hp hs) hb)
  stalls he hl hph hr hcs hb hb' hs :=
    Proc.Fails.update hq (hx ▸ h.stalls he hl hph hr (fun k => hc.trans (hcs k)) hb hb' (hp hs))

/-- The base state may itself be one after a stretch. -/
theorem follows_rebase {f : Proc α} {a : α} {es : List Exchange} {d : Nat × Nat × Nat} {p : Peer} {w : List Event}
    (h : Proc.Follows f s (s1.after d p w) a es) : Proc.Follows f s s1 a es := ⟨h.goes, h.stalls⟩

theorem Proc.Follows.ofCurrent {g : State → Proc α} {a : α} {es : List Exchange} (h : Proc.Follows (g s) s s1 a es) :
    Proc.Follows (current >>= g) s s1 a es := ⟨h.goes, h.stalls⟩

/-- A test that holds, before what follows. -/
theorem follows_require {x : Bool} {e : OpError} {f : Unit → Proc α} {a : α} {es : List Exchange} (hx : x = true)
    (h : Proc.Follows (f ()) s s1 a es) : Proc.Follows (require x e >>= f) s s1 a es := by subst hx; exact h

/-- A parser that succeeds, before what follows. -/
theorem follows_fromParser {x : Except OpError α} {a : α} {f : α → Proc β} {v : β} {es : List Exchange} (hx : x = .ok a)
    (h : Proc.Follows (f a) s s1 v es) : Proc.Follows (fromParser x >>= f) s s1 v es := by subst hx; exact h

/-- A result computed from the last one. -/
theorem Proc.Follows.returning {f : Proc α} {a : α} {es : List Exchange} (k : α → β) (h : Proc.Follows f s s1 a es) :
    Proc.Follows (f >>= fun x => pure (k x)) s s1 (k a) es := by
  have := Proc.Follows.bind (g := fun x => (pure (k x) : Proc β)) h fun d p w => follows_pure (s := s1) (k a) d p w
  rwa [List.append_nil] at this

/-- A timeout that leaves the same beside the lines, counters, peer and trace. -/
theorem Proc.Fails.congr {f : Proc α} {e : OpError} {P : Peer → Prop} {fs : List (List Byte)}
    (h : Proc.Fails f s s1 e P fs) (hs : ∀ d p w, s1.after d p w = s2.after d p w) : Proc.Fails f s s2 e P fs := by
  obtain ⟨u, p, w, h1, h2, h3⟩ := h
  exact ⟨u, p, w, h1, h2.trans (hs _ _ _), h3⟩

/-- A run that ends normally, with the draws on a timeout left alone. -/
theorem Proc.Goes.steady {f : Proc α} {a : α} {P : Peer → Prop} {fs : List (List Byte)} (h : Proc.Goes f s s1 a P fs)
    (hf : f.Steady) : Proc.Goes f s s1 a (fun p => P p ∧ p.executed = s.peer.executed) fs := by
  obtain ⟨d, p, w, h1, h2, h3⟩ := h
  exact ⟨d, p, w, h1, ⟨h2, (hf s).ok h1⟩, h3⟩

/-! ## One exchange -/

theorem singleton_split {x e : Exchange} {before after : List Exchange} (h : [x] = before ++ e :: after) :
    before = [] ∧ e = x := by
  cases before with
  | nil => simp at h; exact ⟨rfl, h.1.symm⟩
  | cons y ys => simp at h

theorem follows_transceive (frame bs : List Byte) (dst : Destination) (pace : Pace) (left : Option State)
    (hf : frame ≠ []) (hlen : frame.length ≤ Config.maxFrame) (hl : bs.length ≤ Config.rxBufferSize)
    (hu : ∀ u ph, left = some u → ∀ d p w,
      (if ph = .rWaitDone then { s with scratch := dst.stored (s.setXi 0) bs } else s).after d p w =
        (Exchange.leaves ⟨frame, ⟨pace, bs⟩, left⟩ ph u).after d p w) :
    Proc.Follows (transceive frame bs.length dst) s { s with scratch := dst.stored (s.setXi 0) bs } bs
      [⟨frame, ⟨pace, bs⟩, left⟩] where
  goes hs hb :=
    (goes_transceive (ts := []) frame dst ⟨pace, bs⟩ hs (hb _ List.mem_cons_self) hf hlen hl).steady
      (steady_transceive frame bs.length dst)
  stalls he hl' hph hr hc _ hb' hs := by
    obtain ⟨rfl, rfl⟩ := singleton_split he
    exact (fails_timeout frame bs dst pace hph hc hf (exchange_admitted hf hlen hl) hr hb' hs).congr (hu _ _ hl')

/-- A frame other than Read-Data's: the scratch buffer is not concerned. -/
theorem follows_exchange (frame bs : List Byte) (pace : Pace) (u : State) (hf : frame ≠ []) (hd : frame ≠ [0x0A, 0x00])
    (hlen : frame.length ≤ Config.maxFrame) (hl : bs.length ≤ Config.rxBufferSize)
    (hu : ∀ d p w, s.after d p w = u.after d p w) :
    Proc.Follows (transceive frame bs.length .transient) s s bs [⟨frame, ⟨pace, bs⟩, some u⟩] := by
  refine follows_transceive frame bs .transient pace (some u) hf hlen hl fun v ph hv d p w => ?_
  obtain rfl : u = v := by simpa using hv
  rw [Exchange.leaves, Exchange.stored, if_neg (fun h : frame = [0x0A, 0x00] ∧ _ => hd h.1)]
  split <;> exact hu d p w

theorem follows_sendFrame (frame : List Byte) (pace : Pace) (u : State) (hf : frame ≠ []) (hd : frame ≠ [0x0A, 0x00])
    (hlen : frame.length ≤ Config.maxFrame) (hu : ∀ d p w, s.after d p w = u.after d p w) :
    Proc.Follows (sendFrame frame) s s () [⟨frame, pace.silent, some u⟩] :=
  (follows_exchange frame [] pace u hf hd hlen (Nat.zero_le _) hu).returning fun _ => ()

theorem follows_writeRegister (a : Byte) (v : Word) (pace : Pace) (u : State)
    (hu : ∀ d p w, s.after d p w = u.after d p w) :
    Proc.Follows (writeRegister a v) s s () [⟨[0x00, a] ++ bytesLe32 v, pace.silent, some u⟩] :=
  follows_sendFrame _ pace u (by simp [frameWriteRegister]) (by simp [frameWriteRegister, Opcode.code])
    (by simp [frameWriteRegister, Config.maxFrame]) hu

theorem follows_writeRegisterOr (a : Byte) (m : Word) (pace : Pace) (u : State)
    (hu : ∀ d p w, s.after d p w = u.after d p w) :
    Proc.Follows (writeRegisterOr a m) s s () [⟨[0x01, a] ++ bytesLe32 m, pace.silent, some u⟩] :=
  follows_sendFrame _ pace u (by simp [frameWriteRegisterOrMask]) (by simp [frameWriteRegisterOrMask, Opcode.code])
    (by simp [frameWriteRegisterOrMask, Config.maxFrame]) hu

theorem follows_writeRegisterAnd (a : Byte) (m : Word) (pace : Pace) (u : State)
    (hu : ∀ d p w, s.after d p w = u.after d p w) :
    Proc.Follows (writeRegisterAnd a m) s s () [⟨[0x02, a] ++ bytesLe32 m, pace.silent, some u⟩] :=
  follows_sendFrame _ pace u (by simp [frameWriteRegisterAndMask]) (by simp [frameWriteRegisterAndMask, Opcode.code])
    (by simp [frameWriteRegisterAndMask, Config.maxFrame]) hu

theorem follows_readRegister (a : Byte) (bs : List Byte) (pace : Pace) (u : State) (hl : bs.length = 4)
    (hu : ∀ d p w, s.after d p w = u.after d p w) :
    Proc.Follows (readRegister a) s s (responseWord bs) [⟨[0x04, a], pace.reply bs, some u⟩] := by
  have h := follows_exchange (frameReadRegister a) bs pace u (by simp [frameReadRegister]) (by simp [frameReadRegister, Opcode.code])
    (by simp [frameReadRegister, Config.maxFrame]) (by rw [hl]; decide) hu
  rw [hl] at h
  exact h.returning responseWord

theorem follows_readWord (a : Byte) (v : Word) (pace : Pace) (u : State) (hu : ∀ d p w, s.after d p w = u.after d p w) :
    Proc.Follows (readRegister a) s s v [⟨[0x04, a], pace.answer v, some u⟩] := by
  have h := follows_readRegister a (bytesLe32 v) pace u rfl hu
  rwa [responseWord_bytes] at h

/-- `GetTransceiveState`: a timeout ends nothing (R202). -/
theorem follows_getTransceiveState (v : Word) (pace : Pace) :
    Proc.Follows getTransceiveState s s (decodeTs v) [⟨[0x04, 0x1D], pace.answer v, none⟩] where
  goes hs hb := by
    obtain ⟨d, p, w, h1, h2, h3⟩ := (follows_readWord PeerRegister.rfStatus.addr v pace s fun _ _ _ => rfl).goes hs
      (fun e he => by simp at he; subst he; exact hb ⟨[0x04, 0x1D], pace.answer v, none⟩ (by simp))
    refine ⟨d, p, w, ?_, h2, h3⟩
    unfold getTransceiveState
    rw [h1]
  stalls he hl := by
    obtain ⟨-, rfl⟩ := singleton_split he
    cases hl

/-- The exchange of `ReadData`: from its beginning on no scratch byte is valid (R26, R166). -/
theorem follows_fetchData (bs : List Byte) (pace : Pace) (u : State) (hl : bs.length ≤ Config.rxBufferSize)
    (hu : ∀ d p w, s.after d p w = u.after d p w) :
    Proc.Follows (fetchData bs.length) s (s.received bs) bs
      [⟨[0x0A, 0x00], pace.reply bs, some { u with scratchValid := 0 }⟩] where
  goes hs hb := by
    obtain ⟨d, p, w, h1, h2, h3⟩ := (follows_transceive (s := s.setValid 0) frameReadData bs .scratch pace none
      (by simp [frameReadData]) (by decide) hl (fun _ _ h => by cases h)).goes hs
      (by simpa [Pace.reply] using hb)
    refine ⟨d, p, w, ?_, h2, h3⟩
    unfold fetchData
    rw [update_bind_run]
    erw [bind_ok h1]
    rw [update_bind_run]
    exact memRead_received s _ bs hl rfl
  stalls he hl' hph hr hc hb hb' hs := by
    have h := follows_transceive (s := s.setValid 0) frameReadData bs .scratch pace (some { u with scratchValid := 0 })
      (by simp [frameReadData]) (by decide) hl fun v ph hv d p w => ?_
    · exact Proc.Fails.update (f := fun s => s.setValid 0) rfl (h.stalls he hl' hph hr hc hb hb' hs).bind
    · obtain rfl : { u with scratchValid := 0 } = v := by simpa using hv
      have k := hu d p w
      simp only [State.after, State.mk.injEq] at k
      by_cases hp : ph = .rWaitDone <;>
        simp [hp, Exchange.leaves, Exchange.stored, State.after, State.setValid, State.setXi, Destination.stored,
          frameReadData, Opcode.code, k]

/-! ## Waits for a flag -/

theorem steady_readRegister (a : Byte) : (readRegister a).Steady :=
  Proc.Steady.bind (steady_transceive _ _ _) fun _ => steady_pure _

theorem steady_waitIrqLoop (flag : IrqFlag) (limit n : Nat) : (waitIrqLoop flag limit n).Steady := by
  induction n with
  | zero => exact fun _ => trivial
  | succ n ih =>
    refine Proc.Steady.bind (steady_readRegister _) fun irq => steady_update (fun _ => rfl) <| steady_current fun t => ?_
    split
    · exact steady_pure _
    · split
      · exact fun _ => trivial
      · exact steady_update (fun _ => by simp) ih

theorem irqExchanges_turns (u : State) (ms : List (Pace × Word)) : (irqExchanges u ms).map (·.turn) = irqTurns ms := by
  simp [irqExchanges, irqTurns]

theorem irqExchanges_frames (u : State) (ms : List (Pace × Word)) :
    (irqExchanges u ms).map (·.frame) = ms.map fun _ => frameReadRegister 0x02 := by
  rw [irqExchanges, List.map_map]
  rfl

theorem irqExchanges_through (c : Chip) (u : State) (ms : List (Pace × Word)) :
    c.through (irqExchanges u ms) = c.irqRead ms := by
  induction ms generalizing c with
  | nil => rfl
  | cons m ms ih => exact ih _

theorem follows_waitIrqLoop (flag : IrqFlag) (limit : Nat) (misses : List (Pace × Word)) (hit : Pace × Word) (n : Nat)
    (u : State) (hm : ∀ m ∈ misses, flag.isSet m.2 = false) (hh : flag.isSet hit.2 = true) (hn : misses.length < n)
    (hl : s.irqPolls + n = limit) (hu : ∀ d p w, s.after d p w = u.after d p w) :
    Proc.Follows (waitIrqLoop flag limit n) s s () (irqExchanges u (misses ++ [hit])) where
  goes hs hb := by
    rw [irqExchanges_turns] at hs
    have h := goes_waitIrqLoop (ts := []) flag limit misses hit n (by rw [List.append_nil]; exact hs)
      (fun m hm' => hb ⟨[0x04, 0x02], m.1.answer m.2, some u⟩ (List.mem_map.2 ⟨m, hm', rfl⟩)) hm hh hn hl
    rw [irqExchanges_through, irqExchanges_frames]
    exact h.steady (steady_waitIrqLoop flag limit n)
  stalls {Q b r c before e after v ph} he hl' hph hr hc hb hb' hs := by
    induction misses generalizing s c n before with
    | nil =>
      obtain ⟨n, rfl⟩ : ∃ k, n = k + 1 := ⟨n - 1, by simp at hn; omega⟩
      exact ((follows_readWord 0x02 hit.2 hit.1 u hu).stalls he hl' hph hr hc hb hb' hs).bind
    | cons m misses ih =>
      obtain ⟨n, rfl⟩ : ∃ k, n = k + 1 := ⟨n - 1, by simp at hn; omega⟩
      cases before with
      | nil =>
        have he' : [(⟨[0x04, 0x02], m.1.answer m.2, some u⟩ : Exchange)] = [] ++ e :: [] := by
          simp only [irqExchanges, List.cons_append, List.map_cons, List.nil_append, List.cons.injEq] at he
          rw [he.1]; rfl
        exact ((follows_readWord 0x02 m.2 m.1 u hu).stalls he' hl' hph hr hc hb hb' hs).bind
      | cons x before =>
        simp only [irqExchanges, List.cons_append, List.map_cons, List.cons.injEq] at he
        obtain ⟨rfl, he⟩ := he
        obtain ⟨d, p, w, h1, ⟨h2, hx⟩, h3⟩ := (follows_readWord (s := s) PeerRegister.irqStatus.addr m.2 m.1 u hu).goes
          (b := turnSamples (before.map (·.turn)) ++ (e.turn.pace.timeout ph ++ b))
          (r := turnReplies (before.map (·.turn)) ++ (ph.replies e.turn.reply ++ r))
          (by simpa [turnSamples, turnReplies] using hs) (by simpa using hb _ List.mem_cons_self)
        have h4 := (waitIrqLoop_step flag limit n h1).2
        rw [if_neg (by simp [hm m (by simp)]), if_neg (by simp at hn; omega)] at h4
        obtain ⟨v', q, w', k1, k2, ⟨y, k3, k4⟩, k5⟩ := ih (n := n)
          (s := ((s.after d p w).setIrqPolls (s.irqPolls + 1)).sleep)
          (fun x hx => hm x (by simp [hx])) (by simpa using hn) (by simp; omega)
          (fun d p w => hu d p w) he (fun _ => rfl) (fun x hx => hb x (by simp [hx])) (Peer.Has.elapse h2)
        refine ⟨v', q, w', h4.trans k1, k2, ⟨y, fun z zs hz => k3 z zs ?_, k4⟩, ?_⟩
        · exact (p.elapse_executed.trans hx).trans hz
        · rw [k5, sentFrames_sleep, State.setIrqPolls_wire, State.after_wire, h3, List.append_assoc]
          rfl

theorem follows_waitIrq (flag : IrqFlag) (limit : Nat) (misses : List (Pace × Word)) (hit : Pace × Word) (u : State)
    (hm : ∀ m ∈ misses, flag.isSet m.2 = false) (hh : flag.isSet hit.2 = true) (hl : misses.length < limit)
    (hu : ∀ d p w, s.after d p w = u.after d p w) :
    Proc.Follows (waitIrq flag limit) s s () (irqExchanges u (misses ++ [hit])) :=
  ⟨(follows_waitIrqLoop (s := s.setIrqPolls 0) flag limit misses hit limit u hm hh hl (by simp) hu).goes,
    (follows_waitIrqLoop (s := s.setIrqPolls 0) flag limit misses hit limit u hm hh hl (by simp) hu).stalls⟩

theorem follows_clearIrqStatus (m : Word) (pace : Pace) (u : State) (hu : ∀ d p w, s.after d p w = u.after d p w) :
    Proc.Follows (clearIrqStatus m) s s () [clearExchange u m pace] :=
  follows_writeRegister PeerRegister.irqClear.addr m pace u hu

/-! ## The procedures of several exchanges -/

/-- A command, an IRQ wait, a clear, and the record of the field (R168, R169). -/
theorem follows_switch (frame : List Byte) (flag : IrqFlag) (x : Bool) (send clear : Pace) (misses : List (Pace × Word))
    (hit : Pace × Word) (u : State) (hf : frame ≠ []) (hd : frame ≠ [0x0A, 0x00]) (hlen : frame.length ≤ Config.maxFrame)
    (hm : ∀ m ∈ misses, flag.isSet m.2 = false) (hh : flag.isSet hit.2 = true)
    (hl : misses.length < s.params.irqPollLimit) (hu : ∀ d p w, s.after d p w = u.after d p w) :
    Proc.Follows (do
        sendFrame frame
        let s ← current
        waitIrq flag s.params.irqPollLimit
        clearIrqStatus flag.mask
        update fun s => s.setRfOn x) s { s with rfOn := x } ()
      (switchExchanges u frame flag.mask send (misses ++ [hit]) clear) := by
  refine Proc.Follows.bind (es := [_]) (follows_sendFrame frame send u hf hd hlen hu) fun d p w =>
    Proc.Follows.ofCurrent <| Proc.Follows.bind (follows_waitIrq flag _ misses hit u hm hh hl fun _ _ _ => hu _ _ _)
      fun d p w => ?_
  rw [← List.append_nil [clearExchange u flag.mask clear]]
  exact Proc.Follows.bind (follows_clearIrqStatus flag.mask clear u fun _ _ _ => hu _ _ _) fun d p w =>
    follows_update (s1 := { s with rfOn := x }) _ _ _ rfl

theorem follows_setRfOn (send clear : Pace) (misses : List (Pace × Word)) (hit : Pace × Word) (u : State)
    (hm : ∀ m ∈ misses, m.2.getLsbD 9 = false) (hh : hit.2.getLsbD 9 = true)
    (hl : misses.length < s.params.irqPollLimit) (hu : ∀ d p w, s.after d p w = u.after d p w) :
    Proc.Follows setRfOn s { s with rfOn := true } ()
      (switchExchanges u [0x16, 0x00] 0x00000200 send (misses ++ [hit]) clear) :=
  follows_switch frameRfOn .pcdRfOn true send clear misses hit u (by decide) (by decide) (by decide) hm hh hl hu

theorem follows_setRfOff (send clear : Pace) (misses : List (Pace × Word)) (hit : Pace × Word) (u : State)
    (hm : ∀ m ∈ misses, m.2.getLsbD 8 = false) (hh : hit.2.getLsbD 8 = true)
    (hl : misses.length < s.params.irqPollLimit) (hu : ∀ d p w, s.after d p w = u.after d p w) :
    Proc.Follows setRfOff s { s with rfOn := false } ()
      (switchExchanges u [0x17, 0x00] 0x00000100 send (misses ++ [hit]) clear) :=
  follows_switch frameRfOff .pcdRfOff false send clear misses hit u (by decide) (by decide) (by decide) hm hh hl hu

theorem follows_armWrites (p1 p2 : Pace) (u : State) (hu : ∀ d p w, s.after d p w = u.after d p w) :
    Proc.Follows (writeRegisterAnd PeerRegister.systemConfig.addr Config.cmdClearMask >>= fun _ =>
      writeRegisterOr PeerRegister.systemConfig.addr Config.cmdTransceive) s s () (armExchanges u p1 p2) :=
  Proc.Follows.bind (es := [_]) (fs := [_]) (follows_writeRegisterAnd _ _ p1 u hu) fun _ _ _ =>
    follows_rebase (follows_writeRegisterOr _ _ p2 u fun _ _ _ => hu _ _ _)

theorem follows_setupRf (p1 send clear p2 p3 : Pace) (misses : List (Pace × Word)) (hit : Pace × Word) (u : State)
    (hm : ∀ m ∈ misses, m.2.getLsbD 9 = false) (hh : hit.2.getLsbD 9 = true)
    (hl : misses.length < s.params.irqPollLimit) (hu : ∀ d p w, s.after d p w = u.after d p w) :
    Proc.Follows setupRf s { s with rfOn := true } () (⟨[0x11, 0x0D, 0x8D], p1.silent, some u⟩ ::
      (switchExchanges u [0x16, 0x00] 0x00000200 send (misses ++ [hit]) clear
        ++ armExchanges { u with rfOn := true } p2 p3)) :=
  Proc.Follows.bind (es := [_]) (g := fun _ => setRfOn >>= fun _ =>
      writeRegisterAnd PeerRegister.systemConfig.addr Config.cmdClearMask >>= fun _ =>
      writeRegisterOr PeerRegister.systemConfig.addr Config.cmdTransceive)
    (follows_sendFrame (frameLoadRfConfig 0x0D 0x8D) p1 u (by decide) (by decide) (by decide) hu)
    fun d p w => Proc.Follows.bind (s1 := { s with rfOn := true })
      (follows_rebase (follows_setRfOn (s := s.after d p w) send clear misses hit u hm hh hl hu)) fun _ _ _ =>
      follows_rebase (follows_armWrites p2 p3 { u with rfOn := true } fun d p w => by
        have k := hu d p w
        simp only [State.after, State.mk.injEq] at k ⊢
        simp [k])

theorem follows_sendData (payload : List Byte) (v : Byte) (p1 p2 : Pace) (status : Pace × Word) (p4 : Pace) (u : State)
    (ha : sendAdmitted payload v = true) (h : decodeTs status.2 = .waitTransmit)
    (hu : ∀ d p w, s.after d p w = u.after d p w) :
    Proc.Follows (sendData payload v) s s () (sendExchanges u v payload p1 p2 status p4) := by
  have hlen : (frameSendData v payload).length ≤ Config.maxFrame := by
    simp only [sendAdmitted, Bool.and_eq_true, decide_eq_true_eq] at ha
    have := ha.1
    simp only [frameSendData, List.length_cons]
    simp only [Config.maxSendPayload, Config.maxFrame] at *
    omega
  rw [sendData_admitted ha]
  unfold armAndAsk
  simp only [bind_assoc]
  rw [← bind_assoc]
  exact Proc.Follows.bind (follows_armWrites p1 p2 u hu) fun _ _ _ =>
    Proc.Follows.bind (es := [_]) (fs := [_]) (follows_rebase (s1 := s) (follows_getTransceiveState status.2 status.1))
      fun _ _ _ => follows_require (by simp [h]) <| follows_rebase <|
        follows_sendFrame _ p4 u (by simp [frameSendData]) (by simp [frameSendData, Opcode.code]) hlen fun _ _ _ => hu _ _ _

/-- The sequencer up to its second read of IRQ-Status (R221). -/
theorem follows_tagPrefix (req : List Byte) (t : TagTurns) (u : State) (hreq : req.length ≤ Config.maxSendPayload)
    (h1 : decodeTs t.state.2 = .waitTransmit) (h2 : t.irq.2.getLsbD 14 = true)
    (h3 : rxLength t.length.2 = t.response.2.length) (h4 : t.response.2.length ≤ Config.rxBufferSize)
    (hu : ∀ d p w, s.after d p w = u.after d p w) :
    Proc.Follows (tagPrefix req) s (s.received t.response.2) (t.response.2, t.irqAgain.2) (tagExchanges u req t) := by
  have hu' : ∀ d p w, (s.received t.response.2).after d p w = (u.received t.response.2).after d p w := fun d p w => by
    have k := hu d p w
    simp only [State.after, State.received, State.mk.injEq] at k ⊢
    simp [k]
  unfold tagPrefix tagProbe
  simp only [bind_assoc]
  refine Proc.Follows.bind (follows_sendData req 0 t.clearMask t.setMask t.state t.send u
    (by simpa [sendAdmitted] using hreq) h1 hu) fun d p w =>
    Proc.Follows.update (sentFrames_settle _ _) rfl (by simp) (fun h => h.elapse) ?_
  refine Proc.Follows.bind (es := [_]) (follows_readWord (s := (s.after d p w).settle .sofSettle) PeerRegister.irqStatus.addr
    t.irq.2 t.irq.1 u fun _ _ _ => hu _ _ _) fun d p w => follows_require h2 ?_
  unfold tagFetch
  refine Proc.Follows.bind (es := [_]) (follows_rebase (s1 := s)
    (follows_readWord PeerRegister.rxStatus.addr t.length.2 t.length.1 u fun _ _ _ => hu _ _ _)) fun d p w => ?_
  rw [h3]
  have hr : readData t.response.2.length = fetchData t.response.2.length := if_pos (by simpa [readAdmitted] using h4)
  rw [hr]
  exact Proc.Follows.bind (es := [_]) (follows_rebase (s1 := s.received t.response.2)
    (follows_fetchData t.response.2 t.response.1 u h4 fun _ _ _ => hu _ _ _)) fun d p w =>
      (follows_rebase (follows_readWord (s := (s.received t.response.2).after d p w) PeerRegister.irqStatus.addr t.irqAgain.2
        t.irqAgain.1 (u.received t.response.2) hu')).returning fun x => (t.response.2, x)

/-- The sequencer whole: the response taken, the flags cleared (R221). -/
theorem follows_issueTagCommand (req : List Byte) (t : TagTurns) (u : State) {payload : List Byte} {v : Value}
    {parser : List Byte → Except OpError Value} (hreq : req.length ≤ Config.maxSendPayload) (ha : t.answered = true)
    (hp : parseResponse t.response.2 = .ok payload) (hv : parser payload = .ok v)
    (hu : ∀ d p w, s.after d p w = u.after d p w) :
    Proc.Follows (issueTagCommand req parser) s (s.received t.response.2) v
      (tagExchanges u req t ++ [clearExchange (u.received t.response.2) 0x00004007 t.clear]) := by
  obtain ⟨h1, h2, h3, h4, h5⟩ := t.answered_iff.1 ha
  have hu' : ∀ d p w, (s.received t.response.2).after d p w = (u.received t.response.2).after d p w := fun d p w => by
    have k := hu d p w
    simp only [State.after, State.received, State.mk.injEq] at k ⊢
    simp [k]
  rw [issueTagCommand_prefix]
  exact Proc.Follows.bind (follows_tagPrefix req t u hreq h1 h2 h4 h5 hu) fun d p w =>
    follows_require h3 <| follows_fromParser hp <| follows_fromParser hv <|
      (follows_rebase (follows_clearIrqStatus (s := (s.received t.response.2).after d p w) tagClearMask t.clear
        (u.received t.response.2) hu')).returning fun _ => v

end Sys2Proof.Machine
end

