-- ==== Sys2Proof/Tests/Slice0.lean ====
section
/-! SUPPORT. The tests: ill-formed terms, words written out from the spec's encodings, the vectors of spec/95_test_vectors.md
one step each, and for every statement with hypotheses a concrete state and operands that meet them. -/

namespace Sys2Proof.Tests

set_option Elab.async false

open Sys2Proof.Machine

/-! ## Ill-formed terms (R97, R98) -/

theorem test_wellFormed_validBits :
    (Instr.cmdSendData 0x07 []).wellFormed = true ∧ (Instr.cmdSendData 0x08 []).wellFormed = false := by decide

theorem test_wellFormed_sendPayload :
    (Instr.cmdSendData 0x00 (List.replicate 260 0xAA)).wellFormed = true ∧
      (Instr.cmdSendData 0x00 (List.replicate 261 0xAA)).wellFormed = false := by decide +kernel

theorem test_wellFormed_readData :
    (Instr.cmdReadData 508).wellFormed = true ∧ (Instr.cmdReadData 509).wellFormed = false := by decide

/-! ## Decoding: words written out from R92 to R101, R110, R114, R118, R119 -/

/-- The UID of spec/95_test_vectors.md. -/
def uid : Uid := ⟨0x78, 0x56, 0x34, 0x12, 0x08, 0x01, 0x04, 0xE0⟩

/-- R92, vector E1. -/
theorem test_decode_writeRegister :
    decode (.frame [0x00, 0x11, 0xD4, 0xC3, 0xB2, 0xA1] 0) = .ok (.cmdWriteRegister 0x11 0xA1B2C3D4) := by decide

/-- R93. -/
theorem test_decode_writeRegisterOrMask :
    decode (.frame [0x01, 0x00, 0x03, 0x00, 0x00, 0x00] 0) = .ok (.cmdWriteRegisterOrMask 0x00 0x00000003) := by decide

/-- R94. -/
theorem test_decode_writeRegisterAndMask :
    decode (.frame [0x02, 0x00, 0xF8, 0xFF, 0xFF, 0xFF] 0) = .ok (.cmdWriteRegisterAndMask 0x00 0xFFFFFFF8) := by decide

/-- R95. -/
theorem test_decode_readRegister : decode (.frame [0x04, 0x24] 4) = .ok (.cmdReadRegister 0x24) := by decide

/-- R96. -/
theorem test_decode_readEeprom : decode (.frame [0x07, 0x12, 0x02] 2) = .ok (.cmdReadEeprom 0x12 0x02) := by decide

/-- R97. -/
theorem test_decode_sendData :
    decode (.frame [0x09, 0x07, 0xAA, 0xBB] 0) = .ok (.cmdSendData 0x07 [0xAA, 0xBB]) := by decide

/-- R98. -/
theorem test_decode_readData : decode (.frame [0x0A, 0x00] 508) = .ok (.cmdReadData 508) := by decide

/-- R99. -/
theorem test_decode_loadRfConfig : decode (.frame [0x11, 0x0D, 0x8D] 0) = .ok (.cmdLoadRfConfig 0x0D 0x8D) := by decide

/-- R100, R101. -/
theorem test_decode_rfOnOff :
    decode (.frame [0x16, 0x00] 0) = .ok .cmdRfOn ∧ decode (.frame [0x17, 0x00] 0) = .ok .cmdRfOff := by decide

/-- R103, R105, R98: what is no command. -/
theorem test_decode_rejects :
    decode (.frame [] 0) = .error .emptyFrame ∧ decode (.frame [0x03, 0x00] 0) = .error (.reservedOpcode 0x03) ∧
      decode (.frame [0x04] 4) = .error .frameLength ∧ decode (.frame [0x04, 0x02] 3) = .error .receiveLength ∧
      decode (.frame [0x16, 0x01] 0) = .error .reservedParameter ∧ decode (.frame [0x09, 0x08] 0) = .error .validBits := by
  decide

/-- R110: the four requests the controller builds. -/
theorem test_decode_builtRequests :
    decode (.tagRequest [0x26, 0x01, 0x00]) = .ok .tagInventory ∧
      decode (.tagRequest [0x22, 0x20, 0x78, 0x56, 0x34, 0x12, 0x08, 0x01, 0x04, 0xE0, 0x03]) =
        .ok (.tagReadSingleBlock uid 0x03) ∧
      decode (.tagRequest [0x22, 0x21, 0x78, 0x56, 0x34, 0x12, 0x08, 0x01, 0x04, 0xE0, 0x03, 0x01, 0x02]) =
        .ok (.tagWriteSingleBlock uid 0x03 [0x01, 0x02]) ∧
      decode (.tagRequest [0x22, 0x2B, 0x78, 0x56, 0x34, 0x12, 0x08, 0x01, 0x04, 0xE0]) =
        .ok (.tagGetSystemInfo uid) := by decide

/-- R114: the eleven codes that are never built. -/
theorem test_decode_neverBuilt :
    [0x02, 0x22, 0x23, 0x24, 0x25, 0x26, 0x27, 0x28, 0x29, 0x2A, 0x2C].map
        (fun c => decode (.tagRequest [0x22, c, 0x05])) =
      [.ok (.tagStayQuiet 0x22 [0x05]), .ok (.tagLockBlock 0x22 [0x05]), .ok (.tagReadMultipleBlocks 0x22 [0x05]),
        .ok (.tagWriteMultipleBlock 0x22 [0x05]), .ok (.tagSelect 0x22 [0x05]), .ok (.tagResetToReady 0x22 [0x05]),
        .ok (.tagWriteAfi 0x22 [0x05]), .ok (.tagLockAfi 0x22 [0x05]), .ok (.tagWriteDsfid 0x22 [0x05]),
        .ok (.tagLockDsfid 0x22 [0x05]), .ok (.tagGetMultipleBlockSecurityStatus 0x22 [0x05])] := by decide

/-- R115, R110. -/
theorem test_decode_rejectsTagRequests :
    decode (.tagRequest [0x22, 0x03]) = .error (.reservedTagCode 0x03) ∧
      decode (.tagRequest [0x22, 0x2D]) = .error (.reservedTagCode 0x2D) ∧
      decode (.tagRequest [0x22, 0x01, 0x00]) = .error .tagFlags ∧
      decode (.tagRequest [0x26, 0x01, 0x01]) = .error .tagParameters := by decide

/-- A line of a program as the request it stands for, decoded. -/
def decodeLine (line : String) : Option (Except DecodeError Instr) :=
  (parseLine line).map fun t => decode (.term t)

/-- R118, R119: the register operations. -/
theorem test_decode_registerTerms :
    decodeLine "WRITE_REG 0x00, 0x00000010" = some (.ok (.writeReg 0x00 0x00000010)) ∧
      decodeLine "WRITE_REG_OR 0x00, 3" = some (.ok (.writeRegOr 0x00 0x00000003)) ∧
      decodeLine "WRITE_REG_AND 0x00, 0xFFFFFFF8" = some (.ok (.writeRegAnd 0x00 0xFFFFFFF8)) ∧
      decodeLine "READ_REG 0x02" = some (.ok (.readReg 0x02)) ∧
      decodeLine "READ_EEPROM 0x12, 2" = some (.ok (.readEeprom 0x12 0x02)) ∧
      decodeLine "LOAD_RF_CONFIG 0x0D, 0x8D" = some (.ok (.loadRfConfig 0x0D 0x8D)) := by decide +kernel

theorem test_decode_dataTerms :
    decodeLine "SEND_DATA [0xAA,0xBB], 0" = some (.ok (.sendData [0xAA, 0xBB] 0x00)) ∧
      decodeLine "SEND_DATA [], 7" = some (.ok (.sendData [] 0x07)) ∧
      decodeLine "READ_DATA 509" = some (.ok (.readData 509)) ∧
      decodeLine "CLEAR_IRQ 0x4007" = some (.ok (.clearIrq 0x00004007)) := by decide +kernel

theorem test_decode_bareTerms :
    decodeLine "RF_ON" = some (.ok .rfOn) ∧ decodeLine "RF_OFF" = some (.ok .rfOff) ∧
      decodeLine "GET_IRQ" = some (.ok .getIrq) ∧ decodeLine "GET_TS" = some (.ok .getTs) ∧
      decodeLine "RESET" = some (.ok .reset) ∧ decodeLine "INVENTORY" = some (.ok .inventory) ∧
      decodeLine "SETUP_RF" = some (.ok .setupRf) := by decide +kernel

theorem test_decode_blockTerms :
    decodeLine "READ_BLOCK [0x78,0x56,0x34,0x12,0x08,0x01,0x04,0xE0], 0x03, 4" = some (.ok (.readBlock uid 0x03 4)) ∧
      decodeLine "WRITE_BLOCK [0x78,0x56,0x34,0x12,0x08,0x01,0x04,0xE0], 0x03, [0x01,0x02]" =
        some (.ok (.writeBlock uid 0x03 [0x01, 0x02])) ∧
      decodeLine "GET_SYSINFO [0x78,0x56,0x34,0x12,0x08,0x01,0x04,0xE0]" = some (.ok (.getSysinfo uid)) := by
  decide +kernel

theorem test_decode_rejectsTerms :
    decodeLine "READ_REG 256" = some (.error (.operandType .readReg)) ∧
      decodeLine "READ_REG" = some (.error (.operandCount .readReg)) ∧
      decodeLine "GET_SYSINFO [0x78,0x56]" = some (.error (.operandType .getSysinfo)) ∧
      decodeLine "JUMP 0x02" = none := by decide +kernel

/-- R119: the program 4 of spec/95_test_vectors.md as requests. -/
theorem test_parse_program :
    parseProgram ["READ_REG 0x02", "RESET"] = some [.term ⟨.readReg, [.num 2]⟩, .term ⟨.reset, []⟩] := by decide +kernel

/-- The opcode table's numbering: the first byte of the frame is the lowest byte of the word. -/
theorem test_decode_tableWords :
    decodeTableWord 24 0x021207 = some (.cmdReadEeprom 0x12 0x02) ∧ decodeTableWord 8 0x2B =
      some (.tagGetSystemInfo ⟨0, 0, 0, 0, 0, 0, 0, 0⟩) ∧ decodeTableWord 8 0x03 = none := by decide +kernel

/-! ## A ready controller and a peer that plays given cycles -/

/-- Waits that are met at the first sample: the reference peer of D38. -/
def prompt : Pace := ⟨0, 0, 0, 0⟩

/-- `S_ready` of spec/95_test_vectors.md, before the cycles `ts`. -/
def ready (ts : List Turn) : State :=
  { State.reset with
    rst := .high, initialized := true, rfOn := true
    peer := { Peer.unknown with busy := turnSamples ts, replies := turnReplies ts, restless := false } }

/-- Power-up, before the cycles `ts`. -/
def powerUp (ts : List Turn) : State :=
  { State.reset with
    peer := { Peer.unknown with busy := turnSamples ts, replies := turnReplies ts, restless := false } }

/-- `ready` with register `a` holding `v`. -/
def readyWith (a : Byte) (v : Word) (ts : List Turn) : State :=
  { ready ts with peer := (ready ts).peer.act fun c => c.setReg a v }

/-- `ready` with the register answered by what the peer holds. -/
def readyHeld (samples : List Bool) : State :=
  { ready [] with
    peer := { Peer.unknown with busy := samples, replies := [.held, .held, .held, .held], restless := false } }

/-- `ready` with EEPROM bytes listed from address `a` on, answered with what the peer holds. -/
def readyEeprom (a : Nat) (bs : List Byte) (samples : List Bool) : State :=
  { ready [] with
    peer := ({ Peer.unknown with busy := samples, replies := List.replicate bs.length .held, restless := false }).act
      fun c => { c with eeprom := bs.mapIdx fun k b => (a + k, b) } }

/-- What a step delivers and the frames it sends. -/
def result (o : Host.Outcome State Fault Refusal) : Option (List OpOutcome × List (List Byte)) :=
  match o with
  | .next t => some (t.delivered, sentFrames t.wire)
  | .fault _ => none
  | .refused _ => none

/-- The state after a step. -/
def after (o : Host.Outcome State Fault Refusal) : Option State :=
  match o with
  | .next t => some t
  | .fault _ => none
  | .refused _ => none

/-- `AND`, `OR` and `TS` of the vectors. -/
def arming (status : Word) : List Turn := [prompt.silent, prompt.silent, prompt.answer status]

/-- The cycles of a tag command: the two IRQ reads, RX-Status, the response. -/
def tag (irq len : Word) (response : List Byte) (irq2 : Word) : TagTurns :=
  ⟨prompt, prompt, (prompt, 0x01000000), prompt, (prompt, irq), (prompt, len), (prompt, response), (prompt, irq2), prompt⟩

/-- A response of the given bytes, RX-Status saying its length, start-of-frame set at both reads. -/
def answeredBy (response : List Byte) : TagTurns :=
  tag 0x00004007 (BitVec.ofNat 32 response.length) response 0x00004007

/-! ## Vectors of spec/95_test_vectors.md -/

/-- T1: the events of a write-only transaction; each exchange with the byte that the peer shifted out (R12, D2). -/
theorem test_T1 :
    (after (exec (.writeReg 0x00 0x00000001) { ready [prompt.silent] with
        peer := { (ready [prompt.silent]).peer with discards := [0xA0, 0xA1, 0xA2, 0xA3, 0xA4, 0xA5] } })).map
        (fun t => (t.wire, t.phase, t.cs, t.delivered)) =
      some ([⟨.tWaitReady, false, 0, .readBusy false⟩, ⟨.tSelect, true, 0, .setCs true⟩,
        ⟨.tSelect, true, 0, .settle .csSettle⟩, ⟨.tSend, true, 0, .xfer 0x00 0xA0⟩, ⟨.tSend, true, 1, .xfer 0x00 0xA1⟩,
        ⟨.tSend, true, 2, .xfer 0x01 0xA2⟩, ⟨.tSend, true, 3, .xfer 0x00 0xA3⟩, ⟨.tSend, true, 4, .xfer 0x00 0xA4⟩,
        ⟨.tSend, true, 5, .xfer 0x00 0xA5⟩, ⟨.tWaitBusy, true, 6, .readBusy true⟩, ⟨.tRelease, false, 6, .setCs false⟩,
        ⟨.tRelease, false, 6, .settle .csReleaseSettle⟩, ⟨.tWaitDone, false, 6, .readBusy false⟩], .idle, false,
        [.ok .unit]) := by decide +kernel

/-- T2: the value of a register response. -/
theorem test_T2 :
    result (exec (.readReg 0x24) (ready [prompt.reply [0x11, 0x22, 0x33, 0x44]])) =
      some ([.ok (.word 0x44332211)], [[0x04, 0x24]]) := by decide +kernel

/-- E1. -/
theorem test_E1 :
    result (exec (.cmdWriteRegister 0x11 0xA1B2C3D4) (ready [prompt.silent])) =
        some ([.ok .unit], [[0x00, 0x11, 0xD4, 0xC3, 0xB2, 0xA1]]) ∧
      result (exec (.cmdReadRegister 0x11) (ready [prompt.reply [0xD4, 0xC3, 0xB2, 0xA1]])) =
        some ([.ok (.word 0xA1B2C3D4)], [[0x04, 0x11]]) := by decide +kernel

/-- A1: the peer's register after an OR. -/
theorem test_A1 :
    (after (exec (.writeRegOr 0x00 0x00000003) (readyWith 0x00 0x00000010 [prompt.silent]))).map (fun t => t.peer.chip.regs) =
        some [(0, 0x00000013)] ∧
      (after (exec (.cmdWriteRegisterOrMask 0x00 0x00000003) (readyWith 0x00 0x00000010 [prompt.silent]))).map
        (fun t => t.peer.chip.regs) = some [(0, 0x00000013)] := by decide +kernel

/-- A2: the peer's register after an AND. -/
theorem test_A2 :
    (after (exec (.writeRegAnd 0x00 0xFFFFFFF8) (readyWith 0x00 0x00000013 [prompt.silent]))).map (fun t => t.peer.chip.regs) =
        some [(0, 0x00000010)] ∧
      (after (exec (.cmdWriteRegisterAndMask 0x00 0xFFFFFFF8) (readyWith 0x00 0x00000013 [prompt.silent]))).map
        (fun t => t.peer.chip.regs) = some [(0, 0x00000010)] := by decide +kernel

/-- A5, E2: the EEPROM boundaries. -/
theorem test_A5_admitted :
    result (exec (.readEeprom 0xFD 0x01) (ready [prompt.reply [0x5A]])) = some ([.ok (.bytes [0x5A])], [[0x07, 0xFD, 0x01]]) ∧
      result (exec (.readEeprom 0xFE 0x00) (ready [prompt.silent])) = some ([.ok (.bytes [])], [[0x07, 0xFE, 0x00]]) ∧
      result (exec (.cmdReadEeprom 0x12 0x02) (ready [prompt.reply [0x03, 0x04]])) =
        some ([.ok (.bytes [0x03, 0x04])], [[0x07, 0x12, 0x02]]) := by decide +kernel

theorem test_A5_refused :
    [(0x00, 0xFF), (0xFE, 0x01), (0xFF, 0x00), (0xC8, 0x37)].map (fun x => result (exec (.readEeprom x.1 x.2) (ready []))) =
      [some ([.err .outOfRange], []), some ([.err .outOfRange], []), some ([.err .outOfRange], []),
        some ([.err .outOfRange], [])] := by decide +kernel

/-- A6: a read of nothing, and one over the buffer. -/
theorem test_A6 :
    (after (exec (.readData 0) (ready [prompt.silent]))).map (fun t => (t.delivered, t.scratchValid)) =
        some ([.ok (.bytes [])], 0) ∧
      (after (exec (.readData 509) (ready []))).map (fun t => (t.phase, t.faults.oversizedRead, t.wire, t.delivered)) =
        some (.halted, true, [], []) := by decide +kernel

/-- R166: the bytes are in the scratch buffer. -/
theorem test_readData_scratch :
    (after (exec (.cmdReadData 2) (ready [prompt.reply [0x01, 0x02]]))).map
        (fun t => (t.delivered, t.scratch, t.scratchValid)) =
      some ([.ok (.bytes [0x01, 0x02])], [(0, 0x01), (1, 0x02)], 2) := by decide +kernel

/-- A7: a payload that is sent, and a peer that is not ready. -/
theorem test_A7 :
    result (exec (.sendData [0xAA, 0xBB] 0x00) (ready (arming 0x01000000 ++ [prompt.silent]))) =
        some ([.ok .unit], armingFrames ++ [[0x09, 0x00, 0xAA, 0xBB]]) ∧
      result (exec (.sendData [0x01] 0x00) (ready (arming 0x03000000))) = some ([.err .notReady], armingFrames) := by
  decide +kernel

theorem test_A7_refused :
    result (exec (.sendData (List.replicate 261 0x00) 0x00) (ready [])) = some ([.err .outOfRange], []) ∧
      result (exec (.sendData [0x01] 0x08) (ready [])) = some ([.err .outOfRange], []) := by decide +kernel

/-- R220, R232: a raw Write-Single-Block request with 250 data bytes is an instruction; it ends with `OutOfRange` and sends no
frame. -/
theorem test_tooLongWriteBlock :
    result (step { ready [] with queue := [.tagRequest ([0x22, 0x21] ++ uid.bytes ++ [0x03] ++ List.replicate 250 0xAA)] }) =
      some ([.err .outOfRange], []) := by decide +kernel

/-- R97: the direct command. -/
theorem test_cmdSendData :
    (after (exec (.cmdSendData 0x03 [0xAA]) (ready [prompt.silent]))).map (fun t => (sentFrames t.wire, t.peer.chip.tx)) =
      some ([[0x09, 0x03, 0xAA]], some (0x03, [0xAA])) := by decide +kernel

/-- A8: an IRQ wait of three reads. -/
theorem test_A8 :
    (after (exec .rfOn { ready (switchTurns prompt [(prompt, 0), (prompt, 0)] (prompt, 0x00000200) prompt) with
        rfOn := false })).map (fun t => (t.rfOn, t.delivered, sentFrames t.wire)) =
      some (true, [.ok .unit], [[0x16, 0x00], [0x04, 0x02], [0x04, 0x02], [0x04, 0x02],
        [0x00, 0x03, 0x00, 0x02, 0x00, 0x00]]) := by decide +kernel

/-- A9: the wait times out at its limit; bit 7 is not the awaited flag. -/
theorem test_A9 :
    (after (exec .rfOn { ready (prompt.silent :: irqTurns [(prompt, 0x80), (prompt, 0x80), (prompt, 0x80)]) with
        rfOn := false, params := ⟨3, 2000⟩ })).map (fun t => (t.rfOn, t.delivered, sentFrames t.wire)) =
      some (false, [.err (.irqWaitTimeout 9)], [[0x16, 0x00], [0x04, 0x02], [0x04, 0x02], [0x04, 0x02]]) := by
  decide +kernel

/-- A11. -/
theorem test_A11 :
    (after (exec .rfOff (ready (switchTurns prompt [] (prompt, 0x00000100) prompt)))).map
        (fun t => (t.rfOn, t.delivered, sentFrames t.wire)) =
      some (false, [.ok .unit], [[0x17, 0x00], [0x04, 0x02], [0x00, 0x03, 0x00, 0x01, 0x00, 0x00]]) := by decide +kernel

/-- A12. -/
theorem test_A12 :
    result (exec (.loadRfConfig 0x0D 0x8D) (ready [prompt.silent])) = some ([.ok .unit], [[0x11, 0x0D, 0x8D]]) ∧
      result (exec (.cmdLoadRfConfig 0x0D 0x8D) (ready [prompt.silent])) = some ([.ok .unit], [[0x11, 0x0D, 0x8D]]) := by
  decide +kernel

/-- R100, R101, R28: the field as commanded, not confirmed. -/
theorem test_cmdRfOnOff :
    (after (exec .cmdRfOn { ready [prompt.silent] with rfOn := false })).map (fun t => (t.rfOn, t.peer.chip.rfField)) =
        some (false, some true) ∧
      (after (exec .cmdRfOff (ready [prompt.silent]))).map (fun t => (t.rfOn, t.peer.chip.rfField)) =
        some (true, some false) := by decide +kernel

/-- E3, M1: the transceive-state codes; bit 27 is ignored. -/
theorem test_M1 :
    [0x00000000, 0x01000000, 0x02000000, 0x03000000, 0x04000000, 0x05000000, 0x06000000, 0x07000000, 0xF8FFFFFF,
        0x09000000].map decodeTs =
      [.idle, .waitTransmit, .transmitting, .waitReceive, .waitForData, .receiving, .loopBack, .reserved, .idle,
        .waitTransmit] := by decide

theorem test_getTs :
    result (exec .getTs (ready [prompt.answer 0x02000000])) =
      some ([.ok (.transceiveState .transmitting)], [[0x04, 0x1D]]) := by decide +kernel

/-- E4: a selective clear. -/
theorem test_E4 :
    (after (exec (.clearIrq 0x00000004) (readyWith 0x02 0x00000005 [prompt.silent]))).map
        (fun t => (t.peer.chip.regs, sentFrames t.wire)) =
      some ([(2, 0x00000001)], [[0x00, 0x03, 0x04, 0x00, 0x00, 0x00]]) := by decide +kernel

/-- A3, R62: after a write to an address that R40 does not name nothing is known of the peer; the frame is sent unchanged. -/
theorem test_A3_unnamed :
    (after (exec (.writeReg 0x05 0x00000001) (readyWith 0x00 0x00000010 [prompt.silent]))).map
        (fun t => (t.delivered, t.peer.chip.regs, sentFrames t.wire)) =
      some ([.ok .unit], [], [[0x00, 0x05, 0x01, 0x00, 0x00, 0x00]]) := by decide +kernel

/-- R46, R48, R295: no write and no AND-mask at IRQ-Status clears a flag that was set. -/
theorem test_irqStatus_keepsFlags :
    [Instr.writeReg 0x02 0x00000001, .cmdWriteRegister 0x02 0x00000001, .writeRegAnd 0x02 0x00000001,
        .cmdWriteRegisterAndMask 0x02 0x00000000].map (fun i =>
          (after (exec i (readyWith 0x02 0x00000004 [prompt.silent]))).bind fun u => cellsRead u.peer.chip.regs 0x02) =
      [some 0x00000005, some 0x00000005, some 0x00000004, some 0x00000004] := by decide +kernel

/-- R41, R72, R164: a flag that the peer raises while the bytes of IRQ-Status are received (before the 13th primitive) stays
set; the value is what was answered. -/
theorem test_flagRaisedDuringRead :
    (after (exec (.readReg 0x02) { ready [prompt.answer 0x00000001] with
        peer := { (ready [prompt.answer 0x00000001]).peer with
          events := List.replicate 12 [] ++ [[.raise 0x00004000]] } })).map
        (fun t => (t.delivered, cellsRead t.peer.chip.regs 2)) =
      some ([.ok (.word 0x00000001)], some 0x00004001) := by decide +kernel

/-- R14, R41: flags that the peer raises by itself while a command transaction runs. -/
theorem test_peerRaises :
    (after (exec (.writeRegOr 0x00 0x00000003) { readyWith 0x02 0x00000004 [prompt.silent] with
        peer := { (readyWith 0x02 0x00000004 [prompt.silent]).peer with events := [[], [.raise 0x00004000]] } })).map
        (fun t => cellsRead t.peer.chip.regs 2) = some (some 0x00004004) := by decide +kernel

/-- R46: a write and a read of the same register, answered with what the peer holds; at IRQ-Status where the write drops no
flag that was set. -/
theorem test_readBack :
    [0x11#8, 0x02].map (fun a => ((after (exec (.writeReg a 0xA1B2C3D4) { readyHeld (prompt.write ++ prompt.read) with
        peer := (readyHeld (prompt.write ++ prompt.read)).peer.act fun c => c.setReg 0x02 0x80000000 })).bind
        fun t => after (exec (.readReg a) t)).map (fun u => u.delivered)) =
      [some [.ok .unit, .ok (.word 0xA1B2C3D4)], some [.ok .unit, .ok (.word 0xA1B2C3D4)]] := by decide +kernel

/-- R63: the bytes of the range, in order, answered with what the peer holds. -/
theorem test_readEeprom_held :
    result (exec (.readEeprom 0x10 2) (readyEeprom 0x10 [0xAB, 0xCD, 0xEF] prompt.read)) =
      some ([.ok (.bytes [0xAB, 0xCD])], [[0x07, 0x10, 0x02]]) := by decide +kernel

/-- R132: timeouts in different phases are recorded apart, and the host sees the same. -/
theorem test_hostSees :
    [Phase.tWaitReady, .rWaitDone].map (fun ph => ((State.reset.abort (.busyTimeout ph)).delivered,
        (State.reset.abort (.busyTimeout ph)).hostSees)) =
      [([.err (.busyTimeout .tWaitReady)], [.err .busyTimeout]), ([.err (.busyTimeout .rWaitDone)], [.err .busyTimeout])] := by
  decide +kernel

theorem test_getIrq :
    result (exec .getIrq (ready [prompt.answer 0x00004007])) = some ([.ok (.word 0x00004007)], [[0x04, 0x02]]) := by
  decide +kernel

/-- M4: a reset from power-up. -/
theorem test_M4 :
    (after (exec .reset (powerUp (irqTurns [(prompt, 0), (prompt, 0x00000004)] ++ [prompt.silent])))).map
        (fun t => (t.initialized, t.rst, sentFrames t.wire)) =
      some (true, .high, [[0x04, 0x02], [0x04, 0x02], [0x00, 0x03, 0xFF, 0xFF, 0xFF, 0xFF]]) := by decide +kernel

/-- R206: the field's record is dropped. -/
theorem test_reset_dropsField :
    (after (exec .reset (ready (irqTurns [(prompt, 0x00000004)] ++ [prompt.silent])))).map
        (fun t => (t.rfOn, resetLevels t.wire == [.low, .high])) = some (false, true) := by decide +kernel

/-- M5: a reset that times out. -/
theorem test_M5 :
    (after (exec .reset { powerUp (irqTurns [(prompt, 0), (prompt, 0)]) with params := ⟨2000, 2⟩ })).map
        (fun t => (t.initialized, t.delivered)) = some (false, [.err (.irqWaitTimeout 2)]) := by decide +kernel

/-- P-I1: an inventory. -/
theorem test_P_I1 :
    (after (exec .inventory (ready (tag 0x4007 10 ([0x00, 0x00] ++ uid.bytes) 0x4007).all))).map
        (fun t => (t.delivered, t.scratchValid, sentFrames t.wire)) =
      some ([.ok (.bytes uid.bytes)], 10, armingFrames ++ [[0x09, 0x00, 0x26, 0x01, 0x00], [0x04, 0x02], [0x04, 0x13],
        [0x0A, 0x00], [0x04, 0x02], [0x00, 0x03, 0x07, 0x40, 0x00, 0x00]]) := by decide +kernel

/-- P-I2: no card. -/
theorem test_P_I2 :
    result (exec .inventory (ready ((tag 0x0002 10 [] 0).sending ++ [prompt.answer 0x0002]))) =
      some ([.err .noCardDetected], armingFrames ++ [[0x09, 0x00, 0x26, 0x01, 0x00], [0x04, 0x02]]) := by decide +kernel

/-- P-I5: only bits 8 to 0 of RX-Status count. -/
theorem test_P_I5 : rxLength 0xFFFFFE0A = 10 := by decide

/-- P-I7: the error codes. -/
theorem test_P_I7 :
    [0x01, 0x0F, 0x04, 0x9F, 0xA0, 0xE0, 0xFF, 0x12].map decodeErr =
      [.notSupported, .unknown, .undefined, .undefined, .custom 0xA0, .custom 0xE0, .custom 0xFF, .blockIsLocked] := by
  decide

/-- P-R1: the leading bytes of the payload, and a payload that is too short: no flag is cleared (D27). -/
theorem test_P_R1 :
    (result (exec (.readBlock uid 0x03 4) (ready (answeredBy [0x00, 0xDE, 0xAD, 0xBE, 0xEF, 0x99]).all))).map (·.1) =
        some [.ok (.bytes [0xDE, 0xAD, 0xBE, 0xEF])] ∧
      (after (exec (.readBlock uid 0x03 6) (ready (answeredBy [0x00, 0xDE, 0xAD, 0xBE, 0xEF, 0x99]).reading))).map
          (fun t => (t.delivered, cellsRead t.peer.chip.regs 2, (sentFrames t.wire).drop 7)) =
        some ([.err .malformedResponse], some 0x00004007, [[0x04, 0x02]]) := by decide +kernel

/-- P-W1. -/
theorem test_P_W1 :
    (result (exec (.writeBlock uid 0x03 [0x01]) (ready (answeredBy [0x00]).all))).map (·.1) = some [.ok .unit] ∧
      (result (exec (.writeBlock uid 0x03 [0x01]) (ready (answeredBy [0x01, 0x12]).all))).map (·.1) =
        some [.err (.tagError .blockIsLocked)] := by decide +kernel

/-- P-S1: every optional field. -/
theorem test_P_S1 :
    (result (exec (.getSysinfo uid)
        (ready (answeredBy ([0x00, 0x0F] ++ uid.bytes ++ [0xAB, 0x00, 0xFF, 0xFF, 0x55])).all))).map (·.1) =
      some [.ok (.systemInfo ⟨some 0xAB, some 0x00, some 256, some 32, some 0x55, some 8192⟩)] := by decide +kernel

/-- P-S3, E6: truncated, and the worked example. -/
theorem test_P_S3 :
    (after (exec (.getSysinfo uid) (ready (answeredBy ([0x00, 0x04] ++ uid.bytes ++ [0x07])).reading))).map
          (fun t => (t.delivered, cellsRead t.peer.chip.regs 2, (sentFrames t.wire).drop 7)) =
        some ([.err .malformedResponse], some 0x00004007, [[0x04, 0x02]]) ∧
      (result (exec (.getSysinfo uid)
        (ready (answeredBy ([0x00, 0x07] ++ uid.bytes ++ [0x01, 0x00, 0x07, 0x03])).all))).map (·.1) =
        some [.ok (.systemInfo ⟨some 0x01, some 0x00, some 8, some 4, none, some 32⟩)] := by decide +kernel

/-- R221: the payload of the four tag requests. -/
theorem test_tagRequests :
    ([.tagInventory, .tagReadSingleBlock uid 0x03, .tagWriteSingleBlock uid 0x03 [0x01], .tagGetSystemInfo uid].map
        fun i => (result (exec i (ready (answeredBy [0x00, 0xDE, 0xAD]).all))).map (·.1)) =
      List.replicate 4 (some [.ok (.bytes [0xDE, 0xAD])]) := by decide +kernel

/-- P-S4. -/
theorem test_P_S4 :
    (after (exec .setupRf { ready (prompt.silent :: (switchTurns prompt [] (prompt, 0x200) prompt ++
        [prompt.silent, prompt.silent])) with rfOn := false })).map (fun t => (t.rfOn, sentFrames t.wire)) =
      some (true, [[0x11, 0x0D, 0x8D], [0x16, 0x00], [0x04, 0x02], [0x00, 0x03, 0x00, 0x02, 0x00, 0x00],
        [0x02, 0x00, 0xF8, 0xFF, 0xFF, 0xFF], [0x01, 0x00, 0x03, 0x00, 0x00, 0x00]]) := by decide +kernel

/-- X1, X2, X4. -/
theorem test_X1 :
    (after (exec .getIrq State.reset)).map (fun t => (t.phase, t.faults.bootOrder, t.wire, t.delivered)) =
        some (.halted, true, [], []) ∧
      (after (exec .inventory { ready [] with rfOn := false })).map (fun t => (t.phase, t.faults.rfNotOn, t.wire)) =
        some (.halted, true, []) ∧
      (after (exec (.readEeprom 0xFF 0x00) State.reset)).map (fun t => t.faults.bootOrder) = some true := by decide +kernel

/-- X3. -/
theorem test_X3 : exec .reset { State.reset with phase := .halted } = .fault .halted := rfl

/-- R241, R250. -/
theorem test_neverBuilt :
    exec (.tagStayQuiet 0x22 []) (ready []) = .refused (.tagCodeNeverBuilt 0x02) ∧
      exec (.tagLockDsfid 0x22 []) State.reset = .refused (.tagCodeNeverBuilt 0x2A) := ⟨rfl, rfl⟩

/-- A word of the table issued as a request runs at the next step. -/
theorem test_withFetchWord :
    (after (step (State.reset.withFetchWord 8 0x16))).map (fun t => t.faults.bootOrder) = some true := by decide +kernel

/-! ## Witnesses: for each statement with hypotheses, a state and operands that meet them, at the ends of their ranges -/

theorem next_of_after {o : Host.Outcome State Fault Refusal} (h : (after o).isSome = true) : ∃ t, o = .next t := by
  cases o with
  | next t => exact ⟨t, rfl⟩
  | fault f => cases h
  | refused r => cases h

/-- A step that delivers `d`. -/
theorem next_delivering {o : Host.Outcome State Fault Refusal} {d : List OpOutcome}
    (h : (result o).map (fun x => x.1) = some d) : ∃ t, o = .next t ∧ t.delivered = d := by
  cases o with
  | next t => exact ⟨t, rfl, by simpa [result] using h⟩
  | fault f => cases h
  | refused r => cases h

/-- The cycles of `ready` are what its peer plays. -/
theorem ready_plays (ts : List Turn) (h : ts.all (fun t => t.pace.bounded) = true) : (ready ts).peer.Plays ts [] [] :=
  ⟨List.all_eq_true.1 h, by simp [ready], by simp [ready]⟩

/-- The peer of `ready` changes nothing by itself. -/
theorem ready_quiet (ts : List Turn) : (ready ts).peer.Quiet := ⟨rfl, rfl⟩

/-- `ready` meets the invariant, with any requests. -/
theorem ready_inv (ts : List Turn) (q : List Request) : State.Inv { ready ts with queue := q } where
  sound := by constructor <;> simp [ready, State.reset, Memory.wf, cellsRising, Peer.unknown, Chip.unknown]
  cs_released := rfl
  phase_boundary := .inl rfl
  idle_clear := fun _ => ⟨rfl, rfl, rfl⟩
  halted_iff_fault := by simp [ready, State.reset, FaultSet.any, FaultSet.empty]

theorem witness_DecodeEncode :
    (Instr.cmdSendData 0x07 (List.replicate 260 0xAA)).wellFormed = true ∧ (Instr.cmdReadData 508).wellFormed = true ∧
      (Instr.tagWriteSingleBlock uid 0x03 (List.replicate 250 0xAA)).wellFormed = true := by decide +kernel

theorem witness_EncodeDecode : decode (.frame [0x0A, 0x00] 508) = .ok (.cmdReadData 508) := by decide

theorem witness_ReservedCodesRejected :
    (∀ op ∈ [0x03#8, 0x05, 0x08, 0x18, 0xFF],
      op.toNat ∉ [0x00, 0x01, 0x02, 0x04, 0x07, 0x09, 0x0A, 0x11, 0x16, 0x17]) ∧
    ∀ c ∈ [0x00#8, 0x03, 0x1F, 0x2D, 0xFF],
      c.toNat ≠ 0x01 ∧ c.toNat ≠ 0x02 ∧ ¬ (0x20 ≤ c.toNat ∧ c.toNat ≤ 0x2C) := by decide

theorem witness_FrameBounds :
    (Instr.cmdSendData 0x07 (List.replicate 260 0xAA)).wellFormed = true ∧
      encode (.cmdSendData 0x07 (List.replicate 260 0xAA)) = .frame (0x09 :: 0x07 :: List.replicate 260 0xAA) 0 :=
  ⟨by decide +kernel, rfl⟩

theorem witness_StepKeepsInv : ∃ s t : State, s.Inv ∧ s.queue ≠ [] ∧ step s = .next t :=
  have ⟨t, h⟩ := next_of_after (o := step { ready [prompt.silent] with queue := [.frame [0x16, 0x00] 0] }) (by decide +kernel)
  ⟨_, t, ready_inv [prompt.silent] [.frame [0x16, 0x00] 0], by simp, h⟩

/-- Also for the statements on any instruction that takes a step (ResetLineOnlyByReset, OneOutcomeOrOneFault). -/
theorem witness_ResetLineOnlyByReset :
    ∃ t, exec (.writeReg 0x00 0x00000001) (ready [prompt.silent]) = .next t ∧ Instr.writeReg 0x00 0x00000001 ≠ .reset :=
  have ⟨t, h⟩ := next_of_after (o := exec (.writeReg 0x00 0x00000001) (ready [prompt.silent])) (by decide +kernel)
  ⟨t, h, by decide⟩

theorem witness_RecordBitsOnlyByTheirOperations :
    (∃ t, exec .rfOff (ready (switchTurns prompt [] (prompt, 0x100) prompt)) = .next t ∧
      t.rfOn ≠ (ready (switchTurns prompt [] (prompt, 0x100) prompt)).rfOn) ∧
    ∃ t, exec .getIrq (ready [prompt.answer 0]) = .next t ∧ (ready [prompt.answer 0]).initialized = true := by
  refine ⟨?_, ?_⟩
  · have h : (after (exec .rfOff (ready (switchTurns prompt [] (prompt, 0x100) prompt)))).map (fun t => t.rfOn) =
        some false := by decide +kernel
    obtain ⟨t, ht⟩ := next_of_after (o := exec .rfOff (ready (switchTurns prompt [] (prompt, 0x100) prompt)))
      (by cases hx : after (exec .rfOff (ready (switchTurns prompt [] (prompt, 0x100) prompt))) <;> simp_all)
    rw [ht] at h
    have h' : t.rfOn = false := by simpa [after] using h
    exact ⟨t, ht, by rw [h']; decide⟩
  · obtain ⟨t, ht⟩ := next_of_after (o := exec .getIrq (ready [prompt.answer 0])) (by decide +kernel)
    exact ⟨t, ht, rfl⟩

theorem witness_FaultsNeverCleared :
    ∃ t, step { ready [prompt.silent] with queue := [.frame [0x16, 0x00] 0], faults := ⟨true, true, true, true⟩ } = .next t :=
  next_of_after (by decide +kernel)

theorem witness_StepRunsDecoded :
    { ready [] with queue := [Request.term ⟨.getIrq, []⟩] }.queue = .term ⟨.getIrq, []⟩ :: [] ∧
      decode (.term ⟨.getIrq, []⟩) = .ok .getIrq := ⟨rfl, by decide⟩

theorem witness_StepRunsIssued : Instr.getIrq.wellFormed = true := rfl

theorem witness_StepOtherwise :
    (ready []).queue = [] ∧ (ready []).phase = .idle ∧ (ready []).phase ≠ .halted ∧
      decode (.frame [0x03] 0) = .error (.reservedOpcode 0x03) := by decide

theorem witness_StuckUnlessIdle :
    { ready [] with phase := .halted }.phase = .halted ∧ { ready [] with phase := .op }.phase ≠ .idle ∧
      { ready [] with phase := .op }.phase ≠ .halted ∧ Instr.reset.neverBuilt = false := by decide

theorem witness_EntryFaults :
    State.reset.phase = .idle ∧ State.reset.cs = false ∧ State.reset.initialized = false ∧ Instr.getIrq ≠ .reset ∧
      Instr.getIrq.neverBuilt = false ∧ { ready [] with rfOn := false }.phase = .idle ∧
      { ready [] with rfOn := false }.initialized = true ∧ { ready [] with rfOn := false }.rfOn = false ∧
      tagRequestOf .inventory ≠ none := by decide

theorem witness_AdmittedWhenReady :
    (ready []).phase = .idle ∧ (ready []).initialized = true ∧ (ready []).rfOn = true ∧
      Instr.inventory.neverBuilt = false ∧ tagRequestOf .inventory ≠ none := by decide

theorem witness_OneOutcomeOrOneFault :
    (∃ t, exec .getIrq (ready [prompt.answer 0]) = .next t) ∧ ∃ t, exec .getIrq State.reset = .next t :=
  ⟨next_of_after (by decide +kernel), next_of_after (by decide +kernel)⟩

theorem witness_IdleAfterOutcome :
    (∃ t, exec (.readEeprom 0xFF 0x00) (ready []) = .next t ∧ t.delivered = [.err .outOfRange]) ∧
      Instr.inventory.isHostOp = true := ⟨next_delivering (by decide +kernel), rfl⟩

theorem witness_OutOfRangeChangesNothing :
    (ready []).Inv ∧ (∃ t, exec (.readEeprom 0xFE 0x01) (ready []) = .next t ∧ t.delivered = [.err .outOfRange]) ∧
      (∃ t, exec (.sendData [] 0x08) (ready []) = .next t ∧ t.delivered = [.err .outOfRange]) ∧
      ∃ t, exec (.writeBlock uid 0x03 (List.replicate 250 0xAA)) (ready []) = .next t ∧
        t.delivered = [.err .outOfRange] :=
  ⟨ready_inv [] [], next_delivering (by decide +kernel), next_delivering (by decide +kernel),
    next_delivering (by decide +kernel)⟩

theorem witness_TagErrorsAreResults :
    (∃ t, exec .inventory (ready ((tag 0 0 [] 0).sending ++ [prompt.answer 0])) = .next t ∧
      t.delivered = [.err .noCardDetected]) ∧
    ∃ t, exec .inventory (ready (answeredBy [0x01, 0x12]).all) = .next t ∧
      t.delivered = [.err (.tagError .blockIsLocked)] :=
  ⟨next_delivering (by decide +kernel), next_delivering (by decide +kernel)⟩

theorem pad_length (n : Nat) (b : Byte) : (List.replicate n b).length = n := List.length_replicate

theorem pad_le {n m : Nat} (b : Byte) (h : n ≤ m) : (List.replicate n b).length ≤ m := (pad_length n b).symm ▸ h

theorem lt_pad {n m : Nat} (b : Byte) (h : m < n) : m < (List.replicate n b).length := (pad_length n b).symm ▸ h

/-- One byte sent and nothing received; 262 bytes sent and 508 received; waits met at the first and at the last sample; for
either destination. -/
theorem witness_HandshakeOrder :
    (ready [⟨prompt, []⟩]).peer.Plays [⟨prompt, []⟩] [] [] ∧
      (ready [⟨⟨1999, 1999, 1999, 1999⟩, List.replicate 508 0x5A⟩]).peer.Plays
        [⟨⟨1999, 1999, 1999, 1999⟩, List.replicate 508 0x5A⟩] [] [] ∧
      ([0x16] : List Byte) ≠ [] ∧ (List.replicate 262 (0x09 : Byte)).length ≤ 262 ∧
      (List.replicate 508 (0x5A : Byte)).length ≤ 508 :=
  ⟨ready_plays _ (by decide), ready_plays _ (by decide), by simp, pad_le _ (by decide), pad_le _ (by decide)⟩

theorem witness_OversizedTransfersAreFatal :
    (ready []).phase = .idle ∧ (ready []).cs = false ∧ (ready []).initialized = true ∧ 508 < 509 ∧
      260 < (List.replicate 261 (0xAA : Byte)).length := by decide +kernel

theorem witness_NeverReadyTimesOut :
    ∃ s : State, s.phase = .idle ∧ s.initialized = true ∧ s.cs = false ∧
      s.peer.busy = List.replicate 2000 true ++ [] :=
  ⟨{ ready [] with peer := { (ready []).peer with busy := List.replicate 2000 true ++ [] } }, rfl, rfl, rfl, rfl⟩

/-- `ready` with the BUSY samples `busy`, the reply bytes `replies` and the answers `executed`. -/
def readyFor (busy : List Bool) (replies : List Reply) (executed : List Bool) : State :=
  { ready [] with peer := { (ready []).peer with busy := busy, replies := replies, executed := executed } }

/-- `ready` where the peer plays the cycles `ts`, and then `t` up to its wait in the phase `ph`; the next draw is "executed". -/
def stalledAt (ts : List Turn) (t : Turn) (ph : Phase) : State :=
  readyFor (turnSamples ts ++ (t.pace.timeout ph ++ [])) (turnReplies ts ++ (ph.replies t.reply ++ [])) [true]

/-- Some state meets the hypotheses of `UnmetWaitsTimeOut` together, for a timeout of `i` in its exchange `k` and phase `ph`. -/
def Stallable (i : Instr) (k : Nat) (ph : Phase) : Prop :=
  ∃ (s u : State) (before after : List Exchange) (e : Exchange), before.length = k ∧ s.phase = .idle ∧
    s.initialized = true ∧ s.rfOn = true ∧ s.cs = false ∧ Course s i (before ++ e :: after) ∧ e.left = some u ∧
    s.peer.Stalls before e ph [] [] ∧ s.peer.executed = [true] ∧ s.peer.Quiet

theorem stallable {i : Instr} {ts : List Turn} {t : Turn} {ph : Phase} {before after : List Exchange} {frame : List Byte}
    {u : State} (h : Course (stalledAt ts t ph) i (before ++ ⟨frame, t, some u⟩ :: after))
    (hts : before.map (·.turn) = ts) (hph : ph ∈ waitPhases) (hr : ph = .rWaitDone → t.reply ≠ [])
    (hb : ts.all (fun t => t.pace.bounded) = true) (hb' : t.pace.bounded = true) : Stallable i before.length ph :=
  ⟨stalledAt ts t ph, u, before, after, ⟨frame, t, some u⟩, rfl, rfl, rfl, rfl, rfl, h, rfl,
    ⟨hph, hr, fun x hx => List.all_eq_true.1 hb x.turn (hts ▸ List.mem_map.2 ⟨x, hx, rfl⟩), hb', by subst hts; rfl,
      by subst hts; rfl⟩, rfl, rfl, rfl⟩

/-- Every form of `Course`; every wait; the ends of the lengths; the timeouts inside an IRQ wait (R171), of the second mask
write (X5 of spec/95_test_vectors.md) and of the clear that ends a tag command. -/
theorem witness_UnmetWaitsTimeOut :
    Stallable (.writeReg 0x00 7) 0 .tWaitReady ∧ Stallable .cmdRfOn 0 .tWaitBusy ∧
      Stallable (.cmdSendData 0x00 (List.replicate 260 0xAA)) 0 .tWaitDone ∧ Stallable .getIrq 0 .rWaitDone ∧
      Stallable (.readEeprom 0xFD 0x01) 0 .rWaitDone ∧
      Stallable (.readData (List.replicate 508 (0x5A : Byte)).length) 0 .rWaitDone ∧
      Stallable (.sendData (List.replicate 260 0xAA) 0x07) 1 .tWaitDone ∧
      Stallable (.sendData (List.replicate 260 0xAA) 0x07) 3 .tWaitBusy ∧ Stallable .rfOn 2 .rWaitDone ∧
      Stallable .rfOff 2 .tWaitReady ∧ Stallable .setupRf 4 .tWaitDone ∧ Stallable .reset 0 .tWaitBusy ∧
      Stallable .inventory 6 .rWaitDone ∧ Stallable .inventory 8 .tWaitDone := by
  refine ⟨stallable (before := []) (ts := []) (Course.write (a := 0) (t := 0) (r := 0) (v := 7)
      (frame := [0x00, 0x00] ++ bytesLe32 7) ⟨1999, 1999, 1999, 1999⟩ (by simp)) rfl
      (by decide) (by decide) (by decide) (by decide),
    stallable (before := []) (ts := []) (Course.write (a := 0) (t := 0) (r := 0) (v := 7)
      (frame := [0x16, 0x00]) prompt (by simp)) rfl
      (by decide) (by decide) (by decide) (by decide),
    stallable (before := []) (ts := []) (Course.sendCommand prompt (pad_le _ (by decide))) rfl
      (by decide) (by decide) (by decide) (by decide),
    stallable (before := []) (ts := []) (Course.readWord (a := 0) (frame := [0x04, 0x02]) prompt
      [0x11, 0x22, 0x33, 0x44] rfl (by simp)) rfl
      (by decide) (by decide) (by decide) (by decide),
    stallable (before := []) (ts := []) (Course.readEeprom (a := 0xFD) (l := 0x01) prompt [0x5A] (by decide) rfl
      (by simp)) rfl
      (by decide) (by decide) (by decide) (by decide),
    stallable (before := []) (ts := []) (Course.readData prompt (List.replicate 508 0x5A) (pad_le _ (by decide))
      List.mem_cons_self) rfl (by decide) (fun _ => List.ne_nil_of_length_pos (lt_pad _ (by decide))) (by decide) (by decide),
    stallable (before := [_]) (ts := [_]) (Course.sendData prompt prompt (prompt, 0x01000000) prompt (pad_le _ (by decide))
      (by decide) (by decide)) rfl (by decide) (by decide) (by decide) (by decide),
    stallable (before := [_, _, _]) (ts := [_, _, _]) (Course.sendData prompt prompt (prompt, 0x01000000) prompt
      (pad_le _ (by decide)) (by decide) (by decide)) rfl (by decide) (by decide) (by decide) (by decide),
    stallable (before := [_, _]) (ts := [_, _]) (Course.rfOn prompt prompt [(prompt, 0)] (prompt, 0x00000200) (by decide)
      (by decide) (by decide)) rfl (by decide) (by decide) (by decide) (by decide),
    stallable (before := [_, _]) (ts := [_, _]) (Course.rfOff prompt prompt [(prompt, 0)] (prompt, 0x00000100) (by decide)
      (by decide) (by decide)) rfl (by decide) (by decide) (by decide) (by decide),
    stallable (before := [_, _, _, _]) (ts := [_, _, _, _]) (Course.setupRf prompt prompt prompt prompt prompt []
      (prompt, 0x00000200) (by decide) (by decide) (by decide)) rfl (by decide) (by decide) (by decide) (by decide),
    stallable (before := []) (ts := []) (Course.reset prompt [] (prompt, 0x00000004) (by decide) (by decide) (by decide)) rfl
      (by decide) (by decide) (by decide) (by decide),
    stallable (before := [_, _, _, _, _, _]) (ts := [_, _, _, _, _, _]) (Course.tag (tag 0x4007 2 [0x00, 0x00] 0x0007) rfl
      (by decide) (by decide) (by decide) (by decide) (by decide)) rfl (by decide) (by decide) (by decide) (by decide),
    stallable (before := [_, _, _, _, _, _, _, _]) (ts := [_, _, _, _, _, _, _, _])
      (Course.tagClear (flags := 0x00) (payload := 0x00 :: uid.bytes) (answeredBy (0x00 :: 0x00 :: uid.bytes)) rfl
      (by decide) (by decide) rfl (by decide) (by simp [PayloadTooShort, uid, Uid.bytes])) rfl (by decide) (by decide)
      (by decide) (by decide)⟩

/-- A ready controller and a quiet peer that plays one write-only cycle; an address for each of the clauses. -/
theorem witness_WriteRegister :
    (ready [prompt.silent]).phase = .idle ∧ (ready [prompt.silent]).initialized = true ∧
      (ready [prompt.silent]).peer.Plays [prompt.silent] [] [] ∧ (ready [prompt.silent]).peer.Quiet ∧
      (∀ a ∈ [0x00#8, 0x01, 0x02, 0x04, 0x25], namedAddress a = true ∧ a ≠ 0x03) ∧
      (∀ a ∈ [0x05#8, 0x0B, 0x26, 0xFF], namedAddress a = false ∧ a ≠ 0x03) ∧ namedAddress 0x03 = true :=
  ⟨rfl, rfl, ready_plays _ (by decide), ready_quiet _, by decide, by decide, by decide⟩

theorem witness_WriteRegisterOr :
    (ready [prompt.silent]).phase = .idle ∧ (ready [prompt.silent]).initialized = true ∧
      (ready [prompt.silent]).peer.Plays [prompt.silent] [] [] ∧ (ready [prompt.silent]).peer.Quiet ∧
      (∀ a ∈ [0x00#8, 0x02, 0x03, 0x25], namedAddress a = true) ∧ ∀ a ∈ [0x05#8, 0xFF], namedAddress a = false :=
  ⟨rfl, rfl, ready_plays _ (by decide), ready_quiet _, by decide, by decide⟩

theorem witness_WriteRegisterAnd :
    (ready [prompt.silent]).phase = .idle ∧ (ready [prompt.silent]).initialized = true ∧
      (ready [prompt.silent]).peer.Plays [prompt.silent] [] [] ∧ (ready [prompt.silent]).peer.Quiet ∧
      (∀ a ∈ [0x00#8, 0x02, 0x03, 0x25], namedAddress a = true) ∧ ∀ a ∈ [0x05#8, 0xFF], namedAddress a = false :=
  ⟨rfl, rfl, ready_plays _ (by decide), ready_quiet _, by decide, by decide⟩

theorem witness_ReadRegister :
    (ready [prompt.reply [0x11, 0x22, 0x33, 0x44]]).phase = .idle ∧
      (ready [prompt.reply [0x11, 0x22, 0x33, 0x44]]).initialized = true ∧
      (ready [prompt.reply [0x11, 0x22, 0x33, 0x44]]).peer.Plays [prompt.reply [0x11, 0x22, 0x33, 0x44]] [] [] :=
  ⟨rfl, rfl, ready_plays _ (by decide)⟩

theorem witness_ReadBackLaw :
    (∀ a ∈ [0x00#8, 0x01, 0x02, 0x04, 0x25], namedAddress a = true ∧ a ≠ 0x03) ∧
    (∃ s : State, s.phase = .idle ∧ s.initialized = true ∧ prompt.bounded = true ∧ s.peer.Quiet ∧
      s.peer.busy = prompt.write ++ prompt.read ++ [] ∧ s.peer.replies = [.held, .held, .held, .held] ++ []) ∧
    [0x00000005#32, 0x00000001].map (fun v => decide ((0x00000004#32) &&& ~~~v = 0)) = [true, false] :=
  ⟨by decide, ⟨readyHeld (prompt.write ++ prompt.read ++ []), rfl, rfl, by decide, ⟨rfl, rfl⟩, rfl, rfl⟩, by decide⟩

/-- Addresses 254, 253 and 0 at the ends of the admitted lengths; the refused neighbours. A quiet peer that answers with the
last two bytes of its EEPROM. -/
theorem witness_ReadEeprom :
    (ready [prompt.reply (List.replicate 254 0x5A)]).peer.Plays [prompt.reply (List.replicate 254 0x5A)] [] [] ∧
      (List.replicate 254 (0x5A : Byte)).length = (0xFE : Byte).toNat ∧ (0x00 : Byte).toNat + (0xFE : Byte).toNat ≤ 254 ∧
      (ready [prompt.reply []]).peer.Plays [prompt.reply []] [] [] ∧ (0xFE : Byte).toNat + (0x00 : Byte).toNat ≤ 254 ∧
      254 < (0x00 : Byte).toNat + (0xFF : Byte).toNat ∧ 254 < (0xFE : Byte).toNat + (0x01 : Byte).toNat ∧
      254 < (0xFF : Byte).toNat + (0x00 : Byte).toNat ∧ (ready []).phase = .idle ∧ (ready []).cs = false ∧
      (ready []).initialized = true ∧
      ∃ s : State, s.phase = .idle ∧ s.cs = false ∧ s.initialized = true ∧ s.peer.Quiet ∧ prompt.bounded = true ∧
        ([0xAB, 0xCD] : List Byte).length = (0x02 : Byte).toNat ∧ (0xFC : Byte).toNat + (0x02 : Byte).toNat ≤ 254 ∧
        (∀ k, k < ([0xAB, 0xCD] : List Byte).length →
          cellsRead s.peer.chip.eeprom ((0xFC : Byte).toNat + k) = ([0xAB, 0xCD] : List Byte)[k]?) ∧
        s.peer.busy = (prompt.reply [0xAB, 0xCD]).samples ++ [] ∧
        s.peer.replies = List.replicate ([0xAB, 0xCD] : List Byte).length .held ++ [] :=
  ⟨ready_plays _ (by decide), pad_length _ _, by decide, ready_plays _ (by decide), by decide, by decide, by decide, by decide,
    rfl, rfl, rfl, readyEeprom 0xFC [0xAB, 0xCD] (prompt.reply [0xAB, 0xCD]).samples, rfl, rfl, rfl, ⟨rfl, rfl⟩, by decide,
    by decide, by decide, by decide, by decide, rfl⟩

/-- Nothing received, and 508 bytes; a byte past the valid ones. -/
theorem witness_ReadData :
    (ready [prompt.reply []]).peer.Plays [prompt.reply []] [] [] ∧
      (ready [prompt.reply (List.replicate 508 0x5A)]).peer.Plays [prompt.reply (List.replicate 508 0x5A)] [] [] ∧
      (List.replicate 508 (0x5A : Byte)).length ≤ 508 ∧ (ready []).phase = .idle ∧ (ready []).initialized = true ∧
      (ready []).scratchValid = ([] : List Byte).length ∧ ([] : List Byte).length < 0 + 1 :=
  ⟨ready_plays _ (by decide), ready_plays _ (by decide), pad_le _ (by decide), rfl, rfl, rfl, by simp⟩

theorem witness_ScratchWrittenOnlyByReadData :
    (∃ t, exec .getIrq (ready [prompt.answer 0]) = .next t) ∧ tagRequestOf .getIrq = none ∧
      (∃ t, exec (.readData 0) (ready [prompt.silent]) = .next t) ∧
      (∃ t, exec (.readData 2) (ready [prompt.reply [0x01, 0x02]]) = .next t) ∧
      (∃ t, exec .inventory (ready (answeredBy [0x01, 0x12]).all) = .next t) ∧ tagRequestOf .inventory ≠ none ∧
      (ready (answeredBy [0x01, 0x12]).all).peer.Quiet ∧ (ready [prompt.answer 0]).Inv :=
  ⟨next_of_after (by decide +kernel), rfl, next_of_after (by decide +kernel), next_of_after (by decide +kernel),
    next_of_after (by decide +kernel), by decide, ready_quiet _, ready_inv _ []⟩

theorem witness_SendData :
    (0x01000000 : Word).extractLsb' 24 3 = 1 ∧
      (ready (arming 0x01000000 ++ [prompt.silent])).peer.Plays
        [prompt.silent, prompt.silent, prompt.answer 0x01000000, prompt.silent] [] [] ∧
      (List.replicate 260 (0xAA : Byte)).length ≤ 260 ∧ (0x07 : Byte).toNat ≤ 7 ∧
      260 < (List.replicate 261 (0xAA : Byte)).length ∧ 7 < (0x08 : Byte).toNat ∧ (ready []).cs = false ∧
      (ready []).phase = .idle ∧ (ready []).initialized = true :=
  ⟨by decide, ready_plays _ (by decide), pad_le _ (by decide), by decide, lt_pad _ (by decide), by decide, rfl, rfl, rfl⟩

/-- `SendData` with the field off, a tag command with it on; in each phase a read of RF-Status that times out. -/
theorem witness_NotReadyBeforeSending :
    (0x00000000 : Word).extractLsb' 24 3 ≠ 1 ∧ (0x02000000 : Word).extractLsb' 24 3 ≠ 1 ∧
      (ready (arming 0)).peer.Plays [prompt.silent, prompt.silent, prompt.answer 0] [] [] ∧
      (ready (arming 0)).peer.Quiet ∧ (ready (arming 0)).phase = .idle ∧ (ready (arming 0)).initialized = true ∧
      (ready (arming 0)).rfOn = true ∧ tagRequestOf .inventory = some [0x26, 0x01, 0x00] ∧
      (List.replicate 260 (0xAA : Byte)).length ≤ 260 ∧ (0x07 : Byte).toNat ≤ 7 ∧
      ∀ ph ∈ waitPhases, ∃ s : State, s.phase = .idle ∧ s.initialized = true ∧ s.rfOn = false ∧
        prompt.bounded = true ∧ s.peer.busy = prompt.write ++ prompt.write ++ prompt.timeout ph ++ [] ∧
        s.peer.replies = ph.replies [0x00, 0x00, 0x00, 0x01] ++ [] :=
  ⟨by decide, by decide, ready_plays _ (by decide), ready_quiet _, rfl, rfl, rfl, rfl, pad_le _ (by decide), by decide,
    fun ph _ => ⟨{ readyFor (prompt.write ++ prompt.write ++ prompt.timeout ph ++ [])
      (ph.replies [0x00, 0x00, 0x00, 0x01] ++ []) [] with rfOn := false }, rfl, rfl, rfl, by decide, rfl, rfl⟩⟩

theorem witness_SingleFrameCommands :
    (ready [prompt.silent]).phase = .idle ∧ (ready [prompt.silent]).initialized = true ∧
      (ready [prompt.silent]).peer.Plays [prompt.silent] [] [] ∧ (List.replicate 260 (0xAA : Byte)).length ≤ 260 :=
  ⟨rfl, rfl, ready_plays _ (by decide), pad_le _ (by decide)⟩

theorem witness_LoadRfConfig :
    (ready [prompt.silent]).phase = .idle ∧ (ready [prompt.silent]).initialized = true ∧
      (ready [prompt.silent]).peer.Plays [prompt.silent] [] [] := ⟨rfl, rfl, ready_plays _ (by decide)⟩

/-- The flag seen at the first read, and at the last read that the limit allows. -/
theorem witness_SwitchRf :
    (ready (switchTurns prompt [] (prompt, 0x00000200) prompt)).peer.Plays
        (switchTurns prompt [] (prompt, 0x00000200) prompt) [] [] ∧ (0x00000200 : Word).getLsbD 9 = true ∧
      (ready (switchTurns prompt [(prompt, 0x00000200)] (prompt, 0x00000100) prompt)).peer.Plays
        (switchTurns prompt [(prompt, 0x00000200)] (prompt, 0x00000100) prompt) [] [] ∧
      (0x00000200 : Word).getLsbD 8 = false ∧ (0x00000100 : Word).getLsbD 8 = true ∧
      ∃ s : State, s.phase = .idle ∧ s.initialized = true ∧ [(prompt, (0x00000200 : Word))].length < s.params.irqPollLimit :=
  ⟨ready_plays _ (by decide), by decide, ready_plays _ (by decide), by decide, by decide,
    { ready [] with params := ⟨2, 2⟩ }, rfl, rfl, by decide⟩

theorem witness_IrqWaitTimesOut :
    ∃ s : State, s.phase = .idle ∧ s.initialized = true ∧ [(prompt, (0x00000080 : Word))] ≠ [] ∧
      [(prompt, (0x00000080 : Word))].length = s.params.irqPollLimit ∧
      [(prompt, (0x00000080 : Word))].length = s.params.resetPollLimit ∧ (0x00000080 : Word).getLsbD 9 = false ∧
      (0x00000080 : Word).getLsbD 8 = false ∧ (0x00000080 : Word).getLsbD 2 = false ∧
      s.peer.Plays (prompt.silent :: irqTurns [(prompt, 0x00000080)]) [] [] :=
  ⟨{ ready (prompt.silent :: irqTurns [(prompt, 0x00000080)]) with params := ⟨1, 1⟩ }, rfl, rfl, by simp, rfl, rfl,
    by decide, by decide, by decide, ready_plays (prompt.silent :: irqTurns [(prompt, 0x00000080)]) (by decide)⟩

/-- The load of the profile, the RF-On frame, and a read that does not show the flag; the field's record is kept either way. -/
theorem witness_IrqWaitTimesOut_setup :
    ∀ b : Bool, ∃ s : State, s.phase = .idle ∧ s.initialized = true ∧ s.rfOn = b ∧
      [(prompt, (0x00000100 : Word))].length = s.params.irqPollLimit ∧ (0x00000100 : Word).getLsbD 9 = false ∧
      s.peer.Quiet ∧ s.peer.Plays (prompt.silent :: prompt.silent :: irqTurns [(prompt, 0x00000100)]) [] [] :=
  fun b => ⟨{ ready (prompt.silent :: prompt.silent :: irqTurns [(prompt, 0x00000100)]) with
    params := ⟨1, 1⟩, rfOn := b }, rfl, rfl, rfl, rfl, by decide, ready_quiet _,
    ready_plays (prompt.silent :: prompt.silent :: irqTurns [(prompt, 0x00000100)]) (by decide)⟩

/-- A first `Reset`, and a later one. -/
theorem witness_IrqWaitTimesOut_reset :
    ∀ b : Bool, ∃ s : State, s.phase = .idle ∧ s.initialized = b ∧
      [(prompt, (0x00000000 : Word))].length = s.params.resetPollLimit ∧
      s.peer.Plays (irqTurns [(prompt, 0x00000000)]) [] [] :=
  fun b => ⟨{ ready (irqTurns [(prompt, 0x00000000)]) with params := ⟨1, 1⟩, initialized := b }, rfl, rfl, rfl,
    ready_plays (irqTurns [(prompt, 0x00000000)]) (by decide)⟩

theorem witness_MonitorOperations :
    (ready [prompt.answer 0x00004007]).peer.Plays [prompt.answer 0x00004007] [] [] ∧
      (ready [prompt.silent]).peer.Plays [prompt.silent] [] [] ∧ (ready []).phase = .idle ∧
      (ready []).initialized = true ∧
      ∀ ph ∈ waitPhases, ∃ s : State, s.phase = .idle ∧ s.initialized = true ∧ s.cs = false ∧
        s.peer.busy = prompt.timeout ph ++ [] ∧ s.peer.replies = ph.replies [0x00, 0x00, 0x00, 0x01] ++ [] :=
  ⟨ready_plays _ (by decide), ready_plays _ (by decide), rfl, rfl,
    fun ph _ => ⟨readyFor (prompt.timeout ph ++ []) (ph.replies [0x00, 0x00, 0x00, 0x01] ++ []) [], rfl, rfl, rfl, rfl,
      rfl⟩⟩

theorem witness_ResetOperation :
    (powerUp (irqTurns ([(prompt, 0)] ++ [(prompt, 0x00000004)]) ++ [prompt.silent])).peer.Plays
        (irqTurns ([(prompt, 0)] ++ [(prompt, 0x00000004)]) ++ [prompt.silent]) [] [] ∧
      (powerUp []).phase = .idle ∧ [(prompt, (0 : Word))].length < (powerUp []).params.resetPollLimit ∧
      (0 : Word).getLsbD 2 = false ∧ (0x00000004 : Word).getLsbD 2 = true :=
  ⟨ready_plays (irqTurns ([(prompt, 0)] ++ [(prompt, 0x00000004)]) ++ [prompt.silent]) (by decide), rfl, by decide, by decide,
    by decide⟩

theorem witness_SetupRf :
    (ready (prompt.silent :: (switchTurns prompt [] (prompt, 0x00000200) prompt ++
        [prompt.silent, prompt.silent]))).peer.Plays
        (prompt.silent :: (switchTurns prompt [] (prompt, 0x00000200) prompt ++ [prompt.silent, prompt.silent])) [] [] ∧
      (ready []).phase = .idle ∧ (ready []).initialized = true ∧
      ([] : List (Pace × Word)).length < (ready []).params.irqPollLimit ∧ (0x00000200 : Word).getLsbD 9 = true :=
  ⟨ready_plays _ (by decide), rfl, rfl, by decide, by decide⟩

/-- A tag command that is answered. -/
theorem ready_answered (response : List Byte)
    (h : (answeredBy response).answered = true) : TagAnswered (ready (answeredBy response).all) (answeredBy response) :=
  ⟨rfl, rfl, rfl, h, [], [], ready_plays _ (by
    simp [answeredBy, tag, TagTurns.all, TagTurns.reading, TagTurns.sending, Pace.silent, Pace.answer, Pace.reply,
      (by decide : prompt.bounded = true)])⟩

/-- Exactly ten bytes, and one more. -/
theorem witness_Inventory :
    TagAnswered (ready (answeredBy ([0x00, 0x00] ++ uid.bytes ++ [])).all) (answeredBy ([0x00, 0x00] ++ uid.bytes ++ [])) ∧
      TagAnswered (ready (answeredBy ([0x00, 0x00] ++ uid.bytes ++ [0x99])).all)
        (answeredBy ([0x00, 0x00] ++ uid.bytes ++ [0x99])) ∧
      (answeredBy ([0x00, 0x00] ++ uid.bytes ++ [])).response.2 = [0x00, 0x00] ++ uid.bytes ++ [] ∧
      (0x00 : Byte).getLsbD 0 = false ∧ uid.bytes.length = 8 :=
  ⟨ready_answered _ (by decide), ready_answered _ (by decide), rfl, by decide, rfl⟩

theorem witness_BlockOperations :
    TagAnswered (ready (answeredBy (0x00 :: ([0xDE, 0xAD] ++ [0x99]))).all) (answeredBy (0x00 :: ([0xDE, 0xAD] ++ [0x99]))) ∧
      TagAnswered (ready (answeredBy [0x00]).all) (answeredBy [0x00]) ∧ (0x00 : Byte).getLsbD 0 = false ∧
      (List.replicate 249 (0xAA : Byte)).length ≤ 249 ∧ 249 < (List.replicate 250 (0xAA : Byte)).length ∧
      (ready []).cs = false :=
  ⟨ready_answered _ (by decide), ready_answered _ (by decide), by decide, pad_le _ (by decide), lt_pad _ (by decide), rfl⟩

/-- Every optional field, and none of them. -/
theorem witness_GetSysinfo :
    TagAnswered (ready (answeredBy ([0x00, 0x0F] ++ uid.bytes ++ [0xAB, 0x00, 0xFF, 0xFF, 0x55])).all)
        (answeredBy ([0x00, 0x0F] ++ uid.bytes ++ [0xAB, 0x00, 0xFF, 0xFF, 0x55])) ∧
      [0x00#8, 0x0F] ++ uid.bytes ++ [0xAB, 0x00, 0xFF, 0xFF, 0x55] = [0x00, 0x0F] ++ uid.bytes
        ++ (if (0x0F : Byte).getLsbD 0 then [0xAB] else []) ++ (if (0x0F : Byte).getLsbD 1 then [0x00] else [])
        ++ (if (0x0F : Byte).getLsbD 2 then [0xFF, 0xFF] else []) ++ (if (0x0F : Byte).getLsbD 3 then [0x55] else [])
        ++ [] ∧
      TagAnswered (ready (answeredBy ([0x00, 0xF0] ++ uid.bytes)).all) (answeredBy ([0x00, 0xF0] ++ uid.bytes)) ∧
      [0x00#8, 0xF0] ++ uid.bytes = [0x00, 0xF0] ++ uid.bytes
        ++ (if (0xF0 : Byte).getLsbD 0 then [0xAB] else []) ++ (if (0xF0 : Byte).getLsbD 1 then [0x00] else [])
        ++ (if (0xF0 : Byte).getLsbD 2 then [0xFF, 0xFF] else []) ++ (if (0xF0 : Byte).getLsbD 3 then [0x55] else [])
        ++ [] :=
  ⟨ready_answered _ (by decide), by decide, ready_answered _ (by decide), by decide⟩

theorem witness_TagRequests :
    TagAnswered (ready (answeredBy [0x00, 0xDE, 0xAD]).all) (answeredBy [0x00, 0xDE, 0xAD]) ∧
      (0x00 : Byte).getLsbD 0 = false ∧ (List.replicate 249 (0xAA : Byte)).length ≤ 249 :=
  ⟨ready_answered _ (by decide), by decide, pad_le _ (by decide)⟩

theorem witness_TagErrorResponse :
    (ready (answeredBy [0x01, 0x12]).reading).peer.Plays (answeredBy [0x01, 0x12]).reading [] [] ∧
      (answeredBy [0x01, 0x12]).answered = true ∧ tagRequestOf .inventory = some [0x26, 0x01, 0x00] ∧
      (answeredBy [0x01, 0x12]).response.2 = 0x01 :: 0x12 :: [] ∧ (0x01 : Byte).getLsbD 0 = true ∧
      (ready []).phase = .idle ∧ (ready []).initialized = true ∧ (ready []).rfOn = true :=
  ⟨ready_plays _ (by decide), by decide, rfl, rfl, by decide, rfl, rfl, rfl⟩

theorem witness_CodeTables :
    0xA0 ≤ (0xA0 : Byte).toNat ∧ (0x9F : Byte).toNat < 0xA0 ∧
      (0x9F : Byte).toNat ∉ [0x01, 0x02, 0x03, 0x0F, 0x10, 0x11, 0x12, 0x13, 0x14] := by decide

/-- Start-of-frame absent at the first read, and absent at the second. -/
theorem witness_NoCardDetected :
    (ready ((tag 0x0002 0 [] 0).sending ++ [prompt.answer 0x0002])).peer.Plays
        ((tag 0x0002 0 [] 0).sending ++ [(tag 0x0002 0 [] 0).irq.1.answer (tag 0x0002 0 [] 0).irq.2]) [] [] ∧
      (0x0002 : Word).getLsbD 14 = false ∧
      (ready (tag 0x4007 2 [0x00, 0x00] 0x0007).reading).peer.Plays (tag 0x4007 2 [0x00, 0x00] 0x0007).reading [] [] ∧
      (0x4007 : Word).getLsbD 14 = true ∧ (0x0007 : Word).getLsbD 14 = false ∧ rxLength 2 = 2 ∧
      (0x01000000 : Word).extractLsb' 24 3 = 1 :=
  ⟨ready_plays _ (by decide), by decide, ready_plays _ (by decide), by decide, by decide, by decide, by decide⟩

/-- Empty; flagged and one byte long; each parser's payload one byte short, GET_SYSINFO's in its UID and in the last of its
announced fields. -/
theorem witness_MalformedResponse :
    (∀ r ∈ [[], [(0x01 : Byte)], 0x00 :: List.replicate 8 0x5A, 0x00 :: 0x0F :: List.replicate 12 0x5A],
      (answeredBy r).answered = true ∧ (ready (answeredBy r).reading).peer.Plays (answeredBy r).reading [] []) ∧
    (0x01 : Byte).getLsbD 0 = true ∧ (0x00 : Byte).getLsbD 0 = false ∧
    PayloadTooShort .inventory (List.replicate 8 0x5A) ∧ PayloadTooShort (.readBlock uid 3 9) (List.replicate 8 0x5A) ∧
    PayloadTooShort (.getSysinfo uid) (List.replicate 8 0x5A) ∧
    PayloadTooShort (.getSysinfo uid) (0x0F :: List.replicate 12 0x5A) := by
  refine ⟨?_, by decide, by decide, .inl ⟨rfl, by decide⟩, .inr (.inl ⟨uid, 3, 9, rfl, by decide⟩),
    .inr (.inr ⟨uid, rfl, .inl (by decide)⟩),
    .inr (.inr ⟨uid, rfl, .inr ⟨0x0F, List.replicate 12 0x5A, rfl, by decide⟩⟩)⟩
  intro r hr
  simp only [List.mem_cons, List.not_mem_nil, or_false] at hr
  rcases hr with rfl | rfl | rfl | rfl
  · exact ⟨by decide, ready_plays _ (by decide)⟩
  · exact ⟨by decide, ready_plays _ (by decide)⟩
  · exact ⟨by decide, ready_plays _ (by decide)⟩
  · exact ⟨by decide, ready_plays _ (by decide)⟩

/-- RX-Status 509 and 511. -/
theorem witness_OversizedResponseIsFatal :
    ∀ len ∈ [(0x000001FD : Word), 0x000001FF], 508 < rxLength len ∧
      (ready ((tag 0x4007 len [] 0).sending ++ [prompt.answer 0x4007, prompt.answer len])).peer.Plays
        ((tag 0x4007 len [] 0).sending ++ [prompt.answer 0x4007, prompt.answer len]) [] [] := by
  intro len hl
  simp only [List.mem_cons, List.not_mem_nil, or_false] at hl
  rcases hl with rfl | rfl
  · exact ⟨by decide, ready_plays _ (by decide)⟩
  · exact ⟨by decide, ready_plays _ (by decide)⟩

theorem witness_FrameRegisterOperations :
    namedAddress 0x00 = true ∧ namedAddress 0x03 = true ∧
    ∀ i ∈ [Instr.writeReg 0x00 1, .cmdWriteRegister 0x03 1, .writeRegOr 0x00 1, .cmdWriteRegisterOrMask 0x00 1,
        .writeRegAnd 0x00 1, .cmdWriteRegisterAndMask 0x00 1, .clearIrq 4],
      ∃ t, exec i (ready [prompt.silent]) = .next t := by
  refine ⟨by decide, by decide, ?_⟩
  intro i hi
  simp only [List.mem_cons, List.not_mem_nil, or_false] at hi
  rcases hi with rfl | rfl | rfl | rfl | rfl | rfl | rfl <;> exact next_of_after (by decide +kernel)

/-- The last clause: a flag is set, the write and the masks would drop it. -/
theorem witness_FrameRegisterOperations_flags :
    namedAddress 0x02 = true ∧ (readyWith 0x02 0x00000004 [prompt.silent]).peer.Quiet ∧
    cellsRead (readyWith 0x02 0x00000004 [prompt.silent]).peer.chip.regs 0x02 = some 0x00000004 ∧
    ∀ i ∈ [Instr.writeReg 0x02 1, .writeRegAnd 0x02 1, .cmdWriteRegisterAndMask 0x03 4],
      ∃ t, exec i (readyWith 0x02 0x00000004 [prompt.silent]) = .next t := by
  refine ⟨by decide, ⟨rfl, rfl⟩, by decide, ?_⟩
  intro i hi
  simp only [List.mem_cons, List.not_mem_nil, or_false] at hi
  rcases hi with rfl | rfl | rfl <;> exact next_of_after (by decide +kernel)

theorem witness_FrameRegisterOperations_reads :
    ∀ i ∈ [Instr.readReg 0x24, .cmdReadRegister 0x24, .getIrq, .getTs],
      ∃ t, exec i (ready [prompt.answer 0x01000000]) = .next t := by
  intro i hi
  simp only [List.mem_cons, List.not_mem_nil, or_false] at hi
  rcases hi with rfl | rfl | rfl | rfl <;> exact next_of_after (by decide +kernel)

theorem witness_FrameSingleCommands :
    ∀ i ∈ [Instr.readEeprom 0x12 0, .cmdReadEeprom 0x12 0, .loadRfConfig 0x0D 0x8D, .cmdLoadRfConfig 0x0D 0x8D,
        .cmdSendData 0 [0xAA], .cmdRfOn, .cmdRfOff],
      ∃ t, exec i (ready [prompt.silent]) = .next t := by
  intro i hi
  simp only [List.mem_cons, List.not_mem_nil, or_false] at hi
  rcases hi with rfl | rfl | rfl | rfl | rfl | rfl | rfl <;> exact next_of_after (by decide +kernel)

/-- A `ReadData` that times out in the wait after its receive transaction (T5). -/
theorem readData_timesOut :
    ∃ t, exec (.readData 1) (readyFor (prompt.timeout .rWaitDone ++ []) (answers [0x5A] ++ []) []) = .next t ∧
      t.delivered = [.err (.busyTimeout .rWaitDone)] := by
  have h : Proc.Fails (returningBytes (readData 1)) _ _ _ _ _ :=
    Proc.Fails.bind (Proc.Fails.update (f := fun s => s.setValid 0) rfl (Proc.Fails.bind
      (fails_never_finished (Q := True) (b := []) (r := [])
        (s := ((readyFor (prompt.timeout .rWaitDone ++ []) (answers [0x5A] ++ []) []).goto .op).setValid 0) frameReadData
        [0x5A] .scratch prompt (by decide) (by decide) (by decide) (by decide)
        ⟨by simp [readyFor, Pace.timeout], rfl, fun _ => ⟨rfl, rfl⟩, fun _ => rfl⟩)))
  obtain ⟨p, w, k, -⟩ := runOperation_fails rfl (entryFault_booted rfl) h
  exact ⟨_, k, rfl⟩

theorem witness_FrameDataTransfers :
    (∃ t, exec (.sendData [0xAA] 0) (ready (arming 0x01000000 ++ [prompt.silent])) = .next t) ∧
      (∃ t, exec (.readData 2) (ready [prompt.reply [0x01, 0x02]]) = .next t) ∧
      (∃ t, exec (.cmdReadData 0) (ready [prompt.silent]) = .next t) ∧
      ∃ s t ph, exec (.readData 1) s = .next t ∧ t.delivered = [.err (.busyTimeout ph)] :=
  have ⟨t, h, d⟩ := readData_timesOut
  ⟨next_of_after (by decide +kernel), next_of_after (by decide +kernel), next_of_after (by decide +kernel), _, t, _, h, d⟩

theorem witness_FrameRfOperations :
    (∃ t, exec .rfOn (ready (switchTurns prompt [] (prompt, 0x200) prompt)) = .next t) ∧
      (∃ t, exec .rfOff (ready (switchTurns prompt [] (prompt, 0x100) prompt)) = .next t) ∧
      ∃ t, exec .setupRf (ready (prompt.silent :: (switchTurns prompt [] (prompt, 0x200) prompt ++
        [prompt.silent, prompt.silent]))) = .next t :=
  ⟨next_of_after (by decide +kernel), next_of_after (by decide +kernel), next_of_after (by decide +kernel)⟩

theorem witness_FrameReset :
    ∃ t, exec .reset (powerUp (irqTurns [(prompt, 0x00000004)] ++ [prompt.silent])) = .next t :=
  next_of_after (by decide +kernel)

theorem witness_FrameTagCommands :
    ∀ i ∈ [Instr.inventory, .readBlock uid 3 1, .writeBlock uid 3 [1], .getSysinfo uid, .tagInventory,
        .tagReadSingleBlock uid 3, .tagWriteSingleBlock uid 3 [1], .tagGetSystemInfo uid],
      tagRequestOf i ≠ none ∧ ∃ t, exec i (ready (answeredBy [0x00, 0xDE]).all) = .next t := by
  intro i hi
  simp only [List.mem_cons, List.not_mem_nil, or_false] at hi
  rcases hi with rfl | rfl | rfl | rfl | rfl | rfl | rfl | rfl <;>
    exact ⟨by simp [tagRequestOf], next_of_after (by decide +kernel)⟩

end Sys2Proof.Tests
end

section
/-! The record of the controller (10_state.md): the frame of a next state, and the parts of the record that it leaves to
single operations. -/

namespace Sys2Proof.Machine

variable {i : Instr} {s t : State}

/-- A next state of an instruction differs from the state before only in what the instruction may change. -/
theorem exec_frame (h : exec i s = .next t) : Frame (mayOf i) s t :=
  (exec_ending h).2.frame

/-- Every instruction but `Reset` leaves the reset line alone (R23); only a register write's permissions depend on its
operands. -/
theorem mayOf_reset_eq_false (hi : i ≠ .reset) : (mayOf i).reset = false := by
  cases i with
  | reset => exact absurd rfl hi
  | cmdWriteRegister | cmdWriteRegisterOrMask | cmdWriteRegisterAndMask | writeReg | writeRegOr | writeRegAnd =>
    exact May.write_reset _ _
  | _ => rfl

/-- Settles O10: no instruction but `Reset` may change the reset line, and the frame of a next state then keeps its record
and the levels driven. -/
theorem resetLineOnlyByReset : Obligations.ResetLineOnlyByReset := by
  intro i s t hi h
  have hframe : Frame (mayOf i) s t := exec_frame h
  have hreset : (mayOf i).reset = false := mayOf_reset_eq_false hi
  exact ⟨hframe.rst hreset, hframe.levels hreset⟩

end Sys2Proof.Machine
end

section
/-! The encoding of the direct commands (30_encoding.md): what the three register-write frames decode to, and how long a
frame that the encoder gives can be. -/

namespace Sys2Proof.Machine

/-! ## Decoding a register-write frame (R92 to R94) -/

/-- A frame whose first byte is an opcode of R102 decodes by that opcode's layout. -/
theorem decode_frame_code (o : Opcode) (params : List Byte) (rl : Nat) :
    decode (.frame (o.code :: params) rl) = decodeParams o params rl := by
  simp only [decode, decodeFrame, Opcode.ofByte_code]

/-- A byte placed above the bits of a value adds its number at its place. -/
theorem toNat_or_byte_shiftLeft {x : Word} {k : Nat} (b : Byte) (hk : k ≤ 24) (hx : x.toNat < 2 ^ k) :
    (x ||| b.setWidth 32 <<< k).toNat = x.toNat + 2 ^ k * b.toNat := by
  have hb : b.toNat <<< k < 2 ^ 32 := calc
    b.toNat <<< k < 2 ^ (8 + k) := Nat.shiftLeft_lt b.isLt
    _ ≤ 2 ^ 32 := Nat.pow_le_pow_right (by decide) (by omega)
  have hplace : (b.setWidth 32 <<< k).toNat = b.toNat <<< k := by
    rw [BitVec.toNat_shiftLeft, BitVec.toNat_setWidth_of_le (by decide), Nat.mod_eq_of_lt hb]
  rw [BitVec.toNat_or, hplace, Nat.or_comm, ← Nat.shiftLeft_add_eq_or_of_lt hx, Nat.shiftLeft_eq, Nat.mul_comm,
    Nat.add_comm]

theorem le32_toNat (b0 b1 b2 b3 : Byte) :
    (le32 b0 b1 b2 b3).toNat = b0.toNat + 256 * b1.toNat + 65536 * b2.toNat + 16777216 * b3.toNat := by
  have hone : (b0.setWidth 32).toNat = b0.toNat := BitVec.toNat_setWidth_of_le (by decide)
  have htwo := toNat_or_byte_shiftLeft (x := b0.setWidth 32) (k := 8) b1 (by decide) (by omega)
  have hthree := toNat_or_byte_shiftLeft (k := 16) b2 (by decide) (show _ < 65536 by rw [htwo]; omega)
  have hfour := toNat_or_byte_shiftLeft (k := 24) b3 (by decide) (show _ < 16777216 by rw [hthree, htwo]; omega)
  rw [le32]
  omega

/-- Settles O1: the opcode selects the layout, whose six bytes are opcode, address and value; the value's bytes do
not overlap, so that its number is their sum by place. -/
theorem registerWriteFrames : Obligations.RegisterWriteFrames := by
  intro a v0 v1 v2 v3
  exact ⟨decode_frame_code .writeRegister _ 0, decode_frame_code .writeRegisterOrMask _ 0,
    decode_frame_code .writeRegisterAndMask _ 0, le32_toNat v0 v1 v2 v3⟩

/-! ## The length of a frame (R91, R105) -/

theorem Opcode.frameLength_le_six {o : Opcode} {n : Nat} (h : o.frameLength = some n) : n ≤ 6 := by
  cases o <;> cases h <;> decide

/-- What an encoded frame is: an opcode with its parameters, as long as the opcode says (R105), or Send-Data's with the
payload at its end, whose length no opcode gives (R97). -/
theorem encode_frame_cases {i : Instr} {bs : List Byte} {rl : Nat} (h : encode i = .frame bs rl) :
    (∃ (o : Opcode) (params : List Byte), bs = o.code :: params ∧ o.frameLength = some bs.length) ∨
      ∃ b payload, i = .cmdSendData b payload ∧ bs = frameSendData b payload := by
  cases i with
  | cmdSendData b payload => cases h; exact .inr ⟨b, payload, rfl, rfl⟩
  | cmdWriteRegister => cases h; exact .inl ⟨.writeRegister, _, rfl, rfl⟩
  | cmdWriteRegisterOrMask => cases h; exact .inl ⟨.writeRegisterOrMask, _, rfl, rfl⟩
  | cmdWriteRegisterAndMask => cases h; exact .inl ⟨.writeRegisterAndMask, _, rfl, rfl⟩
  | cmdReadRegister => cases h; exact .inl ⟨.readRegister, _, rfl, rfl⟩
  | cmdReadEeprom => cases h; exact .inl ⟨.readEeprom, _, rfl, rfl⟩
  | cmdReadData => cases h; exact .inl ⟨.readData, _, rfl, rfl⟩
  | cmdLoadRfConfig => cases h; exact .inl ⟨.loadRfConfig, _, rfl, rfl⟩
  | cmdRfOn => cases h; exact .inl ⟨.rfOn, _, rfl, rfl⟩
  | cmdRfOff => cases h; exact .inl ⟨.rfOff, _, rfl, rfl⟩
  | _ => cases h

/-- R97: the payload of a well-formed Send-Data is at most 260 bytes. -/
theorem payload_length_le_of_wellFormed {b : Byte} {payload : List Byte}
    (h : (Instr.cmdSendData b payload).wellFormed = true) : payload.length ≤ Config.maxSendPayload := by
  simp only [Instr.wellFormed, Bool.and_eq_true, decide_eq_true_eq] at h
  exact h.2

/-- Settles O6: only Send-Data's frame has a length its opcode does not give, and a well-formed one adds two bytes to a
payload of at most 260. -/
theorem frameBounds : Obligations.FrameBounds := by
  intro i bs rl hwf h
  rcases encode_frame_cases h with ⟨o, params, rfl, hlen⟩ | ⟨b, payload, rfl, rfl⟩
  · have hsix : (o.code :: params).length ≤ 6 := Opcode.frameLength_le_six hlen
    exact ⟨List.cons_ne_nil _ _, by omega⟩
  · have hpayload : payload.length ≤ 260 := payload_length_le_of_wellFormed hwf
    exact ⟨List.cons_ne_nil _ _, by simp only [frameSendData, List.length_cons]; omega⟩

end Sys2Proof.Machine
end

section
/-! The outcomes of an operation (43_tag_protocol.md R237, 60_exceptions.md R280): what a delivered outcome says of the
faults and of the phase. -/

namespace Sys2Proof.Machine

variable {i : Instr} {s t : State}

/-- A delivered outcome, of whatever kind, rules out the end by a fault, which delivers none: no fault is recorded and the
controller is IDLE (R280, R286, R290). -/
theorem exec_idle_of_delivered {o : OpOutcome} (h : exec i s = .next t) (hd : t.delivered = s.delivered ++ [o]) :
    t.faults = s.faults ∧ t.phase = .idle := by
  obtain ⟨-, hend⟩ := exec_ending h
  rcases hend.outcome with ⟨hphase, hfaults, -⟩ | ⟨-, -, hnone, -⟩
  · exact ⟨hfaults, hphase⟩
  · have hsame : s.delivered ++ [o] = s.delivered := hd.symm.trans hnone
    simp at hsame

/-- Settles O23: both errors are delivered to the host "like any other outcome" (R237), and an operation that delivers an
outcome ends IDLE with the faults it found. -/
theorem tagErrorsAreResults : Obligations.TagErrorsAreResults := by
  intro i s t e h hd _
  exact exec_idle_of_delivered h hd

end Sys2Proof.Machine
end

section
/-! What an outcome leaves (60_exceptions.md R282, R288): an idle controller, which answers every host operation; and, where
the outcome is `OutOfRange`, the state as it was. -/

namespace Sys2Proof.Machine

variable {i : Instr} {s t : State}

/-! ## After an outcome (R288) -/

/-- The instructions that are never built are tag requests, and a host issues none (R118, R241 to R251). -/
theorem neverBuilt_eq_false_of_isHostOp (h : i.isHostOp = true) : i.neverBuilt = false := by
  cases i with
  | tagStayQuiet | tagLockBlock | tagReadMultipleBlocks | tagWriteMultipleBlock | tagSelect | tagResetToReady
  | tagWriteAfi | tagLockAfi | tagWriteDsfid | tagLockDsfid | tagGetMultipleBlockSecurityStatus => cases h
  | _ => rfl

/-- An idle controller gets stuck on no instruction (R289, R316): it refuses it by name or answers a next state. -/
theorem exec_next_of_idle (hi : i.neverBuilt = false) (hs : s.phase = .idle) : ∃ t, exec i s = .next t := by
  rcases exec_cases i s hi with ⟨t, ht, -, -⟩ | ⟨-, hhalted⟩ | ⟨-, -, hbusy⟩
  · exact ⟨t, ht⟩
  · rw [hs] at hhalted
    cases hhalted
  · exact absurd hs hbusy

/-- Settles O21: a delivered outcome leaves the controller IDLE, and IDLE is all that a host operation needs to be
answered with a next state. -/
theorem idleAfterOutcome : Obligations.IdleAfterOutcome := by
  intro i s t o h hd
  obtain ⟨-, hidle⟩ := exec_idle_of_delivered h hd
  exact ⟨hidle, fun j hj => exec_next_of_idle (neverBuilt_eq_false_of_isHostOp hj) hidle⟩

/-! ## `OutOfRange` (R282) -/

@[simp] theorem State.finish_delivered (s : State) (v : Value) :
    (s.finish v).delivered = s.delivered ++ [.ok v] := rfl

/-- Of the ends of an operation only the one before its first line delivers `OutOfRange`: the faults deliver nothing, a
normal return its value, and an abort another error. -/
theorem Ending.eq_abort_of_outOfRange {G : Prop} {may : May} {g : Gate} (h : Ending G may g s t)
    (hd : t.delivered = s.delivered ++ [.err .outOfRange]) : t = (s.goto .op).abort .outOfRange := by
  cases h with
  | outOfRange h => exact h
  | entry f _ h => simp [h] at hd
  | ok u v he _ h => simp [h, he.delivered] at hd
  | err u e hn he h =>
    have heq : e = .outOfRange := by simpa [h, he.delivered] using hd
    exact absurd heq hn
  | halt u f _ he h => simp [h, he.delivered] at hd

/-- In a state of the invariant the abort effects of R286 have nothing to undo: chip-select is released and the counters
are 0 already. -/
theorem abort_goto_op_of_inv (hinv : s.Inv) (hidle : s.phase = .idle) (e : OpError) :
    (s.goto .op).abort e = { s with delivered := s.delivered ++ [.err e] } := by
  have hcs : s.cs = false := hinv.cs_released
  obtain ⟨hpolls, hirq, hxi⟩ := hinv.idle_clear hidle
  have hrelease : (s.goto .op).releaseCs = s.goto .op := if_neg (by simp [hcs])
  calc (s.goto .op).abort e
      = { s with phase := .idle, polls := 0, irqPolls := 0, xi := 0, delivered := s.delivered ++ [.err e] } := by
        rw [State.abort, State.abortTo, hrelease]; rfl
    _ = { s with delivered := s.delivered ++ [.err e] } := by rw [hidle, hpolls, hirq, hxi]

/-- Settles O22: `OutOfRange` is raised before the operation's first line, and the abort that follows changes nothing in
an idle controller of the invariant. -/
theorem outOfRangeChangesNothing : Obligations.OutOfRangeChangesNothing := by
  intro i s t hinv h hd
  obtain ⟨hidle, hend⟩ := exec_ending h
  exact (hend.eq_abort_of_outOfRange hd).trans (abort_goto_op_of_inv hinv hidle .outOfRange)

end Sys2Proof.Machine
end

section
/-! The decoder and the encoder undo each other (30_encoding.md), and the codes that no layout has are rejected by name
(R103, R115): first by layer, a command frame, a tag request and a host term, then for every request. -/

namespace Sys2Proof.Machine

variable {i : Instr} {r : Request} {t : Term}

/-! ## Opcodes and tag codes (R102, R103, R114, R115) -/

@[simp] theorem TagCode.ofByte_code (c : TagCode) : TagCode.ofByte c.code = some c := by cases c <;> decide

theorem Opcode.code_of_ofByte {b : Byte} {o : Opcode} (h : Opcode.ofByte b = some o) : o.code = b := by
  simpa using List.find?_some h

theorem TagCode.code_of_ofByte {b : Byte} {c : TagCode} (h : TagCode.ofByte b = some c) : c.code = b := by
  simpa using List.find?_some h

/-- A tag request decodes by its code's layout (R110). -/
theorem decode_tagRequest_code (flags : Byte) (c : TagCode) (params : List Byte) :
    decode (.tagRequest (flags :: c.code :: params)) = decodeTagParams c flags params := by
  simp only [decode, decodeTagRequest, TagCode.ofByte_code]

theorem decode_frame_reserved {op : Byte} (h : Opcode.ofByte op = none) (params : List Byte) (rl : Nat) :
    decode (.frame (op :: params) rl) = .error (.reservedOpcode op) := by
  simp only [decode, decodeFrame, h]

theorem decode_tagRequest_reserved {code : Byte} (h : TagCode.ofByte code = none) (flags : Byte) (params : List Byte) :
    decode (.tagRequest (flags :: code :: params)) = .error (.reservedTagCode code) := by
  simp only [decode, decodeTagRequest, h]

theorem Opcode.code_mem (o : Opcode) :
    o.code.toNat ∈ [0x00, 0x01, 0x02, 0x04, 0x07, 0x09, 0x0A, 0x11, 0x16, 0x17] := by cases o <;> decide

theorem TagCode.code_range (c : TagCode) :
    c.code.toNat = 0x01 ∨ c.code.toNat = 0x02 ∨ (0x20 ≤ c.code.toNat ∧ c.code.toNat ≤ 0x2C) := by
  cases c <;> decide

/-- Settles O5: a byte that the map knows is the code of some command, and every code lies in the range given. -/
theorem reservedCodesRejected : Obligations.ReservedCodesRejected := by
  refine ⟨fun op ps rl h => decode_frame_reserved ?_ ps rl,
    fun flags code ps h1 h2 h3 => decode_tagRequest_reserved ?_ flags ps⟩
  · cases ho : Opcode.ofByte op with
    | none => rfl
    | some o => exact absurd (Opcode.code_of_ofByte ho ▸ Opcode.code_mem o) h
  · cases hc : TagCode.ofByte code with
    | none => rfl
    | some c =>
      obtain rfl := TagCode.code_of_ofByte hc
      rcases TagCode.code_range c with h | h | h
      · exact absurd h h1
      · exact absurd h h2
      · exact absurd h h3

/-- Settles O2: each word is taken apart, decoded and compared. -/
theorem sampleWordsDecode : Obligations.SampleWordsDecode := by
  refine ⟨?_, ?_, ?_, ?_, ?_, ?_, ?_⟩ <;> rfl

/-! ## Operands (R118, R119) -/

@[simp] theorem Operand.u8_ofBits (b : Byte) : Operand.u8 (.ofBits b) = some b := by
  simp [Operand.u8, Operand.ofBits, b.isLt]

@[simp] theorem Operand.u32_ofBits (v : Word) : Operand.u32 (.ofBits v) = some v := by
  simp [Operand.u32, Operand.ofBits, v.isLt]

@[simp] theorem Operand.uid_bytes (u : Uid) : Operand.uid (.bytes u.bytes) = some u := rfl

theorem Operand.eq_of_u8 {x : Operand} {b : Byte} (h : x.u8 = some b) : x = .ofBits b := by
  cases x with
  | bytes => cases h
  | num n =>
    obtain ⟨hn, rfl⟩ : n < 256 ∧ BitVec.ofNat 8 n = b := by simpa [Operand.u8] using h
    simp [Operand.ofBits, Nat.mod_eq_of_lt hn]

theorem Operand.eq_of_u32 {x : Operand} {v : Word} (h : x.u32 = some v) : x = .ofBits v := by
  cases x with
  | bytes => cases h
  | num n =>
    obtain ⟨hn, rfl⟩ : n < 4294967296 ∧ BitVec.ofNat 32 n = v := by simpa [Operand.u32] using h
    simp [Operand.ofBits, Nat.mod_eq_of_lt hn]

theorem Operand.eq_of_nat {x : Operand} {n : Nat} (h : x.nat = some n) : x = .num n := by
  cases x <;> cases h; rfl

theorem Operand.eq_of_byteList {x : Operand} {bs : List Byte} (h : x.byteList = some bs) : x = .bytes bs := by
  cases x <;> cases h; rfl

theorem Uid.bytes_of_ofBytes {bs : List Byte} {u : Uid} (h : Uid.ofBytes bs = some u) : bs = u.bytes := by
  unfold Uid.ofBytes at h
  split at h
  · cases h; rfl
  · cases h

theorem Operand.eq_of_uid {x : Operand} {u : Uid} (h : x.uid = some u) : x = .bytes u.bytes := by
  cases x with
  | num => cases h
  | bytes bs => rw [Uid.bytes_of_ofBytes h]

/-- A byte cut out of a value is a digit of it to the base 256 (R8). -/
theorem extractByte_eq {v : Word} {k : Nat} {b : Byte} (h : v.toNat / 2 ^ k % 256 = b.toNat) :
    v.extractLsb' k 8 = b := by
  apply BitVec.eq_of_toNat_eq
  rw [BitVec.extractLsb'_toNat, Nat.shiftRight_eq_div_pow]
  exact h

/-- The bytes of a value put together from four bytes are these bytes (R8). -/
theorem bytesLe32_le32 (b0 b1 b2 b3 : Byte) : bytesLe32 (le32 b0 b1 b2 b3) = [b0, b1, b2, b3] := by
  have hv : (le32 b0 b1 b2 b3).toNat = _ := le32_toNat b0 b1 b2 b3
  rw [bytesLe32, extractByte_eq (b := b0) (by omega), extractByte_eq (b := b1) (by omega),
    extractByte_eq (b := b2) (by omega), extractByte_eq (b := b3) (by omega)]

/-! ## Every instruction is what its encoding decodes to -/

theorem decodeAddressValue_bytes (mk : Byte → Word → Instr) (a : Byte) (v : Word) :
    decodeAddressValue mk (a :: bytesLe32 v) 0 = .ok (mk a v) := by
  simp [decodeAddressValue, bytesLe32, le32_bytes]

/-- The direct commands (R92 to R101); the bounds of R97 and R98 are what makes one well-formed. -/
theorem decode_encode_of_frame {bs : List Byte} {rl : Nat} (hw : i.wellFormed = true) (h : encode i = .frame bs rl) :
    decode (.frame bs rl) = .ok i := by
  cases i with
  | cmdWriteRegister a v =>
    cases h
    exact (decode_frame_code .writeRegister _ _).trans (decodeAddressValue_bytes _ a v)
  | cmdWriteRegisterOrMask a m =>
    cases h
    exact (decode_frame_code .writeRegisterOrMask _ _).trans (decodeAddressValue_bytes _ a m)
  | cmdWriteRegisterAndMask a m =>
    cases h
    exact (decode_frame_code .writeRegisterAndMask _ _).trans (decodeAddressValue_bytes _ a m)
  | cmdReadRegister a => cases h; exact decode_frame_code .readRegister _ _
  | cmdReadEeprom e l => cases h; exact (decode_frame_code .readEeprom _ _).trans (if_pos rfl)
  | cmdSendData b payload =>
    cases h
    obtain ⟨hb, hp⟩ : b.toNat ≤ 7 ∧ payload.length ≤ Config.maxSendPayload := by simpa [Instr.wellFormed] using hw
    refine (decode_frame_code .sendData _ _).trans ?_
    simp [decodeParams, Nat.not_lt.2 hb, Nat.not_lt.2 hp]
  | cmdReadData n =>
    cases h
    have hn : rl ≤ Config.rxBufferSize := by simpa [Instr.wellFormed] using hw
    refine (decode_frame_code .readData _ _).trans ?_
    simp [decodeParams, hn]
  | cmdLoadRfConfig t r => cases h; exact decode_frame_code .loadRfConfig _ _
  | cmdRfOn => cases h; exact decode_frame_code .rfOn _ _
  | cmdRfOff => cases h; exact decode_frame_code .rfOff _ _
  | _ => cases h

/-- The tag requests (R110, R114). -/
theorem decode_encode_of_tagRequest {bs : List Byte} (h : encode i = .tagRequest bs) : decode (.tagRequest bs) = .ok i := by
  cases i with
  | tagInventory => cases h; exact decode_tagRequest_code _ .inventory _
  | tagStayQuiet flags ps => cases h; exact decode_tagRequest_code flags .stayQuiet ps
  | tagReadSingleBlock uid b => cases h; exact decode_tagRequest_code _ .readSingleBlock _
  | tagWriteSingleBlock uid b data => cases h; exact decode_tagRequest_code _ .writeSingleBlock _
  | tagLockBlock flags ps => cases h; exact decode_tagRequest_code flags .lockBlock ps
  | tagReadMultipleBlocks flags ps => cases h; exact decode_tagRequest_code flags .readMultipleBlocks ps
  | tagWriteMultipleBlock flags ps => cases h; exact decode_tagRequest_code flags .writeMultipleBlock ps
  | tagSelect flags ps => cases h; exact decode_tagRequest_code flags .select ps
  | tagResetToReady flags ps => cases h; exact decode_tagRequest_code flags .resetToReady ps
  | tagWriteAfi flags ps => cases h; exact decode_tagRequest_code flags .writeAfi ps
  | tagLockAfi flags ps => cases h; exact decode_tagRequest_code flags .lockAfi ps
  | tagWriteDsfid flags ps => cases h; exact decode_tagRequest_code flags .writeDsfid ps
  | tagLockDsfid flags ps => cases h; exact decode_tagRequest_code flags .lockDsfid ps
  | tagGetSystemInfo uid => cases h; exact decode_tagRequest_code _ .getSystemInfo _
  | tagGetMultipleBlockSecurityStatus flags ps =>
    cases h
    exact decode_tagRequest_code flags .getMultipleBlockSecurityStatus ps
  | _ => cases h

/-- The host operations: each operand is read back from what it was written as (R118). -/
theorem decode_encode_of_term (h : encode i = .term t) : decode (.term t) = .ok i := by
  cases i with
  | writeReg | writeRegOr | writeRegAnd | readEeprom | sendData | loadRfConfig =>
    cases h
    simp [decode, decodeTerm, decodeBinary, Operand.byteList]
  | readReg | readData | clearIrq | getSysinfo =>
    cases h
    simp [decode, decodeTerm, decodeUnary, Operand.nat]
  | readBlock | writeBlock =>
    cases h
    simp [decode, decodeTerm, decodeTernary, Operand.nat, Operand.byteList]
  | rfOn | rfOff | getIrq | getTs | reset | inventory | setupRf => cases h; rfl
  | _ => cases h

/-- Settles O3, layer by layer. -/
theorem decodeEncode : Obligations.DecodeEncode := by
  intro i hw
  cases h : encode i with
  | frame bs rl => exact decode_encode_of_frame hw h
  | tagRequest bs => exact decode_encode_of_tagRequest h
  | term t => exact decode_encode_of_term h

/-! ## Whatever decodes is the encoding of its instruction -/

/-- A frame with an address and a value (R92 to R94). -/
theorem decodeAddressValue_ok {mk : Byte → Word → Instr} {ps : List Byte} {rl : Nat}
    (h : decodeAddressValue mk ps rl = .ok i) : ∃ a v, ps = a :: bytesLe32 v ∧ rl = 0 ∧ i = mk a v := by
  unfold decodeAddressValue at h
  split at h
  · next a v0 v1 v2 v3 =>
    split at h
    · next hr => cases h; exact ⟨a, le32 v0 v1 v2 v3, by rw [bytesLe32_le32], hr, rfl⟩
    · cases h
  · cases h

/-- A frame with the parameter 0x00 (R100, R101). -/
theorem decodeReserved_ok {j : Instr} {ps : List Byte} {rl : Nat} (h : decodeReserved j ps rl = .ok i) :
    ps = [0x00] ∧ rl = 0 ∧ i = j := by
  unfold decodeReserved at h
  split at h
  · next z =>
    split at h
    · cases h
    · next hz =>
      split at h
      · next hr => cases h; exact ⟨by rw [not_not.1 hz], hr, rfl⟩
      · cases h
  · cases h

/-- The direct commands, by opcode (R92 to R101). -/
theorem encode_of_decodeParams {o : Opcode} {ps : List Byte} {rl : Nat} (h : decodeParams o ps rl = .ok i) :
    i.wellFormed = true ∧ encode i = .frame (o.code :: ps) rl := by
  cases o with
  | writeRegister => obtain ⟨a, v, rfl, rfl, rfl⟩ := decodeAddressValue_ok h; exact ⟨rfl, rfl⟩
  | writeRegisterOrMask => obtain ⟨a, v, rfl, rfl, rfl⟩ := decodeAddressValue_ok h; exact ⟨rfl, rfl⟩
  | writeRegisterAndMask => obtain ⟨a, v, rfl, rfl, rfl⟩ := decodeAddressValue_ok h; exact ⟨rfl, rfl⟩
  | rfOn => obtain ⟨rfl, rfl, rfl⟩ := decodeReserved_ok h; exact ⟨rfl, rfl⟩
  | rfOff => obtain ⟨rfl, rfl, rfl⟩ := decodeReserved_ok h; exact ⟨rfl, rfl⟩
  | readRegister =>
    simp only [decodeParams] at h
    split at h
    · split at h
      · next hr => cases h; subst hr; exact ⟨rfl, rfl⟩
      · cases h
    · cases h
  | readEeprom =>
    simp only [decodeParams] at h
    split at h
    · split at h
      · next hr => cases h; subst hr; exact ⟨rfl, rfl⟩
      · cases h
    · cases h
  | loadRfConfig =>
    simp only [decodeParams] at h
    split at h
    · split at h
      · next hr => cases h; subst hr; exact ⟨rfl, rfl⟩
      · cases h
    · cases h
  | readData =>
    simp only [decodeParams] at h
    split at h
    · split at h
      · cases h
      · next hz =>
        split at h
        · next hr => cases h; rw [not_not.1 hz]; exact ⟨decide_eq_true hr, rfl⟩
        · cases h
    · cases h
  | sendData =>
    simp only [decodeParams] at h
    split at h
    · next b payload =>
      split at h
      · cases h
      · next hb =>
        split at h
        · cases h
        · next hp =>
          split at h
          · next hr => cases h; subst hr; exact ⟨by simp [Instr.wellFormed]; omega, rfl⟩
          · cases h
    · cases h

/-- The tag requests, by code (R110, R114). -/
theorem encode_of_decodeTagParams {c : TagCode} {flags : Byte} {ps : List Byte} (h : decodeTagParams c flags ps = .ok i) :
    i.wellFormed = true ∧ encode i = .tagRequest (flags :: c.code :: ps) := by
  cases c with
  | inventory =>
    simp only [decodeTagParams] at h
    split at h
    · cases h
    · next hf =>
      split at h
      · next hp => cases h; rw [not_not.1 hf, hp]; exact ⟨rfl, rfl⟩
      · cases h
  | readSingleBlock =>
    simp only [decodeTagParams] at h
    split at h
    · cases h
    · next hf =>
      split at h
      · cases h; rw [not_not.1 hf]; exact ⟨rfl, rfl⟩
      · cases h
  | writeSingleBlock =>
    simp only [decodeTagParams] at h
    split at h
    · cases h
    · next hf =>
      split at h
      · cases h; rw [not_not.1 hf]; exact ⟨rfl, rfl⟩
      · cases h
  | getSystemInfo =>
    simp only [decodeTagParams] at h
    split at h
    · cases h
    · next hf =>
      split at h
      · cases h; rw [not_not.1 hf]; exact ⟨rfl, rfl⟩
      · cases h
  | _ => cases h; exact ⟨rfl, rfl⟩

theorem decodeNullary_ok {j : Instr} (h : decodeNullary t j = .ok i) : t.operands = [] ∧ i = j := by
  unfold decodeNullary at h
  split at h
  · next ho => cases h; exact ⟨ho, rfl⟩
  · cases h

theorem decodeUnary_ok {α : Type} {f : Operand → Option α} {mk : α → Instr} (h : decodeUnary t f mk = .ok i) :
    ∃ x a, t.operands = [x] ∧ f x = some a ∧ i = mk a := by
  unfold decodeUnary at h
  split at h
  · next x ho =>
    split at h
    · next a ha => cases h; exact ⟨x, a, ho, ha, rfl⟩
    · cases h
  · cases h

theorem decodeBinary_ok {α β : Type} {f : Operand → Option α} {g : Operand → Option β} {mk : α → β → Instr}
    (h : decodeBinary t f g mk = .ok i) :
    ∃ x y a b, t.operands = [x, y] ∧ f x = some a ∧ g y = some b ∧ i = mk a b := by
  unfold decodeBinary at h
  split at h
  · next x y ho =>
    split at h
    · next a b ha hb => cases h; exact ⟨x, y, a, b, ho, ha, hb, rfl⟩
    · cases h
  · cases h

theorem decodeTernary_ok {α β γ : Type} {f : Operand → Option α} {g : Operand → Option β} {k : Operand → Option γ}
    {mk : α → β → γ → Instr} (h : decodeTernary t f g k mk = .ok i) :
    ∃ x y z a b c, t.operands = [x, y, z] ∧ f x = some a ∧ g y = some b ∧ k z = some c ∧ i = mk a b c := by
  unfold decodeTernary at h
  split at h
  · next x y z ho =>
    split at h
    · next a b c ha hb hc => cases h; exact ⟨x, y, z, a, b, c, ho, ha, hb, hc, rfl⟩
    · cases h
  · cases h

/-- The host operations, by name (R118). -/
theorem encode_of_decodeTerm (h : decodeTerm t = .ok i) : i.wellFormed = true ∧ encode i = .term t := by
  obtain ⟨name, ops⟩ := t
  cases name with
  | rfOn | rfOff | getIrq | getTs | reset | inventory | setupRf =>
    obtain ⟨rfl, rfl⟩ := decodeNullary_ok h
    exact ⟨rfl, rfl⟩
  | readReg =>
    obtain ⟨x, a, rfl, hx, rfl⟩ := decodeUnary_ok h
    rw [Operand.eq_of_u8 hx]; exact ⟨rfl, rfl⟩
  | readData =>
    obtain ⟨x, n, rfl, hx, rfl⟩ := decodeUnary_ok h
    rw [Operand.eq_of_nat hx]; exact ⟨rfl, rfl⟩
  | clearIrq =>
    obtain ⟨x, m, rfl, hx, rfl⟩ := decodeUnary_ok h
    rw [Operand.eq_of_u32 hx]; exact ⟨rfl, rfl⟩
  | getSysinfo =>
    obtain ⟨x, u, rfl, hx, rfl⟩ := decodeUnary_ok h
    rw [Operand.eq_of_uid hx]; exact ⟨rfl, rfl⟩
  | writeReg | writeRegOr | writeRegAnd =>
    obtain ⟨x, y, a, v, rfl, hx, hy, rfl⟩ := decodeBinary_ok h
    rw [Operand.eq_of_u8 hx, Operand.eq_of_u32 hy]; exact ⟨rfl, rfl⟩
  | readEeprom | loadRfConfig =>
    obtain ⟨x, y, a, b, rfl, hx, hy, rfl⟩ := decodeBinary_ok h
    rw [Operand.eq_of_u8 hx, Operand.eq_of_u8 hy]; exact ⟨rfl, rfl⟩
  | sendData =>
    obtain ⟨x, y, bs, b, rfl, hx, hy, rfl⟩ := decodeBinary_ok h
    rw [Operand.eq_of_byteList hx, Operand.eq_of_u8 hy]; exact ⟨rfl, rfl⟩
  | readBlock =>
    obtain ⟨x, y, z, u, b, n, rfl, hx, hy, hz, rfl⟩ := decodeTernary_ok h
    rw [Operand.eq_of_uid hx, Operand.eq_of_u8 hy, Operand.eq_of_nat hz]; exact ⟨rfl, rfl⟩
  | writeBlock =>
    obtain ⟨x, y, z, u, b, bs, rfl, hx, hy, hz, rfl⟩ := decodeTernary_ok h
    rw [Operand.eq_of_uid hx, Operand.eq_of_u8 hy, Operand.eq_of_byteList hz]; exact ⟨rfl, rfl⟩

/-- Settles O4: the form and the code of a request say which layout it was read by, and each layout keeps every byte and
every operand. -/
theorem encodeDecode : Obligations.EncodeDecode := by
  intro r i h
  cases r with
  | term t => exact encode_of_decodeTerm h
  | frame bs rl =>
    simp only [decode, decodeFrame] at h
    split at h
    · cases h
    · split at h
      · cases h
      · next ho => exact Opcode.code_of_ofByte ho ▸ encode_of_decodeParams h
  | tagRequest bs =>
    simp only [decode, decodeTagRequest] at h
    split at h
    · split at h
      · cases h
      · next hc => exact TagCode.code_of_ofByte hc ▸ encode_of_decodeTagParams h
    · cases h

end Sys2Proof.Machine
end

section
/-! The step (log 2, log 3): it runs what the first request decodes to, and refuses or stays where there is nothing to run. -/

namespace Sys2Proof.Machine

variable {s t : State} {i : Instr} {r : Request} {q : List Request}

theorem State.fetch_cons (h : s.queue = r :: q) : s.fetch = some (decode r) := by simp [State.fetch, h]

theorem State.popRequest_cons (h : s.queue = r :: q) : s.popRequest = { s with queue := q } := by
  simp [State.popRequest, h]

theorem step_eq_of_queue_nil (h : s.queue = []) : step s = stepWithoutRequest s := by simp [step, State.fetch, h]

theorem step_eq_of_decode_ok (h : s.queue = r :: q) (hd : decode r = .ok i) :
    step s = exec i { s with queue := q } := by
  simp only [step, State.fetch_cons h, hd, State.popRequest_cons h]

theorem step_eq_of_decode_error {e : DecodeError} (h : s.queue = r :: q) (hd : decode r = .error e) :
    step s = stepUndecodable e s := by
  simp only [step, State.fetch_cons h, hd]

/-- What a step with a next state has done: nothing, where an idle controller has no request, or what the first request
decodes to. -/
theorem step_next_cases (h : step s = .next t) :
    (s.queue = [] ∧ s.phase = .idle ∧ t = s) ∨
      ∃ (i : Instr) (q : List Request), exec i { s with queue := q } = .next t := by
  cases hq : s.queue with
  | nil =>
    rw [step_eq_of_queue_nil hq] at h
    unfold stepWithoutRequest at h
    split at h
    · cases h
    · split at h
      · next hi => cases h; exact .inl ⟨rfl, hi, rfl⟩
      · cases h
  | cons r q =>
    cases hd : decode r with
    | ok i => exact .inr ⟨i, q, (step_eq_of_decode_ok hq hd).symm.trans h⟩
    | error e =>
      rw [step_eq_of_decode_error hq hd] at h
      unfold stepUndecodable at h
      split at h <;> cases h

/-- Settles O13: the first request is fetched, decoded and popped. -/
theorem stepRunsDecoded : Obligations.StepRunsDecoded := fun _ _ _ _ hq hd => step_eq_of_decode_ok hq hd

/-- Settles O14: the issued request is the first in the queue, and decodes to the instruction that it encodes. -/
theorem stepRunsIssued : Obligations.StepRunsIssued := fun s i hw =>
  step_eq_of_decode_ok (s := s.issue (encode i)) (r := encode i) (q := s.queue) rfl (decodeEncode i hw)

/-- Settles O15: an empty queue leaves the state, and a request that does not decode is refused by name. -/
theorem stepOtherwise : Obligations.StepOtherwise := by
  refine ⟨fun s hq hi => ?_, fun s r q e hq hd hh => ?_⟩
  · rw [step_eq_of_queue_nil hq, stepWithoutRequest, if_neg (by simp [hi]), if_pos hi]
  · rw [step_eq_of_decode_error hq hd, stepUndecodable, if_neg hh]

end Sys2Proof.Machine
end

section
/-! Power-up, the invariant along every step, and what no step undoes (10_state.md §3, 60_exceptions.md R290, R291). -/

namespace Sys2Proof.Machine

variable {s t : State} {i : Instr}

/-- Settles O7: the reset record has these fields. -/
theorem resetRecord : Obligations.ResetRecord :=
  ⟨rfl, rfl, rfl, fun _ => rfl, rfl, rfl, rfl, rfl, rfl, rfl⟩

theorem State.reset_sound : State.reset.Sound where
  scratch_wf := rfl
  valid_le := Nat.zero_le _
  valid_written a ha := absurd ha (Nat.not_lt_zero a)
  polls_le := Nat.zero_le _
  irqPolls_le := Nat.zero_le _
  xi_le := Nat.zero_le _
  regs_rising := rfl
  rf_initialized h := by cases h
  cs_selected h := by cases h
  wire_ok e he := by cases he

/-- Settles O8: the reset record is sound, and IDLE with its counters at 0 and no fault. -/
theorem resetInv : Obligations.ResetInv where
  sound := State.reset_sound
  cs_released := rfl
  phase_boundary := .inl rfl
  idle_clear _ := ⟨rfl, rfl, rfl⟩
  halted_iff_fault := iff_of_false (by decide) (by decide)

/-- The invariant does not speak of the queue. -/
theorem State.Inv.setQueue (h : s.Inv) (q : List Request) : State.Inv { s with queue := q } where
  sound := ⟨h.sound.scratch_wf, h.sound.valid_le, h.sound.valid_written, h.sound.polls_le, h.sound.irqPolls_le,
    h.sound.xi_le, h.sound.regs_rising, h.sound.rf_initialized, h.sound.cs_selected, h.sound.wire_ok⟩
  cs_released := h.cs_released
  phase_boundary := h.phase_boundary
  idle_clear := h.idle_clear
  halted_iff_fault := h.halted_iff_fault

theorem exec_inv (hs : s.Inv) (h : exec i s = .next t) : t.Inv := by
  obtain ⟨hidle, hend⟩ := exec_ending h
  exact hend.inv hs hidle

/-- Settles O9: the invariant holds of the state without the request, and every end of an instruction keeps it. -/
theorem stepKeepsInv : Obligations.StepKeepsInv := by
  intro s t hs h
  rcases step_next_cases h with ⟨-, -, rfl⟩ | ⟨i, q, hx⟩
  · exact hs
  · exact exec_inv (hs.setQueue q) hx

/-- Only the four operations that switch the field, or reset, may change the record of it (R28). -/
theorem mayOf_field_eq_false (h1 : i ≠ .rfOn) (h2 : i ≠ .rfOff) (h3 : i ≠ .setupRf) (h4 : i ≠ .reset) :
    (mayOf i).field = false := by
  cases i with
  | rfOn => exact absurd rfl h1
  | rfOff => exact absurd rfl h2
  | setupRf => exact absurd rfl h3
  | reset => exact absurd rfl h4
  | cmdWriteRegister | cmdWriteRegisterOrMask | cmdWriteRegisterAndMask | writeReg | writeRegOr | writeRegAnd =>
    exact May.write_field _ _
  | _ => rfl

/-- Settles O11: what an instruction may change does not name the two bits but for their own operations, and nothing
clears `initialized`. -/
theorem recordBitsOnlyByTheirOperations : Obligations.RecordBitsOnlyByTheirOperations := by
  intro i s t h
  have hframe : Frame (mayOf i) s t := exec_frame h
  refine ⟨fun hi => hframe.initialized (mayOf_reset_eq_false hi), hframe.booted, fun hne => ?_⟩
  by_contra hnot
  obtain ⟨h1, h2, h3, h4⟩ := by simpa only [not_or] using hnot
  exact hne (hframe.rfOn (mayOf_field_eq_false h1 h2 h3 h4))

/-- The fault bits of `fs` are set in `gs` too. -/
def FaultSet.Le (fs gs : FaultSet) : Prop :=
  (fs.oversizedRead = true → gs.oversizedRead = true) ∧ (fs.bootOrder = true → gs.bootOrder = true) ∧
    (fs.rfNotOn = true → gs.rfNotOn = true) ∧ (fs.transportPrecondition = true → gs.transportPrecondition = true)

theorem FaultSet.Le.refl (fs : FaultSet) : fs.Le fs := ⟨id, id, id, id⟩

theorem FaultSet.le_insert (fs : FaultSet) (f : FaultKind) : fs.Le (fs.insert f) := by
  cases f <;> simp [FaultSet.Le, FaultSet.insert]

theorem exec_faults_le (h : exec i s = .next t) : s.faults.Le t.faults := by
  rcases (exec_ending h).2.outcome with ⟨-, hf, -⟩ | ⟨-, -, -, f, hf⟩
  · rw [hf]; exact .refl _
  · rw [hf]; exact s.faults.le_insert f

/-- Settles O12: an instruction runs from IDLE only, and leaves the faults or inserts one. -/
theorem faultsNeverCleared : Obligations.FaultsNeverCleared := by
  intro s t h
  rcases step_next_cases h with ⟨-, hi, rfl⟩ | ⟨i, q, hx⟩
  · exact ⟨by simp [hi], FaultSet.Le.refl _⟩
  · have hidle : s.phase = .idle := (exec_ending hx).1
    exact ⟨by simp [hidle], exec_faults_le (s := { s with queue := q }) hx⟩

/-- Settles O20: the ends of an instruction, with what the host sees read off from what is delivered. -/
theorem oneOutcomeOrOneFault : Obligations.OneOutcomeOrOneFault := by
  intro i s t h
  rcases (exec_ending h).2.outcome with ⟨hp, hf, o, hd⟩ | ⟨hp, hc, hd, f, hf⟩
  · exact .inl ⟨hp, hf, o, hd, by simp [State.hostSees, hd]⟩
  · exact .inr ⟨hp, hc, hd, by rw [State.hostSees, hd]; rfl, f, hf⟩

end Sys2Proof.Machine
end

section
/-! Admission (60_exceptions.md §2): the phases in which nothing is admitted, the two faults of the entry check, and what
is refused by name. -/

namespace Sys2Proof.Machine

variable {s : State} {i : Instr}

/-- A halted controller takes no step (R291). -/
theorem step_ne_next_of_halted (h : s.phase = .halted) (t : State) : step s ≠ .next t := by
  intro hs
  rcases step_next_cases hs with ⟨-, hi, -⟩ | ⟨i, q, hx⟩
  · rw [h] at hi; cases hi
  · have hi : s.phase = .idle := (exec_ending hx).1
    rw [h] at hi; cases hi

/-- Settles O16: no end of an instruction starts outside IDLE, and the entry check names the phase it finds. -/
theorem stuckUnlessIdle : Obligations.StuckUnlessIdle := by
  refine fun s => ⟨fun hh => ⟨step_ne_next_of_halted hh, fun i hi => ?_⟩, fun hni hnh i hi => ?_⟩
  · rcases exec_cases i s hi with ⟨-, -, hidle, -⟩ | ⟨hx, -⟩ | ⟨-, hn, -⟩
    · rw [hh] at hidle; cases hidle
    · exact hx
    · exact absurd hh hn
  · rcases exec_cases i s hi with ⟨-, -, hidle, -⟩ | ⟨-, hh⟩ | ⟨hx, -, -⟩
    · exact absurd hidle hni
    · exact absurd hh hnh
    · exact hx

/-- Every instruction is its procedure after the entry check of its gate, or is refused by name (R289). -/
theorem exec_eq_runOperation (hi : i.neverBuilt = false) : ∃ body, ∀ s, exec i s = runOperation (gateOf i) body s := by
  cases i with
  | tagStayQuiet | tagLockBlock | tagReadMultipleBlocks | tagWriteMultipleBlock | tagSelect | tagResetToReady
  | tagWriteAfi | tagLockAfi | tagWriteDsfid | tagLockDsfid | tagGetMultipleBlockSecurityStatus => cases hi
  | _ => exact ⟨_, fun _ => rfl⟩

/-- An idle controller whose entry check fails takes the fault (R289, R290). -/
theorem runOperation_entryFault {g : Gate} {f : FaultKind} (body : Proc Value) (hi : s.phase = .idle)
    (hf : s.entryFault g = some f) : runOperation g body s = .next (s.takeFault f) := by
  rw [runOperation, if_neg (by simp [hi]), if_pos hi, hf]

/-- With chip-select released a fault sets its bit and the phase, and nothing else (R290). -/
theorem State.takeFault_of_released (hc : s.cs = false) (f : FaultKind) :
    s.takeFault f = { s with phase := .halted, faults := s.faults.insert f } := by
  simp [State.takeFault, State.releaseCs, State.goto, hc]

theorem gateOf_ne_cold (hi : i ≠ .reset) : gateOf i ≠ .cold := by
  rw [gateOf, if_neg hi]; split <;> simp

/-- The instructions that ask for the field are those with a tag request (R289). -/
theorem needsRf_iff (i : Instr) : i.needsRf = true ↔ tagRequestOf i ≠ none := by
  cases i <;> simp [Instr.needsRf, tagRequestOf]

theorem gateOf_eq_rfConfirmed (h : tagRequestOf i ≠ none) : gateOf i = .rfConfirmed := by
  have hrf : i.needsRf = true := (needsRf_iff i).2 h
  rw [gateOf, if_neg (by rintro rfl; cases hrf), if_pos hrf]

theorem neverBuilt_eq_false_of_tagRequest (h : tagRequestOf i ≠ none) : i.neverBuilt = false := by
  cases i with
  | tagStayQuiet | tagLockBlock | tagReadMultipleBlocks | tagWriteMultipleBlock | tagSelect | tagResetToReady
  | tagWriteAfi | tagLockAfi | tagWriteDsfid | tagLockDsfid | tagGetMultipleBlockSecurityStatus => exact absurd rfl h
  | _ => rfl

theorem entryFault_bootOrder {g : Gate} (hg : g ≠ .cold) (h : s.initialized = false) :
    s.entryFault g = some .bootOrder := by simp [State.entryFault, hg, h]

theorem entryFault_rfNotOn (h : s.initialized = true) (h' : s.rfOn = false) :
    s.entryFault .rfConfirmed = some .rfNotOn := by simp [State.entryFault, h, h']

/-- Settles O17: the entry check of the instruction's gate faults before its procedure begins. -/
theorem entryFaults : Obligations.EntryFaults := by
  intro s i hi hc
  refine ⟨fun hb hr hn => ?_, fun hb hf ht => ?_⟩
  · obtain ⟨body, hx⟩ := exec_eq_runOperation hn
    rw [hx, runOperation_entryFault body hi (entryFault_bootOrder (gateOf_ne_cold hr) hb), State.takeFault_of_released hc]
    rfl
  · obtain ⟨body, hx⟩ := exec_eq_runOperation (neverBuilt_eq_false_of_tagRequest ht)
    rw [hx, gateOf_eq_rfConfirmed ht, runOperation_entryFault body hi (entryFault_rfNotOn hb hf),
      State.takeFault_of_released hc]
    rfl

/-- A controller that is booted, but for `Reset`, with the field on where the instruction asks for it, passes the entry
check (R289). -/
theorem entryFault_eq_none (hb : i ≠ .reset → s.initialized = true) (hf : tagRequestOf i ≠ none → s.rfOn = true) :
    s.entryFault (gateOf i) = none := by
  unfold gateOf
  split
  · exact entryFault_cold
  · next hr =>
    split
    · next hrf => exact entryFault_rf (hb hr) (hf ((needsRf_iff i).1 hrf))
    · exact entryFault_booted (hb hr)

/-- Settles O18: with the entry check passed only the two faults of a transfer over its bounds are left. -/
theorem admittedWhenReady : Obligations.AdmittedWhenReady := by
  intro s i hi hb hn hf
  obtain ⟨t, ht⟩ := exec_next_of_idle hn hi
  refine ⟨t, ht, ?_⟩
  cases (exec_ending ht).2 with
  | entry f hfault => rw [entryFault_eq_none (fun _ => hb) hf] at hfault; cases hfault
  | ok u v he _ h => rw [h]; exact ⟨congrArg _ he.faults, congrArg _ he.faults⟩
  | outOfRange h => simp [h]
  | err u e _ he h => simp [h, he.faults]
  | halt u f hk he h => rcases hk with rfl | rfl <;> simp [h, he.faults, FaultSet.insert]

/-- Settles O19: the meaning of each of these codes is the refusal. -/
theorem tagCodesRefused : Obligations.TagCodesRefused := fun _ _ _ =>
  ⟨rfl, rfl, rfl, rfl, rfl, rfl, rfl, rfl, rfl, rfl, rfl⟩

end Sys2Proof.Machine
end

section
/-! The transport (40_transport.md): a busy wait, one exchange event by event, transfers over the bounds, and the peer that is
never ready. -/

namespace Sys2Proof.Machine

variable {s t u : State} {α β : Type}

/-! ## The busy wait (R132) -/

/-- A wait changes the sample count, the peer and the trace; of the peer its coming samples, and nothing that a quiet peer
holds. -/
theorem Waited.record {m : Nat} {es : List Event} (h : Waited (s.setPolls 0) t m es) :
    ∃ p, t = { s with polls := m, peer := p, wire := s.wire ++ es } ∧
      p.busy = s.peer.busy.drop m ∧ p.replies = s.peer.replies ∧ (s.peer.Quiet → p.chip = s.peer.chip) := by
  obtain ⟨p, rfl, hd, hb, hr⟩ := h
  exact ⟨p, by simp [State.waited, State.setPolls], hb, hr, hd.chip⟩

/-- Settles O24: the wait's effect, with the record read off. -/
theorem busyWaitBounded : Obligations.BusyWaitBounded := by
  intro target s
  have h := waitBusy_effect target s
  unfold Proc.Holds at h
  split at h
  · next hx =>
    obtain ⟨k, hk, hw⟩ := h
    rw [hx]
    obtain ⟨p, hp⟩ := hw.record
    exact ⟨k, p, hk, hp⟩
  · next hx =>
    obtain ⟨he, hw⟩ := h
    rw [hx]
    exact ⟨he, hw.record⟩

/-! ## One exchange (R130) -/

/-- A peer that plays one cycle. -/
theorem Peer.Plays.one {p : Peer} {x : Turn} {b : List Bool} {r : List Reply} (h : p.Plays [x] b r) :
    p.Has p.Quiet (x.samples ++ b) (answers x.reply ++ r) p.chip := by
  simpa [Peer.At, turnSamples, turnReplies] using h.at

/-- Settles O25: the run of an exchange whose reply script answers. -/
theorem handshakeOrder : Obligations.HandshakeOrder := by
  intro s frame turn dst busy replies hf hlen hl hp
  obtain ⟨xs, q, n, hxs, -, hx, -⟩ := transceive_run frame dst turn s (hp.bounded turn (by simp))
    (answering_answers dst turn.reply hl) (fun h => by rw [h]; rfl) hp.one hf hlen hl
  exact ⟨_, xs, hxs, hx, rfl, by cases dst <;> rfl, rfl⟩

/-! ## Transfers over the bounds (R130, R166, R290) -/

theorem transceive_halts {frame : List Byte} {rl : Nat} (h : BadExchange frame rl) (dst : Destination) (s : State) :
    transceive frame rl dst s = .error (.halt .transportPrecondition) s := by
  unfold BadExchange at h
  unfold transceive
  rw [if_pos h]
  rfl

theorem readData_halts {n : Nat} (h : Config.rxBufferSize < n) (s : State) :
    readData n s = .error (.halt .oversizedRead) s := by
  unfold readData
  rw [if_neg (by simpa [readAdmitted] using h)]
  rfl

/-- An admitted operation whose procedure ends with a controller fault (R290). -/
theorem runOperation_halts {g : Gate} {body : Proc Value} {f : FaultKind} (hi : s.phase = .idle)
    (hg : s.entryFault g = none) (h : body (s.goto .op) = .error (.halt f) u) :
    runOperation g body s = .next (u.takeFault f) := by
  rw [runOperation, if_neg (by simp [hi]), if_pos hi, hg, h]; rfl

/-- Settles O26: each of the three procedures halts before its exchange begins. -/
theorem oversizedTransfersAreFatal : Obligations.OversizedTransfersAreFatal := by
  intro s b payload n hi hc hb
  have hg : s.entryFault .booted = none := entryFault_booted hb
  have hc' : (s.goto .op).cs = false := hc
  refine ⟨fun hn => ?_, fun hl => ?_, fun hn => ?_⟩
  · have hend := runOperation_halts hi hg (body := returningBytes (readData n)) (bind_error (readData_halts hn _))
    rw [State.takeFault_of_released hc'] at hend
    exact hend
  · have hbad : BadExchange (frameSendData b payload) 0 :=
      .inr (.inl (by simp only [frameSendData, Config.maxFrame, List.length_cons]; omega))
    have hend := runOperation_halts hi hg (body := returningUnit (sendFrame (frameSendData b payload)))
      (bind_error (bind_error (transceive_halts hbad .transient _)))
    rw [State.takeFault_of_released hc'] at hend
    exact hend
  · have hbad : BadExchange frameReadData n := .inr (.inr hn)
    have hx : fetchData n (s.goto .op) = .error (.halt .transportPrecondition) ((s.goto .op).setValid 0) := by
      unfold fetchData
      rw [update_bind_run]
      exact bind_error (transceive_halts hbad .scratch _)
    have hend := runOperation_halts hi hg (body := returningBytes (fetchData n)) (bind_error hx)
    rw [State.takeFault_of_released (s := (s.goto .op).setValid 0) hc] at hend
    exact hend

/-! ## A peer that stays busy (R132, R286) -/

/-- From `s` the procedure ends in its first wait: nothing is sent, and the abort leaves the wait's events alone. -/
def Proc.FindsBusy (f : Proc α) (s : State) (rest : List Bool) : Prop :=
  ∃ u p, f s = .error (.err (.busyTimeout .tWaitReady)) u ∧ p.Has s.peer.Quiet rest s.peer.replies s.peer.chip ∧
    u.abortTo .op = s.after (0, 0, 0) p (s.wire ++ missEvents .tWaitReady false s.xi false Config.busyPollLimit)

/-- What begins with it ends in it. -/
theorem Proc.FindsBusy.bind {f : Proc α} {g : α → Proc β} {rest : List Bool} (h : Proc.FindsBusy f s rest) :
    Proc.FindsBusy (f >>= g) s rest := by
  obtain ⟨u, p, hf, hp, hu⟩ := h
  exact ⟨u, p, bind_error hf, hp, hu⟩

theorem findsBusy_transceive {frame : List Byte} {rl : Nat} {dst : Destination} {rest : List Bool}
    (hf : frame ≠ []) (hlen : frame.length ≤ Config.maxFrame) (hl : rl ≤ Config.rxBufferSize) (hc : s.cs = false)
    (hs : s.peer.busy = List.replicate Config.busyPollLimit true ++ rest) :
    Proc.FindsBusy (transceive frame rl dst) s rest :=
  transceive_never_ready frame rl dst hc (exchange_admitted hf hlen hl) ⟨hs, rfl, id, fun _ => rfl⟩

theorem findsBusy_sendFrame {frame : List Byte} {rest : List Bool} (hf : frame ≠ [])
    (hlen : frame.length ≤ Config.maxFrame) (hc : s.cs = false)
    (hs : s.peer.busy = List.replicate Config.busyPollLimit true ++ rest) :
    Proc.FindsBusy (sendFrame frame) s rest := (findsBusy_transceive hf hlen (by decide) hc hs).bind

theorem findsBusy_readRegister {a : Byte} {rest : List Bool} (hc : s.cs = false)
    (hs : s.peer.busy = List.replicate Config.busyPollLimit true ++ rest) :
    Proc.FindsBusy (readRegister a) s rest :=
  (findsBusy_transceive (List.cons_ne_nil _ _) (Nat.le_of_ble_eq_true rfl) (by decide) hc hs).bind

theorem runOperation_findsBusy {body : Proc Value} {rest : List Bool} (h : Proc.FindsBusy body (s.goto .op) rest)
    (hi : s.phase = .idle) (hb : s.initialized = true) :
    ∃ p, runOperation .booted body s = .next (s.completed (.err (.busyTimeout .tWaitReady)) p
        (s.wire ++ missEvents .tWaitReady false s.xi false 2000)) ∧
      p.busy = rest ∧ p.replies = s.peer.replies ∧ (s.peer.Quiet → p.chip = s.peer.chip) := by
  obtain ⟨u, p, hx, hp, hu⟩ := h
  refine ⟨p, ?_, hp.busy, hp.replies, hp.chip⟩
  rw [runOperation, if_neg (by simp [hi]), if_pos hi, entryFault_booted hb, hx]
  exact congrArg _ (abort_of_abortTo hu)

/-- Settles O27: each of the thirteen procedures begins with an exchange. -/
theorem neverReadyTimesOut : Obligations.NeverReadyTimesOut := by
  intro s a v t r rest hi hb hc hs i hmem
  have hc' : (s.goto .op).cs = false := hc
  have hs' : (s.goto .op).peer.busy = List.replicate Config.busyPollLimit true ++ rest := hs
  have hsend (x : Byte) (xs : List Byte) (hlen : xs.length.ble 261 = true) :
      Proc.FindsBusy (sendFrame (x :: xs)) (s.goto .op) rest :=
    findsBusy_sendFrame (List.cons_ne_nil _ _) (Nat.succ_le_succ (Nat.le_of_ble_eq_true hlen)) hc' hs'
  have hread : ∀ {a : Byte}, Proc.FindsBusy (readRegister a) (s.goto .op) rest := findsBusy_readRegister hc' hs'
  simp only [List.mem_cons, List.not_mem_nil, or_false] at hmem
  rcases hmem with rfl | rfl | rfl | rfl | rfl | rfl | rfl | rfl | rfl | rfl | rfl | rfl | rfl
  · exact runOperation_findsBusy (hsend 0x00 (a :: bytesLe32 v) rfl).bind hi hb
  · exact runOperation_findsBusy (hsend 0x01 (a :: bytesLe32 v) rfl).bind hi hb
  · exact runOperation_findsBusy (hsend 0x02 (a :: bytesLe32 v) rfl).bind hi hb
  · exact runOperation_findsBusy hread.bind hi hb
  · exact runOperation_findsBusy (hsend 0x11 [t, r] rfl).bind hi hb
  · exact runOperation_findsBusy (hsend 0x16 [0x00] rfl).bind.bind hi hb
  · exact runOperation_findsBusy (hsend 0x17 [0x00] rfl).bind.bind hi hb
  · exact runOperation_findsBusy hread.bind hi hb
  · exact runOperation_findsBusy (hsend 0x00 (0x03 :: bytesLe32 v) rfl).bind hi hb
  · exact runOperation_findsBusy (hsend 0x11 [0x0D, 0x8D] rfl).bind.bind hi hb
  · exact runOperation_findsBusy (hsend 0x00 (a :: bytesLe32 v) rfl).bind hi hb
  · exact runOperation_findsBusy hread.bind hi hb
  · exact runOperation_findsBusy (hsend 0x16 [0x00] rfl).bind hi hb

end Sys2Proof.Machine
end

section
/-! The response parsers (43_tag_protocol.md R226 to R234): a parser of a tag command takes a payload exactly when it is not too
short for it, and answers `MalformedResponse` otherwise. -/

namespace Sys2Proof.Machine

variable {i : Instr}

/-- The flags byte without the error flag is taken off (R226). -/
theorem parseResponse_ok {flags : Byte} (h : flags.getLsbD 0 = false) (payload : List Byte) :
    parseResponse (flags :: payload) = .ok payload := if_neg (by rw [responseError, h]; simp)

/-- With the error flag the next byte is the error code, whatever follows it (R226). -/
theorem parseResponse_error {flags : Byte} (h : flags.getLsbD 0 = true) (code : Byte) (rest : List Byte) :
    parseResponse (flags :: code :: rest) = .error (.tagError (decodeErr code)) := if_pos h

/-- A flagged response of one byte has no error code (R229). -/
theorem parseResponse_flags_only {flags : Byte} (h : flags.getLsbD 0 = true) :
    parseResponse [flags] = .error .malformedResponse := if_pos h

/-! ## The optional fields of Get-System-Info (R113, R233) -/

theorem takeField_cases (c : Bool) (p : List Byte) :
    (p.length < (if c then 1 else 0) ∧ takeField c p = .error .malformedResponse) ∨
      ∃ x rest, takeField c p = .ok (x, rest) ∧ p.length = (if c then 1 else 0) + rest.length := by
  cases c with
  | false => exact .inr ⟨none, p, rfl, by simp⟩
  | true =>
    cases p with
    | nil => exact .inl ⟨by simp, rfl⟩
    | cons b rest => exact .inr ⟨some b, rest, rfl, by simp; omega⟩

theorem takeMemorySize_cases (c : Bool) (p : List Byte) :
    (p.length < (if c then 2 else 0) ∧ takeMemorySize c p = .error .malformedResponse) ∨
      ∃ x rest, takeMemorySize c p = .ok (x, rest) ∧ p.length = (if c then 2 else 0) + rest.length := by
  cases c with
  | false => exact .inr ⟨none, p, rfl, by simp⟩
  | true =>
    match p with
    | [] => exact .inl ⟨by simp, rfl⟩
    | [_] => exact .inl ⟨by simp, rfl⟩
    | nb :: bs :: rest => exact .inr ⟨some (numBlocksOf nb, blockSizeOf bs), rest, rfl, by simp; omega⟩

/-- How many bytes the announced fields take (R113, R233). -/
def infoFieldsLength (info : Byte) : Nat :=
  (if InfoFlag.dsfid.isSet info then 1 else 0) + (if InfoFlag.afi.isSet info then 1 else 0)
    + (if InfoFlag.memorySize.isSet info then 2 else 0) + if InfoFlag.icReference.isSet info then 1 else 0

theorem parseInfoFields_cases (info : Byte) (p : List Byte) :
    (p.length < infoFieldsLength info ∧ parseInfoFields info p = .error .malformedResponse) ∨
      (infoFieldsLength info ≤ p.length ∧ ∃ r, parseInfoFields info p = .ok r) := by
  unfold parseInfoFields infoFieldsLength
  rcases takeField_cases (InfoFlag.dsfid.isSet info) p with ⟨h1, e1⟩ | ⟨x1, p1, e1, h1⟩
  · exact .inl ⟨by omega, by rw [e1]⟩
  rcases takeField_cases (InfoFlag.afi.isSet info) p1 with ⟨h2, e2⟩ | ⟨x2, p2, e2, h2⟩
  · exact .inl ⟨by omega, by simp only [e1, e2]⟩
  rcases takeMemorySize_cases (InfoFlag.memorySize.isSet info) p2 with ⟨h3, e3⟩ | ⟨x3, p3, e3, h3⟩
  · exact .inl ⟨by omega, by simp only [e1, e2, e3]⟩
  rcases takeField_cases (InfoFlag.icReference.isSet info) p3 with ⟨h4, e4⟩ | ⟨x4, p4, e4, h4⟩
  · exact .inl ⟨by omega, by simp only [e1, e2, e3, e4]⟩
  · exact .inr ⟨by omega, _, by simp only [e1, e2, e3, e4]; rfl⟩

/-- A payload of Get-System-Info that is too short (R233). -/
def SystemInfoTooShort (p : List Byte) : Prop :=
  p.length < 9 ∨ ∃ info rest, p = info :: rest ∧ rest.length < 8 + infoFieldsLength info

theorem parseSystemInfo_cases (p : List Byte) :
    (SystemInfoTooShort p ∧ parseSystemInfo p = .error .malformedResponse) ∨
      (¬ SystemInfoTooShort p ∧ ∃ v, parseSystemInfo p = .ok v) := by
  unfold parseSystemInfo
  split
  · next h => exact .inl ⟨.inl h, rfl⟩
  · next h =>
    cases p with
    | nil => simp at h
    | cons info rest =>
      simp only [List.length_cons, Nat.not_lt] at h
      rcases parseInfoFields_cases info (rest.drop 8) with ⟨hl, e⟩ | ⟨hl, r, e⟩ <;> rw [List.length_drop] at hl
      · exact .inl ⟨.inr ⟨info, rest, rfl, by omega⟩, by simp only [e]⟩
      · refine .inr ⟨?_, _, by simp only [e]; rfl⟩
        rintro (h9 | ⟨_, _, heq, hs⟩)
        · simp only [List.length_cons] at h9; omega
        · cases heq; omega

/-! ## The parser of a tag command (R230 to R233) -/

/-- The parser takes every payload that is not too short for the instruction `i`, and answers `MalformedResponse` to the
others (R229). -/
def ParserOf (i : Instr) (f : List Byte → Except OpError Value) : Prop :=
  ∀ p, (PayloadTooShort i p ∧ f p = .error .malformedResponse) ∨ (¬ PayloadTooShort i p ∧ ∃ v, f p = .ok v)

theorem parserOf_total {f : List Byte → Except OpError Value} (hs : ∀ p, ¬ PayloadTooShort i p)
    (hf : ∀ p, ∃ v, f p = .ok v) : ParserOf i f := fun p => .inr ⟨hs p, hf p⟩

theorem parserOf_inventory : ParserOf .inventory parseInventory := by
  intro p
  unfold parseInventory
  split
  · next h => exact .inl ⟨by simp [PayloadTooShort, h], rfl⟩
  · next h => exact .inr ⟨by simpa [PayloadTooShort] using h, _, rfl⟩

theorem parserOf_readBlock (uid : Uid) (b : Byte) (n : Nat) : ParserOf (.readBlock uid b n) (parseBlock n) := by
  intro p
  unfold parseBlock
  split
  · next h => exact .inl ⟨by simp [PayloadTooShort, h], rfl⟩
  · next h => exact .inr ⟨by simpa [PayloadTooShort] using h, _, rfl⟩

theorem parserOf_getSysinfo (uid : Uid) : ParserOf (.getSysinfo uid) parseSystemInfo := by
  intro p
  have hiff : PayloadTooShort (.getSysinfo uid) p ↔ SystemInfoTooShort p := by
    simp [PayloadTooShort, SystemInfoTooShort, infoFieldsLength, InfoFlag.isSet, InfoFlag.bit]
  rw [hiff]
  exact parseSystemInfo_cases p

/-- Every tag command runs the sequencer on its request with a parser of its own (R221, R230 to R233). -/
theorem exec_tag_parser {req : List Byte} (h : tagRequestOf i = some req) :
    ∃ f, ParserOf i f ∧ ∀ s, exec i s = runOperation .rfConfirmed (issueTagCommand req f) s := by
  cases i with
  | inventory => cases h; exact ⟨_, parserOf_inventory, fun _ => rfl⟩
  | readBlock uid b n => cases h; exact ⟨_, parserOf_readBlock uid b n, fun _ => rfl⟩
  | getSysinfo uid => cases h; exact ⟨_, parserOf_getSysinfo uid, fun _ => rfl⟩
  | writeBlock uid b data =>
    cases h
    refine ⟨fun _ => .ok .unit, parserOf_total (by simp [PayloadTooShort]) fun _ => ⟨_, rfl⟩, fun s => ?_⟩
    show runOperation .rfConfirmed (issueTagCommand (requestWriteSingleBlock uid b data) _) s = _
    rw [requestWriteSingleBlock]
    simp; rfl
  | tagInventory => cases h; exact ⟨_, parserOf_total (by simp [PayloadTooShort]) fun _ => ⟨_, rfl⟩, fun _ => rfl⟩
  | tagReadSingleBlock | tagGetSystemInfo =>
    cases h; exact ⟨_, parserOf_total (by simp [PayloadTooShort]) fun _ => ⟨_, rfl⟩, fun _ => rfl⟩
  | tagWriteSingleBlock =>
    cases h; exact ⟨_, parserOf_total (by simp [PayloadTooShort]) fun _ => ⟨_, rfl⟩, fun _ => rfl⟩
  | _ => cases h

/-! ## The code tables (R43, R227) -/

theorem decodeErr_custom {c : Byte} (h : 0xA0 ≤ c.toNat) : decodeErr c = .custom c := if_pos h

theorem decodeErr_undefined {c : Byte} (h : c.toNat < 0xA0)
    (hc : c.toNat ∉ [0x01, 0x02, 0x03, 0x0F, 0x10, 0x11, 0x12, 0x13, 0x14]) : decodeErr c = .undefined := by
  unfold decodeErr
  rw [if_neg (Nat.not_le.2 h)]
  simp only [List.mem_cons, List.not_mem_nil, or_false, not_or] at hc
  simp [BitVec.toNat_eq, hc]

/-- Settles O51: the listed codes by evaluation, the two ranges by the order of R227's tests. -/
theorem codeTables : Obligations.CodeTables :=
  ⟨by decide, fun _ => decodeErr_custom, by decide, fun _ => decodeErr_undefined⟩

end Sys2Proof.Machine
end

section
/-! Waits that are never met, in any exchange of any operation (R132, R286, R287): what stalls each procedure, by the form of
its exchanges, and so what ends each instruction. -/

namespace Sys2Proof.Machine

variable {s t u : State} {i : Instr} {α β : Type} {es : List Exchange}

/-- What a wait that is never met does to the procedure of `i`, begun in `s`, in any of the exchanges `es` that has an end:
`BusyTimeout`, the frames before it sent, and what the exchange says is left. A pulse of the reset line comes before the
exchanges of `Reset`, and before those of no other (R206). -/
def Proc.Stalls (i : Instr) (f : Proc α) (s : State) (es : List Exchange) : Prop :=
  ∀ {Q b r c before e after u ph}, es = before ++ e :: after → e.left = some u → ph ∈ waitPhases →
    (ph = .rWaitDone → e.turn.reply ≠ []) → (ph = .tWaitReady → s.cs = false) →
    (∀ x ∈ before, x.turn.pace.bounded = true) → e.turn.pace.bounded = true →
    s.peer.Has Q (turnSamples (before.map (·.turn)) ++ (e.turn.pace.timeout ph ++ b))
      (turnReplies (before.map (·.turn)) ++ (ph.replies e.turn.reply ++ r)) c →
    Proc.Fails f s (e.leaves ph u) (.busyTimeout ph)
      (Peer.Stalled Q b r ((if i = .reset then c.hardwareReset else c).through before) e.frame e.turn.reply ph
        s.peer.executed)
      (before.map (·.frame) ++ ph.sends e.frame)

theorem Proc.Follows.stallsOf {f : Proc α} {s1 : State} {a : α} (h : Proc.Follows f s s1 a es) (hi : i ≠ .reset) :
    Proc.Stalls i f s es := by
  intro Q b r c before e after u ph
  rw [if_neg hi]
  exact h.stalls

theorem Proc.Stalls.bind {f : Proc α} {g : α → Proc β} (h : Proc.Stalls i f s es) : Proc.Stalls i (f >>= g) s es :=
  fun he hl hph hr hc hb hb' hs => (h he hl hph hr hc hb hb' hs).bind

/-- The instruction is an operation whose procedure stalls so. -/
def StallsOn (i : Instr) (s : State) (es : List Exchange) : Prop :=
  ∃ body, (∀ t, exec i t = runOperation (gateOf i) body t) ∧ Proc.Stalls i body (s.goto .op) es

/-- An instruction of one exchange whose procedure computes its value from the answer. -/
theorem stallsOn_returning {p : Proc α} {s1 : State} {a : α} (mk : α → Value) (hi : i ≠ .reset)
    (hx : ∀ t, exec i t = runOperation (gateOf i) (p >>= fun x => pure (mk x)) t)
    (h : Proc.Follows p (s.goto .op) s1 a es) : StallsOn i s es :=
  ⟨_, hx, (h.returning mk).stallsOf hi⟩

theorem decodeTs_of_code {v : Word} (h : v.extractLsb' 24 3 = 1) : decodeTs v = .waitTransmit := by
  rw [decodeTs, h]; rfl

@[simp] theorem State.pulsed_cs (s : State) : s.pulsed.cs = s.cs := rfl

@[simp] theorem State.pulsed_executed (s : State) : s.pulsed.peer.executed = s.peer.executed := by
  simp [State.pulsed, State.settle, State.setRst, Peer.act]

/-- `Reset`'s exchanges come after its pulse of the line (R206). -/
theorem stallsOn_reset (clear : Pace) (misses : List (Pace × Word)) (hit : Pace × Word)
    (hl : misses.length < s.params.resetPollLimit) (hm : ∀ m ∈ misses, m.2.getLsbD 2 = false)
    (hh : hit.2.getLsbD 2 = true) :
    StallsOn .reset s (irqExchanges { s with rst := .high, rfOn := false } (misses ++ [hit])
      ++ [clearExchange { s with rst := .high, rfOn := false } 0xFFFFFFFF clear]) := by
  have hu : ∀ d p w, (s.goto .op).pulsed.after d p w =
      State.after { s with rst := .high, rfOn := false } d p w := fun _ _ _ => rfl
  have hwait : Proc.Follows (waitIrq .idle s.params.resetPollLimit >>= fun _ => clearIrqStatus clearAllMask)
      (s.goto .op).pulsed (s.goto .op).pulsed () _ :=
    (follows_waitIrq .idle s.params.resetPollLimit misses hit _ hm hh hl hu).bind fun _ _ _ =>
      follows_rebase (follows_clearIrqStatus clearAllMask clear _ hu)
  refine ⟨returningUnit resetPeer, fun _ => rfl, Proc.Stalls.bind ?_⟩
  intro Q b r c before e after u ph he hl hph hr hc hb hb' hs
  rw [resetPeer_eq, if_pos rfl]
  refine Proc.Fails.update (sentFrames_pulsed _) ?_
  have h := hwait.stalls he hl hph hr hc hb hb' (Peer.At.pulsed (ts := []) hs)
  rw [State.pulsed_executed] at h
  have hx := Proc.Fails.bind h (g := fun _ => update fun s => s.setInitialized true)
  rw [bind_assoc] at hx
  exact hx

/-- The operations of one command frame. -/
theorem stallsOn_sendFrame {frame : List Byte} (pace : Pace) (hi : i ≠ .reset) (hf : frame ≠ [])
    (hd : frame ≠ [0x0A, 0x00]) (hlen : frame.length ≤ Config.maxFrame)
    (hx : ∀ t, exec i t = runOperation (gateOf i) (returningUnit (sendFrame frame)) t) :
    StallsOn i s [⟨frame, pace.silent, some s⟩] :=
  stallsOn_returning (fun _ => .unit) hi hx (follows_sendFrame frame pace s hf hd hlen fun _ _ _ => rfl)

/-- The operations that read one register. -/
theorem stallsOn_readRegister {a : Byte} {bs : List Byte} (pace : Pace) (hi : i ≠ .reset) (hl : bs.length = 4)
    (hx : ∀ t, exec i t = runOperation (gateOf i) (returningWord (readRegister a)) t) :
    StallsOn i s [⟨[0x04, a], pace.reply bs, some s⟩] :=
  stallsOn_returning .word hi hx (follows_readRegister a bs pace s hl fun _ _ _ => rfl)

/-- The admission of an EEPROM read (R63): the sum decides, for it is over the bound where the address alone is. -/
theorem eepromAdmitted_iff {a l : Byte} : eepromAdmitted a l = true ↔ a.toNat + l.toNat ≤ 254 := by
  simp only [eepromAdmitted, Bool.and_eq_true, decide_eq_true_eq]
  show a.toNat ≤ 254 ∧ a.toNat + l.toNat ≤ 254 ↔ _
  omega

theorem sendAdmitted_iff {payload : List Byte} {b : Byte} :
    sendAdmitted payload b = true ↔ payload.length ≤ 260 ∧ b.toNat ≤ 7 := by
  simp only [sendAdmitted, Bool.and_eq_true, decide_eq_true_eq]
  rfl

/-- A length within the bound of R166 is fetched. -/
theorem readData_admitted {n : Nat} (h : n ≤ Config.rxBufferSize) : readData n = fetchData n :=
  if_pos (by simpa [readAdmitted] using h)

theorem follows_readEeprom {a l : Byte} {bs : List Byte} (pace : Pace) (ha : a.toNat + l.toNat ≤ 254)
    (hl : bs.length = l.toNat) (hu : ∀ d p w, s.after d p w = u.after d p w) :
    Proc.Follows (readEeprom a l) s s bs [⟨[0x07, a, l], pace.reply bs, some u⟩] := by
  refine follows_require (eepromAdmitted_iff.2 ha) ?_
  rw [← hl]
  exact follows_exchange _ bs pace u (List.cons_ne_nil _ _) (by simp [frameReadEeprom, Opcode.code])
    (Nat.le_of_ble_eq_true rfl) (by simp only [Config.rxBufferSize]; omega) hu

theorem ne_reset_of_tagRequest {req : List Byte} (h : tagRequestOf i = some req) : i ≠ .reset := by
  rintro rfl
  cases h

/-- A tag command before its clear (R221): what stalls the sequencer up to its second read of IRQ-Status stalls the whole. -/
theorem stallsOn_tag {req : List Byte} (t : TagTurns) (hi : tagRequestOf i = some req) (hr : req.length ≤ 260)
    (h1 : t.state.2.extractLsb' 24 3 = 1) (h2 : t.irq.2.getLsbD 14 = true)
    (h3 : rxLength t.length.2 = t.response.2.length) (h4 : t.response.2.length ≤ 508) :
    StallsOn i s (tagExchanges s req t) := by
  obtain ⟨f, hx⟩ := exec_tag hi
  refine ⟨issueTagCommand req f, fun t => ?_, ?_⟩
  · rw [gateOf_eq_rfConfirmed (by simp [hi])]; exact hx t
  · rw [issueTagCommand_prefix]
    exact Proc.Stalls.bind ((follows_tagPrefix (s := s.goto .op) req t s hr (decodeTs_of_code h1) h2 h3 h4
      fun _ _ _ => rfl).stallsOf
      (ne_reset_of_tagRequest hi))

/-- A tag command with its clear (R221 step 7). -/
theorem stallsOn_tagClear {req : List Byte} (t : TagTurns) {flags : Byte} {payload : List Byte}
    (hi : tagRequestOf i = some req) (hr : req.length ≤ 260) (ha : t.answered = true)
    (hp : t.response.2 = flags :: payload) (hf : flags.getLsbD 0 = false) (hs : ¬ PayloadTooShort i payload) :
    StallsOn i s (tagExchanges s req t ++ [clearExchange (s.received t.response.2) 0x00004007 t.clear]) := by
  obtain ⟨f, hparser, hx⟩ := exec_tag_parser hi
  obtain ⟨v, hv⟩ : ∃ v, f payload = .ok v := (hparser payload).elim (fun h => absurd h.1 hs) And.right
  refine ⟨issueTagCommand req f, fun t => ?_, ?_⟩
  · rw [gateOf_eq_rfConfirmed (by simp [hi])]; exact hx t
  · exact (follows_issueTagCommand (s := s.goto .op) req t s hr ha (by rw [hp]; exact parseResponse_ok hf payload) hv
      fun _ _ _ => rfl).stallsOf
      (ne_reset_of_tagRequest hi)

/-- Every course of an instruction stalls in each of its exchanges that has an end. -/
theorem Course.stallsOn (h : Course s i es) : StallsOn i s es := by
  have hu : ∀ d p w, (s.goto .op).after d p w = s.after d p w := fun _ _ _ => rfl
  cases h with
  | @write a t r v _ frame pace h =>
    simp only [List.mem_cons, List.not_mem_nil, or_false, Prod.mk.injEq] at h
    rcases h with ⟨rfl, rfl⟩ | ⟨rfl, rfl⟩ | ⟨rfl, rfl⟩ | ⟨rfl, rfl⟩ | ⟨rfl, rfl⟩ | ⟨rfl, rfl⟩ | ⟨rfl, rfl⟩ |
      ⟨rfl, rfl⟩ | ⟨rfl, rfl⟩ | ⟨rfl, rfl⟩ | ⟨rfl, rfl⟩
    all_goals exact stallsOn_sendFrame pace (by simp) (by simp) (by simp) (Nat.le_of_ble_eq_true rfl) fun _ => rfl
  | @sendCommand b payload pace h =>
    exact stallsOn_sendFrame pace (by simp) (by simp) (by simp)
      (by simp only [Config.maxFrame, List.cons_append, List.nil_append, List.length_cons]; omega) fun _ => rfl
  | @readWord a _ frame pace bs hl h =>
    simp only [List.mem_cons, List.not_mem_nil, or_false, Prod.mk.injEq] at h
    rcases h with ⟨rfl, rfl⟩ | ⟨rfl, rfl⟩ | ⟨rfl, rfl⟩
    all_goals exact stallsOn_readRegister pace (by simp) hl fun _ => rfl
  | @readEeprom a l _ pace bs ha hl h =>
    simp only [List.mem_cons, List.not_mem_nil, or_false] at h
    rcases h with rfl | rfl
    all_goals exact stallsOn_returning .bytes (by simp) (fun _ => rfl) (follows_readEeprom pace ha hl hu)
  | @readData _ pace bs hl h =>
    have hfollows := follows_fetchData (s := s.goto .op) bs pace s hl hu
    simp only [List.mem_cons, List.not_mem_nil, or_false] at h
    rcases h with rfl | rfl
    · exact stallsOn_returning .bytes (by simp) (fun _ => rfl) (readData_admitted hl ▸ hfollows)
    · exact stallsOn_returning .bytes (by simp) (fun _ => rfl) hfollows
  | @sendData b payload p1 p2 status p4 hl hb h =>
    exact stallsOn_returning (fun _ => .unit) (by simp) (fun _ => rfl) (follows_sendData payload b p1 p2 status p4 s
      (sendAdmitted_iff.2 ⟨hl, hb⟩) (decodeTs_of_code h) hu)
  | rfOn send clear misses hit hl hm hh =>
    exact stallsOn_returning (fun _ => .unit) (by simp) (fun _ => rfl) (follows_setRfOn send clear misses hit s hm hh hl hu)
  | rfOff send clear misses hit hl hm hh =>
    exact stallsOn_returning (fun _ => .unit) (by simp) (fun _ => rfl) (follows_setRfOff send clear misses hit s hm hh hl hu)
  | setupRf p1 send clear p2 p3 misses hit hl hm hh =>
    exact stallsOn_returning (fun _ => .unit) (by simp) (fun _ => rfl)
      (follows_setupRf p1 send clear p2 p3 misses hit s hm hh hl hu)
  | reset clear misses hit hl hm hh => exact stallsOn_reset clear misses hit hl hm hh
  | tag t hi hr h1 h2 h3 h4 => exact stallsOn_tag t hi hr h1 h2 h3 h4
  | tagClear t hi hr ha hp hf hs => exact stallsOn_tagClear t hi hr ha hp hf hs

/-- The outcome that an instruction has delivered is what the host sees last (R132, R280). -/
theorem exec_hostSees {d : List OpOutcome} {o : OpOutcome} (h : exec i s = .next t) (hidle : t.phase = .idle)
    (hd : t.delivered = d ++ [o]) : t.hostSees = s.hostSees ++ [o.seen] := by
  rcases oneOutcomeOrOneFault i s t h with ⟨-, -, o', hd', hsees⟩ | ⟨hhalted, -⟩
  · obtain ⟨-, hlast⟩ := List.append_inj' (hd.symm.trans hd') rfl
    cases hlast
    exact hsees
  · rw [hidle] at hhalted; cases hhalted

/-- Settles O28: the course of an instruction stalls in the exchange, and the abort effects end the operation. -/
theorem unmetWaitsTimeOut : Obligations.UnmetWaitsTimeOut := by
  intro s u i before after e ph busy replies hi hb hf hc hcourse hl hstall
  obtain ⟨body, hx, hbody⟩ := hcourse.stallsOn
  have hfails := hbody rfl hl hstall.wait hstall.received hc hstall.before_bounded hstall.bounded
    (Q := s.peer.Quiet) (c := s.peer.chip) ⟨hstall.busy, hstall.replies, id, fun _ => rfl⟩
  obtain ⟨p, w, hrun, ⟨x, hdraw, hhas⟩, hframes⟩ := runOperation_fails hi (entryFault_eq_none hb hf) hfails
  have hexec := (hx s).trans hrun
  exact ⟨p, w, x, _, hexec, rfl, exec_hostSees hexec rfl rfl, by rw [hframes, List.append_assoc], hhas.busy, hhas.replies,
    hdraw, hhas.chip⟩

end Sys2Proof.Machine
end

section
/-! The register operations, the EEPROM, the scratch buffer and the single commands (41_register_access.md): the operations of
one frame, then those of one read, each with what the peer's answer gives and what it leaves on a quiet peer. -/

namespace Sys2Proof.Machine

variable {s t u : State} {i : Instr} {Q : Prop} {b : List Bool} {r : List Reply} {c : Chip}

/-! ## Operations of one frame (R161 to R163, R170) -/

/-- The peer that has played all of its cycles. -/
theorem Peer.At.done {p : Peer} (h : p.At Q [] b r c) : p.Has Q b r c := h

theorem Peer.Plays.bounded_head {p : Peer} {x : Turn} {ts : List Turn} (h : p.Plays (x :: ts) b r) :
    x.pace.bounded = true := h.bounded x List.mem_cons_self

/-- With an answering peer a one-frame operation ends with `()`, the frame sent and executed. -/
theorem sendFrame_completes {frame : List Byte} {pace : Pace} (hi : s.phase = .idle) (hb : s.initialized = true)
    (hf : frame ≠ []) (hlen : frame.length ≤ Config.maxFrame) (hp : s.peer.Plays [pace.silent] b r) :
    ∃ p w, runOperation .booted (returningUnit (sendFrame frame)) s = .next (s.completed (.ok .unit) p w) ∧
      sentFrames w = sentFrames s.wire ++ [frame] ∧ p.Has s.peer.Quiet b r (s.peer.chip.exchange frame []) := by
  obtain ⟨p, w, hx, hhas, hw⟩ := runOperation_goes hi (entryFault_booted hb) (goes_returning (fun _ => .unit)
    (goes_sendFrame (s := s.goto .op) hp.at hp.bounded_head hf hlen))
  exact ⟨p, w, hx, hw, hhas.done⟩

theorem may_held : May.held.AllHeld := ⟨fun _ => rfl, rfl, rfl, rfl, rfl, rfl, rfl⟩

/-- An exchange within its bounds is answered or times out; no outcome has been delivered yet (R130, R132). -/
theorem transceive_ends {may : May} {frame : List Byte} {rl : Nat} (hf : Sendable may frame)
    (hok : ¬ BadExchange frame rl) :
    Proc.Holds (transceive frame rl .transient) s (fun _ t => t.delivered = s.delivered)
      fun e t => t.delivered = s.delivered ∧ ∃ p, e = .err (.busyTimeout p) :=
  (transceive_holds (G := False) frame rl .transient nofun hf transient_writable).mono
    (fun _ _ h => h.1.delivered) fun _ _ h => ⟨h.2.1.delivered, h.1.resolve_left fun k => hok k.2⟩

/-- Any command frame that reads no register can be sent where the peer may change in any way. -/
theorem sendable_held {o : Opcode} {ps : List Byte} (ho : o ≠ .readRegister) : Sendable May.held (o.code :: ps) :=
  sendable_cons ho fun c => Within.all may_held c _

/-- Whatever the peer answers, a one-frame operation ends with `()` or a busy timeout (R132). -/
theorem sendFrame_outcomes {o : Opcode} {ps : List Byte} (hi : s.phase = .idle) (hb : s.initialized = true)
    (ho : o ≠ .readRegister) (hlen : (o.code :: ps).length ≤ Config.maxFrame) :
    ∃ t, runOperation .booted (returningUnit (sendFrame (o.code :: ps))) s = .next t ∧
      (t.delivered = s.delivered ++ [.ok .unit] ∨ ∃ ph, t.delivered = s.delivered ++ [.err (.busyTimeout ph)]) := by
  have hends : Proc.Holds (returningUnit (sendFrame (o.code :: ps))) (s.goto .op)
      (fun v t => t.delivered = s.delivered ∧ v = .unit)
      fun e t => t.delivered = s.delivered ∧ ∃ p, e = .err (.busyTimeout p) :=
    (sendFrame_ends _ (s.goto .op) (sendable_held ho) (exchange_admitted (List.cons_ne_nil _ _) hlen (by decide))).seq
      fun _ _ h => ⟨h, rfl⟩
  obtain ⟨t, hx, ⟨v, rfl, hd⟩ | htimeout⟩ := booted_ends (· = .unit) hi hb hends
  · exact ⟨t, hx, .inl hd⟩
  · exact ⟨t, hx, .inr htimeout⟩

/-- Nothing is known of the peer after a write of any kind to an unnamed address (R62). -/
theorem Chip.accessed_unnamed {a : Byte} (h : namedAddress a = false) (f : Chip → Chip) :
    (c.accessed a f).regs = [] := by
  rw [Chip.accessed, if_neg (by simp [h])]; rfl

/-- Settles O29: one frame is sent; at a named address the quiet peer sets one cell, at an unnamed one it forgets them all. -/
theorem Settled.writeRegister : Obligations.WriteRegister := by
  intro s a v hi hb i hmem
  have hx : exec i s = runOperation .booted (returningUnit (sendFrame (frameWriteRegister a v))) s := by
    simp only [List.mem_cons, List.not_mem_nil, or_false] at hmem
    rcases hmem with rfl | rfl <;> rfl
  rw [hx]
  refine ⟨fun pace busy replies hp => ?_, sendFrame_outcomes hi hb (by simp) (Nat.le_of_ble_eq_true rfl)⟩
  obtain ⟨p, w, hrun, hw, hhas⟩ := sendFrame_completes (frame := frameWriteRegister a v) hi hb
    (List.cons_ne_nil _ _) (Nat.le_of_ble_eq_true rfl) hp
  refine ⟨p, w, hrun, hw, hhas.busy, hhas.replies, fun hq => ?_⟩
  rw [hhas.chip hq]
  refine ⟨fun hn h3 => ?_, ?_, fun hn => ?_⟩
  · rw [exchange_writeRegister_plain _ _ _ hn h3]; rfl
  · rintro rfl
    rw [exchange_clear]; rfl
  · rw [exchange_writeRegister, Chip.accessed_unnamed hn]

/-- Settles O30: one frame is sent; at a named address the quiet peer changes one cell, at an unnamed one it forgets them all. -/
theorem Settled.writeRegisterOr : Obligations.WriteRegisterOr := by
  intro s a m hi hb i hmem
  have hx : exec i s = runOperation .booted (returningUnit (sendFrame (frameWriteRegisterOrMask a m))) s := by
    simp only [List.mem_cons, List.not_mem_nil, or_false] at hmem
    rcases hmem with rfl | rfl <;> rfl
  rw [hx]
  refine ⟨fun pace busy replies hp => ?_, sendFrame_outcomes hi hb (by simp) (Nat.le_of_ble_eq_true rfl)⟩
  obtain ⟨p, w, hrun, hw, hhas⟩ := sendFrame_completes (frame := frameWriteRegisterOrMask a m) hi hb
    (List.cons_ne_nil _ _) (Nat.le_of_ble_eq_true rfl) hp
  refine ⟨p, w, hrun, hw, hhas.busy, hhas.replies, fun hq => ?_⟩
  rw [hhas.chip hq]
  refine ⟨fun hn => ?_, fun hn => ?_⟩
  · rw [exchange_writeRegisterOrMask_named _ _ _ hn]; rfl
  · rw [exchange_writeRegisterOrMask, Chip.accessed_unnamed hn]

/-- Settles O31: one frame is sent; at a named address the quiet peer sets one cell, at IRQ-Status to what it held before. -/
theorem Settled.writeRegisterAnd : Obligations.WriteRegisterAnd := by
  intro s a m hi hb i hmem
  have hx : exec i s = runOperation .booted (returningUnit (sendFrame (frameWriteRegisterAndMask a m))) s := by
    simp only [List.mem_cons, List.not_mem_nil, or_false] at hmem
    rcases hmem with rfl | rfl <;> rfl
  rw [hx]
  refine ⟨fun pace busy replies hp => ?_, sendFrame_outcomes hi hb (by simp) (Nat.le_of_ble_eq_true rfl)⟩
  obtain ⟨p, w, hrun, hw, hhas⟩ := sendFrame_completes (frame := frameWriteRegisterAndMask a m) hi hb
    (List.cons_ne_nil _ _) (Nat.le_of_ble_eq_true rfl) hp
  refine ⟨p, w, hrun, hw, hhas.busy, hhas.replies, fun hq => ?_⟩
  rw [hhas.chip hq]
  refine ⟨fun hn => ?_, fun hn => ?_⟩
  · rw [exchange_writeRegisterAndMask_named _ _ _ hn]; rfl
  · rw [exchange_writeRegisterAndMask, Chip.accessed_unnamed hn]

/-- Settles O40: one frame is sent, and a quiet peer's profile becomes the pair. -/
theorem Settled.loadRfConfig : Obligations.LoadRfConfig := by
  intro s t r hi hb i hmem
  have hx : exec i s = runOperation .booted (returningUnit (sendFrame (frameLoadRfConfig t r))) s := by
    simp only [List.mem_cons, List.not_mem_nil, or_false] at hmem
    rcases hmem with rfl | rfl <;> rfl
  rw [hx]
  refine ⟨fun pace busy replies hp => ?_, sendFrame_outcomes hi hb (by simp) (Nat.le_of_ble_eq_true rfl)⟩
  obtain ⟨p, w, hrun, hw, hhas⟩ := sendFrame_completes (frame := frameLoadRfConfig t r) hi hb
    (List.cons_ne_nil _ _) (Nat.le_of_ble_eq_true rfl) hp
  exact ⟨p, w, hrun, hw, hhas.busy, hhas.replies, fun hq => by rw [hhas.chip hq, exchange_loadRfConfig]⟩

/-- Settles O39: each is one frame, whose effect on a quiet peer is one field. -/
theorem singleFrameCommands : Obligations.SingleFrameCommands := by
  intro s payload v pace busy replies hi hb hp
  refine ⟨fun hl => ?_, ?_, ?_⟩
  · have hlen : (frameSendData v payload).length ≤ Config.maxFrame := by
      show payload.length + 2 ≤ 262; omega
    obtain ⟨p, w, hx, hw, hhas⟩ := sendFrame_completes (frame := frameSendData v payload) hi hb
      (List.cons_ne_nil _ _) hlen hp
    exact ⟨p, w, hx, hw, hhas.busy, hhas.replies, fun hq => by rw [hhas.chip hq]; simp⟩
  · obtain ⟨p, w, hx, hw, hhas⟩ := sendFrame_completes (frame := frameRfOn) hi hb (by decide) (by decide) hp
    exact ⟨p, w, hx, hw, hhas.busy, hhas.replies, fun hq => by rw [hhas.chip hq]; simp⟩
  · obtain ⟨p, w, hx, hw, hhas⟩ := sendFrame_completes (frame := frameRfOff) hi hb (by decide) (by decide) hp
    exact ⟨p, w, hx, hw, hhas.busy, hhas.replies, fun hq => by rw [hhas.chip hq]; simp⟩

/-! ## Reading a register (R164) -/

/-- Whatever the peer answers, a read of a register ends with a value or a busy timeout (R132). -/
theorem readRegister_outcomes (a : Byte) (hi : s.phase = .idle) (hb : s.initialized = true) :
    ∃ t, runOperation .booted (returningWord (readRegister a)) s = .next t ∧
      ((∃ v, t.delivered = s.delivered ++ [.ok (.word v)]) ∨
        ∃ ph, t.delivered = s.delivered ++ [.err (.busyTimeout ph)]) := by
  have hends : Proc.Holds (returningWord (readRegister a)) (s.goto .op)
      (fun v t => t.delivered = s.delivered ∧ ∃ w, v = .word w)
      fun e t => t.delivered = s.delivered ∧ ∃ p, e = .err (.busyTimeout p) :=
    Proc.Holds.seq (Proc.Holds.seq (Q' := fun _ t => t.delivered = s.delivered)
      (transceive_ends (may := .held) (s := s.goto .op) (sendable_readRegister (a := a) (fun _ => rfl) fun _ => rfl)
        (exchange_admitted (List.cons_ne_nil _ _) (Nat.le_of_ble_eq_true rfl) (by decide)))
      fun _ _ h => h) fun v _ h => ⟨h, v, rfl⟩
  obtain ⟨t, hx, ⟨_, ⟨v, rfl⟩, hd⟩ | htimeout⟩ := booted_ends (∃ w, · = .word w) hi hb hends
  · exact ⟨t, hx, .inl ⟨v, hd⟩⟩
  · exact ⟨t, hx, .inr htimeout⟩

/-- Settles O32: one frame is sent and four bytes come back; a quiet peer changes at most what is known of that register. -/
theorem Settled.readRegister : Obligations.ReadRegister := by
  intro s a hi hb i hmem
  have hx : exec i s = runOperation .booted (returningWord (Machine.readRegister a)) s := by
    simp only [List.mem_cons, List.not_mem_nil, or_false] at hmem
    rcases hmem with rfl | rfl <;> rfl
  rw [hx]
  refine ⟨fun pace r0 r1 r2 r3 busy replies hp => ?_, readRegister_outcomes a hi hb⟩
  rw [← bytesLe32_le32] at hp
  obtain ⟨p, w, hrun, hhas, hw⟩ := runOperation_goes hi (entryFault_booted hb) (goes_returning .word
    (goes_readRegister (s := s.goto .op) (a := a) (p := pace) hp.at hp.bounded_head))
  refine ⟨p, w, hrun, hw, hhas.busy, hhas.replies, fun hq b hne => ?_⟩
  rw [hhas.chip hq]
  exact exchange_readRegister_other _ a _ fun h => hne (BitVec.eq_of_toNat_eq h)

end Sys2Proof.Machine
end

section
/-! What the peer holds, read back (R46, R47), and the data that `ReadData` stores (R166): the answers that the peer's contract
determines, and the scratch buffer. -/

namespace Sys2Proof.Machine

variable {s t u : State} {i : Instr} {Q : Prop} {b : List Bool} {r : List Reply} {c : Chip}

/-! ## Reading back a register (R46) -/

/-- A read that the quiet peer answers with what the register holds gives that value. -/
theorem goes_readRegister_held {a : Byte} {v : Word} {pace : Pace} (hq : Q)
    (hs : s.peer.Has Q (pace.read ++ b) ([.held, .held, .held, .held] ++ r) c) (hb : pace.bounded = true)
    (hv : cellsRead c.regs a.toNat = some v) (h3 : a ≠ 0x03) (hn : namedAddress a = true) :
    Proc.Goes (readRegister a) s s v (Peer.Has Q b r (c.exchange (frameReadRegister a) (bytesLe32 v)))
      [frameReadRegister a] := by
  have hanswer : ∀ (k : Nat) (x : Byte), (bytesLe32 v)[k]? = some x →
      (c.execute (frameReadRegister a)).response[k]? = some (some x) := fun k x hx => by
    rw [execute_readRegister_response hv h3 hn, List.getElem?_map, hx]; rfl
  have h := goes_held (frameReadRegister a) .transient (pace.answer v) hq hanswer hs hb (List.cons_ne_nil _ _)
    (Nat.le_of_ble_eq_true rfl) (show 4 ≤ 508 by decide)
  have hword := h.bind (g := fun r => (pure (responseWord r) : Proc Word)) (gs := []) fun _ _ _ hp => goes_pure hp
  rw [show responseWord (pace.answer v).reply = v from responseWord_bytes v] at hword
  exact hword

/-- Flags that the written value keeps change nothing of it. -/
theorem or_eq_of_and_not_eq_zero {v w : Word} (h : w &&& ~~~v = 0) : v ||| w = v := by
  ext i hi
  have hbit : (w &&& ~~~v)[i] = false := by rw [h]; simp
  simp only [BitVec.getElem_and, BitVec.getElem_not] at hbit
  rw [BitVec.getElem_or]
  cases hv : v[i] <;> simp_all

/-- Settles O33: the write leaves the register known, and the read is answered with it. -/
theorem readBackLaw : Obligations.ReadBackLaw := by
  intro s a v p1 p2 busy replies hn h3 hi hb h1 h2 hq hbusy hreplies
  have hp : s.peer.Plays [p1.silent] (p2.read ++ busy) ([.held, .held, .held, .held] ++ replies) :=
    ⟨by simpa [Pace.silent] using h1, by simpa [turnSamples, Turn.samples, Pace.silent] using hbusy, hreplies⟩
  obtain ⟨p, w, hwrite, -, hhas⟩ := sendFrame_completes (frame := frameWriteRegister a v) hi hb (List.cons_ne_nil _ _)
    (Nat.le_of_ble_eq_true rfl) hp
  rw [exchange_writeRegister_plain _ _ _ hn h3] at hhas
  obtain ⟨q, w', hread, -⟩ := runOperation_goes (s := s.completed (.ok .unit) p w) rfl (entryFault_booted hb)
    (goes_returning .word (goes_readRegister_held (a := a) hq hhas h2 (cellsRead_write_same _ _ _) h3 hn))
  refine ⟨_, _, hwrite, hread, fun h => ?_, ?_⟩
  · have hv : (if a = 0x02 then v ||| s.peer.chip.reg 0x02 else v) = v := by
      split
      · next ha => exact or_eq_of_and_not_eq_zero (h.resolve_left fun k => k ha)
      · rfl
    rw [hv]
    exact List.append_assoc _ _ _
  · rintro rfl
    exact List.append_assoc _ _ _

/-! ## The EEPROM (R165) -/

/-- An admitted read of the EEPROM, however the peer comes to its bytes. -/
theorem readEeprom_completes {addr len : Byte} {bs : List Byte} {pace : Pace} {r' : List Reply} (hi : s.phase = .idle)
    (hb : s.initialized = true) (had : addr.toNat + len.toNat ≤ 254) (hl : bs.length = len.toNat)
    (hbounded : pace.bounded = true)
    (ha : Answering Q (c.execute (frameReadEeprom addr len)) .transient bs r' r) (h0 : bs = [] → r' = r)
    (hs : s.peer.Has Q ((pace.reply bs).samples ++ b) r' c) :
    ∃ p w, runOperation .booted (returningBytes (readEeprom addr len)) s = .next (s.completed (.ok (.bytes bs)) p w) ∧
      sentFrames w = sentFrames s.wire ++ [[0x07, addr, len]] ∧ p.busy = b ∧ p.replies = r := by
  have hgoes : Proc.Goes (readEeprom addr len) (s.goto .op) (s.goto .op) bs
      (Peer.Has Q b r (c.exchange (frameReadEeprom addr len) bs)) [frameReadEeprom addr len] := by
    refine goes_require (eepromAdmitted_iff.2 had) ?_
    rw [← hl]
    exact goes_answered _ .transient (pace.reply bs) ha h0 hs hbounded (List.cons_ne_nil _ _)
      (Nat.le_of_ble_eq_true rfl) (show bs.length ≤ 508 by omega)
  obtain ⟨p, w, hx, hhas, hw⟩ := runOperation_goes hi (entryFault_booted hb) (goes_returning .bytes hgoes)
  exact ⟨p, w, hx, hw, hhas.busy, hhas.replies⟩

/-- An operation that raises its error before its first line: only the outcome is added (R282, R286). -/
theorem runOperation_refuses {g : Gate} {body : Proc Value} {e : OpError} (hi : s.phase = .idle) (hc : s.cs = false)
    (hg : s.entryFault g = none) (h : body (s.goto .op) = .error (.err e) (s.goto .op)) :
    runOperation g body s = .next (s.completed (.err e) s.peer s.wire) := by
  rw [runOperation, if_neg (by simp [hi]), if_pos hi, hg, h]
  refine congrArg _ (abort_of_abortTo ?_)
  simp [State.abortTo, State.releaseCs, State.after, State.goto, State.clearCounters, hc]

/-- A test that fails, whatever follows it, raises its error at once. -/
theorem require_bind_raises {α : Type} {x : Bool} {e : OpError} (g : Unit → Proc α) (hx : x = false) (s : State) :
    (require x e >>= g) s = .error (.err e) s := by subst hx; rfl

/-- Settles O34: within the range the bytes come from the script or from the EEPROM; over it the admission test raises the error. -/
theorem Settled.readEeprom : Obligations.ReadEeprom := by
  intro s addr len hi hc hb i hmem
  have hx : exec i s = runOperation .booted (returningBytes (Machine.readEeprom addr len)) s := by
    simp only [List.mem_cons, List.not_mem_nil, or_false] at hmem
    rcases hmem with rfl | rfl <;> rfl
  rw [hx]
  refine ⟨fun had pace bs busy replies hl hp => ?_, fun had pace bs busy replies hl hbounded hq heep hbusy hreplies => ?_,
    fun hover => ?_⟩
  · exact readEeprom_completes (pace := pace) hi hb had hl hp.bounded_head
      (answering_answers _ _ (show bs.length ≤ 508 by omega))
      (fun h => by rw [h]; rfl) hp.one
  · refine readEeprom_completes (Q := s.peer.Quiet) (c := s.peer.chip) hi hb had hl hbounded
      (answering_held _ _ hq (show bs.length ≤ 508 by omega) fun k x hk => ?_) (fun h => by rw [h]; rfl)
      ⟨hbusy, hreplies, id, fun _ => rfl⟩
    have hlt : k < bs.length := (List.getElem?_eq_some_iff.1 hk).1
    rw [execute_readEeprom_response _ _ _ _ (hl ▸ hlt), heep k hlt, hk]
  · exact runOperation_refuses hi hc (entryFault_booted hb) (bind_error (require_bind_raises _
      (Bool.eq_false_iff.2 fun h => absurd (eepromAdmitted_iff.1 h) (by omega)) _))

/-! ## The scratch buffer (R25, R26, R166) -/

/-- A read that takes in a byte past the valid ones has no value (R26). -/
theorem scratchBytes_past_valid {a n : Nat} (h : s.scratchValid < a + n) (hn : 0 < n) : s.scratchBytes a n = none := by
  induction n generalizing a with
  | zero => omega
  | succ n ih =>
    unfold State.scratchBytes
    by_cases ha : a < s.scratchValid
    · rw [ih (a := a + 1) (by omega) (by omega)]
      cases s.scratchByte a <;> rfl
    · rw [show s.scratchByte a = none from if_neg ha]

theorem memRead_past_valid {a n : Nat} (h : s.scratchValid < a + n) (hn : 0 < n) (vs : List Byte) (v : State) :
    memRead a n s ≠ .ok vs v := by
  unfold memRead
  rw [scratchBytes_past_valid h hn]
  split <;> simp

/-- Settles O35: the bytes received are written from offset 0 on, and the count set to their number. -/
theorem Settled.readData : Obligations.ReadData := by
  intro s bs pace busy replies hi hb hl hp i hmem
  have hx : exec i s = runOperation .booted (returningBytes (fetchData bs.length)) s := by
    simp only [List.mem_cons, List.not_mem_nil, or_false] at hmem
    rcases hmem with rfl | rfl
    · rw [← readData_admitted hl]; rfl
    · rfl
  rw [hx]
  obtain ⟨p, w, hrun, hhas, hw⟩ := runOperation_goes hi (entryFault_booted hb) (goes_returning .bytes
    (goes_fetchData (s := s.goto .op) hp.at hp.bounded_head hl))
  refine ⟨p, w, s.scratch.write 0 bs, hrun, hw, hhas.busy, hhas.replies, fun a ha => ?_, fun a ha => ?_,
    fun u hu a n h hn vs v => memRead_past_valid (hu ▸ h) hn vs v⟩
  · rw [Memory.read_write, if_pos (by omega), Nat.sub_zero]
  · rw [Memory.read_write, if_neg (by omega)]

end Sys2Proof.Machine
end

section
/-! What is left of the scratch buffer and of RX-Status when an instruction has ended, in whichever way (R25, R166, R221): a
quiet peer's part in one exchange, the ways an operation ends, and the sequencer of a tag command part by part. -/

namespace Sys2Proof.Machine

variable {s t u : State} {i : Instr} {α β : Type}

/-! ## A quiet peer's part in one exchange (R46, R138) -/

/-- Until it executes or answers, an exchange leaves what a quiet peer holds. -/
def Proc.Draws (f : Proc α) : Prop := ∀ s, Proc.Holds f s (fun _ t => Drawn s.peer t.peer) fun _ _ => True

theorem Proc.Draws.bind {f : Proc α} {g : α → Proc β} {Q : β → State → Prop} (hf : f.Draws)
    (hg : ∀ a t, Drawn s.peer t.peer → Proc.Holds (g a) t Q fun _ _ => True) : Proc.Holds (f >>= g) s Q fun _ _ => True :=
  (hf s).seq hg

theorem draws_waitBusy (target : Bool) : (waitBusy target).Draws := by
  intro s
  unfold Proc.Holds
  cases h : waitBusy target s with
  | ok a t => exact waitBusy_drawn h
  | error e t => trivial

theorem draws_waitBusySent (target : Bool) (frame : List Byte) : (waitBusySent target frame).Draws := by
  intro s
  unfold Proc.Holds
  cases h : waitBusy target s with
  | ok a t => rw [waitBusySent_ok h]; exact waitBusy_drawn h
  | error e t => rw [waitBusySent_error h]; trivial

theorem draws_sendBytes (bs : List Byte) : (sendBytes bs).Draws := by
  intro s
  obtain ⟨xs, p, -, hd, -, -, h⟩ := sendBytes_run bs s
  unfold Proc.Holds
  rw [h]
  exact hd

theorem State.select_drawn (s : State) (p : Phase) : Drawn s.peer (s.select p).peer :=
  (Peer.elapse_drawn _).trans (Peer.elapse_drawn _)

theorem State.release_drawn (s : State) (p : Phase) : Drawn s.peer (s.release p).peer :=
  (Peer.elapse_drawn _).trans (Peer.elapse_drawn _)

/-- A quiet peer has executed the frame when its command transaction has ended, and nothing else (R75, R160). -/
theorem exchangeCommand_chip (frame : List Byte) (s : State) :
    Proc.Holds (exchangeCommand frame) s
      (fun _ t => s.peer.Quiet → t.peer.Quiet ∧ t.peer.chip = s.peer.chip.execute frame) fun _ _ => True := by
  unfold exchangeCommand
  simp only [holds_update_bind]
  refine (draws_waitBusy false).bind fun _ t1 h1 => ?_
  simp only [holds_update_bind]
  refine (draws_sendBytes frame).bind fun _ t2 h2 => ?_
  simp only [holds_update_bind]
  refine (draws_waitBusySent true frame).bind fun _ t3 h3 => ?_
  simp only [holds_update_bind]
  refine (draws_waitBusySent false frame).bind fun _ t4 h4 => ?_
  intro hq
  have hd : Drawn s.peer t4.peer :=
    h1.trans ((t1.select_drawn .tSelect).trans (h2.trans (h3.trans ((t3.release_drawn .tRelease).trans h4))))
  exact ⟨hd.quiet hq, congrArg (·.execute frame) (hd.chip hq)⟩

/-- A quiet peer's registers are then those it answered (`Chip.observe`), and nothing else has changed. -/
theorem exchangeResponse_chip (frame : List Byte) (rl : Nat) (dst : Destination) (s : State)
    (hrl : rl ≤ Config.rxBufferSize) :
    Proc.Holds (exchangeResponse frame rl dst) s
      (fun r t => s.peer.Quiet → t.peer.Quiet ∧ t.peer.chip = s.peer.chip.observe frame r) fun _ _ => True := by
  unfold exchangeResponse
  simp only [holds_current_bind, holds_update_bind]
  obtain ⟨bs, p, -, hd, hx⟩ := receiveBytes_effect dst rl (((s.select .rSelect).goto .rRecv).setXi 0)
    (show 0 + rl ≤ _ by omega)
  rw [holds_bind]
  unfold Proc.Holds
  rw [hx]
  refine (draws_waitBusy false).bind fun _ t1 h1 => ?_
  intro hq
  have hquiet : p.Quiet := hd.quiet ((s.select_drawn .rSelect).quiet hq)
  have hrelease := (State.release_drawn _ .rRelease).trans h1
  exact ⟨hrelease.quiet hquiet, (hrelease.chip hquiet).trans (Peer.answered_chip p frame bs _ hq)⟩

/-- What a quiet peer holds after an exchange. -/
theorem transceive_chip (frame : List Byte) (rl : Nat) (dst : Destination) (s : State) :
    Proc.Holds (transceive frame rl dst) s
      (fun r t => s.peer.Quiet → t.peer.Quiet ∧ t.peer.chip = s.peer.chip.exchange frame r) fun _ _ => True := by
  unfold transceive
  split
  · trivial
  · next hok =>
    refine (exchangeCommand_chip frame s).seq fun _ t ht => ?_
    split
    · exact fun hq => ⟨(ht hq).1, (ht hq).2.trans (Chip.observe_nil _ frame).symm⟩
    · refine (exchangeResponse_chip frame rl dst t (by omega)).seq fun r u hu => ?_
      intro hq
      obtain ⟨hqt, hct⟩ := ht hq
      obtain ⟨hqu, hcu⟩ := hu hqt
      exact ⟨hqu, by rw [Chip.exchange, ← hct]; exact hcu⟩

/-- A quiet peer's named register is known to hold what a read of it has answered (log 12). -/
theorem readRegister_read {a : Byte} (h3 : a ≠ 0x03) (hn : namedAddress a = true) (s : State) :
    Proc.Holds (readRegister a) s (fun v t => s.peer.Quiet → cellsRead t.peer.chip.regs a.toNat = some v)
      fun _ _ => True := by
  have hlen := (transceive_holds (G := False) (may := .held) (s := s) (frameReadRegister a) 4 .transient nofun
    (sendable_readRegister (fun _ => rfl) fun _ => rfl) transient_writable).mono
    (Q' := fun r _ => r.length = 4) (E' := fun _ _ => True) (fun _ _ h => h.2.2.2.2.1) fun _ _ _ => trivial
  refine ((transceive_chip (frameReadRegister a) 4 .transient s).and hlen).seq' (fun _ _ _ => trivial) fun r t ht => ?_
  obtain ⟨hchip, hr⟩ := ht
  intro hq
  obtain ⟨r0, r1, r2, r3, rfl⟩ := List.length_eq_four.1 hr
  rw [(hchip hq).2, ← bytesLe32_le32, responseWord_bytes]
  exact exchange_readRegister_read _ a _ h3 hn

/-! ## How an operation ends, and what holds at every end -/

/-- A next state of an operation is the entry fault's, or its procedure's end concluded (R289). -/
theorem runOperation_next {g : Gate} {body : Proc Value} (h : runOperation g body s = .next t) :
    (∃ f, s.entryFault g = some f ∧ t = s.takeFault f) ∨ concludeWith (body (s.goto .op)) = .next t := by
  unfold runOperation at h
  split at h
  · cases h
  · split at h
    · split at h
      · next f hf => cases h; exact .inl ⟨f, hf, rfl⟩
      · exact .inr h
    · cases h

/-- What an early end of a procedure leaves of an operation (R286, R290). -/
def State.stopped (u : State) : Stop → State
  | .err e => u.abort e
  | .halt f => u.takeFault f
  | .stuck _ => u

theorem frame_stopped (e : Stop) : Frame .nothing u (u.stopped e) := by
  cases e with
  | err e => exact frame_abort e
  | halt f => exact frame_takeFault f
  | stuck r => exact (Effect.refl (G := False) u).frame

/-- What every end of the procedure leads to, and every entry fault, holds of the next state. -/
theorem runOperation_ends {g : Gate} {body : Proc Value} {R : State → Prop} (h : runOperation g body s = .next t)
    (h0 : ∀ f, s.entryFault g = some f → R (s.takeFault f))
    (hbody : Proc.Holds body (s.goto .op) (fun v u => R (u.finish v)) fun e u => R (u.stopped e)) : R t := by
  rcases runOperation_next h with ⟨f, hf, rfl⟩ | hend
  · exact h0 f hf
  · unfold Proc.Holds at hbody
    revert hbody hend
    cases body (s.goto .op) with
    | ok v u => intro hR hend; cases hend; exact hR
    | error e u =>
      cases e with
      | err e => intro hR hend; cases hend; exact hR
      | halt f => intro hR hend; cases hend; exact hR
      | stuck r => intro _ hend; cases hend

/-- What holds at every end of the procedure, and at the start where the entry check may end it there, and is kept where only
the lines, the phase, the faults and the outcomes change, holds of the next state. -/
theorem runOperation_holds {g : Gate} {body : Proc Value} {R : State → Prop} (h : runOperation g body s = .next t)
    (h0 : s.entryFault g ≠ none → R s) (hbody : Proc.Holds body (s.goto .op) (fun _ => R) fun _ => R)
    (hkeep : ∀ u v, R u → Frame .nothing u v → R v) : R t :=
  runOperation_ends h (fun f hf => hkeep _ _ (h0 (by simp [hf])) (frame_takeFault f))
    (hbody.mono (fun v u hu => hkeep _ _ hu (frame_finish v)) fun e u hu => hkeep _ _ hu (frame_stopped e))

/-! ## The sequencer of a tag command (R221) -/

/-- The scratch buffer is as before, or as before from the length that RX-Status holds on (R44, R223). -/
def State.ReadsAtMost (s t : State) : Prop :=
  t.scratch = s.scratch ∨ ∃ v, cellsRead t.peer.chip.regs 0x13 = some v ∧
    ∀ a, rxLength v ≤ a → cellsRead t.scratch a = cellsRead s.scratch a

/-- The same of a quiet peer, which stays quiet. -/
def State.QuietlyReads (s t : State) : Prop := s.peer.Quiet → t.peer.Quiet ∧ s.ReadsAtMost t

theorem State.QuietlyReads.frame {may : May} (h : s.QuietlyReads t) (hf : Frame may t u) (hd : may.data = false)
    (hr : may.regs 0x13 = false) : s.QuietlyReads u := by
  intro hq
  obtain ⟨hqt, hs⟩ := h hq
  refine ⟨hf.quiet hqt, hs.imp (hf.scratch hd).trans ?_⟩
  rintro ⟨v, hv, ha⟩
  exact ⟨v, ((hf.within hqt).regs _ hr).trans hv, by rw [hf.scratch hd]; exact ha⟩

theorem State.QuietlyReads.refl (s : State) : s.QuietlyReads s := fun hq => ⟨hq, .inl rfl⟩

/-- A stretch that touches neither the scratch buffer nor RX-Status. -/
theorem Proc.Runs.quietlyReads {may : May} {p : Proc α} (h : Proc.Runs False may p t) (hd : may.data = false)
    (hr : may.regs 0x13 = false) (hs : s.QuietlyReads t) :
    Proc.Holds p t (fun _ => s.QuietlyReads) fun _ => s.QuietlyReads :=
  h.mono (fun _ _ h => hs.frame h.1.frame hd hr) fun _ _ h => hs.frame h.1.frame hd hr

/-- What the sequencer may change before it reads RX-Status. -/
def May.probe : May := { May.send with regs := fun b => b == 0 || b == 2 || b == 0x1D, clears := true }

theorem begins_tagProbe (req : List Byte) (s : State) : Proc.Begins False May.probe (tagProbe req) s :=
  (begins_sendData req 0 ⟨rfl, rfl, rfl⟩ nofun).bind fun _ _ _ _ =>
    Proc.Runs.update (effect_settle nofun) (runs_getIrqStatus ⟨rfl, rfl⟩ nofun)

/-- What `ReadData` may change (R166). -/
def May.fetch : May := { May.nothing with data := true, receive := true }

/-- `ReadData` of the length that RX-Status holds (R223). -/
theorem readData_quietlyReads {v : Word} (hs : t.scratch = s.scratch)
    (hv : s.peer.Quiet → t.peer.Quiet ∧ cellsRead t.peer.chip.regs 0x13 = some v) :
    Proc.Holds (readData (rxLength v)) t (fun _ => s.QuietlyReads) fun _ => s.QuietlyReads := by
  have hend : ∀ u, Effect False .fetch t u → (∀ a, rxLength v ≤ a → cellsRead u.scratch a = cellsRead t.scratch a) →
      s.QuietlyReads u := fun u he ha hq =>
    have ⟨hqt, hr⟩ := hv hq
    ⟨he.quiet hqt, .inr ⟨v, ((he.within hqt).regs _ rfl).trans hr, by rw [← hs]; exact ha⟩⟩
  unfold readData
  split
  · exact ((runs_fetchData (G := False) (may := .fetch) _ nofun rfl rfl).and (fetchData_scratch _ t)).mono
      (fun _ u h => hend u h.1.1 h.2.1) fun _ u h => hend u h.1.1 h.2.1
  · exact hend t (Effect.refl t) fun _ _ => rfl

/-- From the first test of the flag on, given that nothing has written the scratch buffer yet. -/
theorem tagFetch_quietlyReads (hq : s.peer.Quiet → t.peer.Quiet) (hsame : t.scratch = s.scratch) :
    Proc.Holds tagFetch t (fun _ => s.QuietlyReads) fun _ => s.QuietlyReads := by
  have hruns := runs_readRegister (G := False) (may := .register 0x13) (s := t) (a := PeerRegister.rxStatus.addr)
    (fun _ => rfl) (by decide) nofun
  have hread := readRegister_read (a := PeerRegister.rxStatus.addr) (by decide) rfl t
  refine (hruns.and hread).seq'
    (fun _ u h hqs => ⟨h.1.1.quiet (hq hqs), .inl ((h.1.1.scratch rfl).trans hsame)⟩) fun v u h => ?_
  obtain ⟨⟨heff, -⟩, hv⟩ := h
  refine (readData_quietlyReads ((heff.scratch rfl).trans hsame)
    fun hqs => ⟨heff.quiet (hq hqs), hv (hq hqs)⟩).seq fun _ w hw => ?_
  exact ((runs_getIrqStatus (G := False) (may := .register 2) ⟨rfl, rfl⟩ nofun).quietlyReads rfl rfl hw).seq
    fun _ _ h => h

theorem runs_tagConclude {G : Prop} {may : May} {f : List Byte → Except OpError Value}
    (hf : ∀ p, f p ≠ .error .outOfRange) (hm : may.Clears) (hc : G → s.cs = false) (resp : List Byte) (irq : Word) :
    Proc.Runs G may (tagConclude f resp irq) s :=
  (runs_require _ _ (by simp) hc).bind fun _ _ _ h => (runs_fromParser _ (parseResponse_late _) h).bind fun _ _ _ h =>
    (runs_fromParser _ (hf _) h).bind fun _ _ _ h => (runs_clearIrqStatus _ hm h).bind fun _ _ _ h => runs_pure _ h

/-- A tag command (R221). -/
theorem issueTagCommand_quietlyReads {f : List Byte → Except OpError Value} (req : List Byte)
    (hf : ∀ p, f p ≠ .error .outOfRange) (s : State) :
    Proc.Holds (issueTagCommand req f) s (fun _ => s.QuietlyReads) fun _ => s.QuietlyReads := by
  have hstart : ∀ {u}, Frame .probe s u → s.QuietlyReads u := fun h => (State.QuietlyReads.refl s).frame h rfl rfl
  rw [issueTagCommand_eq]
  refine (begins_tagProbe req s).seq'
    (fun _ u h => h.elim (fun h => hstart h.1.frame) fun h => h.2 ▸ State.QuietlyReads.refl s) fun irq t ht => ?_
  have hframe : Frame .probe s t := ht.1.frame
  refine (holds_require.2 ⟨fun _ => hframe, fun _ => hstart hframe⟩ :
    Proc.Holds (require _ _) t (fun _ => Frame .probe s) fun _ => s.QuietlyReads).seq fun _ u hu => ?_
  refine (tagFetch_quietlyReads hu.quiet (hu.scratch rfl)).seq fun x v hv => ?_
  exact (runs_tagConclude (G := False) (may := .register 2) hf ⟨rfl, rfl⟩ nofun x.1 x.2).quietlyReads rfl rfl hv

/-! ## Who writes the scratch buffer (R25, R26) -/

/-- Only `ReadData` and the tag commands may touch the scratch buffer (R25). -/
theorem mayOf_data_eq_false (hr : ∀ n, i ≠ .readData n) (hc : ∀ n, i ≠ .cmdReadData n)
    (ht : tagRequestOf i = none) : (mayOf i).data = false := by
  cases i with
  | readData n => exact absurd rfl (hr n)
  | cmdReadData n => exact absurd rfl (hc n)
  | cmdWriteRegister | cmdWriteRegisterOrMask | cmdWriteRegisterAndMask | writeReg | writeRegOr | writeRegAnd =>
    exact May.write_data _ _
  | tagInventory | tagReadSingleBlock | tagWriteSingleBlock | tagGetSystemInfo | inventory | readBlock | writeBlock
    | getSysinfo => cases ht
  | _ => rfl

/-- The scratch buffer is unchanged from offset `n` on. -/
def State.KeepsFrom (n : Nat) (s t : State) : Prop := ∀ a, n ≤ a → cellsRead t.scratch a = cellsRead s.scratch a

theorem State.KeepsFrom.frame {n : Nat} (h : s.KeepsFrom n t) (hf : Frame .nothing t u) : s.KeepsFrom n u := by
  intro a ha
  rw [hf.scratch rfl]
  exact h a ha

theorem fetchData_keepsFrom (n : Nat) (s : State) :
    Proc.Holds (fetchData n) s (fun _ => s.KeepsFrom n) fun _ => s.KeepsFrom n :=
  (fetchData_scratch n s).mono (fun _ _ h => h.1) fun _ _ h => h.1

theorem readData_keepsFrom (n : Nat) (s : State) :
    Proc.Holds (readData n) s (fun _ => s.KeepsFrom n) fun _ => s.KeepsFrom n := by
  unfold readData
  split
  · exact fetchData_keepsFrom n s
  · exact fun _ _ => rfl

/-- Both rows of `ReadData` (log 1). -/
theorem exec_readData_keepsFrom {n : Nat} (hi : i = .readData n ∨ i = .cmdReadData n) (h : exec i s = .next t) :
    s.KeepsFrom n t := by
  rcases hi with rfl | rfl
  · exact runOperation_holds (R := s.KeepsFrom n) h (fun _ _ _ => rfl)
      ((readData_keepsFrom n (s.goto .op)).seq fun _ _ h => h) fun _ _ hu hv => hu.frame hv
  · exact runOperation_holds (R := s.KeepsFrom n) h (fun _ _ _ => rfl)
      ((fetchData_keepsFrom n (s.goto .op)).seq fun _ _ h => h) fun _ _ hu hv => hu.frame hv

theorem ParserOf.late {f : List Byte → Except OpError Value} (hf : ParserOf i f) (p : List Byte) :
    f p ≠ .error .outOfRange := by
  rcases hf p with ⟨-, h⟩ | ⟨-, v, h⟩ <;> simp [h]

theorem exec_tag_quietlyReads (hi : tagRequestOf i ≠ none) (h : exec i s = .next t) : s.QuietlyReads t := by
  obtain ⟨req, hreq⟩ := Option.ne_none_iff_exists'.1 hi
  obtain ⟨f, hf, hexec⟩ := exec_tag_parser hreq
  rw [hexec] at h
  exact runOperation_holds h (fun _ => State.QuietlyReads.refl s) (issueTagCommand_quietlyReads req hf.late (s.goto .op))
    fun u v hu hv => hu.frame hv rfl rfl

theorem cellsRead_eq_none_of_wf {m : Memory} (h : m.wf = true) {a : Nat} (ha : 508 ≤ a) : cellsRead m a = none := by
  have hall : m.all (fun c => decide (c.1 < 508)) = true := (Bool.and_eq_true _ _ ▸ h).2
  clear h
  induction m with
  | nil => rfl
  | cons c m ih =>
    obtain ⟨hc, hm⟩ := Bool.and_eq_true _ _ ▸ hall
    rw [cellsRead, if_neg (by have := of_decide_eq_true hc; omega)]
    exact ih hm

/-- Settles O36: the frames of the instructions that cannot touch it; `ReadData` stores what it receives from offset 0 on; a
tag command reads as many bytes as the RX-Status it has read says. -/
theorem scratchWrittenOnlyByReadData : Obligations.ScratchWrittenOnlyByReadData := fun _ _ _ h =>
  ⟨fun hr hc ht => (exec_frame h).scratch (mayOf_data_eq_false hr hc ht), fun _ hi => exec_readData_keepsFrom hi h,
    fun hi hq => (exec_tag_quietlyReads hi h hq).2,
    fun hinv _ ha => cellsRead_eq_none_of_wf (exec_inv hinv h).sound.scratch_wf ha⟩

end Sys2Proof.Machine
end

section
/-! The operations of several exchanges (41_register_access.md R167 to R169, 42_irq_monitor.md, 43_tag_protocol.md R235):
`SendData`, the field, the monitor, `Reset` and `SetupRf`, each with the frames it sends and what a quiet peer holds then. -/

namespace Sys2Proof.Machine

variable {s : State} {i : Instr} {Q : Prop} {ts : List Turn} {b : List Bool} {r : List Reply} {c : Chip}

/-! ## SendData (R167, R202, R283) -/

/-- The read of RF-Status after the two mask writes leaves their effect in System-Config. -/
theorem Chip.asked_config (c : Chip) (reply : List Byte) :
    cellsRead (c.armed.exchange (frameReadRegister 0x1D) reply).regs 0x00 =
      some ((c.reg 0x00 &&& 0xFFFFFFF8) ||| 0x00000003) :=
  (exchange_readRegister_other _ _ _ (by decide)).trans c.armed_read

/-- Settles O37: the run of `SendData` when RF-Status lets it through; otherwise its admission test raises the error. -/
theorem Settled.sendData : Obligations.SendData := by
  intro s payload v hi hb
  refine ⟨fun hlen hv p1 p2 p3 p4 st busy replies hst hp => ?_, fun hover hc => ?_⟩
  · have hbounded := hp.bounded
    simp only [List.mem_cons, List.not_mem_nil, or_false, forall_eq_or_imp, forall_eq] at hbounded
    obtain ⟨h1, h2, h3, h4⟩ := hbounded
    have hgoes := goes_sendData (s := s.goto .op) (p1 := p1) (p2 := p2) (p3 := p3) (p4 := p4) hp.at h1 h2 h3 h4
      (sendAdmitted_iff.2 ⟨hlen, hv⟩) (decodeTs_of_code hst)
    obtain ⟨p, w, hx, hhas, hw⟩ := runOperation_goes hi (entryFault_booted hb) (goes_returning (fun _ => .unit) hgoes)
    refine ⟨p, w, hx, hw.trans (List.append_assoc _ _ _).symm, hhas.busy, hhas.replies, fun hq => ?_⟩
    rw [hhas.chip hq, exchange_sendData]
    exact ⟨rfl, Chip.asked_config _ _⟩
  · exact runOperation_refuses hi hc (entryFault_booted hb) (bind_error (require_bind_raises _
      (Bool.eq_false_iff.2 fun h => absurd (sendAdmitted_iff.1 h) (by omega)) _))

/-- An instruction that begins with `SendData`, alone or in a tag command (log 37), ends as `SendData` fails. -/
theorem exec_sendData_fails {payload : List Byte} {v : Byte} {e : OpError} {P : Peer → Prop} {fs : List (List Byte)}
    (hi : s.phase = .idle) (hb : s.initialized = true)
    (h : i = .sendData payload v ∨ (s.rfOn = true ∧ tagRequestOf i = some payload)) (hlen : payload.length ≤ 260)
    (hv : v.toNat ≤ 7)
    (hf : ∀ x, sendAdmitted payload x = true → Proc.Fails (Machine.sendData payload x) (s.goto .op) (s.goto .op) e P fs) :
    ∃ p w, exec i s = .next (s.completed (.err e) p w) ∧ P p ∧ sentFrames w = sentFrames s.wire ++ fs := by
  rcases h with rfl | ⟨hrf, ht⟩
  · exact runOperation_fails hi (entryFault_booted hb) (hf v (sendAdmitted_iff.2 ⟨hlen, hv⟩)).bind
  · obtain ⟨f, hx⟩ := exec_tag ht
    rw [hx]
    exact runOperation_fails hi (entryFault_rf hb hrf) (hf 0 (sendAdmitted_iff.2 ⟨hlen, by decide⟩)).bind

/-- Whichever wait of a register read is not met, the peer's transmit buffer and its other registers are as before. -/
theorem Chip.stalled_readRegister (c : Chip) (a : Byte) (bs : List Byte) (ph : Phase) (x : Bool) :
    (c.stalled (frameReadRegister a) bs ph x).tx = c.tx ∧
      ∀ y, y ≠ a.toNat → cellsRead (c.stalled (frameReadRegister a) bs ph x).regs y = cellsRead c.regs y := by
  have hexecute : c.execute (frameReadRegister a) = { c with response := c.registerResponse a } :=
    Chip.execute_cons c .readRegister [a]
  cases ph with
  | tWaitBusy | tWaitDone =>
    unfold Chip.stalled
    cases x with
    | true => rw [if_pos rfl, hexecute]; exact ⟨rfl, fun _ _ => rfl⟩
    | false => exact ⟨rfl, fun _ _ => rfl⟩
  | rWaitDone => exact ⟨exchange_readRegister_tx c a bs, fun _ h => exchange_readRegister_other c a bs h⟩
  | _ => exact ⟨rfl, fun _ _ => rfl⟩

/-- Only code 1 is the state in which the peer takes a transmission (R43). -/
theorem code_of_decodeTs {v : Word} (h : decodeTs v = .waitTransmit) : v.extractLsb' 24 3 = 1 := by
  have hcode : ∀ k : BitVec 3, decodeTsCode k = .waitTransmit → k = 1 := by decide
  exact hcode _ h

/-- Settles O38: `SendData` fails after its third exchange, by the state read or by the swallowed timeout, and with it every
instruction that begins with it. -/
theorem notReadyBeforeSending : Obligations.NotReadyBeforeSending := by
  intro s i payload v p1 p2 p3 st bs ph busy replies hi hb hlen hv hstarts
  refine ⟨fun hst hp => ?_, fun hph hl h1 h2 h3 hbusy hreplies => ?_⟩
  · have hbounded := hp.bounded
    simp only [List.mem_cons, List.not_mem_nil, or_false, forall_eq_or_imp, forall_eq] at hbounded
    obtain ⟨h1, h2, h3⟩ := hbounded
    obtain ⟨p, w, hx, hhas, hw⟩ := exec_sendData_fails hi hb hstarts hlen hv fun x ha =>
      fails_sendData (s := s.goto .op) (p1 := p1) (p2 := p2) (p3 := p3) hp.at h1 h2 h3 ha
        fun h => hst (code_of_decodeTs h)
    refine ⟨p, w, hx, hw, hhas.busy, hhas.replies, fun hq => ?_⟩
    rw [hhas.chip hq]
    exact ⟨by simp, Chip.asked_config _ _⟩
  · obtain ⟨p, w, hx, ⟨ys, x, -, hhas⟩, hw⟩ := exec_sendData_fails hi hb hstarts hlen hv fun x ha =>
      fails_sendData_unanswered (s := s.goto .op) (p1 := p1) (p2 := p2) (p3 := p3) (Q := s.peer.Quiet) (c := s.peer.chip)
        (b := busy) (r := replies) hph hl
        ⟨by simpa [turnSamples, Turn.samples, Pace.silent] using hbusy, hreplies, id, fun _ => rfl⟩ h1 h2 h3 ha
    refine ⟨p, w, hx, ?_, hhas.busy, hhas.replies, fun hq => ?_⟩
    · rw [hw]
      unfold Phase.sends
      split <;> rfl
    · obtain ⟨htx, hregs⟩ := Chip.stalled_readRegister s.peer.chip.armed 0x1D bs ph x
      rw [hhas.chip hq]
      exact ⟨htx.trans (Chip.armed_tx _), (hregs 0 (by decide)).trans (Chip.armed_read _)⟩

/-! ## The field (R168, R169) -/

theorem irqTurns_bounded {reads : List (Pace × Word)} (h : ∀ x ∈ irqTurns reads, x.pace.bounded = true) :
    ∀ m ∈ reads, m.1.bounded = true := fun m hm => h (m.1.answer m.2) (List.mem_map_of_mem hm)

theorem switchTurns_bounded {send clear : Pace} {misses : List (Pace × Word)} {hit : Pace × Word}
    (h : ∀ x ∈ switchTurns send misses hit clear, x.pace.bounded = true) :
    send.bounded = true ∧ (∀ m ∈ misses ++ [hit], m.1.bounded = true) ∧ clear.bounded = true :=
  ⟨h send.silent (by simp [switchTurns]), irqTurns_bounded fun x hx => h x (by simp [switchTurns, hx]),
    h clear.silent (by simp [switchTurns])⟩

/-- The frames of an IRQ wait that ends with a hit, and of the clear after it. -/
theorem irqFrames_clear (misses : List (Pace × Word)) (hit : Pace × Word) (frame : List Byte) :
    ((misses ++ [hit]).map fun _ => frameReadRegister 0x02) ++ ([frame] ++ []) =
      misses.map (fun _ => [0x04, 0x02]) ++ [[0x04, 0x02], frame] := by
  simp [frameReadRegister, Opcode.code]

/-- What an IRQ wait and the clear after it leave in IRQ-Status: the last value read, without the flags of the mask. -/
theorem Chip.irqCleared_read (c : Chip) (misses : List (Pace × Word)) (hit : Pace × Word) (m : Word) :
    cellsRead ((c.irqRead (misses ++ [hit])).exchange (frameWriteRegister 0x03 m) []).regs 0x02 =
      some (hit.2 &&& ~~~m) := Chip.clear_read (Chip.irqRead_read _ _ _) m

theorem Chip.irqCleared_rfField (c : Chip) (ms : List (Pace × Word)) (m : Word) :
    ((c.irqRead ms).exchange (frameWriteRegister 0x03 m) []).rfField = c.rfField := by
  rw [exchange_clear]
  exact Chip.irqRead_rfField c ms

theorem Chip.irqCleared_rfConfig (c : Chip) (ms : List (Pace × Word)) (m : Word) :
    ((c.irqRead ms).exchange (frameWriteRegister 0x03 m) []).rfConfig = c.rfConfig := by
  rw [exchange_clear]
  exact Chip.irqRead_rfConfig c ms

/-- Settles O41: the command frame, the IRQ wait that ends with the hit, and the clear, for each direction of the field. -/
theorem switchRf : Obligations.SwitchRf := by
  intro s send clear misses hit busy replies hi hb hl hp
  obtain ⟨h1, hbounded, h2⟩ := switchTurns_bounded hp.bounded
  have hat : (s.goto .op).peer.At s.peer.Quiet (switchTurns send misses hit clear ++ []) busy replies s.peer.chip := by
    rw [List.append_nil]
    exact hp.at
  refine ⟨fun hm hh => ?_, fun hm hh => ?_⟩
  · obtain ⟨p, w, hx, hhas, hw⟩ := runOperation_goes hi (entryFault_booted hb) (goes_returning (fun _ => .unit)
      (goes_setRfOn hat h1 hbounded h2 hm hh hl))
    refine ⟨p, w, hx, ?_, hhas.busy, hhas.replies, fun hq => ?_⟩
    · rw [hw, irqFrames_clear]
      simp only [List.append_assoc]
      rfl
    · rw [hhas.chip hq]
      exact ⟨by rw [Chip.irqCleared_rfField, exchange_rfOn], Chip.irqCleared_read _ _ _ _⟩
  · obtain ⟨p, w, hx, hhas, hw⟩ := runOperation_goes hi (entryFault_booted hb) (goes_returning (fun _ => .unit)
      (goes_setRfOff hat h1 hbounded h2 hm hh hl))
    refine ⟨p, w, hx, ?_, hhas.busy, hhas.replies, fun hq => ?_⟩
    · rw [hw, irqFrames_clear]
      simp only [List.append_assoc]
      rfl
    · rw [hhas.chip hq]
      exact ⟨by rw [Chip.irqCleared_rfField, exchange_rfOff], Chip.irqCleared_read _ _ _ _⟩

/-! ## An IRQ wait that never sees its flag (R171, R206, R313) -/

/-- After a command frame, an IRQ wait that runs out ends what follows (R168, R169). -/
theorem fails_switch {frame : List Byte} {send : Pace} {reads : List (Pace × Word)} (flag : IrqFlag)
    {g : Unit → Proc Unit} (hs : s.peer.At Q (send.silent :: (irqTurns reads ++ ts)) b r c) (h1 : send.bounded = true)
    (hf : frame ≠ []) (hlen : frame.length ≤ Config.maxFrame) (hb : ∀ m ∈ reads, m.1.bounded = true)
    (hm : ∀ m ∈ reads, flag.isSet m.2 = false) (hn : reads.length = s.params.irqPollLimit) (h0 : reads ≠ []) :
    Proc.Fails (sendFrame frame >>= fun _ => current >>= fun u => waitIrq flag u.params.irqPollLimit >>= g) s s
      (.irqWaitTimeout flag.bit) (Peer.At Q ts b r ((c.exchange frame []).irqRead reads))
      ([frame] ++ reads.map fun _ => frameReadRegister 0x02) :=
  (goes_sendFrame hs h1 hf hlen).fails fun d p w h =>
    (fails_waitIrq (s := s.after d p w) flag s.params.irqPollLimit reads h hb hm hn h0).bind.rebase

theorem fails_setRfOn {send : Pace} {reads : List (Pace × Word)}
    (hs : s.peer.At Q (send.silent :: (irqTurns reads ++ ts)) b r c) (h1 : send.bounded = true)
    (hb : ∀ m ∈ reads, m.1.bounded = true) (hm : ∀ m ∈ reads, m.2.getLsbD 9 = false)
    (hn : reads.length = s.params.irqPollLimit) (h0 : reads ≠ []) :
    Proc.Fails setRfOn s s (.irqWaitTimeout 9) (Peer.At Q ts b r ((c.exchange frameRfOn []).irqRead reads))
      ([frameRfOn] ++ reads.map fun _ => frameReadRegister 0x02) :=
  fails_switch .pcdRfOn hs h1 (by decide) (by decide) hb hm hn h0

theorem fails_setRfOff {send : Pace} {reads : List (Pace × Word)}
    (hs : s.peer.At Q (send.silent :: (irqTurns reads ++ ts)) b r c) (h1 : send.bounded = true)
    (hb : ∀ m ∈ reads, m.1.bounded = true) (hm : ∀ m ∈ reads, m.2.getLsbD 8 = false)
    (hn : reads.length = s.params.irqPollLimit) (h0 : reads ≠ []) :
    Proc.Fails setRfOff s s (.irqWaitTimeout 8) (Peer.At Q ts b r ((c.exchange frameRfOff []).irqRead reads))
      ([frameRfOff] ++ reads.map fun _ => frameReadRegister 0x02) :=
  fails_switch .pcdRfOff hs h1 (by decide) (by decide) hb hm hn h0

theorem fails_setupRf {load send : Pace} {reads : List (Pace × Word)}
    (hs : s.peer.At Q (load.silent :: send.silent :: (irqTurns reads ++ ts)) b r c) (k1 : load.bounded = true)
    (h1 : send.bounded = true) (hb : ∀ m ∈ reads, m.1.bounded = true) (hm : ∀ m ∈ reads, m.2.getLsbD 9 = false)
    (hn : reads.length = s.params.irqPollLimit) (h0 : reads ≠ []) :
    Proc.Fails setupRf s s (.irqWaitTimeout 9)
      (Peer.At Q ts b r (((c.exchange (frameLoadRfConfig 0x0D 0x8D) []).exchange frameRfOn []).irqRead reads))
      ([frameLoadRfConfig 0x0D 0x8D] ++ ([frameRfOn] ++ reads.map fun _ => frameReadRegister 0x02)) :=
  (goes_sendFrame (frame := frameLoadRfConfig 0x0D 0x8D) hs k1 (by decide) (by decide)).fails fun d p w h =>
    (fails_setRfOn (s := s.after d p w) h h1 hb hm hn h0).bind.rebase

theorem fails_resetPeer {reads : List (Pace × Word)} (hs : s.peer.At Q (irqTurns reads ++ ts) b r c)
    (hb : ∀ m ∈ reads, m.1.bounded = true) (hm : ∀ m ∈ reads, m.2.getLsbD 2 = false)
    (hn : reads.length = s.params.resetPollLimit) (h0 : reads ≠ []) :
    Proc.Fails resetPeer s { s with rst := .high, rfOn := false } (.irqWaitTimeout 2)
      (Peer.At Q ts b r (c.hardwareReset.irqRead reads)) (reads.map fun _ => frameReadRegister 0x02) := by
  rw [resetPeer_eq]
  exact Proc.Fails.update (sentFrames_pulsed s)
    (fails_waitIrq (s := s.pulsed) .idle s.params.resetPollLimit reads hs.pulsed hb hm hn h0).bind

/-- Settles O42: each operation fails in its IRQ wait. -/
theorem irqWaitTimesOut : Obligations.IrqWaitTimesOut := by
  intro s load send reads busy replies hi h0
  have happend : irqTurns reads ++ [] = irqTurns reads := List.append_nil _
  refine ⟨fun hb hn hm hp => ?_, fun hb hn hm hp => ?_, fun hb hn hm hp => ?_, fun hn hm hp => ?_⟩
  · obtain ⟨h1, hreads⟩ := List.forall_mem_cons.1 hp.bounded
    obtain ⟨p, w, hx, -, hw⟩ := runOperation_fails hi (entryFault_booted hb)
      (fails_setRfOn (s := s.goto .op) (ts := []) (happend.symm ▸ hp.at) h1 (irqTurns_bounded hreads) hm hn h0).bind
    exact ⟨p, w, hx, hw.trans (List.append_assoc _ _ _).symm⟩
  · obtain ⟨h1, hreads⟩ := List.forall_mem_cons.1 hp.bounded
    obtain ⟨p, w, hx, -, hw⟩ := runOperation_fails hi (entryFault_booted hb)
      (fails_setRfOff (s := s.goto .op) (ts := []) (happend.symm ▸ hp.at) h1 (irqTurns_bounded hreads) hm hn h0).bind
    exact ⟨p, w, hx, hw.trans (List.append_assoc _ _ _).symm⟩
  · obtain ⟨k1, hrest⟩ := List.forall_mem_cons.1 hp.bounded
    obtain ⟨h1, hreads⟩ := List.forall_mem_cons.1 hrest
    obtain ⟨p, w, hx, hhas, hw⟩ := runOperation_fails hi (entryFault_booted hb)
      (fails_setupRf (s := s.goto .op) (ts := []) (happend.symm ▸ hp.at) k1 h1 (irqTurns_bounded hreads) hm hn h0).bind
    refine ⟨p, w, hx, ?_, fun hq => by rw [hhas.chip hq]; simp⟩
    rw [hw, List.append_assoc]
    rfl
  · obtain ⟨p, w, hx, -, hw⟩ := runOperation_fails hi entryFault_cold
      (fails_resetPeer (s := s.goto .op) (ts := []) (happend.symm ▸ hp.at) (irqTurns_bounded hp.bounded) hm hn h0).bind
    exact ⟨p, w, hx, hw⟩

/-! ## The monitor (R200 to R202) -/

/-- A read of RF-Status that times out, in any of its waits, makes `GetTransceiveState` answer Idle (R202). -/
theorem goes_getTransceiveState_timeout {bs : List Byte} {pace : Pace} {ph : Phase} (hph : ph ∈ waitPhases)
    (hl : bs.length = 4) (hb : pace.bounded = true) (hc : ph = .tWaitReady → s.cs = false)
    (hs : s.peer.Has Q (pace.timeout ph ++ b) (ph.replies bs ++ r) c) :
    Proc.Goes getTransceiveState s s .idle
      (Peer.Stalled Q b r c (frameReadRegister 0x1D) bs ph s.peer.executed) (ph.sends (frameReadRegister 0x1D)) := by
  have hne : bs ≠ [] := by rintro rfl; simp at hl
  have hok : ¬ BadExchange (frameReadRegister 0x1D) bs.length :=
    exchange_admitted (List.cons_ne_nil _ _) (by decide) (show bs.length ≤ 508 by omega)
  have hfails := fails_timeout (frameReadRegister 0x1D) bs .transient pace hph hc (List.cons_ne_nil _ _) hok
    (fun _ => hne) hb hs
  rw [hl] at hfails
  refine getTransceiveState_swallows (ph := ph) (Proc.Fails.bind (g := fun r => (pure (responseWord r) : Proc Word)) ?_)
  split at hfails <;> exact hfails

/-- Settles O43: each operation is one exchange; the timeout of the RF-Status read is turned into Idle. -/
theorem monitorOperations : Obligations.MonitorOperations := by
  intro s m v pace busy replies hi hb
  refine ⟨fun hp => ⟨?_, ?_⟩, fun hp => ?_, fun ph bs hph hl hbounded hc hbusy hreplies => ?_⟩
  · obtain ⟨p, w, hx, hhas, hw⟩ := runOperation_goes hi (entryFault_booted hb) (goes_returning .word
      (goes_getIrqStatus (s := s.goto .op) hp.at hp.bounded_head))
    exact ⟨p, w, hx, hw, fun hq => by rw [hhas.chip hq]; exact exchange_readRegister_read _ 0x02 v (by decide) rfl⟩
  · obtain ⟨p, w, hx, -, hw⟩ := runOperation_goes hi (entryFault_booted hb) (goes_returning .transceiveState
      (goes_getTransceiveState (s := s.goto .op) hp.at hp.bounded_head))
    exact ⟨p, w, hx, hw⟩
  · obtain ⟨p, w, hx, hhas, hw⟩ := runOperation_goes hi (entryFault_booted hb) (goes_returning (fun _ => .unit)
      (goes_clearIrqStatus (s := s.goto .op) (m := m) hp.at hp.bounded_head))
    refine ⟨p, w, hx, hw, fun hq => ?_⟩
    rw [hhas.chip hq, exchange_clear]
    exact cellsRead_write_same _ _ _
  · obtain ⟨p, w, hx, ⟨x, -, hhas⟩, hw⟩ := runOperation_goes hi (entryFault_booted hb) (goes_returning .transceiveState
      (goes_getTransceiveState_timeout (s := s.goto .op) (Q := s.peer.Quiet) (c := s.peer.chip) hph hl hbounded
        (fun _ => hc) ⟨hbusy, hreplies, id, fun _ => rfl⟩))
    exact ⟨p, w, hx, hw, hhas.busy, hhas.replies⟩

/-! ## Reset (R205, R206) -/

/-- The line has been driven Low, then High (R206). -/
def State.Pulses (s t : State) : Prop :=
  resetLevels t.wire = resetLevels s.wire ++ [.low, .high] ∧ t.rst = .high

/-- `Reset` drives the line Low then High, whatever its outcome (R23, R206). -/
theorem exec_reset_pulses {t : State} (h : exec .reset s = .next t) : s.Pulses t :=
  runOperation_holds (g := .cold) (body := returningUnit resetPeer) (R := s.Pulses) h (fun h => absurd entryFault_cold h)
    ((resetPeer_levels (s.goto .op)).seq fun _ _ h => holds_pure.2 h)
    fun _ _ hp hframe => ⟨(hframe.levels rfl).trans hp.1, (hframe.rst rfl).trans hp.2⟩

/-- Settles O44: the pulse, the IRQ wait that ends with the hit, and the clear of all flags. -/
theorem resetOperation : Obligations.ResetOperation := by
  intro s clear misses hit busy replies hi hl hm hh hp
  obtain ⟨hreads, hclear⟩ := List.forall_mem_append.1 hp.bounded
  have hat : (s.goto .op).peer.At s.peer.Quiet (irqTurns (misses ++ [hit]) ++ [clear.silent]) busy replies s.peer.chip :=
    hp.at
  obtain ⟨p, w, hx, hhas, hw⟩ := runOperation_goes hi entryFault_cold (goes_returning (fun _ => .unit)
    (goes_resetPeer hat (irqTurns_bounded hreads) (hclear _ List.mem_cons_self) hm hh hl))
  refine ⟨p, w, hx, ?_, (exec_reset_pulses hx).1, hhas.busy, hhas.replies, fun hq => ?_⟩
  · rw [hw, irqFrames_clear, List.append_assoc]
    rfl
  · rw [hhas.chip hq, Chip.irqCleared_read]
    exact congrArg some (by rw [show clearAllMask = 0xFFFFFFFF from rfl]; simp)

/-! ## SetupRf (R235) -/

/-- Settles O45: the profile, the field as in `SetRfOn`, and the two mask writes, which act on the System-Config of before. -/
theorem Settled.setupRf : Obligations.SetupRf := by
  intro s p1 send clear p2 p3 misses hit busy replies hi hb hl hm hh hp
  obtain ⟨k1, hrest⟩ := List.forall_mem_cons.1 hp.bounded
  obtain ⟨hswitch, hmasks⟩ := List.forall_mem_append.1 hrest
  obtain ⟨h1, hreads, h2⟩ := switchTurns_bounded hswitch
  have hgoes := goes_setupRf (s := s.goto .op) (ts := []) hp.at k1 (hmasks p2.silent (by simp)) (hmasks p3.silent (by simp))
    h1 hreads h2 hm hh hl
  obtain ⟨p, w, hx, hhas, hw⟩ := runOperation_goes hi (entryFault_booted hb) (goes_returning (fun _ => .unit) hgoes)
  refine ⟨p, w, hx, ?_, hhas.busy, hhas.replies, fun hq => ?_⟩
  · rw [hw, irqFrames_clear]
    simp only [List.append_assoc]
    rfl
  · rw [hhas.chip hq]
    refine ⟨?_, ?_, _, Chip.armed_read _, fun u hu => Chip.reg_of_read ?_⟩
    · rw [Chip.armed_rfConfig, Chip.irqCleared_rfConfig]; simp
    · rw [Chip.armed_rfField, Chip.irqCleared_rfField]; simp
    · rw [Chip.clear_other _ _ (by decide), Chip.irqRead_other _ _ (by decide)]
      simpa using hu

end Sys2Proof.Machine
end

section
/-! The tag commands (43_tag_protocol.md R221 to R234) end to end: what the host gets, which frames are sent, and what a quiet
peer holds, for every way the sequencer can end. -/

namespace Sys2Proof.Machine

variable {s : State} {i : Instr} {t : TagTurns} {Q : Prop} {b : List Bool} {r : List Reply} {c : Chip}

/-- The frames of the sequencer up to its second read of IRQ-Status. -/
theorem tagFrames_eq (req : List Byte) :
    tagFrames req = armingFrames ++ [[0x09, 0x00] ++ req, [0x04, 0x02], [0x04, 0x13], [0x0A, 0x00], [0x04, 0x02]] := rfl

/-! ## A tag that answers without error (R228, R230 to R233) -/

/-- The nine cycles of a tag command whose parser takes the payload. -/
theorem tagCompletes {f : List Byte → Except OpError Value} {req payload : List Byte} {v : Value} (h : TagAnswered s t)
    (hx : exec i s = runOperation .rfConfirmed (issueTagCommand req f) s) (hreq : req.length ≤ 260)
    (hp : parseResponse t.response.2 = .ok payload) (hv : f payload = .ok v) : TagCompletes s i req t v := by
  obtain ⟨hi, hb, hrf, ha, busy, replies, hplays⟩ := h
  have hat : (s.goto .op).peer.At s.peer.Quiet (t.all ++ []) busy replies s.peer.chip := by
    rw [List.append_nil]
    exact hplays.at
  obtain ⟨p, w, hrun, hhas, hw⟩ := runOperation_goes hi (entryFault_rf hb hrf)
    (goes_issueTagCommand hat hplays.bounded ha hreq hp hv)
  refine ⟨p, w, hx.trans hrun, ?_, fun hq => ?_⟩
  · rw [hw, tagFrames_eq]
    simp only [List.append_assoc]
    rfl
  · rw [hhas.chip hq]
    refine ⟨?_, Chip.clear_read (Chip.tagRead_irq _ _ _) _⟩
    rw [exchange_clear]
    exact Chip.tagRead_tx _ _ _

theorem parseInventory_uid (dsfid : Byte) {uid : List Byte} (extra : List Byte) (h : uid.length = 8) :
    parseInventory (dsfid :: (uid ++ extra)) = .ok (.bytes uid) := by
  unfold parseInventory
  rw [if_neg (by simp; omega), List.drop_one, List.tail_cons, List.take_left' h]

/-- Settles O46: the payload of an answered Inventory is the DSFID, the UID and what is ignored. -/
theorem inventory : Obligations.Inventory := fun _ _ _ dsfid uid extra h hr hf hu =>
  tagCompletes (f := parseInventory) (payload := dsfid :: (uid ++ extra)) h rfl (by decide)
    (by rw [hr]; exact parseResponse_ok hf _) (parseInventory_uid dsfid extra hu)

theorem parseBlock_data (data extra : List Byte) : parseBlock data.length (data ++ extra) = .ok (.bytes data) := by
  unfold parseBlock
  rw [if_neg (by simp), List.take_left' rfl]

theorem requestReadSingleBlock_length (uid : Uid) (n : Byte) :
    ([0x22, 0x20] ++ uid.bytes ++ [n] : List Byte).length ≤ 260 := by
  simp [Uid.bytes]

theorem requestWriteSingleBlock_eq (uid : Uid) (n : Byte) (data : List Byte) :
    requestWriteSingleBlock uid n data = [0x22, 0x21] ++ uid.bytes ++ [n] ++ data := rfl

theorem requestWriteSingleBlock_length (uid : Uid) (n : Byte) (data : List Byte) :
    (requestWriteSingleBlock uid n data).length = 11 + data.length := by
  simp [requestWriteSingleBlock, Uid.bytes]; omega

/-- A tag command whose request is too long for `SendData` is refused before its first transaction (R232, log 36). -/
theorem issueTagCommand_refuses {f : List Byte → Except OpError Value} {req : List Byte} (hi : s.phase = .idle)
    (hc : s.cs = false) (hb : s.initialized = true) (hrf : s.rfOn = true) (hreq : 260 < req.length) :
    runOperation .rfConfirmed (issueTagCommand req f) s = .next (s.completed (.err .outOfRange) s.peer s.wire) :=
  runOperation_refuses hi hc (entryFault_rf hb hrf) (bind_error (require_bind_raises _
    (Bool.eq_false_iff.2 fun h => absurd (sendAdmitted_iff.1 h) (by omega)) _))

/-- Settles O47: the payload of an answered block command; a longer write does not pass `SendData`'s admission test. -/
theorem blockOperations : Obligations.BlockOperations := by
  intro s t uid n flags data extra
  refine ⟨fun h hr hf => ?_, fun h hl hr hf => ?_, fun hi hc hb hrf hl i hmem => ?_⟩
  · exact tagCompletes (f := parseBlock data.length) h rfl (requestReadSingleBlock_length uid n)
      (by rw [hr]; exact parseResponse_ok hf _) (parseBlock_data data extra)
  · exact tagCompletes (f := fun _ => .ok .unit) h rfl
      (by rw [← requestWriteSingleBlock_eq, requestWriteSingleBlock_length]; omega)
      (by rw [hr]; exact parseResponse_ok hf _) rfl
  · have hreq : 260 < (requestWriteSingleBlock uid n data).length := by rw [requestWriteSingleBlock_length]; omega
    simp only [List.mem_cons, List.not_mem_nil, or_false] at hmem
    rcases hmem with rfl | rfl <;> exact issueTagCommand_refuses hi hc hb hrf hreq

/-! ### The optional fields of Get-System-Info (R113, R233, R234) -/

theorem takeField_announced (present : Bool) (x : Byte) (rest : List Byte) :
    takeField present ((if present then [x] else []) ++ rest) = .ok (if present then some x else none, rest) := by
  cases present <;> rfl

theorem takeMemorySize_announced (present : Bool) (nb bs : Byte) (rest : List Byte) :
    takeMemorySize present ((if present then [nb, bs] else []) ++ rest) =
      .ok (if present then some (numBlocksOf nb, blockSizeOf bs) else none, rest) := by
  cases present <;> rfl

/-- The low five bits of the block-size byte, plus 1 (R234). -/
theorem blockSizeOf_eq (bs : Byte) : blockSizeOf bs = bs.toNat % 32 + 1 := by
  unfold blockSizeOf
  rw [BitVec.toNat_and]
  exact congrArg (· + 1) (Nat.and_two_pow_sub_one_eq_mod bs.toNat 5)

/-- The optional fields that the info flags announce, in their order, and what follows them. -/
def announcedFields (info dsfid afi nb bs ic : Byte) (extra : List Byte) : List Byte :=
  (if info.getLsbD 0 then [dsfid] else []) ++ ((if info.getLsbD 1 then [afi] else []) ++
    ((if info.getLsbD 2 then [nb, bs] else []) ++ ((if info.getLsbD 3 then [ic] else []) ++ extra)))

theorem parseInfoFields_announced (info dsfid afi nb bs ic : Byte) (extra : List Byte) :
    parseInfoFields info (announcedFields info dsfid afi nb bs ic extra) = .ok {
      dsfid := if info.getLsbD 0 then some dsfid else none
      afi := if info.getLsbD 1 then some afi else none
      numBlocks := if info.getLsbD 2 then some (nb.toNat + 1) else none
      blockSize := if info.getLsbD 2 then some (bs.toNat % 32 + 1) else none
      icRef := if info.getLsbD 3 then some ic else none
      memSize := if info.getLsbD 2 then some ((bs.toNat % 32 + 1) * (nb.toNat + 1)) else none } := by
  unfold parseInfoFields announcedFields
  simp only [InfoFlag.isSet, InfoFlag.bit, takeField_announced, takeMemorySize_announced, blockSizeOf_eq, numBlocksOf]
  cases info.getLsbD 2 <;> rfl

/-- Settles O48: the optional fields of the payload are the announced ones, in their order. -/
theorem getSysinfo : Obligations.GetSysinfo := by
  intro s t uid flags info dsfid afi nb bs ic echo extra h hf he hr
  have hresponse : t.response.2 = flags :: info :: (echo ++ announcedFields info dsfid afi nb bs ic extra) := by
    rw [hr, announcedFields]
    simp only [List.append_assoc]
    rfl
  refine tagCompletes (f := parseSystemInfo) h rfl (by simp [Uid.bytes]) (by rw [hresponse]; exact parseResponse_ok hf _) ?_
  unfold parseSystemInfo
  rw [if_neg (by simp; omega)]
  simp only [List.drop_left' he, parseInfoFields_announced]

/-- Settles O49: the raw requests run the sequencer with a parser that takes every payload. -/
theorem tagRequests : Obligations.TagRequests := by
  intro s t uid n flags data payload h hr hf hl
  have hp : parseResponse t.response.2 = .ok payload := by rw [hr]; exact parseResponse_ok hf _
  exact ⟨tagCompletes (f := parsePayload) h rfl (by decide) hp rfl,
    tagCompletes (f := parsePayload) h rfl (requestReadSingleBlock_length uid n) hp rfl,
    tagCompletes (f := parsePayload) h rfl
      (by rw [← requestWriteSingleBlock_eq, requestWriteSingleBlock_length]; omega) hp rfl,
    tagCompletes (f := parsePayload) h rfl (by simp [Uid.bytes]) hp rfl⟩

/-! ## A response that is an error, or that no parser takes (R226, R227, R229) -/

/-- A tag command that ends in an error after its second read of IRQ-Status has cleared nothing. -/
theorem exec_tag_rejects {f : List Byte → Except OpError Value} {req : List Byte} {e : OpError} {busy : List Bool}
    {replies : List Reply} (hx : exec i s = runOperation .rfConfirmed (issueTagCommand req f) s) (hi : s.phase = .idle)
    (hb : s.initialized = true) (hrf : s.rfOn = true)
    (hf : Proc.Fails (issueTagCommand req f) (s.goto .op) ((s.goto .op).received t.response.2) e
      (Peer.At s.peer.Quiet [] busy replies (s.peer.chip.tagRead t req)) (tagFrames req ++ [])) :
    ∃ p w, exec i s = .next ((s.received t.response.2).completed (.err e) p w) ∧
      sentFrames w = sentFrames s.wire ++ armingFrames ++
        [[0x09, 0x00] ++ req, [0x04, 0x02], [0x04, 0x13], [0x0A, 0x00], [0x04, 0x02]] ∧
      p.busy = busy ∧ p.replies = replies ∧ (s.peer.Quiet → cellsRead p.chip.regs 0x02 = some t.irqAgain.2) := by
  obtain ⟨p, w, hrun, hhas, hw⟩ := runOperation_fails hi (entryFault_rf hb hrf) hf
  refine ⟨p, w, hx.trans hrun, ?_, hhas.busy, hhas.replies, fun hq => ?_⟩
  · rw [hw, List.append_nil, tagFrames_eq, List.append_assoc]
  · rw [hhas.chip hq]
    exact Chip.tagRead_irq _ _ _

/-- Settles O50: the response test raises the tag's error before the clear. -/
theorem tagErrorResponse : Obligations.TagErrorResponse := by
  intro s i req t flags code rest busy replies hreq hlen hi hb hrf ha hp hr hf
  obtain ⟨f, hx⟩ := exec_tag hreq
  obtain ⟨p, w, hrun, hw, -, -, hirq⟩ := exec_tag_rejects (hx s) hi hb hrf (fails_response (ts := [])
    (by rw [List.append_nil]; exact hp.at) hp.bounded ha hlen (by rw [hr]; exact parseResponse_error hf code rest))
  exact ⟨p, w, hrun, hw, hirq⟩

/-- Settles O53: the response has no error code or no flags, or the command's own parser does not take its payload. -/
theorem malformedResponse : Obligations.MalformedResponse := by
  intro s t i req busy replies hi hb hrf ha hp hreq hlen hshort
  obtain ⟨f, hparser, hx⟩ := exec_tag_parser hreq
  have hat : (s.goto .op).peer.At s.peer.Quiet (t.reading ++ []) busy replies s.peer.chip := by
    rw [List.append_nil]
    exact hp.at
  refine exec_tag_rejects (hx s) hi hb hrf ?_
  rcases hshort with hr | ⟨flags, hr, hf⟩ | ⟨flags, payload, hr, hf, htooShort⟩
  · exact fails_response hat hp.bounded ha hlen (by rw [hr]; rfl)
  · exact fails_response hat hp.bounded ha hlen (by rw [hr]; exact parseResponse_flags_only hf)
  · have hv : f payload = .error .malformedResponse := by
      rcases hparser payload with ⟨-, hv⟩ | ⟨hnot, -⟩
      · exact hv
      · exact absurd htooShort hnot
    exact fails_payload hat hp.bounded ha hlen (by rw [hr]; exact parseResponse_ok hf payload) hv

/-! ## No card (R222, R225) -/

/-- Settles O52: the sequencer stops at the first or at the second test of the flag. -/
theorem noCardDetected : Obligations.NoCardDetected := by
  intro s i req t busy replies hreq hlen hi hb hrf hst
  obtain ⟨f, hx⟩ := exec_tag hreq
  refine ⟨fun h2 hp => ?_, fun h2 h3 h4 h5 hp => ?_⟩
  · obtain ⟨p, w, hrun, -, hw⟩ := runOperation_fails hi (entryFault_rf hb hrf) (fails_noCard (s := s.goto .op) (ts := [])
      (parser := f) hp.at hp.bounded (decodeTs_of_code hst) h2 hlen)
    refine ⟨p, w, (hx s).trans hrun, hw.trans ?_⟩
    rw [List.append_nil, List.append_assoc]
    rfl
  · obtain ⟨p, w, hrun, hw, -⟩ := exec_tag_rejects (hx s) hi hb hrf (fails_noCardAgain (ts := [])
      (by rw [List.append_nil]; exact hp.at) hp.bounded (decodeTs_of_code hst) h2 h3 h4 h5 hlen)
    exact ⟨p, w, hrun, hw⟩

/-! ## A response that is too long (R224) -/

/-- A response length over the buffer's size halts the sequencer before Read-Data is sent. -/
theorem issueTagCommand_halts {f : List Byte → Except OpError Value} {req : List Byte}
    (hs : s.peer.At Q (t.sending ++ [t.irq.1.answer t.irq.2, t.length.1.answer t.length.2]) b r c)
    (hb : ∀ x ∈ t.sending ++ [t.irq.1.answer t.irq.2, t.length.1.answer t.length.2], x.pace.bounded = true)
    (hst : decodeTs t.state.2 = .waitTransmit) (h2 : t.irq.2.getLsbD 14 = true) (hlong : 508 < rxLength t.length.2)
    (hreq : req.length ≤ 260) :
    ∃ d p w, issueTagCommand req f s = .error (.halt .oversizedRead) (s.after d p w) ∧
      sentFrames w = sentFrames s.wire ++ (tagSendFrames req ++ [frameReadRegister 0x02]) ++ [frameReadRegister 0x13] := by
  simp only [TagTurns.sending, List.cons_append, List.nil_append, List.mem_cons, List.not_mem_nil, or_false,
    forall_eq_or_imp, forall_eq] at hb
  obtain ⟨b1, b2, b3, b4, b5, b6⟩ := hb
  obtain ⟨d, p, w, hprobe, hp, hw⟩ := goes_tagProbe (p1 := t.clearMask) (p2 := t.setMask) (p3 := t.state.1) (p4 := t.send)
    (p5 := t.irq.1) hs b1 b2 b3 b4 b5 hreq hst
  obtain ⟨d', p', w', hread, -, hw'⟩ := goes_readRegister (s := s.after d p w) (a := PeerRegister.rxStatus.addr) hp b6
  refine ⟨d', p', w', ?_, hw'.trans (congrArg (· ++ [frameReadRegister 0x13]) hw)⟩
  rw [issueTagCommand_eq, bind_ok hprobe, bind_ok (a := ()) (t := s.after d p w) (by rw [require_run]; exact if_pos h2)]
  refine bind_error ?_
  unfold tagFetch
  rw [bind_ok hread]
  exact bind_error (readData_halts hlong _)

/-- Settles O54: the length read from RX-Status does not pass `ReadData`'s admission test. -/
theorem oversizedResponseIsFatal : Obligations.OversizedResponseIsFatal := by
  intro s i req t busy replies hreq hlen hi hb hrf hst h2 hlong hp
  obtain ⟨f, hx⟩ := exec_tag hreq
  obtain ⟨d, p, w, hrun, hw⟩ := issueTagCommand_halts (s := s.goto .op) (f := f) hp.at hp.bounded (decodeTs_of_code hst) h2
    hlong hlen
  refine ⟨_, (hx s).trans (runOperation_halts hi (entryFault_rf hb hrf) hrun), ?_⟩
  rw [State.takeFault_of_released rfl]
  refine ⟨rfl, rfl, rfl, rfl, rfl, rfl, hw.trans ?_⟩
  simp only [List.append_assoc]
  rfl

end Sys2Proof.Machine
end

section
/-! What each instruction leaves unchanged, whatever its outcome (R20 to R28, R40 to R49, R290, R295): read off what it may
change, with the count of valid bytes of `ReadData` and the record that `Reset` leaves. -/

namespace Sys2Proof.Machine

variable {s t u : State} {i : Instr} {may : May}

/-! ## What a frame keeps, part by part -/

theorem Frame.keepsScratch (h : Frame may s t) (hm : may.data = false) : s.KeepsScratch t :=
  ⟨h.valid hm, fun _ => by rw [h.scratch hm]⟩

theorem Frame.keepsBoot (h : Frame may s t) (hm : may.reset = false) : s.KeepsBoot t :=
  ⟨h.rst hm, h.levels hm, h.initialized hm⟩

theorem Frame.keepsRegistersBut (h : Frame may s t) {listed : List Byte}
    (hm : ∀ b : Byte, b ∉ listed → may.regs b.toNat = false) : s.KeepsRegistersBut t listed :=
  fun hq b hb => (h.within hq).regs _ (hm b hb)

theorem Frame.keepsEeprom (h : Frame may s t) (hm : may.eeprom = false) : s.KeepsEeprom t :=
  fun hq => (h.within hq).eeprom hm

theorem Frame.keepsTransmit (h : Frame may s t) (hm : may.transmit = false) : s.KeepsTransmit t :=
  fun hq => (h.within hq).tx hm

theorem Frame.keepsReceive (h : Frame may s t) (hm : may.receive = false) : s.KeepsReceive t :=
  fun hq => (h.within hq).rx hm

theorem Frame.keepsProfile (h : Frame may s t) (hm : may.profile = false) : s.KeepsProfile t :=
  fun hq => (h.within hq).rfConfig hm

theorem Frame.keepsCommand (h : Frame may s t) (hm : may.command = false) : s.KeepsCommand t :=
  fun hq => (h.within hq).rfField hm

theorem Frame.keepsFlags (h : Frame may s t) (hm : may.clears = false ∨ may.regs 2 = false) : s.KeepsFlags t :=
  fun hq => hm.elim (h.within hq).flags fun hr => FlagsKept.of_eq ((h.within hq).regs 2 hr)

theorem exec_keepsRest (h : exec i s = .next t) : s.KeepsRest t := by
  refine ⟨(exec_frame h).params, (exec_frame h).queue, ?_⟩
  rcases (exec_ending h).2.outcome with ⟨-, hf, -⟩ | ⟨hp, -, -, hf⟩
  · exact .inl hf
  · exact .inr ⟨hp, hf⟩

/-! ## The register operations and the monitor (R160 to R164, R200 to R202) -/

/-- What each register operation may change: the register of its row, or, where it writes to an unnamed address, anything the
peer holds. -/
theorem mayOf_registerOperation {a : Byte} {v : Word} {x : Instr × Byte}
    (h : x ∈ [(Instr.writeReg a v, if a = 0x03 then 0x02 else a), (.cmdWriteRegister a v, if a = 0x03 then 0x02 else a),
      (.writeRegOr a v, a), (.cmdWriteRegisterOrMask a v, a), (.writeRegAnd a v, a), (.cmdWriteRegisterAndMask a v, a),
      (.readReg a, a), (.cmdReadRegister a, a), (.getIrq, 0x02), (.clearIrq v, 0x02), (.getTs, 0x1D)]) :
    (x.1 ∈ [Instr.readReg a, .cmdReadRegister a, .getIrq, .clearIrq v, .getTs] ∧ mayOf x.1 = .register x.2) ∨
      ((x.1 = .writeReg a v ∨ x.1 = .cmdWriteRegister a v) ∧ mayOf x.1 = .write a x.2) ∨
      (x.1 ∈ [Instr.writeRegOr a v, .cmdWriteRegisterOrMask a v, .writeRegAnd a v, .cmdWriteRegisterAndMask a v] ∧
        x.2 = a ∧ mayOf x.1 = .write a a) := by
  simp only [List.mem_cons, List.not_mem_nil, or_false] at h
  rcases h with rfl | rfl | rfl | rfl | rfl | rfl | rfl | rfl | rfl | rfl | rfl
  · exact .inr (.inl ⟨.inl rfl, rfl⟩)
  · exact .inr (.inl ⟨.inr rfl, rfl⟩)
  iterate 4 exact .inr (.inr ⟨by simp, rfl, rfl⟩)
  iterate 5 exact .inl ⟨by simp, rfl⟩

theorem May.write_named {a b : Byte} (h : namedAddress a = true) :
    May.write a b = { May.register b with clears := a == addrIrqClear } := if_pos h

/-- What may change one register at most, of the peer, keeps the rest of it. -/
theorem Frame.keepsAllBut {a : Byte} {x : Bool} (h : Frame { May.register a with clears := x } s t) :
    s.KeepsRegistersBut t [a] ∧ s.KeepsEeprom t ∧ s.KeepsTransmit t ∧ s.KeepsReceive t ∧ s.KeepsProfile t ∧
      s.KeepsCommand t :=
  ⟨h.keepsRegistersBut fun _ hb => beq_eq_false_iff_ne.2 fun k => hb (List.mem_singleton.2 (BitVec.eq_of_toNat_eq k)),
    h.keepsEeprom rfl, h.keepsTransmit rfl, h.keepsReceive rfl, h.keepsProfile rfl, h.keepsCommand rfl⟩

/-- Settles O55: what each of the eleven may change is one register of the peer, and clears a flag only where it is meant to. -/
theorem frameRegisterOperations : Obligations.FrameRegisterOperations := by
  intro s t a v x hmem h
  have hframe : Frame (mayOf x.1) s t := exec_frame h
  have hrest := exec_keepsRest h
  rcases mayOf_registerOperation hmem with ⟨hread, hmay⟩ | ⟨hwrite, hmay⟩ | ⟨hmask, ha, hmay⟩
  · refine ⟨hframe.keepsScratch (by rw [hmay]; rfl), hframe.keepsBoot (by rw [hmay]; rfl), hframe.rfOn (by rw [hmay]; rfl),
      hrest, fun _ => (hmay ▸ hframe).keepsAllBut, fun _ hnot _ => ?_⟩
    have hts : x.1 = .getTs := by simp_all
    exact (hts ▸ hframe).keepsFlags (.inl rfl)
  · rw [hmay] at hframe
    refine ⟨hframe.keepsScratch (by simp), hframe.keepsBoot (by simp), hframe.rfOn (by simp), hrest, fun hn => ?_,
      fun hn _ h3 => ?_⟩
    · have hnamed : namedAddress a = true := hn.resolve_right (by rcases hwrite with h | h <;> simp [h])
      rw [May.write_named hnamed] at hframe
      exact hframe.keepsAllBut
    · rw [May.write_named hn] at hframe
      have hne : a ≠ 0x03 := fun h => hwrite.elim (h3 h).1 (h3 h).2
      exact hframe.keepsFlags (.inl (beq_eq_false_iff_ne.2 hne))
  · rw [hmay] at hframe
    refine ⟨hframe.keepsScratch (by simp), hframe.keepsBoot (by simp), hframe.rfOn (by simp), hrest, fun hn => ?_,
      fun hn _ _ => ?_⟩
    · have hnamed : namedAddress a = true := hn.resolve_right (by
        simp only [List.mem_cons, List.not_mem_nil, or_false] at hmask
        rcases hmask with h | h | h | h <;> simp [h])
      rw [May.write_named hnamed] at hframe
      rw [ha]
      exact hframe.keepsAllBut
    · rw [May.write_named hn] at hframe
      by_cases h3 : a = 0x03
      · subst h3
        exact hframe.keepsFlags (.inr rfl)
      · exact hframe.keepsFlags (.inl (beq_eq_false_iff_ne.2 h3))

/-! ## The commands of one frame (R97, R100, R101, R165, R170) -/

/-- What each of them may change: at most the one part of the peer that it is for. -/
theorem mayOf_singleCommand {a l b : Byte} {payload : List Byte}
    (h : i ∈ [Instr.readEeprom a l, .cmdReadEeprom a l, .loadRfConfig a l, .cmdLoadRfConfig a l, .cmdSendData b payload,
      .cmdRfOn, .cmdRfOff]) :
    ∃ transmit receive profile command, mayOf i = { May.nothing with
        transmit := transmit, receive := receive, profile := profile, command := command } ∧
      (i ≠ .readEeprom a l → i ≠ .cmdReadEeprom a l → receive = false) ∧
      (i ≠ .cmdSendData b payload → transmit = false) ∧
      (i ≠ .loadRfConfig a l → i ≠ .cmdLoadRfConfig a l → profile = false) ∧
      (i ≠ .cmdRfOn → i ≠ .cmdRfOff → command = false) := by
  simp only [List.mem_cons, List.not_mem_nil, or_false] at h
  rcases h with rfl | rfl | rfl | rfl | rfl | rfl | rfl
  iterate 2 exact ⟨false, true, false, false, rfl, by simp⟩
  iterate 2 exact ⟨false, false, true, false, rfl, by simp⟩
  · exact ⟨true, false, false, false, rfl, by simp⟩
  iterate 2 exact ⟨false, false, false, true, rfl, by simp⟩

/-- Settles O56: what each of the seven may change is one part of the peer that is no register. -/
theorem frameSingleCommands : Obligations.FrameSingleCommands := by
  intro s t a l b payload i hmem h
  obtain ⟨transmit, receive, profile, command, hmay, hrx, htx, hprofile, hcommand⟩ := mayOf_singleCommand hmem
  have hframe : Frame { May.nothing with transmit, receive, profile, command } s t := hmay ▸ exec_frame h
  exact ⟨hframe.keepsScratch rfl, hframe.keepsBoot rfl, hframe.rfOn rfl, exec_keepsRest h,
    hframe.keepsRegistersBut fun _ _ => rfl, hframe.keepsEeprom rfl, fun h1 h2 => hframe.keepsReceive (hrx h1 h2),
    fun h1 => hframe.keepsTransmit (htx h1), fun h1 h2 => hframe.keepsProfile (hprofile h1 h2),
    fun h1 h2 => hframe.keepsCommand (hcommand h1 h2)⟩

/-! ## SendData and ReadData (R26, R166, R167) -/

/-- The count of valid bytes when a `ReadData` of length `n` has ended, by its outcome (R26, R166). -/
def State.Counts (n : Nat) (s t : State) : Prop :=
  (∀ v, t.delivered = s.delivered ++ [.ok v] → t.scratchValid = n) ∧
    (∀ ph, t.delivered = s.delivered ++ [.err (.busyTimeout ph)] → t.scratchValid = 0) ∧
    (t.scratchValid = s.scratchValid ∨ t.scratchValid = 0 ∨ t.scratchValid = n)

theorem State.Counts.of_no_outcome {n : Nat} (hd : t.delivered = s.delivered)
    (hv : t.scratchValid = s.scratchValid ∨ t.scratchValid = 0) : s.Counts n t :=
  ⟨fun _ h => by simp [hd] at h, fun _ h => by simp [hd] at h, hv.imp id .inl⟩

theorem State.Counts.finish {n : Nat} (hd : u.delivered = s.delivered) (hv : u.scratchValid = n) (v : Value) :
    s.Counts n (u.finish v) :=
  ⟨fun _ _ => hv, fun _ h => by simp [State.finish, hd] at h, .inr (.inr hv)⟩

theorem State.Counts.stopped {n : Nat} (hd : u.delivered = s.delivered) (hv : u.scratchValid = 0) (e : Stop) :
    s.Counts n (u.stopped e) := by
  have hvalid : (u.stopped e).scratchValid = 0 := ((frame_stopped e).valid rfl).trans hv
  cases e with
  | err e => exact ⟨fun _ h => by simp [State.stopped, hd] at h, fun _ _ => hvalid, .inr (.inl hvalid)⟩
  | halt f => exact .of_no_outcome (by simp [State.stopped, hd]) (.inr hvalid)
  | stuck r => exact .of_no_outcome hd (.inr hv)

theorem fetchData_counts (n : Nat) (s : State) :
    Proc.Holds (returningBytes (fetchData n)) s (fun v u => s.Counts n (u.finish v))
      fun e u => s.Counts n (u.stopped e) := by
  have hruns : Proc.Runs False .fetch (fetchData n) s := runs_fetchData n nofun rfl rfl
  exact (hruns.and (fetchData_scratch n s)).seq' (fun e _ h => .stopped h.1.1.delivered h.2.2 e)
    fun _ _ h => holds_pure.2 (.finish h.1.1.delivered h.2.2 _)

theorem readData_counts (n : Nat) (s : State) :
    Proc.Holds (returningBytes (readData n)) s (fun v u => s.Counts n (u.finish v))
      fun e u => s.Counts n (u.stopped e) := by
  unfold readData
  split
  · exact fetchData_counts n s
  · exact .of_no_outcome (by simp [State.stopped]) (.inl ((frame_takeFault (may := .nothing) _).valid rfl))

/-- Both rows of `ReadData` (log 1). -/
theorem exec_readData_counts {n : Nat} (hi : i = .readData n ∨ i = .cmdReadData n) (h : exec i s = .next t) :
    s.Counts n t := by
  have hentry : ∀ f, s.entryFault .booted = some f → s.Counts n (s.takeFault f) := fun f _ =>
    .of_no_outcome (by simp) (.inl ((frame_takeFault (may := .nothing) f).valid rfl))
  rcases hi with rfl | rfl
  · exact runOperation_ends (g := .booted) h hentry (readData_counts n (s.goto .op))
  · exact runOperation_ends (g := .booted) h hentry (fetchData_counts n (s.goto .op))

/-- Settles O57: `SendData` may change three parts of the peer; `ReadData` the scratch buffer and its count. -/
theorem frameDataTransfers : Obligations.FrameDataTransfers := by
  intro s t payload b n
  refine ⟨fun h => ?_, fun i hmem h => ?_⟩
  · have hframe : Frame .send s t := exec_frame h
    exact ⟨hframe.keepsScratch rfl, hframe.keepsBoot rfl, hframe.rfOn rfl, exec_keepsRest h,
      hframe.keepsRegistersBut fun _ hx => by simpa [May.send, BitVec.toNat_eq] using hx, hframe.keepsEeprom rfl,
      hframe.keepsReceive rfl, hframe.keepsProfile rfl, hframe.keepsCommand rfl⟩
  · have hi : i = .readData n ∨ i = .cmdReadData n := by simpa using hmem
    have hframe : Frame .fetch s t := by
      rcases hi with rfl | rfl <;> exact exec_frame h
    obtain ⟨hok, htimeout, hvalid⟩ := exec_readData_counts hi h
    exact ⟨exec_readData_keepsFrom hi h, hok, htimeout, hvalid, hframe.keepsBoot rfl, hframe.rfOn rfl, exec_keepsRest h,
      hframe.keepsRegistersBut fun _ _ => rfl, hframe.keepsEeprom rfl, hframe.keepsTransmit rfl, hframe.keepsProfile rfl,
      hframe.keepsCommand rfl⟩

/-! ## The field, Reset, and the tag commands -/

/-- Settles O58: what the RF operations may change beside the field. -/
theorem frameRfOperations : Obligations.FrameRfOperations := by
  intro s t i hmem h
  have hframe : Frame (mayOf i) s t := exec_frame h
  have hrest := exec_keepsRest h
  simp only [List.mem_cons, List.not_mem_nil, or_false] at hmem
  rcases hmem with rfl | rfl | rfl
  iterate 2
    exact ⟨hframe.keepsScratch rfl, hframe.keepsBoot rfl, hrest, hframe.keepsEeprom rfl, hframe.keepsTransmit rfl,
      hframe.keepsReceive rfl, hframe.keepsRegistersBut fun _ hx => by simpa [mayOf, BitVec.toNat_eq] using hx,
      fun _ => hframe.keepsProfile rfl⟩
  · exact ⟨hframe.keepsScratch rfl, hframe.keepsBoot rfl, hrest, hframe.keepsEeprom rfl, hframe.keepsTransmit rfl,
      hframe.keepsReceive rfl, hframe.keepsRegistersBut fun _ hx => by simpa [mayOf, BitVec.toNat_eq] using hx,
      fun h => absurd rfl h⟩

/-- What `Reset` leaves of the record: the field dropped; and `initialized` as it was, if it ends early (R205, R312). -/
theorem resetPeer_record (s : State) :
    Proc.Holds resetPeer s (fun _ t => t.rfOn = false ∧ t.delivered = s.delivered)
      fun _ t => t.rfOn = false ∧ t.initialized = s.initialized := by
  rw [resetPeer_eq, holds_update_bind, holds_current_bind]
  refine (runs_waitIrq (G := False) (may := .register 2) (s := s.pulsed) .idle s.pulsed.params.resetPollLimit ⟨rfl, rfl⟩
    nofun (Nat.le_max_right _ _)).seq' (fun _ _ h => ⟨h.1.rfOn rfl, h.1.initialized rfl⟩) fun _ u hu => ?_
  refine (runs_clearIrqStatus (G := False) (may := .register 2) (s := u) clearAllMask ⟨rfl, rfl⟩ nofun).seq'
    (fun _ _ h => ?_) fun _ v hv => ?_
  · obtain ⟨heff, -⟩ := hu
    exact ⟨(h.1.rfOn rfl).trans (heff.rfOn rfl), (h.1.initialized rfl).trans (heff.initialized rfl)⟩
  · obtain ⟨heff, -⟩ := hu
    exact ⟨(hv.1.rfOn rfl).trans (heff.rfOn rfl), hv.1.delivered.trans heff.delivered⟩

/-- Settles O59: what `Reset` may change, the pulse of the line, and the record that it leaves. -/
theorem frameReset : Obligations.FrameReset := by
  intro s t h
  have hframe : Frame (mayOf .reset) s t := exec_frame h
  have hrecord : t.rfOn = false ∧ (t.initialized ≠ s.initialized → t.delivered = s.delivered ++ [.ok .unit]) := by
    refine runOperation_ends (g := .cold) (body := returningUnit resetPeer) h
      (R := fun t => t.rfOn = false ∧ (t.initialized ≠ s.initialized → t.delivered = s.delivered ++ [.ok .unit]))
      (fun f hf => by rw [entryFault_cold] at hf; cases hf)
      ((resetPeer_record (s.goto .op)).seq' (fun e u hu => ?_) fun _ u hu => holds_pure.2 ⟨hu.1, fun _ => ?_⟩)
    · exact ⟨((frame_stopped e).rfOn rfl).trans hu.1,
        fun hne => absurd (((frame_stopped e).initialized rfl).trans hu.2) hne⟩
    · exact congrArg (· ++ [.ok .unit]) hu.2
  exact ⟨hframe.keepsScratch rfl, exec_keepsRest h, hframe.keepsEeprom rfl, (exec_reset_pulses h).2, hrecord⟩

/-- Settles O60: every tag command may change what the sequencer may. -/
theorem frameTagCommands : Obligations.FrameTagCommands := by
  intro s t i req hreq h
  have hmay : mayOf i = .tag := by
    cases i with
    | tagInventory | tagReadSingleBlock | tagWriteSingleBlock | tagGetSystemInfo | inventory | readBlock | writeBlock
      | getSysinfo => rfl
    | _ => cases hreq
  have hframe : Frame .tag s t := hmay ▸ exec_frame h
  exact ⟨hframe.keepsBoot rfl, hframe.rfOn rfl, exec_keepsRest h,
    hframe.keepsRegistersBut fun _ hx => by simpa [May.tag, BitVec.toNat_eq, and_assoc] using hx, hframe.keepsEeprom rfl,
    hframe.keepsProfile rfl, hframe.keepsCommand rfl⟩

end Sys2Proof.Machine
end
